-- ==== Sys2Proof/Word.lean ====
section
/-! DEFINITION. The word types of the Z8000: bytes, words, long words, register numbers (rules R9 to R12, R21). -/

namespace Sys2Proof

/-- A byte, the unit of memory (R70). -/
abbrev Byte := BitVec 8

/-- A 16-bit word: a general register, a control register, a bus transfer (R21, R79). -/
abbrev Word := BitVec 16

/-- A 32-bit long word: a register pair, or two words of memory (R21, R78). -/
abbrev Long := BitVec 32

/-- A 64-bit quadruple: four registers; it is never addressed in memory (R21, R70). -/
abbrev Quad := BitVec 64

/-- A 4-bit register field; what it names depends on the operand's width (R133). -/
abbrev Reg := Fin 16

/-- A 4-bit condition code field (R150). -/
abbrev CC := Fin 16

/-- The three operand widths a mnemonic's suffix names (R200). -/
inductive Width where
  | b | w | l
  deriving DecidableEq, Repr

/-- Number of bits of an operand of this width (R200). -/
abbrev Width.bits : Width → Nat
  | .b => 8
  | .w => 16
  | .l => 32

/-- Number of bytes of an operand of this width (R200). -/
abbrev Width.bytes : Width → Nat
  | .b => 1
  | .w => 2
  | .l => 4

end Sys2Proof
end

