-- ==== Sys2Proof/Syntax.lean ====
section
/-! DEFINITION. The instruction set as syntax: one constructor for each mnemonic and kind of operation of
spec/opcode_table.json; the addressing modes of a row stand in its operand types. NOTES.md maps every row to its
constructor. -/

namespace Sys2Proof

/-- An address inside an instruction (R139, R141): one 16-bit word in nonsegmented mode; the short or the long offset
form of a segmented address in segmented mode. -/
inductive IAddr where
  | ns (a : Word)
  | short (seg : BitVec 7) (off : Byte)
  | long (seg : BitVec 7) (off : Word)
  deriving DecidableEq, Repr

/-- A memory operand by IR, DA or X (R138, R139, R140). The register is a word register, or in segmented mode a pair
for `ir`; the index register is always a word register. -/
inductive Mem where
  | ir (r : Reg)
  | da (a : IAddr)
  | x (a : IAddr) (i : Reg)
  deriving DecidableEq, Repr

/-- An operand of the modes R, IR, DA, X. -/
inductive Dst where
  | reg (r : Reg)
  | mem (m : Mem)
  deriving DecidableEq, Repr

/-- A source operand of the modes R, IM, IR, DA, X, of one width (R200). -/
inductive Src (wd : Width) where
  | reg (r : Reg)
  | imm (v : BitVec wd.bits)
  | mem (m : Mem)
  deriving DecidableEq, Repr

/-- A memory operand by BA or BX (R143, R144). -/
inductive Based where
  | ba (base : Reg) (disp : Word)
  | bx (base : Reg) (index : Reg)
  deriving DecidableEq, Repr

/-- The control registers LDCTL names (R48, R476). -/
inductive CtlReg where
  | fcw | refresh | psapseg | psapoff | nspseg | nspoff
  deriving DecidableEq, Repr

/-- The instructions. `d` is a destination, `s` a source, `r` a counter; each constructor cites the rule that gives its
meaning and its encoding. -/
inductive Instr where
  -- Load and exchange (spec/40)
  /-- CLR: R201. -/
  | clr (d : Dst)
  /-- CLRB: R201. -/
  | clrb (d : Dst)
  /-- EX: R202. -/
  | ex (d : Reg) (s : Dst)
  /-- EXB: R202. -/
  | exb (d : Reg) (s : Dst)
  /-- LD: R205; register from R, IM, IR, DA, X. -/
  | ld (d : Reg) (s : Src .w)
  /-- LDB: R205; register from R, IM, IR, DA, X. -/
  | ldb (d : Reg) (s : Src .b)
  /-- LDL: R205; register from R, IM, IR, DA, X. -/
  | ldl (d : Reg) (s : Src .l)
  /-- LD: R206; register from BA, BX. -/
  | ldBased (d : Reg) (s : Based)
  /-- LDB: R206; register from BA, BX. -/
  | ldbBased (d : Reg) (s : Based)
  /-- LDL: R206; register from BA, BX. -/
  | ldlBased (d : Reg) (s : Based)
  /-- LD: R207; memory (IR, DA, X) from register. -/
  | ldStore (d : Mem) (s : Reg)
  /-- LDB: R207; memory (IR, DA, X) from register. -/
  | ldbStore (d : Mem) (s : Reg)
  /-- LDL: R207; memory (IR, DA, X) from register. -/
  | ldlStore (d : Mem) (s : Reg)
  /-- LD: R208; memory (BA, BX) from register. -/
  | ldStoreBased (d : Based) (s : Reg)
  /-- LDB: R208; memory (BA, BX) from register. -/
  | ldbStoreBased (d : Based) (s : Reg)
  /-- LDL: R208; memory (BA, BX) from register. -/
  | ldlStoreBased (d : Based) (s : Reg)
  /-- LD: R209; memory from immediate. -/
  | ldImm (d : Mem) (v : Word)
  /-- LDB: R209; memory from immediate. -/
  | ldbImm (d : Mem) (v : Byte)
  /-- LDB: R210; compact form. -/
  | ldbShort (d : Reg) (v : Byte)
  /-- LDA: R215; DA, X. -/
  | lda (d : Reg) (s : Mem)
  /-- LDA: R215; BA, BX. -/
  | ldaBased (d : Reg) (s : Based)
  /-- LDAR: R216. -/
  | ldar (d : Reg) (disp : Word)
  /-- LDK: R218. -/
  | ldk (d : Reg) (n : Fin 16)
  /-- LDM: R220; registers from memory, num = n + 1. -/
  | ldmLoad (d : Reg) (s : Mem) (n : Fin 16)
  /-- LDM: R220; memory from registers, num = n + 1. -/
  | ldmStore (d : Mem) (s : Reg) (n : Fin 16)
  /-- LDR: R224; register from program memory. -/
  | ldr (d : Reg) (disp : Word)
  /-- LDRB: R224; register from program memory. -/
  | ldrb (d : Reg) (disp : Word)
  /-- LDRL: R224; register from program memory. -/
  | ldrl (d : Reg) (disp : Word)
  /-- LDR: R224; program memory from register. -/
  | ldrStore (disp : Word) (s : Reg)
  /-- LDRB: R224; program memory from register. -/
  | ldrbStore (disp : Word) (s : Reg)
  /-- LDRL: R224; program memory from register. -/
  | ldrlStore (disp : Word) (s : Reg)
  /-- POP: R228. -/
  | pop (d : Dst) (sp : Reg)
  /-- POPL: R228. -/
  | popl (d : Dst) (sp : Reg)
  /-- PUSH: R230. -/
  | push (sp : Reg) (s : Dst)
  /-- PUSHL: R230. -/
  | pushl (sp : Reg) (s : Dst)
  /-- PUSH: R231. -/
  | pushImm (sp : Reg) (v : Word)
  -- Arithmetic (spec/41)
  /-- ADC: R241. -/
  | adc (d : Reg) (s : Reg)
  /-- ADCB: R241. -/
  | adcb (d : Reg) (s : Reg)
  /-- ADD: R242. -/
  | add (d : Reg) (s : Src .w)
  /-- ADDB: R242. -/
  | addb (d : Reg) (s : Src .b)
  /-- ADDL: R242. -/
  | addl (d : Reg) (s : Src .l)
  /-- CP: R243. -/
  | cp (d : Reg) (s : Src .w)
  /-- CPB: R243. -/
  | cpb (d : Reg) (s : Src .b)
  /-- CPL: R243. -/
  | cpl (d : Reg) (s : Src .l)
  /-- CP: R244; memory with immediate. -/
  | cpImm (d : Mem) (v : Word)
  /-- CPB: R244; memory with immediate. -/
  | cpbImm (d : Mem) (v : Byte)
  /-- DAB: R245. -/
  | dab (d : Reg)
  /-- DEC: R246; subtracts n + 1. -/
  | dec (d : Dst) (n : Fin 16)
  /-- DECB: R246; subtracts n + 1. -/
  | decb (d : Dst) (n : Fin 16)
  /-- INC: R247; adds n + 1. -/
  | inc (d : Dst) (n : Fin 16)
  /-- INCB: R247; adds n + 1. -/
  | incb (d : Dst) (n : Fin 16)
  /-- EXTSB: R248; word register. -/
  | extsb (d : Reg)
  /-- EXTS: R248; register pair. -/
  | exts (d : Reg)
  /-- EXTSL: R248; register quadruple. -/
  | extsl (d : Reg)
  /-- NEG: R250. -/
  | neg (d : Dst)
  /-- NEGB: R250. -/
  | negb (d : Dst)
  /-- MULT: R252. -/
  | mult (d : Reg) (s : Src .w)
  /-- MULTL: R252. -/
  | multl (d : Reg) (s : Src .l)
  /-- DIV: R253. -/
  | div (d : Reg) (s : Src .w)
  /-- DIVL: R253. -/
  | divl (d : Reg) (s : Src .l)
  /-- SBC: R255. -/
  | sbc (d : Reg) (s : Reg)
  /-- SBCB: R255. -/
  | sbcb (d : Reg) (s : Reg)
  /-- SUB: R256. -/
  | sub (d : Reg) (s : Src .w)
  /-- SUBB: R256. -/
  | subb (d : Reg) (s : Src .b)
  /-- SUBL: R256. -/
  | subl (d : Reg) (s : Src .l)
  -- Logical (spec/42)
  /-- AND: R281. -/
  | and (d : Reg) (s : Src .w)
  /-- ANDB: R281. -/
  | andb (d : Reg) (s : Src .b)
  /-- COM: R282. -/
  | com (d : Dst)
  /-- COMB: R282. -/
  | comb (d : Dst)
  /-- OR: R283. -/
  | or (d : Reg) (s : Src .w)
  /-- ORB: R283. -/
  | orb (d : Reg) (s : Src .b)
  /-- XOR: R284. -/
  | xor (d : Reg) (s : Src .w)
  /-- XORB: R284. -/
  | xorb (d : Reg) (s : Src .b)
  /-- TEST: R285. -/
  | test (d : Dst)
  /-- TESTB: R285. -/
  | testb (d : Dst)
  /-- TESTL: R285. -/
  | testl (d : Dst)
  /-- TCC: R286. -/
  | tcc (cc : CC) (d : Reg)
  /-- TCCB: R286. -/
  | tccb (cc : CC) (d : Reg)
  -- Program control (spec/43)
  /-- CALL: R301. -/
  | call (t : Mem)
  /-- CALR: R302. -/
  | calr (disp : BitVec 12)
  /-- DJNZ: R303; word counter. -/
  | djnz (r : Reg) (disp : BitVec 7)
  /-- DBJNZ: R303; byte counter. -/
  | dbjnz (r : Reg) (disp : BitVec 7)
  /-- JP: R304. -/
  | jp (cc : CC) (t : Mem)
  /-- JR: R305. -/
  | jr (cc : CC) (disp : BitVec 8)
  /-- RET: R306. -/
  | ret (cc : CC)
  /-- IRET: R307, R308. -/
  | iret
  /-- SC: R309. -/
  | sc (n : Byte)
  -- Bit manipulation (spec/44)
  /-- BIT: R321; static: bit number k. -/
  | bit (d : Dst) (k : Fin 16)
  /-- BIT: R322; dynamic: bit number in R[s]. -/
  | bitDyn (d : Reg) (s : Reg)
  /-- BITB: R321; static: bit number k. -/
  | bitb (d : Dst) (k : Fin 16)
  /-- BITB: R322; dynamic: bit number in R[s]. -/
  | bitbDyn (d : Reg) (s : Reg)
  /-- RES: R323; static: bit number k. -/
  | res (d : Dst) (k : Fin 16)
  /-- RES: R323; dynamic: bit number in R[s]. -/
  | resDyn (d : Reg) (s : Reg)
  /-- RESB: R323; static: bit number k. -/
  | resb (d : Dst) (k : Fin 16)
  /-- RESB: R323; dynamic: bit number in R[s]. -/
  | resbDyn (d : Reg) (s : Reg)
  /-- SET: R324; static: bit number k. -/
  | set (d : Dst) (k : Fin 16)
  /-- SET: R324; dynamic: bit number in R[s]. -/
  | setDyn (d : Reg) (s : Reg)
  /-- SETB: R324; static: bit number k. -/
  | setb (d : Dst) (k : Fin 16)
  /-- SETB: R324; dynamic: bit number in R[s]. -/
  | setbDyn (d : Reg) (s : Reg)
  /-- TSET: R326. -/
  | tset (d : Dst)
  /-- TSETB: R326. -/
  | tsetb (d : Dst)
  -- Rotate and shift (spec/45)
  /-- RL: R341; by 2 if twice, else by 1. -/
  | rl (d : Reg) (twice : Bool)
  /-- RLB: R341; by 2 if twice, else by 1. -/
  | rlb (d : Reg) (twice : Bool)
  /-- RLC: R342; by 2 if twice, else by 1. -/
  | rlc (d : Reg) (twice : Bool)
  /-- RLCB: R342; by 2 if twice, else by 1. -/
  | rlcb (d : Reg) (twice : Bool)
  /-- RR: R343; by 2 if twice, else by 1. -/
  | rr (d : Reg) (twice : Bool)
  /-- RRB: R343; by 2 if twice, else by 1. -/
  | rrb (d : Reg) (twice : Bool)
  /-- RRC: R344; by 2 if twice, else by 1. -/
  | rrc (d : Reg) (twice : Bool)
  /-- RRCB: R344; by 2 if twice, else by 1. -/
  | rrcb (d : Reg) (twice : Bool)
  /-- RLDB: R349. -/
  | rldb (link : Reg) (s : Reg)
  /-- RRDB: R349. -/
  | rrdb (link : Reg) (s : Reg)
  /-- SLA: R351; static, by n places. -/
  | sla (d : Reg) (n : Nat)
  /-- SLAB: R351; static, by n places. -/
  | slab (d : Reg) (n : Nat)
  /-- SLAL: R351; static, by n places. -/
  | slal (d : Reg) (n : Nat)
  /-- SLL: R352; static, by n places. -/
  | sll (d : Reg) (n : Nat)
  /-- SLLB: R352; static, by n places. -/
  | sllb (d : Reg) (n : Nat)
  /-- SLLL: R352; static, by n places. -/
  | slll (d : Reg) (n : Nat)
  /-- SRA: R353; static, by n places. -/
  | sra (d : Reg) (n : Nat)
  /-- SRAB: R353; static, by n places. -/
  | srab (d : Reg) (n : Nat)
  /-- SRAL: R353; static, by n places. -/
  | sral (d : Reg) (n : Nat)
  /-- SRL: R354; static, by n places. -/
  | srl (d : Reg) (n : Nat)
  /-- SRLB: R354; static, by n places. -/
  | srlb (d : Reg) (n : Nat)
  /-- SRLL: R354; static, by n places. -/
  | srll (d : Reg) (n : Nat)
  /-- SDA: R355; count in R[s]. -/
  | sda (d : Reg) (s : Reg)
  /-- SDAB: R355; count in R[s]. -/
  | sdab (d : Reg) (s : Reg)
  /-- SDAL: R355; count in R[s]. -/
  | sdal (d : Reg) (s : Reg)
  /-- SDL: R356; count in R[s]. -/
  | sdl (d : Reg) (s : Reg)
  /-- SDLB: R356; count in R[s]. -/
  | sdlb (d : Reg) (s : Reg)
  /-- SDLL: R356; count in R[s]. -/
  | sdll (d : Reg) (s : Reg)
  -- Block transfer and string manipulation (spec/46)
  /-- CPI: R377; register d against @s, counter r. -/
  | cpi (d : Reg) (s : Reg) (r : Reg) (cc : CC)
  /-- CPIB: R377; register d against @s, counter r. -/
  | cpib (d : Reg) (s : Reg) (r : Reg) (cc : CC)
  /-- CPIR: R378; register d against @s, counter r. -/
  | cpir (d : Reg) (s : Reg) (r : Reg) (cc : CC)
  /-- CPIRB: R378; register d against @s, counter r. -/
  | cpirb (d : Reg) (s : Reg) (r : Reg) (cc : CC)
  /-- CPD: R375; register d against @s, counter r. -/
  | cpd (d : Reg) (s : Reg) (r : Reg) (cc : CC)
  /-- CPDB: R375; register d against @s, counter r. -/
  | cpdb (d : Reg) (s : Reg) (r : Reg) (cc : CC)
  /-- CPDR: R376; register d against @s, counter r. -/
  | cpdr (d : Reg) (s : Reg) (r : Reg) (cc : CC)
  /-- CPDRB: R376; register d against @s, counter r. -/
  | cpdrb (d : Reg) (s : Reg) (r : Reg) (cc : CC)
  /-- CPSI: R381; @d against @s, counter r. -/
  | cpsi (d : Reg) (s : Reg) (r : Reg) (cc : CC)
  /-- CPSIB: R381; @d against @s, counter r. -/
  | cpsib (d : Reg) (s : Reg) (r : Reg) (cc : CC)
  /-- CPSIR: R382; @d against @s, counter r. -/
  | cpsir (d : Reg) (s : Reg) (r : Reg) (cc : CC)
  /-- CPSIRB: R382; @d against @s, counter r. -/
  | cpsirb (d : Reg) (s : Reg) (r : Reg) (cc : CC)
  /-- CPSD: R379; @d against @s, counter r. -/
  | cpsd (d : Reg) (s : Reg) (r : Reg) (cc : CC)
  /-- CPSDB: R379; @d against @s, counter r. -/
  | cpsdb (d : Reg) (s : Reg) (r : Reg) (cc : CC)
  /-- CPSDR: R380; @d against @s, counter r. -/
  | cpsdr (d : Reg) (s : Reg) (r : Reg) (cc : CC)
  /-- CPSDRB: R380; @d against @s, counter r. -/
  | cpsdrb (d : Reg) (s : Reg) (r : Reg) (cc : CC)
  /-- LDI: R387; @d from @s, counter r. -/
  | ldi (d : Reg) (s : Reg) (r : Reg)
  /-- LDIB: R387; @d from @s, counter r. -/
  | ldib (d : Reg) (s : Reg) (r : Reg)
  /-- LDIR: R388; @d from @s, counter r. -/
  | ldir (d : Reg) (s : Reg) (r : Reg)
  /-- LDIRB: R388; @d from @s, counter r. -/
  | ldirb (d : Reg) (s : Reg) (r : Reg)
  /-- LDD: R385; @d from @s, counter r. -/
  | ldd (d : Reg) (s : Reg) (r : Reg)
  /-- LDDB: R385; @d from @s, counter r. -/
  | lddb (d : Reg) (s : Reg) (r : Reg)
  /-- LDDR: R386; @d from @s, counter r. -/
  | lddr (d : Reg) (s : Reg) (r : Reg)
  /-- LDDRB: R386; @d from @s, counter r. -/
  | lddrb (d : Reg) (s : Reg) (r : Reg)
  /-- TRIB: R393; string pointer d, table pointer s, counter r. -/
  | trib (d : Reg) (s : Reg) (r : Reg)
  /-- TRIRB: R394; string pointer d, table pointer s, counter r. -/
  | trirb (d : Reg) (s : Reg) (r : Reg)
  /-- TRDB: R391; string pointer d, table pointer s, counter r. -/
  | trdb (d : Reg) (s : Reg) (r : Reg)
  /-- TRDRB: R392; string pointer d, table pointer s, counter r. -/
  | trdrb (d : Reg) (s : Reg) (r : Reg)
  /-- TRTIB: R397; string pointer d, table pointer s, counter r. -/
  | trtib (d : Reg) (s : Reg) (r : Reg)
  /-- TRTIRB: R398; string pointer d, table pointer s, counter r. -/
  | trtirb (d : Reg) (s : Reg) (r : Reg)
  /-- TRTDB: R395; string pointer d, table pointer s, counter r. -/
  | trtdb (d : Reg) (s : Reg) (r : Reg)
  /-- TRTDRB: R396; string pointer d, table pointer s, counter r. -/
  | trtdrb (d : Reg) (s : Reg) (r : Reg)
  -- Input/output (spec/47)
  /-- IN: R421; port in R[s]. -/
  | inIr (d : Reg) (s : Reg)
  /-- IN: R421; direct port. -/
  | inDa (d : Reg) (port : Word)
  /-- INB: R421; port in R[s]. -/
  | inbIr (d : Reg) (s : Reg)
  /-- INB: R421; direct port. -/
  | inbDa (d : Reg) (port : Word)
  /-- OUT: R423; port in R[d]. -/
  | outIr (d : Reg) (s : Reg)
  /-- OUT: R423; direct port. -/
  | outDa (port : Word) (s : Reg)
  /-- OUTB: R423; port in R[d]. -/
  | outbIr (d : Reg) (s : Reg)
  /-- OUTB: R423; direct port. -/
  | outbDa (port : Word) (s : Reg)
  /-- SIN: R422. -/
  | sin (d : Reg) (port : Word)
  /-- SINB: R422. -/
  | sinb (d : Reg) (port : Word)
  /-- SOUT: R424. -/
  | sout (port : Word) (s : Reg)
  /-- SOUTB: R424. -/
  | soutb (port : Word) (s : Reg)
  /-- INI: R430; memory pointer d, port in R[s], counter r. -/
  | ini (d : Reg) (s : Reg) (r : Reg)
  /-- INIB: R430; memory pointer d, port in R[s], counter r. -/
  | inib (d : Reg) (s : Reg) (r : Reg)
  /-- INIR: R431; memory pointer d, port in R[s], counter r. -/
  | inir (d : Reg) (s : Reg) (r : Reg)
  /-- INIRB: R431; memory pointer d, port in R[s], counter r. -/
  | inirb (d : Reg) (s : Reg) (r : Reg)
  /-- IND: R432; memory pointer d, port in R[s], counter r. -/
  | ind (d : Reg) (s : Reg) (r : Reg)
  /-- INDB: R432; memory pointer d, port in R[s], counter r. -/
  | indb (d : Reg) (s : Reg) (r : Reg)
  /-- INDR: R433; memory pointer d, port in R[s], counter r. -/
  | indr (d : Reg) (s : Reg) (r : Reg)
  /-- INDRB: R433; memory pointer d, port in R[s], counter r. -/
  | indrb (d : Reg) (s : Reg) (r : Reg)
  /-- OUTI: R440; port in R[d], memory pointer s, counter r. -/
  | outi (d : Reg) (s : Reg) (r : Reg)
  /-- OUTIB: R440; port in R[d], memory pointer s, counter r. -/
  | outib (d : Reg) (s : Reg) (r : Reg)
  /-- OTIR: R441; port in R[d], memory pointer s, counter r. -/
  | otir (d : Reg) (s : Reg) (r : Reg)
  /-- OTIRB: R441; port in R[d], memory pointer s, counter r. -/
  | otirb (d : Reg) (s : Reg) (r : Reg)
  /-- OUTD: R442; port in R[d], memory pointer s, counter r. -/
  | outd (d : Reg) (s : Reg) (r : Reg)
  /-- OUTDB: R442; port in R[d], memory pointer s, counter r. -/
  | outdb (d : Reg) (s : Reg) (r : Reg)
  /-- OTDR: R443; port in R[d], memory pointer s, counter r. -/
  | otdr (d : Reg) (s : Reg) (r : Reg)
  /-- OTDRB: R443; port in R[d], memory pointer s, counter r. -/
  | otdrb (d : Reg) (s : Reg) (r : Reg)
  /-- SINI: R430; memory pointer d, port in R[s], counter r. -/
  | sini (d : Reg) (s : Reg) (r : Reg)
  /-- SINIB: R430; memory pointer d, port in R[s], counter r. -/
  | sinib (d : Reg) (s : Reg) (r : Reg)
  /-- SINIR: R431; memory pointer d, port in R[s], counter r. -/
  | sinir (d : Reg) (s : Reg) (r : Reg)
  /-- SINIRB: R431; memory pointer d, port in R[s], counter r. -/
  | sinirb (d : Reg) (s : Reg) (r : Reg)
  /-- SIND: R432; memory pointer d, port in R[s], counter r. -/
  | sind (d : Reg) (s : Reg) (r : Reg)
  /-- SINDB: R432; memory pointer d, port in R[s], counter r. -/
  | sindb (d : Reg) (s : Reg) (r : Reg)
  /-- SINDR: R433; memory pointer d, port in R[s], counter r. -/
  | sindr (d : Reg) (s : Reg) (r : Reg)
  /-- SINDRB: R433; memory pointer d, port in R[s], counter r. -/
  | sindrb (d : Reg) (s : Reg) (r : Reg)
  /-- SOUTI: R440; port in R[d], memory pointer s, counter r. -/
  | souti (d : Reg) (s : Reg) (r : Reg)
  /-- SOUTIB: R440; port in R[d], memory pointer s, counter r. -/
  | soutib (d : Reg) (s : Reg) (r : Reg)
  /-- SOTIR: R441; port in R[d], memory pointer s, counter r. -/
  | sotir (d : Reg) (s : Reg) (r : Reg)
  /-- SOTIRB: R441; port in R[d], memory pointer s, counter r. -/
  | sotirb (d : Reg) (s : Reg) (r : Reg)
  /-- SOUTD: R442; port in R[d], memory pointer s, counter r. -/
  | soutd (d : Reg) (s : Reg) (r : Reg)
  /-- SOUTDB: R442; port in R[d], memory pointer s, counter r. -/
  | soutdb (d : Reg) (s : Reg) (r : Reg)
  /-- SOTDR: R443; port in R[d], memory pointer s, counter r. -/
  | sotdr (d : Reg) (s : Reg) (r : Reg)
  /-- SOTDRB: R443; port in R[d], memory pointer s, counter r. -/
  | sotdrb (d : Reg) (s : Reg) (r : Reg)
  -- CPU control (spec/48)
  /-- COMFLG: R473; the flags named. -/
  | comflg (c : Bool) (z : Bool) (s : Bool) (p : Bool)
  /-- RESFLG: R484; the flags named. -/
  | resflg (c : Bool) (z : Bool) (s : Bool) (p : Bool)
  /-- SETFLG: R485; the flags named. -/
  | setflg (c : Bool) (z : Bool) (s : Bool) (p : Bool)
  /-- DI: R472; the interrupts named (instruction bit 0). -/
  | di (vi : Bool) (nvi : Bool)
  /-- EI: R471; the interrupts named (instruction bit 0). -/
  | ei (vi : Bool) (nvi : Bool)
  /-- HALT: R474. -/
  | halt
  /-- LDCTL: R476; control register from register. -/
  | ldctlWrite (c : CtlReg) (s : Reg)
  /-- LDCTL: R476; register from control register. -/
  | ldctlRead (d : Reg) (c : CtlReg)
  /-- LDCTLB: R477; FLAGS from byte register. -/
  | ldctlbWrite (s : Reg)
  /-- LDCTLB: R477; byte register from FLAGS. -/
  | ldctlbRead (d : Reg)
  /-- LDPS: R478. -/
  | ldps (s : Mem)
  /-- MBIT: R480. -/
  | mbit
  /-- MREQ: R481. -/
  | mreq (d : Reg)
  /-- MRES: R482. -/
  | mres
  /-- MSET: R483. -/
  | mset
  /-- NOP: R479. -/
  | nop
  -- Extended instructions (spec/49)
  /-- EPU_LDM_FROM: R502; memory from EPU. -/
  | epuLdmFrom (d : Mem) (ii : Fin 4) (w2 : Word)
  /-- EPU_LDM_TO: R503; EPU from memory. -/
  | epuLdmTo (s : Mem) (ii : Fin 4) (w2 : Word)
  /-- EPU_LDR_FROM: R504; registers from EPU. -/
  | epuLdrFrom (x : Fin 8) (ii : Fin 4) (w2 : Word)
  /-- EPU_LDR_TO: R505; EPU from registers. -/
  | epuLdrTo (x : Fin 8) (ii : Fin 4) (w2 : Word)
  /-- EPU_LDF_FROM: R507; flags from EPU. -/
  | epuLdfFrom (x : Fin 16) (ii : Fin 4) (w2 : Word)
  /-- EPU_LDF_TO: R508; EPU from flags. -/
  | epuLdfTo (x : Fin 16) (ii : Fin 4) (w2 : Word)
  /-- EPU_OP: R509; internal EPU operation. -/
  | epuOp (x : Fin 16) (ii : Fin 4) (w2 : Word)
  deriving DecidableEq, Repr

end Sys2Proof
end

