-- ==== Sys2Proof/WellFormed.lean ====
section
/-! DEFINITION. Which instructions the sources define: register numbers that fit the operand's width (U6), no register 0
as an address (U5), counts and bit numbers in range (U20, U23), registers that must be separate (U15, U22, U25), and
addresses in the form of the mode of operation (R141). Everything else is refused by the decoder. -/

namespace Sys2Proof

/-- A register field that names a pair (R133, U6). -/
def Reg.isPair (r : Reg) : Bool := r.val % 2 == 0

/-- A register field that names a quadruple (R133, U6). -/
def Reg.isQuad (r : Reg) : Bool := r.val % 4 == 0

/-- The word register that holds a byte register (R21). -/
def Reg.wordOfByte (r : Reg) : Reg := if r.val < 8 then r else ⟨r.val - 8, by omega⟩

/-- An address register: never 0 (R134, U5), and a pair in segmented mode (R82, U6). -/
def Reg.isPtr (seg : Bool) (r : Reg) : Bool := r.val != 0 && (!seg || r.isPair)

/-- The word registers an address register covers (R82). -/
def ptrRegs (seg : Bool) (p : Reg) : List Reg := if seg then [p, p + 1] else [p]

/-- Two groups of registers have no member in common (R370). -/
def separate (xs ys : List Reg) : Bool := xs.all fun x => ys.all fun y => x != y

/-- The address has the form of the mode of operation (R141). -/
def IAddr.wf (seg : Bool) : IAddr → Bool
  | .ns _ => !seg
  | .short _ _ => seg
  | .long _ _ => seg

/-- A well-formed IR, DA or X operand (R138 to R140). -/
def Mem.wf (seg : Bool) : Mem → Bool
  | .ir r => r.isPtr seg
  | .da a => a.wf seg
  | .x a i => a.wf seg && i.val != 0

/-- A DA or X operand: LDA has no IR form (R215). -/
def Mem.isDirect : Mem → Bool
  | .ir _ => false
  | .da _ => true
  | .x _ _ => true

/-- A well-formed R, IR, DA or X operand of this width. -/
def Dst.wf (seg : Bool) (wd : Width) : Dst → Bool
  | .reg r => wd != .l || r.isPair
  | .mem m => m.wf seg

/-- A well-formed R, IM, IR, DA or X operand of this width. -/
def Src.wf (seg : Bool) {wd : Width} : Src wd → Bool
  | .reg r => wd != .l || r.isPair
  | .imm _ => true
  | .mem m => m.wf seg

/-- A well-formed BA or BX operand (R143, R144). -/
def Based.wf (seg : Bool) : Based → Bool
  | .ba base _ => base.isPtr seg
  | .bx base index => base.isPtr seg && index.val != 0

/-- The destination of an address load: a pair in segmented mode (R215, R216). -/
def Reg.isAddrDst (seg : Bool) (r : Reg) : Bool := !seg || r.isPair

/-- POPL and PUSHL name no register both as the stack pointer and in the other operand (R228, R230, U15). A segmented
form indexed by the offset half R(sp+1) of the pointer pair names no register twice: it is not refused, and its operation
line decides (DESIGN CHOICE, log 27). -/
def longStackSeparate (seg : Bool) (sp : Reg) : Dst → Bool
  | .reg r => separate (ptrRegs seg sp) [r, r + 1]
  | .mem (.ir r) => r != sp
  | .mem (.da _) => true
  | .mem (.x _ i) => i != sp

/-- Operands of the block compares against a register: the pointer, the data register and the counter are separate
(R370, U25). -/
def wfCompareReg (seg : Bool) (data s r : Reg) : Bool :=
  s.isPtr seg && separate (ptrRegs seg s) [data, r] && data != r

/-- Operands of the two-pointer block instructions (R370, U25). -/
def wfTwoPtr (seg : Bool) (d s r : Reg) : Bool :=
  d.isPtr seg && s.isPtr seg && separate (ptrRegs seg d) (r :: ptrRegs seg s) && separate (ptrRegs seg s) [r]

/-- Operands of the translate forms: R1 holds RH1 and is none of them (R390, U25). -/
def wfTranslate (seg : Bool) (d s r : Reg) : Bool :=
  wfTwoPtr seg d s r && separate [1] (r :: ptrRegs seg d) && separate [1] (ptrRegs seg s)

/-- Operands of the block I/O forms: a port register, a memory pointer and a counter (R420, R428, U25). -/
def wfBlockIo (seg : Bool) (port ptr r : Reg) : Bool :=
  port.val != 0 && ptr.isPtr seg && separate (ptrRegs seg ptr) [port, r] && port != r

/-- A left shift count (R350, U23). -/
def leftCount (wd : Width) (n : Nat) : Bool := n ≤ wd.bits

/-- A right shift count: zero has no right-shift encoding (R350). -/
def rightCount (wd : Width) (n : Nat) : Bool := 1 ≤ n && n ≤ wd.bits

/-- Is this instruction one that the sources define, in segmented (`seg`) or nonsegmented mode? -/
def Instr.wf (seg : Bool) : Instr → Bool
  | .clr d => d.wf seg .w
  | .clrb d => d.wf seg .b
  | .ex _ s => s.wf seg .w
  | .exb _ s => s.wf seg .b
  | .ld _ s => s.wf seg
  | .ldb _ s => s.wf seg
  | .ldl d s => d.isPair && s.wf seg
  | .ldBased _ s => s.wf seg
  | .ldbBased _ s => s.wf seg
  | .ldlBased d s => d.isPair && s.wf seg
  | .ldStore d _ => d.wf seg
  | .ldbStore d _ => d.wf seg
  | .ldlStore d s => d.wf seg && s.isPair
  | .ldStoreBased d _ => d.wf seg
  | .ldbStoreBased d _ => d.wf seg
  | .ldlStoreBased d s => d.wf seg && s.isPair
  | .ldImm d _ => d.wf seg
  | .ldbImm d _ => d.wf seg
  | .ldbShort _ _ => true
  | .lda d s => d.isAddrDst seg && s.wf seg && s.isDirect
  | .ldaBased d s => d.isAddrDst seg && s.wf seg
  | .ldar d _ => d.isAddrDst seg
  | .ldk _ _ => true
  | .ldmLoad _ s _ => s.wf seg
  | .ldmStore d _ _ => d.wf seg
  | .ldr _ _ => true
  | .ldrb _ _ => true
  | .ldrl d _ => d.isPair
  | .ldrStore _ _ => true
  | .ldrbStore _ _ => true
  | .ldrlStore _ s => s.isPair
  | .pop d sp => d.wf seg .w && sp.isPtr seg
  | .popl d sp => d.wf seg .l && sp.isPtr seg && longStackSeparate seg sp d
  | .push sp s => s.wf seg .w && sp.isPtr seg
  | .pushl sp s => s.wf seg .l && sp.isPtr seg && longStackSeparate seg sp s
  | .pushImm sp _ => sp.isPtr seg
  | .adc _ _ => true
  | .adcb _ _ => true
  | .add _ s => s.wf seg
  | .addb _ s => s.wf seg
  | .addl d s => d.isPair && s.wf seg
  | .cp _ s => s.wf seg
  | .cpb _ s => s.wf seg
  | .cpl d s => d.isPair && s.wf seg
  | .cpImm d _ => d.wf seg
  | .cpbImm d _ => d.wf seg
  | .dab _ => true
  | .dec d _ => d.wf seg .w
  | .decb d _ => d.wf seg .b
  | .inc d _ => d.wf seg .w
  | .incb d _ => d.wf seg .b
  | .extsb _ => true
  | .exts d => d.isPair
  | .extsl d => d.isQuad
  | .neg d => d.wf seg .w
  | .negb d => d.wf seg .b
  | .mult d s => d.isPair && s.wf seg
  | .multl d s => d.isQuad && s.wf seg
  | .div d s => d.isPair && s.wf seg
  | .divl d s => d.isQuad && s.wf seg
  | .sbc _ _ => true
  | .sbcb _ _ => true
  | .sub _ s => s.wf seg
  | .subb _ s => s.wf seg
  | .subl d s => d.isPair && s.wf seg
  | .and _ s => s.wf seg
  | .andb _ s => s.wf seg
  | .com d => d.wf seg .w
  | .comb d => d.wf seg .b
  | .or _ s => s.wf seg
  | .orb _ s => s.wf seg
  | .xor _ s => s.wf seg
  | .xorb _ s => s.wf seg
  | .test d => d.wf seg .w
  | .testb d => d.wf seg .b
  | .testl d => d.wf seg .l
  | .tcc _ _ => true
  | .tccb _ _ => true
  | .call t => t.wf seg
  | .calr _ => true
  | .djnz _ _ => true
  | .dbjnz _ _ => true
  | .jp _ t => t.wf seg
  | .jr _ _ => true
  | .ret _ => true
  | .iret => true
  | .sc _ => true
  | .bit d _ => d.wf seg .w
  | .bitDyn _ _ => true
  | .bitb d k => d.wf seg .b && k.val < 8
  | .bitbDyn _ s => s.val < 8
  | .res d _ => d.wf seg .w
  | .resDyn _ _ => true
  | .resb d k => d.wf seg .b && k.val < 8
  | .resbDyn _ s => s.val < 8
  | .set d _ => d.wf seg .w
  | .setDyn _ _ => true
  | .setb d k => d.wf seg .b && k.val < 8
  | .setbDyn _ s => s.val < 8
  | .tset d => d.wf seg .w
  | .tsetb d => d.wf seg .b
  | .rl _ _ => true
  | .rlb _ _ => true
  | .rlc _ _ => true
  | .rlcb _ _ => true
  | .rr _ _ => true
  | .rrb _ _ => true
  | .rrc _ _ => true
  | .rrcb _ _ => true
  | .rldb link s => link != s
  | .rrdb link s => link != s
  | .sla _ n => leftCount .w n
  | .slab _ n => leftCount .b n
  | .slal d n => leftCount .l n && d.isPair
  | .sll _ n => leftCount .w n
  | .sllb _ n => leftCount .b n
  | .slll d n => leftCount .l n && d.isPair
  | .sra _ n => rightCount .w n
  | .srab _ n => rightCount .b n
  | .sral d n => rightCount .l n && d.isPair
  | .srl _ n => rightCount .w n
  | .srlb _ n => rightCount .b n
  | .srll d n => rightCount .l n && d.isPair
  | .sda _ _ => true
  | .sdab _ _ => true
  | .sdal d _ => d.isPair
  | .sdl _ _ => true
  | .sdlb _ _ => true
  | .sdll d _ => d.isPair
  | .cpi d s r _ => wfCompareReg seg d s r
  | .cpib d s r _ => wfCompareReg seg d.wordOfByte s r
  | .cpir d s r _ => wfCompareReg seg d s r
  | .cpirb d s r _ => wfCompareReg seg d.wordOfByte s r
  | .cpd d s r _ => wfCompareReg seg d s r
  | .cpdb d s r _ => wfCompareReg seg d.wordOfByte s r
  | .cpdr d s r _ => wfCompareReg seg d s r
  | .cpdrb d s r _ => wfCompareReg seg d.wordOfByte s r
  | .cpsi d s r _ => wfTwoPtr seg d s r
  | .cpsib d s r _ => wfTwoPtr seg d s r
  | .cpsir d s r _ => wfTwoPtr seg d s r
  | .cpsirb d s r _ => wfTwoPtr seg d s r
  | .cpsd d s r _ => wfTwoPtr seg d s r
  | .cpsdb d s r _ => wfTwoPtr seg d s r
  | .cpsdr d s r _ => wfTwoPtr seg d s r
  | .cpsdrb d s r _ => wfTwoPtr seg d s r
  | .ldi d s r => wfTwoPtr seg d s r
  | .ldib d s r => wfTwoPtr seg d s r
  | .ldir d s r => wfTwoPtr seg d s r
  | .ldirb d s r => wfTwoPtr seg d s r
  | .ldd d s r => wfTwoPtr seg d s r
  | .lddb d s r => wfTwoPtr seg d s r
  | .lddr d s r => wfTwoPtr seg d s r
  | .lddrb d s r => wfTwoPtr seg d s r
  | .trib d s r => wfTranslate seg d s r
  | .trirb d s r => wfTranslate seg d s r
  | .trdb d s r => wfTranslate seg d s r
  | .trdrb d s r => wfTranslate seg d s r
  | .trtib d s r => wfTranslate seg d s r
  | .trtirb d s r => wfTranslate seg d s r
  | .trtdb d s r => wfTranslate seg d s r
  | .trtdrb d s r => wfTranslate seg d s r
  | .inIr _ s => s.val != 0
  | .inDa _ _ => true
  | .inbIr _ s => s.val != 0
  | .inbDa _ _ => true
  | .outIr d _ => d.val != 0
  | .outDa _ _ => true
  | .outbIr d _ => d.val != 0
  | .outbDa _ _ => true
  | .sin _ _ => true
  | .sinb _ _ => true
  | .sout _ _ => true
  | .soutb _ _ => true
  | .ini d s r => wfBlockIo seg s d r
  | .inib d s r => wfBlockIo seg s d r
  | .inir d s r => wfBlockIo seg s d r
  | .inirb d s r => wfBlockIo seg s d r
  | .ind d s r => wfBlockIo seg s d r
  | .indb d s r => wfBlockIo seg s d r
  | .indr d s r => wfBlockIo seg s d r
  | .indrb d s r => wfBlockIo seg s d r
  | .outi d s r => wfBlockIo seg d s r
  | .outib d s r => wfBlockIo seg d s r
  | .otir d s r => wfBlockIo seg d s r
  | .otirb d s r => wfBlockIo seg d s r
  | .outd d s r => wfBlockIo seg d s r
  | .outdb d s r => wfBlockIo seg d s r
  | .otdr d s r => wfBlockIo seg d s r
  | .otdrb d s r => wfBlockIo seg d s r
  | .sini d s r => wfBlockIo seg s d r
  | .sinib d s r => wfBlockIo seg s d r
  | .sinir d s r => wfBlockIo seg s d r
  | .sinirb d s r => wfBlockIo seg s d r
  | .sind d s r => wfBlockIo seg s d r
  | .sindb d s r => wfBlockIo seg s d r
  | .sindr d s r => wfBlockIo seg s d r
  | .sindrb d s r => wfBlockIo seg s d r
  | .souti d s r => wfBlockIo seg d s r
  | .soutib d s r => wfBlockIo seg d s r
  | .sotir d s r => wfBlockIo seg d s r
  | .sotirb d s r => wfBlockIo seg d s r
  | .soutd d s r => wfBlockIo seg d s r
  | .soutdb d s r => wfBlockIo seg d s r
  | .sotdr d s r => wfBlockIo seg d s r
  | .sotdrb d s r => wfBlockIo seg d s r
  | .comflg _ _ _ _ => true
  | .resflg _ _ _ _ => true
  | .setflg _ _ _ _ => true
  | .di _ _ => true
  | .ei _ _ => true
  | .halt => true
  | .ldctlWrite _ _ => true
  | .ldctlRead _ _ => true
  | .ldctlbWrite _ => true
  | .ldctlbRead _ => true
  | .ldps s => s.wf seg
  | .mbit => true
  | .mreq _ => true
  | .mres => true
  | .mset => true
  | .nop => true
  | .epuLdmFrom d _ _ => d.wf seg
  | .epuLdmTo s _ _ => s.wf seg
  | .epuLdrFrom _ _ _ => true
  | .epuLdrTo _ _ _ => true
  | .epuLdfFrom _ _ w2 => w2.toNat / 256 % 16 == 0 && w2.toNat % 16 == 0
  | .epuLdfTo _ _ w2 => w2.toNat / 256 % 16 == 0 && w2.toNat % 16 == 0
  | .epuOp _ _ _ => true

end Sys2Proof
end

