-- ==== Sys2Proof/Decode.lean ====
section
/-! DEFINITION. The decoder (rules R130, R145, R156 to R159), from the words of an instruction to an instruction, the
rest of the words, or a refusal by name; and after it the encoder, written from the same encoding lines. -/

namespace Sys2Proof

/-- Why words are no instruction of the sources. -/
inductive DecodeError where
  /-- The instruction goes on after the words given. -/
  | truncated
  /-- A reserved opcode, sub-opcode or second word (R156, R158, U2, U11, U27), or a count out of range (U23). -/
  | reserved
  /-- Field values the sources forbid: `Instr.wf` says no (U5, U6, U15, U20, U22, U25). -/
  | illFormed
  deriving DecidableEq, Repr

/-- A decoder of part of an instruction: it consumes words in order. -/
abbrev D := StateT (List Word) (Except DecodeError)

/-- The next word of the instruction. -/
def D.word : D Word := fun ws =>
  match ws with
  | [] => .error .truncated
  | w :: rest => .ok (w, rest)

/-- A reserved encoding. -/
def D.reserved {α : Type} : D α := fun _ => .error .reserved

/-! Fields of a word (R131). -/

/-- Bits 15:8, the operation byte of a first word. -/
def Word.op (w : Word) : Nat := w.toNat / 256
/-- Bits 15:12. -/
def Word.n3 (w : Word) : Fin 16 := ⟨w.toNat / 4096 % 16, by omega⟩
/-- Bits 11:8. -/
def Word.n2 (w : Word) : Fin 16 := ⟨w.toNat / 256 % 16, by omega⟩
/-- Bits 7:4. -/
def Word.n1 (w : Word) : Fin 16 := ⟨w.toNat / 16 % 16, by omega⟩
/-- Bits 3:0. -/
def Word.n0 (w : Word) : Fin 16 := ⟨w.toNat % 16, by omega⟩

/-- The high byte of a word. -/
def Word.hi (w : Word) : Byte := w.extractLsb' 8 8
/-- The low byte of a word. -/
def Word.lo (w : Word) : Byte := w.extractLsb' 0 8

/-- A word from its high byte (below 256) and its two low nibbles. -/
def mkW (op : Nat) (a b : Fin 16) : Word := BitVec.ofNat 16 (op * 256 + a.val * 16 + b.val)

/-- A word from its high byte (below 256) and its low byte. -/
def mkB (op : Nat) (v : Nat) : Word := BitVec.ofNat 16 (op * 256 + v)

/-! Operands. -/

/-- The address words of a DA or X operand (R139, R141). Reserved bits 7:0 of a long-offset segment word are ignored
(U9, log 31). -/
def D.iaddr (seg : Bool) : D IAddr := do
  let w ← D.word
  if seg then
    if w.msb then do
      let off ← D.word
      pure (.long (w.extractLsb' 8 7) off)
    else pure (.short (w.extractLsb' 8 7) w.lo)
  else pure (.ns w)

/-- An immediate of width `wd` (R137): a byte immediate is the low byte of its word (D28, U7, log 26). -/
def D.imm : (wd : Width) → D (BitVec wd.bits)
  | .b => do let w ← D.word; pure w.lo
  | .w => D.word
  | .l => do let h ← D.word; let l ← D.word; pure (h ++ l)

/-- A memory operand of mode `m` (bits 15:14) with register field `f` (R145, R134): IR, DA or X. -/
def D.mem (seg : Bool) (m : Nat) (f : Reg) : D Mem :=
  match m with
  | 0 => if f = 0 then D.reserved else pure (.ir f)
  | 1 => do
    let a ← D.iaddr seg
    pure (if f = 0 then .da a else .x a f)
  | _ => D.reserved

/-- An operand of the modes R, IR, DA, X (R145). -/
def D.dst (seg : Bool) (m : Nat) (f : Reg) : D Dst :=
  if m = 2 then pure (.reg f) else do
    let x ← D.mem seg m f
    pure (.mem x)

/-- A source of the modes R, IM, IR, DA, X (R145). -/
def D.src (seg : Bool) (wd : Width) (m : Nat) (f : Reg) : D (Src wd) :=
  if m = 2 then pure (.reg f)
  else if m = 0 ∧ f = 0 then do
    let v ← D.imm wd
    pure (.imm v)
  else do
    let x ← D.mem seg m f
    pure (.mem x)

/-- The second word `0000 xxxx 0000 0000` (R144, R322, R357). -/
def D.oneReg : D Reg := do
  let w ← D.word
  if w.n3 = 0 ∧ w.n1 = 0 ∧ w.n0 = 0 then pure w.n2 else D.reserved

/-- The second word `0000 rrrr dddd zzzz` of block instructions (R370, R428): `(r, d, z)`. -/
def D.block : D (Reg × Reg × Fin 16) := do
  let w ← D.word
  if w.n3 = 0 then pure (w.n2, w.n1, w.n0) else D.reserved

/-- The second word `0000 dddd 0000 nnnn` of LDM (R220): `(d, n)`. -/
def D.ldm : D (Reg × Fin 16) := do
  let w ← D.word
  if w.n3 = 0 ∧ w.n1 = 0 then pure (w.n2, w.n0) else D.reserved

/-- The count word of a static shift (R350): `.inl n` to the left, `.inr n` to the right; outside the range of the
width it is refused (U23). -/
def D.count (wd : Width) : D (Sum Nat Nat) := do
  let w ← D.word
  let top := match wd with
    | .b => 256
    | _ => 65536
  if w.toNat ≤ wd.bits then pure (.inl w.toNat)
  else if top - wd.bits ≤ w.toNat ∧ w.toNat < top then pure (.inr (top - w.toNat))
  else D.reserved

/-- The control register codes of LDCTL (R476); 000 and 001 name none (U11). -/
def CtlReg.ofCode (n : Nat) : Option CtlReg :=
  match n with
  | 2 => some .fcw
  | 3 => some .refresh
  | 4 => some .psapseg
  | 5 => some .psapoff
  | 6 => some .nspseg
  | 7 => some .nspoff
  | _ => none

/-- The code of a control register (R476). -/
def CtlReg.code : CtlReg → Fin 8
  | .fcw => 2
  | .refresh => 3
  | .psapseg => 4
  | .psapoff => 5
  | .nspseg => 6
  | .nspoff => 7

/-- Bit `k` of a nibble. -/
def nibBit (n : Fin 16) (k : Nat) : Bool := n.val / 2 ^ k % 2 == 1

/-- The two low bits of a nibble. -/
def nibLow2 (n : Fin 16) : Fin 4 := ⟨n.val % 4, by omega⟩

/-- The three low bits of a nibble. -/
def nibLow3 (n : Fin 16) : Fin 8 := ⟨n.val % 8, by omega⟩

/-! The opcode map (R157) and its tables (R158). `a` is bits 7:4 and `b` is bits 3:0 of the first word. -/

/-- Table T1, byte: first bytes 0C, 4C, 8C. -/
def D.table1Byte (seg : Bool) (m : Nat) (a b : Fin 16) : D Instr :=
  match b.val with
  | 0 => do let d ← D.dst seg m a; pure (.comb d)
  | 1 => if m = 2 then pure (.ldctlbRead a) else do
    let d ← D.mem seg m a
    let v ← D.imm .b
    pure (.cpbImm d v)
  | 2 => do let d ← D.dst seg m a; pure (.negb d)
  | 4 => do let d ← D.dst seg m a; pure (.testb d)
  | 5 => do
    let d ← D.mem seg m a
    let v ← D.imm .b
    pure (.ldbImm d v)
  | 6 => do let d ← D.dst seg m a; pure (.tsetb d)
  | 8 => do let d ← D.dst seg m a; pure (.clrb d)
  | 9 => if m = 2 then pure (.ldctlbWrite a) else D.reserved
  | _ => D.reserved

/-- Table T1, word: first bytes 0D, 4D, 8D. -/
def D.table1Word (seg : Bool) (m : Nat) (a b : Fin 16) : D Instr :=
  match b.val with
  | 0 => do let d ← D.dst seg m a; pure (.com d)
  | 1 => if m = 2 then pure (.setflg (nibBit a 3) (nibBit a 2) (nibBit a 1) (nibBit a 0)) else do
    let d ← D.mem seg m a
    let v ← D.imm .w
    pure (.cpImm d v)
  | 2 => do let d ← D.dst seg m a; pure (.neg d)
  | 3 => if m = 2 then pure (.resflg (nibBit a 3) (nibBit a 2) (nibBit a 1) (nibBit a 0)) else D.reserved
  | 4 => do let d ← D.dst seg m a; pure (.test d)
  | 5 => if m = 2 then pure (.comflg (nibBit a 3) (nibBit a 2) (nibBit a 1) (nibBit a 0)) else do
    let d ← D.mem seg m a
    let v ← D.imm .w
    pure (.ldImm d v)
  | 6 => do let d ← D.dst seg m a; pure (.tset d)
  | 7 => if m = 2 ∧ a = 0 then pure .nop else D.reserved
  | 8 => do let d ← D.dst seg m a; pure (.clr d)
  | 9 => if m = 0 then do
      let v ← D.imm .w
      pure (.pushImm a v)
    else D.reserved
  | _ => D.reserved

/-- Table T2: first bytes 1C, 5C, 9C. -/
def D.table2 (seg : Bool) (m : Nat) (a b : Fin 16) : D Instr :=
  match b.val with
  | 8 => do let d ← D.dst seg m a; pure (.testl d)
  | 1 => if m = 2 then D.reserved else do
    let (d, n) ← D.ldm
    let x ← D.mem seg m a
    pure (.ldmLoad d x n)
  | 9 => if m = 2 then D.reserved else do
    let (s, n) ← D.ldm
    let x ← D.mem seg m a
    pure (.ldmStore x s n)
  | _ => D.reserved

/-- Extended instructions with an even first byte: 0E, 4E, 8E (R511, R512). -/
def D.epuEven (m : Nat) (a b : Fin 16) : D Instr :=
  if m = 2 then do
    match b.val / 4 with
    | 0 => let w ← D.word; pure (.epuLdfFrom a (nibLow2 b) w)
    | 1 => let w ← D.word; pure (.epuOp a (nibLow2 b) w)
    | 2 => let w ← D.word; pure (.epuLdfTo a (nibLow2 b) w)
    | _ => D.reserved
  else D.reserved

/-- Extended instructions with an odd first byte: 0F, 4F, 8F (R511, R512). -/
def D.epuOdd (seg : Bool) (m : Nat) (a b : Fin 16) : D Instr :=
  if m = 2 then
    if a.val < 8 then
      match b.val / 4 with
      | 0 => do let w ← D.word; pure (.epuLdrFrom (nibLow3 a) (nibLow2 b) w)
      | 2 => do let w ← D.word; pure (.epuLdrTo (nibLow3 a) (nibLow2 b) w)
      | _ => D.reserved
    else D.reserved
  else
    match b.val / 4 with
    | 1 => do
      let w ← D.word
      let x ← D.mem seg m a
      pure (.epuLdmTo x (nibLow2 b) w)
    | 3 => do
      let w ← D.word
      let x ← D.mem seg m a
      pure (.epuLdmFrom x (nibLow2 b) w)
    | _ => D.reserved

/-- The general opcodes: mode `m` and bits 13:8 below 30 (R145, R157). -/
def D.general (seg : Bool) (m low6 : Nat) (a b : Fin 16) : D Instr :=
  match low6 with
  | 0x00 => do let s ← D.src seg .b m a; pure (.addb b s)
  | 0x01 => do let s ← D.src seg .w m a; pure (.add b s)
  | 0x02 => do let s ← D.src seg .b m a; pure (.subb b s)
  | 0x03 => do let s ← D.src seg .w m a; pure (.sub b s)
  | 0x04 => do let s ← D.src seg .b m a; pure (.orb b s)
  | 0x05 => do let s ← D.src seg .w m a; pure (.or b s)
  | 0x06 => do let s ← D.src seg .b m a; pure (.andb b s)
  | 0x07 => do let s ← D.src seg .w m a; pure (.and b s)
  | 0x08 => do let s ← D.src seg .b m a; pure (.xorb b s)
  | 0x09 => do let s ← D.src seg .w m a; pure (.xor b s)
  | 0x0A => do let s ← D.src seg .b m a; pure (.cpb b s)
  | 0x0B => do let s ← D.src seg .w m a; pure (.cp b s)
  | 0x0C => D.table1Byte seg m a b
  | 0x0D => D.table1Word seg m a b
  | 0x0E => D.epuEven m a b
  | 0x0F => D.epuOdd seg m a b
  | 0x10 => do let s ← D.src seg .l m a; pure (.cpl b s)
  | 0x11 => do let s ← D.dst seg m b; pure (.pushl a s)
  | 0x12 => do let s ← D.src seg .l m a; pure (.subl b s)
  | 0x13 => do let s ← D.dst seg m b; pure (.push a s)
  | 0x14 => do let s ← D.src seg .l m a; pure (.ldl b s)
  | 0x15 => do let d ← D.dst seg m b; pure (.popl d a)
  | 0x16 => do let s ← D.src seg .l m a; pure (.addl b s)
  | 0x17 => do let d ← D.dst seg m b; pure (.pop d a)
  | 0x18 => do let s ← D.src seg .l m a; pure (.multl b s)
  | 0x19 => do let s ← D.src seg .w m a; pure (.mult b s)
  | 0x1A => do let s ← D.src seg .l m a; pure (.divl b s)
  | 0x1B => do let s ← D.src seg .w m a; pure (.div b s)
  | 0x1C => D.table2 seg m a b
  | 0x1D => do let d ← D.mem seg m a; pure (.ldlStore d b)
  | 0x1E =>
    if m = 2 then (if a = 0 then pure (.ret b) else D.reserved)
    else do let t ← D.mem seg m a; pure (.jp b t)
  | 0x1F => if b = 0 then do
      let t ← D.mem seg m a
      pure (.call t)
    else D.reserved
  | 0x20 => do let s ← D.src seg .b m a; pure (.ldb b s)
  | 0x21 => do let s ← D.src seg .w m a; pure (.ld b s)
  | 0x22 => if m = 0 ∧ a = 0 then do
      let d ← D.oneReg
      pure (.resbDyn d b)
    else do let d ← D.dst seg m a; pure (.resb d b)
  | 0x23 => if m = 0 ∧ a = 0 then do
      let d ← D.oneReg
      pure (.resDyn d b)
    else do let d ← D.dst seg m a; pure (.res d b)
  | 0x24 => if m = 0 ∧ a = 0 then do
      let d ← D.oneReg
      pure (.setbDyn d b)
    else do let d ← D.dst seg m a; pure (.setb d b)
  | 0x25 => if m = 0 ∧ a = 0 then do
      let d ← D.oneReg
      pure (.setDyn d b)
    else do let d ← D.dst seg m a; pure (.set d b)
  | 0x26 => if m = 0 ∧ a = 0 then do
      let d ← D.oneReg
      pure (.bitbDyn d b)
    else do let d ← D.dst seg m a; pure (.bitb d b)
  | 0x27 => if m = 0 ∧ a = 0 then do
      let d ← D.oneReg
      pure (.bitDyn d b)
    else do let d ← D.dst seg m a; pure (.bit d b)
  | 0x28 => do let d ← D.dst seg m a; pure (.incb d b)
  | 0x29 => do let d ← D.dst seg m a; pure (.inc d b)
  | 0x2A => do let d ← D.dst seg m a; pure (.decb d b)
  | 0x2B => do let d ← D.dst seg m a; pure (.dec d b)
  | 0x2C => do let s ← D.dst seg m a; pure (.exb b s)
  | 0x2D => do let s ← D.dst seg m a; pure (.ex b s)
  | 0x2E => if m = 2 then pure (.tccb b a) else do
    let d ← D.mem seg m a
    pure (.ldbStore d b)
  | 0x2F => if m = 2 then pure (.tcc b a) else do
    let d ← D.mem seg m a
    pure (.ldStore d b)
  | _ => D.reserved

/-- Table T3: first bytes 3A (byte) and 3B (word), input and output (R428, R450). -/
def D.table3 (word : Bool) (a b : Fin 16) : D Instr := do
  match b.val with
  | 4 => let p ← D.word; pure (if word then .inDa a p else .inbDa a p)
  | 5 => let p ← D.word; pure (if word then .sin a p else .sinb a p)
  | 6 => let p ← D.word; pure (if word then .outDa p a else .outbDa p a)
  | 7 => let p ← D.word; pure (if word then .sout p a else .soutb p a)
  | k =>
    if 12 ≤ k then D.reserved else
    let (r, d, z) ← D.block
    if z = 8 then
      match k with
      | 0 => pure (if word then .ini d a r else .inib d a r)
      | 1 => pure (if word then .sini d a r else .sinib d a r)
      | 2 => pure (if word then .outi d a r else .outib d a r)
      | 3 => pure (if word then .souti d a r else .soutib d a r)
      | 8 => pure (if word then .ind d a r else .indb d a r)
      | 9 => pure (if word then .sind d a r else .sindb d a r)
      | 10 => pure (if word then .outd d a r else .outdb d a r)
      | _ => pure (if word then .soutd d a r else .soutdb d a r)
    else if z = 0 then
      match k with
      | 0 => pure (if word then .inir d a r else .inirb d a r)
      | 1 => pure (if word then .sinir d a r else .sinirb d a r)
      | 2 => pure (if word then .otir d a r else .otirb d a r)
      | 3 => pure (if word then .sotir d a r else .sotirb d a r)
      | 8 => pure (if word then .indr d a r else .indrb d a r)
      | 9 => pure (if word then .sindr d a r else .sindrb d a r)
      | 10 => pure (if word then .otdr d a r else .otdrb d a r)
      | _ => pure (if word then .sotdr d a r else .sotdrb d a r)
    else D.reserved

/-- Table T4, byte: first byte B2 (R340). -/
def D.table4Byte (a b : Fin 16) : D Instr := do
  match b.val with
  | 0 => pure (.rlb a false)
  | 2 => pure (.rlb a true)
  | 4 => pure (.rrb a false)
  | 6 => pure (.rrb a true)
  | 8 => pure (.rlcb a false)
  | 10 => pure (.rlcb a true)
  | 12 => pure (.rrcb a false)
  | 14 => pure (.rrcb a true)
  | 1 =>
    match ← D.count .b with
    | .inl n => pure (.sllb a n)
    | .inr n => pure (.srlb a n)
  | 9 =>
    match ← D.count .b with
    | .inl n => pure (.slab a n)
    | .inr n => pure (.srab a n)
  | 3 => let s ← D.oneReg; pure (.sdlb a s)
  | 11 => let s ← D.oneReg; pure (.sdab a s)
  | _ => D.reserved

/-- Table T4, word and long: first byte B3 (R340). -/
def D.table4Word (a b : Fin 16) : D Instr := do
  match b.val with
  | 0 => pure (.rl a false)
  | 2 => pure (.rl a true)
  | 4 => pure (.rr a false)
  | 6 => pure (.rr a true)
  | 8 => pure (.rlc a false)
  | 10 => pure (.rlc a true)
  | 12 => pure (.rrc a false)
  | 14 => pure (.rrc a true)
  | 1 =>
    match ← D.count .w with
    | .inl n => pure (.sll a n)
    | .inr n => pure (.srl a n)
  | 9 =>
    match ← D.count .w with
    | .inl n => pure (.sla a n)
    | .inr n => pure (.sra a n)
  | 5 =>
    match ← D.count .l with
    | .inl n => pure (.slll a n)
    | .inr n => pure (.srll a n)
  | 13 =>
    match ← D.count .l with
    | .inl n => pure (.slal a n)
    | .inr n => pure (.sral a n)
  | 3 => let s ← D.oneReg; pure (.sdl a s)
  | 11 => let s ← D.oneReg; pure (.sda a s)
  | 7 => let s ← D.oneReg; pure (.sdll a s)
  | _ => let s ← D.oneReg; pure (.sdal a s)

/-- Table T5: first byte B8, the translate forms (R390 to R400). -/
def D.table5 (a b : Fin 16) : D Instr := do
  if b.val % 2 = 1 then D.reserved else
  let (r, s, z) ← D.block
  match b.val with
  | 0 => if z = 0 then pure (.trib a s r) else D.reserved
  | 2 => if z = 0 then pure (.trtib a s r) else D.reserved
  | 4 => if z = 0 then pure (.trirb a s r) else D.reserved
  | 6 => if z = 14 then pure (.trtirb a s r) else D.reserved
  | 8 => if z = 0 then pure (.trdb a s r) else D.reserved
  | 10 => if z = 0 then pure (.trtdb a s r) else D.reserved
  | 12 => if z = 0 then pure (.trdrb a s r) else D.reserved
  | _ => if z = 14 then pure (.trtdrb a s r) else D.reserved

/-- Table T6: first bytes BA (byte) and BB (word), block transfer and compare (R370 to R400). -/
def D.table6 (word : Bool) (a b : Fin 16) : D Instr :=
  match b.val with
  | 0 => do let (r, d, z) ← D.block; pure (if word then .cpi d a r z else .cpib d a r z)
  | 4 => do let (r, d, z) ← D.block; pure (if word then .cpir d a r z else .cpirb d a r z)
  | 8 => do let (r, d, z) ← D.block; pure (if word then .cpd d a r z else .cpdb d a r z)
  | 12 => do let (r, d, z) ← D.block; pure (if word then .cpdr d a r z else .cpdrb d a r z)
  | 2 => do let (r, d, z) ← D.block; pure (if word then .cpsi d a r z else .cpsib d a r z)
  | 6 => do let (r, d, z) ← D.block; pure (if word then .cpsir d a r z else .cpsirb d a r z)
  | 10 => do let (r, d, z) ← D.block; pure (if word then .cpsd d a r z else .cpsdb d a r z)
  | 14 => do let (r, d, z) ← D.block; pure (if word then .cpsdr d a r z else .cpsdrb d a r z)
  | 1 => do
    let (r, d, z) ← D.block
    if z = 8 then pure (if word then .ldi d a r else .ldib d a r)
    else if z = 0 then pure (if word then .ldir d a r else .ldirb d a r)
    else D.reserved
  | 9 => do
    let (r, d, z) ← D.block
    if z = 8 then pure (if word then .ldd d a r else .lddb d a r)
    else if z = 0 then pure (if word then .lddr d a r else .lddrb d a r)
    else D.reserved
  | _ => D.reserved

/-- The opcodes whose bits 13:8 are 30 or more (R145, R157): `op` is the whole first byte. -/
def D.special (seg : Bool) (op : Nat) (a b : Fin 16) : D Instr :=
  match op with
  | 0x30 => do let p ← D.word; pure (if a = 0 then .ldrb b p else .ldbBased b (.ba a p))
  | 0x31 => do let p ← D.word; pure (if a = 0 then .ldr b p else .ldBased b (.ba a p))
  | 0x32 => do let p ← D.word; pure (if a = 0 then .ldrbStore p b else .ldbStoreBased (.ba a p) b)
  | 0x33 => do let p ← D.word; pure (if a = 0 then .ldrStore p b else .ldStoreBased (.ba a p) b)
  | 0x34 => do let p ← D.word; pure (if a = 0 then .ldar b p else .ldaBased b (.ba a p))
  | 0x35 => do let p ← D.word; pure (if a = 0 then .ldrl b p else .ldlBased b (.ba a p))
  | 0x37 => do let p ← D.word; pure (if a = 0 then .ldrlStore p b else .ldlStoreBased (.ba a p) b)
  | 0x39 => if b = 0 then do
      let x ← D.mem seg 0 a
      pure (.ldps x)
    else D.reserved
  | 0x3A => D.table3 false a b
  | 0x3B => D.table3 true a b
  | 0x3C => pure (.inbIr b a)
  | 0x3D => pure (.inIr b a)
  | 0x3E => pure (.outbIr a b)
  | 0x3F => pure (.outIr a b)
  | 0x70 => do let x ← D.oneReg; pure (.ldbBased b (.bx a x))
  | 0x71 => do let x ← D.oneReg; pure (.ldBased b (.bx a x))
  | 0x72 => do let x ← D.oneReg; pure (.ldbStoreBased (.bx a x) b)
  | 0x73 => do let x ← D.oneReg; pure (.ldStoreBased (.bx a x) b)
  | 0x74 => do let x ← D.oneReg; pure (.ldaBased b (.bx a x))
  | 0x75 => do let x ← D.oneReg; pure (.ldlBased b (.bx a x))
  | 0x76 => do let x ← D.mem seg 1 a; pure (.lda b x)
  | 0x77 => do let x ← D.oneReg; pure (.ldlStoreBased (.bx a x) b)
  | 0x79 => if b = 0 then do
      let x ← D.mem seg 1 a
      pure (.ldps x)
    else D.reserved
  | 0x7A => if a = 0 ∧ b = 0 then pure .halt else D.reserved
  | 0x7B =>
    if b = 13 then pure (.mreq a)
    else if a = 0 then
      match b.val with
      | 0 => pure .iret
      | 8 => pure .mset
      | 9 => pure .mres
      | 10 => pure .mbit
      | _ => D.reserved
    else D.reserved
  | 0x7C =>
    if a = 0 then
      match b.val / 4 with
      | 0 => pure (.di (!nibBit b 1) (!nibBit b 0))
      | 1 => pure (.ei (!nibBit b 1) (!nibBit b 0))
      | _ => D.reserved
    else D.reserved
  | 0x7D =>
    match CtlReg.ofCode (b.val % 8) with
    | some c => pure (if b.val < 8 then .ldctlRead a c else .ldctlWrite c a)
    | none => D.reserved
  | 0x7F => pure (.sc (BitVec.ofNat 8 (a.val * 16 + b.val)))
  | 0xB0 => if b = 0 then pure (.dab a) else D.reserved
  | 0xB1 =>
    match b.val with
    | 0 => pure (.extsb a)
    | 10 => pure (.exts a)
    | 7 => pure (.extsl a)
    | _ => D.reserved
  | 0xB2 => D.table4Byte a b
  | 0xB3 => D.table4Word a b
  | 0xB4 => pure (.adcb b a)
  | 0xB5 => pure (.adc b a)
  | 0xB6 => pure (.sbcb b a)
  | 0xB7 => pure (.sbc b a)
  | 0xB8 => D.table5 a b
  | 0xBA => D.table6 false a b
  | 0xBB => D.table6 true a b
  | 0xBC => pure (.rrdb b a)
  | 0xBD => pure (.ldk a b)
  | 0xBE => pure (.rldb b a)
  | _ => D.reserved

/-- The compact formats: bits 15:14 are ones (R131, R157). -/
def D.compact (w : Word) : D Instr :=
  match w.op / 16 with
  | 12 => pure (.ldbShort w.n2 w.lo)
  | 13 => pure (.calr (w.extractLsb' 0 12))
  | 14 => pure (.jr w.n2 w.lo)
  | _ =>
    if w.n1.val < 8 then pure (.dbjnz w.n2 (w.extractLsb' 0 7))
    else pure (.djnz w.n2 (w.extractLsb' 0 7))

/-- The instruction at the head of the words, before the check of its fields (R159). -/
def D.instr (seg : Bool) : D Instr := do
  let w ← D.word
  if 0xC0 ≤ w.op then D.compact w
  else if w.op % 64 < 0x30 then D.general seg (w.op / 64) (w.op % 64) w.n1 w.n0
  else D.special seg w.op w.n1 w.n0

/-- DECODE (R159): the instruction at the head of the words and the words after it, in segmented or nonsegmented
mode; a word sequence that the sources do not define is refused by name. -/
def decode (seg : Bool) (ws : List Word) : Except DecodeError (Instr × List Word) :=
  match D.instr seg ws with
  | .ok (i, rest) => if i.wf seg then .ok (i, rest) else .error .illFormed
  | .error e => .error e

/-! The encoder. -/

/-- How an operand with a mode is encoded: bits 15:14, its register field, and its address or immediate words. -/
structure OpEnc where
  mode : Nat
  field : Reg
  words : List Word
  deriving DecidableEq, Repr

/-- The words of an address (R141). -/
def IAddr.words : IAddr → List Word
  | .ns a => [a]
  | .short seg off => [0#1 ++ seg ++ off]
  | .long seg off => [1#1 ++ seg ++ 0#8, off]

/-- Encoding of an IR, DA or X operand (R145). -/
def Mem.enc : Mem → OpEnc
  | .ir r => ⟨0, r, []⟩
  | .da a => ⟨1, 0, a.words⟩
  | .x a i => ⟨1, i, a.words⟩

/-- Encoding of an R, IR, DA or X operand (R145). -/
def Dst.enc : Dst → OpEnc
  | .reg r => ⟨2, r, []⟩
  | .mem m => m.enc

/-- The words of an immediate (R137): a byte is doubled, a long word goes high word first. -/
def immWords : (wd : Width) → BitVec wd.bits → List Word
  | .b, v => [v ++ v]
  | .w, v => [v]
  | .l, v => [BitVec.extractLsb' 16 16 v, BitVec.extractLsb' 0 16 v]

/-- Encoding of an R, IM, IR, DA or X operand (R145). -/
def Src.enc {wd : Width} : Src wd → OpEnc
  | .reg r => ⟨2, r, []⟩
  | .imm v => ⟨0, 0, immWords wd v⟩
  | .mem m => m.enc

/-- A first word whose mode and bits 7:4 come from the operand. -/
def OpEnc.first (o : OpEnc) (low6 : Nat) (b : Fin 16) : Word := mkW (o.mode * 64 + low6) o.field b

/-- A first word whose mode and bits 3:0 come from the operand (PUSH and POP, R146). -/
def OpEnc.firstLow (o : OpEnc) (low6 : Nat) (a : Fin 16) : Word := mkW (o.mode * 64 + low6) a o.field

/-- The words of an instruction with a BA or BX operand: `ba` and `bx` are the two first bytes (R143, R144). -/
def Based.encode (ba bx : Nat) (b : Reg) : Based → List Word
  | .ba base disp => [mkW ba base b, disp]
  | .bx base index => [mkW bx base b, mkW index.val 0 0]

/-- The flag mask of SETFLG, RESFLG and COMFLG (R473). -/
def flagNib (c z s p : Bool) : Fin 16 :=
  ⟨8 * c.toNat + 4 * z.toNat + 2 * s.toNat + p.toNat, by
    have := c.toNat_lt; have := z.toNat_lt; have := s.toNat_lt; have := p.toNat_lt; omega⟩

/-- The low nibble of EI and DI: a 0 bit names the interrupt (R471). -/
def intNib (base : Nat) (h : base ≤ 12) (vi nvi : Bool) : Fin 16 :=
  ⟨base + 2 * (!vi).toNat + (!nvi).toNat, by
    have := (!vi).toNat_lt; have := (!nvi).toNat_lt; omega⟩

/-- A nibble from a template code (bits 3:2) and the EPU number (bits 1:0) (R511). -/
def epuNib (code : Fin 4) (ii : Fin 4) : Fin 16 := ⟨code.val * 4 + ii.val, by omega⟩

/-- ENCODE: the words of an instruction, from the encoding lines of spec/40 to spec/49. -/
def encode : Instr → List Word
  | .clr d => d.enc.first 0x0D 8 :: d.enc.words
  | .clrb d => d.enc.first 0x0C 8 :: d.enc.words
  | .ex d s => s.enc.first 0x2D d :: s.enc.words
  | .exb d s => s.enc.first 0x2C d :: s.enc.words
  | .ld d s => s.enc.first 0x21 d :: s.enc.words
  | .ldb d s => s.enc.first 0x20 d :: s.enc.words
  | .ldl d s => s.enc.first 0x14 d :: s.enc.words
  | .ldBased d s => s.encode 0x31 0x71 d
  | .ldbBased d s => s.encode 0x30 0x70 d
  | .ldlBased d s => s.encode 0x35 0x75 d
  | .ldStore d s => d.enc.first 0x2F s :: d.enc.words
  | .ldbStore d s => d.enc.first 0x2E s :: d.enc.words
  | .ldlStore d s => d.enc.first 0x1D s :: d.enc.words
  | .ldStoreBased d s => d.encode 0x33 0x73 s
  | .ldbStoreBased d s => d.encode 0x32 0x72 s
  | .ldlStoreBased d s => d.encode 0x37 0x77 s
  | .ldImm d v => d.enc.first 0x0D 5 :: (d.enc.words ++ immWords .w v)
  | .ldbImm d v => d.enc.first 0x0C 5 :: (d.enc.words ++ immWords .b v)
  | .ldbShort d v => [mkB (0xC0 + d.val) v.toNat]
  | .lda d s => mkW 0x76 s.enc.field d :: s.enc.words
  | .ldaBased d s => s.encode 0x34 0x74 d
  | .ldar d disp => [mkW 0x34 0 d, disp]
  | .ldk d n => [mkW 0xBD d n]
  | .ldmLoad d s n => s.enc.first 0x1C 1 :: mkW d.val 0 n :: s.enc.words
  | .ldmStore d s n => d.enc.first 0x1C 9 :: mkW s.val 0 n :: d.enc.words
  | .ldr d disp => [mkW 0x31 0 d, disp]
  | .ldrb d disp => [mkW 0x30 0 d, disp]
  | .ldrl d disp => [mkW 0x35 0 d, disp]
  | .ldrStore disp s => [mkW 0x33 0 s, disp]
  | .ldrbStore disp s => [mkW 0x32 0 s, disp]
  | .ldrlStore disp s => [mkW 0x37 0 s, disp]
  | .pop d sp => d.enc.firstLow 0x17 sp :: d.enc.words
  | .popl d sp => d.enc.firstLow 0x15 sp :: d.enc.words
  | .push sp s => s.enc.firstLow 0x13 sp :: s.enc.words
  | .pushl sp s => s.enc.firstLow 0x11 sp :: s.enc.words
  | .pushImm sp v => [mkW 0x0D sp 9, v]
  | .adc d s => [mkW 0xB5 s d]
  | .adcb d s => [mkW 0xB4 s d]
  | .add d s => s.enc.first 0x01 d :: s.enc.words
  | .addb d s => s.enc.first 0x00 d :: s.enc.words
  | .addl d s => s.enc.first 0x16 d :: s.enc.words
  | .cp d s => s.enc.first 0x0B d :: s.enc.words
  | .cpb d s => s.enc.first 0x0A d :: s.enc.words
  | .cpl d s => s.enc.first 0x10 d :: s.enc.words
  | .cpImm d v => d.enc.first 0x0D 1 :: (d.enc.words ++ immWords .w v)
  | .cpbImm d v => d.enc.first 0x0C 1 :: (d.enc.words ++ immWords .b v)
  | .dab d => [mkW 0xB0 d 0]
  | .dec d n => d.enc.first 0x2B n :: d.enc.words
  | .decb d n => d.enc.first 0x2A n :: d.enc.words
  | .inc d n => d.enc.first 0x29 n :: d.enc.words
  | .incb d n => d.enc.first 0x28 n :: d.enc.words
  | .extsb d => [mkW 0xB1 d 0]
  | .exts d => [mkW 0xB1 d 10]
  | .extsl d => [mkW 0xB1 d 7]
  | .neg d => d.enc.first 0x0D 2 :: d.enc.words
  | .negb d => d.enc.first 0x0C 2 :: d.enc.words
  | .mult d s => s.enc.first 0x19 d :: s.enc.words
  | .multl d s => s.enc.first 0x18 d :: s.enc.words
  | .div d s => s.enc.first 0x1B d :: s.enc.words
  | .divl d s => s.enc.first 0x1A d :: s.enc.words
  | .sbc d s => [mkW 0xB7 s d]
  | .sbcb d s => [mkW 0xB6 s d]
  | .sub d s => s.enc.first 0x03 d :: s.enc.words
  | .subb d s => s.enc.first 0x02 d :: s.enc.words
  | .subl d s => s.enc.first 0x12 d :: s.enc.words
  | .and d s => s.enc.first 0x07 d :: s.enc.words
  | .andb d s => s.enc.first 0x06 d :: s.enc.words
  | .com d => d.enc.first 0x0D 0 :: d.enc.words
  | .comb d => d.enc.first 0x0C 0 :: d.enc.words
  | .or d s => s.enc.first 0x05 d :: s.enc.words
  | .orb d s => s.enc.first 0x04 d :: s.enc.words
  | .xor d s => s.enc.first 0x09 d :: s.enc.words
  | .xorb d s => s.enc.first 0x08 d :: s.enc.words
  | .test d => d.enc.first 0x0D 4 :: d.enc.words
  | .testb d => d.enc.first 0x0C 4 :: d.enc.words
  | .testl d => d.enc.first 0x1C 8 :: d.enc.words
  | .tcc cc d => [mkW 0xAF d cc]
  | .tccb cc d => [mkW 0xAE d cc]
  | .call t => t.enc.first 0x1F 0 :: t.enc.words
  | .calr disp => [BitVec.ofNat 16 (0xD000 + disp.toNat)]
  | .djnz r disp => [mkB (0xF0 + r.val) (128 + disp.toNat)]
  | .dbjnz r disp => [mkB (0xF0 + r.val) disp.toNat]
  | .jp cc t => t.enc.first 0x1E cc :: t.enc.words
  | .jr cc disp => [mkB (0xE0 + cc.val) disp.toNat]
  | .ret cc => [mkW 0x9E 0 cc]
  | .iret => [mkW 0x7B 0 0]
  | .sc n => [mkB 0x7F n.toNat]
  | .bit d k => d.enc.first 0x27 k :: d.enc.words
  | .bitDyn d s => [mkW 0x27 0 s, mkW d.val 0 0]
  | .bitb d k => d.enc.first 0x26 k :: d.enc.words
  | .bitbDyn d s => [mkW 0x26 0 s, mkW d.val 0 0]
  | .res d k => d.enc.first 0x23 k :: d.enc.words
  | .resDyn d s => [mkW 0x23 0 s, mkW d.val 0 0]
  | .resb d k => d.enc.first 0x22 k :: d.enc.words
  | .resbDyn d s => [mkW 0x22 0 s, mkW d.val 0 0]
  | .set d k => d.enc.first 0x25 k :: d.enc.words
  | .setDyn d s => [mkW 0x25 0 s, mkW d.val 0 0]
  | .setb d k => d.enc.first 0x24 k :: d.enc.words
  | .setbDyn d s => [mkW 0x24 0 s, mkW d.val 0 0]
  | .tset d => d.enc.first 0x0D 6 :: d.enc.words
  | .tsetb d => d.enc.first 0x0C 6 :: d.enc.words
  | .rl d twice => [mkW 0xB3 d (if twice then 2 else 0)]
  | .rlb d twice => [mkW 0xB2 d (if twice then 2 else 0)]
  | .rlc d twice => [mkW 0xB3 d (if twice then 10 else 8)]
  | .rlcb d twice => [mkW 0xB2 d (if twice then 10 else 8)]
  | .rr d twice => [mkW 0xB3 d (if twice then 6 else 4)]
  | .rrb d twice => [mkW 0xB2 d (if twice then 6 else 4)]
  | .rrc d twice => [mkW 0xB3 d (if twice then 14 else 12)]
  | .rrcb d twice => [mkW 0xB2 d (if twice then 14 else 12)]
  | .rldb link s => [mkW 0xBE s link]
  | .rrdb link s => [mkW 0xBC s link]
  | .sla d n => [mkW 0xB3 d 9, BitVec.ofNat 16 n]
  | .slab d n => [mkW 0xB2 d 9, BitVec.ofNat 16 n]
  | .slal d n => [mkW 0xB3 d 13, BitVec.ofNat 16 n]
  | .sll d n => [mkW 0xB3 d 1, BitVec.ofNat 16 n]
  | .sllb d n => [mkW 0xB2 d 1, BitVec.ofNat 16 n]
  | .slll d n => [mkW 0xB3 d 5, BitVec.ofNat 16 n]
  | .sra d n => [mkW 0xB3 d 9, BitVec.ofNat 16 (65536 - n)]
  | .srab d n => [mkW 0xB2 d 9, BitVec.ofNat 16 (256 - n)]
  | .sral d n => [mkW 0xB3 d 13, BitVec.ofNat 16 (65536 - n)]
  | .srl d n => [mkW 0xB3 d 1, BitVec.ofNat 16 (65536 - n)]
  | .srlb d n => [mkW 0xB2 d 1, BitVec.ofNat 16 (256 - n)]
  | .srll d n => [mkW 0xB3 d 5, BitVec.ofNat 16 (65536 - n)]
  | .sda d s => [mkW 0xB3 d 11, mkW s.val 0 0]
  | .sdab d s => [mkW 0xB2 d 11, mkW s.val 0 0]
  | .sdal d s => [mkW 0xB3 d 15, mkW s.val 0 0]
  | .sdl d s => [mkW 0xB3 d 3, mkW s.val 0 0]
  | .sdlb d s => [mkW 0xB2 d 3, mkW s.val 0 0]
  | .sdll d s => [mkW 0xB3 d 7, mkW s.val 0 0]
  | .cpi d s r cc => [mkW 0xBB s 0, mkW r.val d cc]
  | .cpib d s r cc => [mkW 0xBA s 0, mkW r.val d cc]
  | .cpir d s r cc => [mkW 0xBB s 4, mkW r.val d cc]
  | .cpirb d s r cc => [mkW 0xBA s 4, mkW r.val d cc]
  | .cpd d s r cc => [mkW 0xBB s 8, mkW r.val d cc]
  | .cpdb d s r cc => [mkW 0xBA s 8, mkW r.val d cc]
  | .cpdr d s r cc => [mkW 0xBB s 12, mkW r.val d cc]
  | .cpdrb d s r cc => [mkW 0xBA s 12, mkW r.val d cc]
  | .cpsi d s r cc => [mkW 0xBB s 2, mkW r.val d cc]
  | .cpsib d s r cc => [mkW 0xBA s 2, mkW r.val d cc]
  | .cpsir d s r cc => [mkW 0xBB s 6, mkW r.val d cc]
  | .cpsirb d s r cc => [mkW 0xBA s 6, mkW r.val d cc]
  | .cpsd d s r cc => [mkW 0xBB s 10, mkW r.val d cc]
  | .cpsdb d s r cc => [mkW 0xBA s 10, mkW r.val d cc]
  | .cpsdr d s r cc => [mkW 0xBB s 14, mkW r.val d cc]
  | .cpsdrb d s r cc => [mkW 0xBA s 14, mkW r.val d cc]
  | .ldi d s r => [mkW 0xBB s 1, mkW r.val d 8]
  | .ldib d s r => [mkW 0xBA s 1, mkW r.val d 8]
  | .ldir d s r => [mkW 0xBB s 1, mkW r.val d 0]
  | .ldirb d s r => [mkW 0xBA s 1, mkW r.val d 0]
  | .ldd d s r => [mkW 0xBB s 9, mkW r.val d 8]
  | .lddb d s r => [mkW 0xBA s 9, mkW r.val d 8]
  | .lddr d s r => [mkW 0xBB s 9, mkW r.val d 0]
  | .lddrb d s r => [mkW 0xBA s 9, mkW r.val d 0]
  | .trib d s r => [mkW 0xB8 d 0, mkW r.val s 0]
  | .trirb d s r => [mkW 0xB8 d 4, mkW r.val s 0]
  | .trdb d s r => [mkW 0xB8 d 8, mkW r.val s 0]
  | .trdrb d s r => [mkW 0xB8 d 12, mkW r.val s 0]
  | .trtib d s r => [mkW 0xB8 d 2, mkW r.val s 0]
  | .trtirb d s r => [mkW 0xB8 d 6, mkW r.val s 14]
  | .trtdb d s r => [mkW 0xB8 d 10, mkW r.val s 0]
  | .trtdrb d s r => [mkW 0xB8 d 14, mkW r.val s 14]
  | .inIr d s => [mkW 0x3D s d]
  | .inDa d port => [mkW 0x3B d 4, port]
  | .inbIr d s => [mkW 0x3C s d]
  | .inbDa d port => [mkW 0x3A d 4, port]
  | .outIr d s => [mkW 0x3F d s]
  | .outDa port s => [mkW 0x3B s 6, port]
  | .outbIr d s => [mkW 0x3E d s]
  | .outbDa port s => [mkW 0x3A s 6, port]
  | .sin d port => [mkW 0x3B d 5, port]
  | .sinb d port => [mkW 0x3A d 5, port]
  | .sout port s => [mkW 0x3B s 7, port]
  | .soutb port s => [mkW 0x3A s 7, port]
  | .ini d s r => [mkW 0x3B s 0, mkW r.val d 8]
  | .inib d s r => [mkW 0x3A s 0, mkW r.val d 8]
  | .inir d s r => [mkW 0x3B s 0, mkW r.val d 0]
  | .inirb d s r => [mkW 0x3A s 0, mkW r.val d 0]
  | .ind d s r => [mkW 0x3B s 8, mkW r.val d 8]
  | .indb d s r => [mkW 0x3A s 8, mkW r.val d 8]
  | .indr d s r => [mkW 0x3B s 8, mkW r.val d 0]
  | .indrb d s r => [mkW 0x3A s 8, mkW r.val d 0]
  | .outi d s r => [mkW 0x3B s 2, mkW r.val d 8]
  | .outib d s r => [mkW 0x3A s 2, mkW r.val d 8]
  | .otir d s r => [mkW 0x3B s 2, mkW r.val d 0]
  | .otirb d s r => [mkW 0x3A s 2, mkW r.val d 0]
  | .outd d s r => [mkW 0x3B s 10, mkW r.val d 8]
  | .outdb d s r => [mkW 0x3A s 10, mkW r.val d 8]
  | .otdr d s r => [mkW 0x3B s 10, mkW r.val d 0]
  | .otdrb d s r => [mkW 0x3A s 10, mkW r.val d 0]
  | .sini d s r => [mkW 0x3B s 1, mkW r.val d 8]
  | .sinib d s r => [mkW 0x3A s 1, mkW r.val d 8]
  | .sinir d s r => [mkW 0x3B s 1, mkW r.val d 0]
  | .sinirb d s r => [mkW 0x3A s 1, mkW r.val d 0]
  | .sind d s r => [mkW 0x3B s 9, mkW r.val d 8]
  | .sindb d s r => [mkW 0x3A s 9, mkW r.val d 8]
  | .sindr d s r => [mkW 0x3B s 9, mkW r.val d 0]
  | .sindrb d s r => [mkW 0x3A s 9, mkW r.val d 0]
  | .souti d s r => [mkW 0x3B s 3, mkW r.val d 8]
  | .soutib d s r => [mkW 0x3A s 3, mkW r.val d 8]
  | .sotir d s r => [mkW 0x3B s 3, mkW r.val d 0]
  | .sotirb d s r => [mkW 0x3A s 3, mkW r.val d 0]
  | .soutd d s r => [mkW 0x3B s 11, mkW r.val d 8]
  | .soutdb d s r => [mkW 0x3A s 11, mkW r.val d 8]
  | .sotdr d s r => [mkW 0x3B s 11, mkW r.val d 0]
  | .sotdrb d s r => [mkW 0x3A s 11, mkW r.val d 0]
  | .comflg c z s p => [mkW 0x8D (flagNib c z s p) 5]
  | .resflg c z s p => [mkW 0x8D (flagNib c z s p) 3]
  | .setflg c z s p => [mkW 0x8D (flagNib c z s p) 1]
  | .di vi nvi => [mkW 0x7C 0 (intNib 0 (by omega) vi nvi)]
  | .ei vi nvi => [mkW 0x7C 0 (intNib 4 (by omega) vi nvi)]
  | .halt => [mkW 0x7A 0 0]
  | .ldctlWrite c s => [mkW 0x7D s ⟨8 + c.code.val, by omega⟩]
  | .ldctlRead d c => [mkW 0x7D d ⟨c.code.val, by omega⟩]
  | .ldctlbWrite s => [mkW 0x8C s 9]
  | .ldctlbRead d => [mkW 0x8C d 1]
  | .ldps s => mkW (s.enc.mode * 64 + 0x39) s.enc.field 0 :: s.enc.words
  | .mbit => [mkW 0x7B 0 10]
  | .mreq d => [mkW 0x7B d 13]
  | .mres => [mkW 0x7B 0 9]
  | .mset => [mkW 0x7B 0 8]
  | .nop => [mkW 0x8D 0 7]
  | .epuLdmFrom d ii w2 => d.enc.first 0x0F (epuNib 3 ii) :: w2 :: d.enc.words
  | .epuLdmTo s ii w2 => s.enc.first 0x0F (epuNib 1 ii) :: w2 :: s.enc.words
  | .epuLdrFrom x ii w2 => [mkW 0x8F ⟨x.val, by omega⟩ (epuNib 0 ii), w2]
  | .epuLdrTo x ii w2 => [mkW 0x8F ⟨x.val, by omega⟩ (epuNib 2 ii), w2]
  | .epuLdfFrom x ii w2 => [mkW 0x8E x (epuNib 0 ii), w2]
  | .epuLdfTo x ii w2 => [mkW 0x8E x (epuNib 2 ii), w2]
  | .epuOp x ii w2 => [mkW 0x8E x (epuNib 1 ii), w2]

/-! The interface the host's questions use. -/

/-- The first `n` 16-bit words of a number whose bits 15:0 are the first word. -/
def wordsOf (w : Nat) : (n : Nat) → List Word
  | 0 => []
  | n + 1 => BitVec.ofNat 16 w :: wordsOf (w / 65536) n

/-- The bytes of words as they are stored: each word high byte first (R78). -/
def bytesOf : List Word → List Byte
  | [] => []
  | w :: ws => w.hi :: w.lo :: bytesOf ws

/-- Words read from bytes, each word high byte first (R78). -/
def wordsOfBytes : List Byte → List Word
  | h :: l :: bs => (h ++ l) :: wordsOfBytes bs
  | _ => []

/-- The longest instruction has four words (R130). -/
def maxWords : Nat := 4

/-- The bytes of an instruction given as a number of `nbits` bits; all higher bits are 0. -/
def tableBytes (nbits w : Nat) : List Byte := bytesOf (wordsOf (w % 2 ^ nbits) maxWords)

/-- The instruction the decoder reads from the instruction whose bits are `w`, in nonsegmented mode (the mode of
`State.reset` and of spec/opcode_table.json, whose addresses have one word). -/
def decodeTableWord (nbits w : Nat) : Option Instr :=
  match decode false (wordsOfBytes (tableBytes nbits w)) with
  | .ok (i, _) => some i
  | .error _ => none

end Sys2Proof
end

