-- ==== Sys2Proof/Config.lean ====
section
/-! DEFINITION. What one machine fixes (the named parameters of rule R8 and of spec/93) and the free values: constants
without a body, so that no proof can know them (decision D17). -/

namespace Sys2Proof

/-- Which device (parameter `VERSION`, R1, R2, R8). -/
inductive Version where
  | z8001   -- segmented: 7-bit segment numbers
  | z8002   -- nonsegmented
  deriving DecidableEq, Repr

/-- What a region of the memory map is, other than plain RAM (R95, D4). -/
inductive RegionKind where
  /-- Reads as memory does; writes change nothing. -/
  | rom
  /-- Nothing there: writes change nothing, reads return a value the platform chooses. -/
  | absent
  deriving DecidableEq, Repr

/-- A region of memory that is not plain RAM: the bus addresses `first` to `last` (parameter `memory map`, R95, D4). -/
structure Region where
  first : Nat
  last : Nat
  kind : RegionKind
  deriving DecidableEq, Repr

/-- The parameters of one machine; no instruction changes them. -/
structure Config where
  /-- `VERSION` (R8, D1). -/
  version : Version
  /-- `EPA_IMPLEMENTED`: FCW bit 13 exists (R8, R31, R501, D2). -/
  epaImplemented : Bool
  /-- `SPACE_DECODE`: memory tells system from normal accesses (R73, D3). -/
  decodeSystem : Bool
  /-- `SPACE_DECODE`: memory tells program references from the others (R73, D3). -/
  decodeCode : Bool
  /-- `SPACE_DECODE`: memory tells stack references from data references (R73, D3). -/
  decodeStack : Bool
  /-- `SHIFT_V_ANY_STEP`: V records a sign change at any single step of a shift (R340, U21). -/
  shiftVAnyStep : Bool
  /-- `ODD_WORD_ADDR`: a word access ignores address bit 0, where false stops the run (U1). -/
  dropAddressBit0 : Bool
  /-- `MMU_EXC_ALLOWS_1100`: an execute-only segment admits every program reference (R111, U14). -/
  mmuExcAllows1100 : Bool
  /-- LDAR leaves the reserved bits of its pair undefined, as U12 asks, where false clears them, as R216 and R81 state
  (log 51: the spec decides nowhere between the two). -/
  ldarReservedFree : Bool
  /-- `memory map`: the regions that are not plain RAM (R95, D4). -/
  memMap : List Region
  deriving DecidableEq, Repr

/-- The defaults of rule R8 and spec/93. `VERSION` has none; the machine that `State.reset` shows is a Z8002
(DESIGN CHOICE, log 1). `ldarReservedFree` is the model's own, by default as the rules R216 and R81 say (log 51). -/
def Config.default : Config :=
  { version := .z8002, epaImplemented := true, decodeSystem := false, decodeCode := false,
    decodeStack := false, shiftVAnyStep := false, dropAddressBit0 := false, mmuExcAllows1100 := true,
    ldarReservedFree := false, memMap := [] }

/-- FREE VALUE (D17, log 2): the value of an undefined flag, register or bus read. Nothing is known of it: it has no
body. It is applied to a counter that the machine advances at each use (`State.freeCount`), so that each use is a
fresh value. -/
opaque Config.freeBits : (width : Nat) → (count : Nat) → BitVec width

end Sys2Proof
end

