-- ==== Sys2Proof/Machine/State.lean ====
section
/-! DEFINITION. Everything the spec gives the machine to hold, as plain data (rule R20 and rule R50; INVENTORY.md lists
each field with its rule), the ways a step can stop, and the machine right after reset. -/

namespace Sys2Proof.Machine

/-- Why the machine stops on data a program gave it. -/
inductive Fault where
  /-- A word or long-word access, or an instruction fetch, at an odd address (U1, U19; R80: "the results are
  undefined"). Raised by every word access of `Ops`. Safe: the model stops where the hardware goes on. -/
  | oddWordAddress
  deriving DecidableEq, Repr

/-- Why the machine has no meaning for what it is to run. -/
inductive Refusal where
  /-- An instruction of the table without a meaning in this model; raised by arms of `exec` alone. Safe. -/
  | notModelled (mnemonic : String)
  /-- Words that are no instruction of the sources, or one with field values they forbid (U2, U5, U6, U11, U15, U20,
  U22, U23, U25, U27). Raised by the fetch. Safe: "the result is undefined" (R156). -/
  | reservedEncoding
  /-- LDCTL with PSAPSEG or NSPSEG outside segmented mode (U10, "may not be used"). Raised by LDCTL. Safe. -/
  | controlRegisterAbsent
  /-- IRET on a Z8001 with FCW.SEG = 0 (U18, R308, "undefined"). Raised by IRET. Safe. -/
  | iretNonsegmented
  /-- An instruction changed the first word of the instruction that follows it (U13, D9): the fetch may or may not
  have been made already. Raised by the step. Safe. -/
  | storeIntoNextInstruction
  deriving DecidableEq, Repr

/-- The Flag and Control Word (R31). Its reserved bits 10, 9, 8, 1, 0 are always zero (D7), so the eleven bits below are
all of it; `Fcw.toWord` and `Fcw.ofWord` give its word form. -/
structure Fcw where
  /-- Bit 15, segmented mode (R32). -/
  seg : Bool
  /-- Bit 14, S/N: system mode (R33). -/
  sn : Bool
  /-- Bit 13, an EPU is present (R34, R501). -/
  epa : Bool
  /-- Bit 12, vectored interrupts enabled (R35). -/
  vie : Bool
  /-- Bit 11, non-vectored interrupts enabled (R35). -/
  nvie : Bool
  /-- Bit 7, carry (R37). -/
  c : Bool
  /-- Bit 6, zero (R38). -/
  z : Bool
  /-- Bit 5, sign (R39). -/
  s : Bool
  /-- Bit 4, parity or overflow (R40). -/
  pv : Bool
  /-- Bit 3, decimal adjust (R41). -/
  d : Bool
  /-- Bit 2, half carry (R42). -/
  h : Bool
  deriving DecidableEq, Repr

/-- The refresh register (R46): RE, RATE, and bits 8:1 of ROW (bit 0 of ROW is always 0). -/
structure Refresh where
  re : Bool
  rate : BitVec 6
  row : BitVec 8
  deriving DecidableEq, Repr

/-- A logical address: segment number and offset (R25, R70). The segment is 0 on a Z8002. -/
structure Addr where
  seg : BitVec 7
  off : Word
  deriving DecidableEq, Repr

/-- The levels on the CPU's input pins, as a step finds them (R7, D5, D6). `true` means the active level: low. -/
structure Pins where
  /-- RESET (R700). -/
  reset : Bool
  /-- BUSREQ (R707). -/
  busreq : Bool
  /-- STOP (R706). -/
  stop : Bool
  /-- NMI; a change from high to low sets the latch (R607, R608). -/
  nmi : Bool
  /-- SEGT, Z8001 only (R606). -/
  segt : Bool
  /-- VI (R608). -/
  vi : Bool
  /-- NVI (R608). -/
  nvi : Bool
  /-- MI as MBIT and the first test of MREQ see it (R480, R481). -/
  mi : Bool
  /-- MI as the second test of MREQ sees it (R481). -/
  miSecond : Bool
  /-- The word devices put on the bus in an acknowledge transaction of this step (R619). -/
  ackWord : Word
  /-- STOP as it is sampled before the second word of an extended instruction with FCW.EPA = 1 (R510(e), R706). -/
  stopSecond : Bool
  /-- RESET falls inside this step, at the place of this number among those of `resetPoint`, the first being 0; `none` when
  it does not (R702). -/
  resetBefore : Option Nat
  deriving DecidableEq, Repr

/-- All pins inactive. -/
def Pins.idle : Pins :=
  { reset := false, busreq := false, stop := false, nmi := false, segt := false, vi := false, nvi := false,
    mi := false, miSecond := false, ackWord := 0, stopSecond := false, resetBefore := none }

/-- The external requests a sample of the pins shows (R607). -/
structure Requests where
  nmi : Bool
  segt : Bool
  vi : Bool
  nvi : Bool
  deriving DecidableEq, Repr

/-- No request. -/
def Requests.quiet : Requests := { nmi := false, segt := false, vi := false, nvi := false }

/-- One segment descriptor of a Z8010 (R100, R101). -/
structure Descriptor where
  base : Word
  limit : Byte
  attr : Byte
  deriving DecidableEq, Repr

/-- One Z8010 memory management unit (R100). `select`, `csAtReset` are the board's wiring (D15): the low byte of the
special I/O port addresses that select it, and whether its chip select is low during reset (R120). -/
structure Mmu where
  select : Byte
  csAtReset : Bool
  /-- Mode register (R102): bit 7 MSEN, 6 TRNS, 5 URS, 4 MST, 3 NMS, 2:0 ID (positions: G1, PRESUMED, log 36). -/
  mode : Byte
  /-- Segment Address Register (R103). -/
  sar : BitVec 6
  /-- Descriptor Selection Counter (R103). -/
  dsc : BitVec 2
  /-- Violation Type Register (R104): bit 0 RDV, 1 SYSV, 2 CPUIV, 3 EXCV, 4 SLV, 5 PWW, 6 SWW, 7 FATL (G1, log 36). -/
  vtr : Byte
  /-- Violation Segment Number (R104). -/
  vsn : Byte
  /-- Violation Offset, high byte (R104). -/
  voff : Byte
  /-- Bus Cycle Status (R104): bits 7:4 ST3-ST0, 3 R/W, 2 N/S (G1, log 36). -/
  bcs : Byte
  /-- Instruction Segment Number (R104). -/
  isn : Byte
  /-- Instruction Offset, high byte (R104). -/
  ioff : Byte
  /-- The 64 segment descriptors (R100). -/
  descs : Vector Descriptor 64
  /-- The Suppress line is asserted until the end of the instruction (R112). -/
  suppress : Bool
  /-- The SEGT line is asserted until the acknowledge (R112, R116). -/
  segt : Bool
  deriving DecidableEq, Repr

/-- The two I/O address spaces (R76). -/
inductive IoSpace where
  | standard | special
  deriving DecidableEq, Repr

/-- The seven exceptions that enter through the Program Status Area (R600). -/
inductive Exc where
  | extended | privileged | systemCall | segment | nmi | nvi | vi
  deriving DecidableEq, Repr

/-- The lines that say what a bus transaction is (R72): the status code ST3-ST0, R/W (true: read), B/W (true: word), and
N/S (true: system). -/
structure BusLines where
  status : BitVec 4
  read : Bool
  word : Bool
  system : Bool
  deriving DecidableEq, Repr

/-- A transaction of the CPU that memory does not show, or one an EPU takes part in (R76, R500, R618, R619). -/
inductive BusEvent where
  | ioRead (space : IoSpace) (port : Word) (bytes : Nat) (value : Word)
  | ioWrite (space : IoSpace) (port : Word) (bytes : Nat) (value : Word)
  /-- The aborted first-word fetch before an acknowledge, in the mode of the old FCW (R618). -/
  | abortedFetch (pc : Addr) (system : Bool)
  | acknowledge (kind : Exc) (id : Word)
  /-- Every EPU sees the two instruction words: no transaction beyond their fetches (R500). -/
  | epuNote (w1 w2 : Word)
  /-- The EPU reads word `i` from the bus, in a transaction with these lines (R500, R510). -/
  | epuTake (lines : BusLines) (i : Nat) (v : Word)
  /-- The EPU puts word `i` on the bus, in a transaction with these lines (R500, R510). -/
  | epuGive (lines : BusLines) (i : Nat) (v : Word)
  deriving DecidableEq, Repr

/-- Memory: the bytes that differ from what an unlisted address reads as, addresses strictly rising (R70). -/
abbrev Memory := List Host.Cell

/-- The machine. Fields marked "model's own" are not the spec's state: they are how one deterministic step sees the
environment and the free values. -/
structure State where
  /-- The parameters of the machine (R8); no step changes them. -/
  cfg : Config
  /-- R0 to R15 (R21); entries 14 and 15 are the normal copies (R22, R47). -/
  regs : Vector Word 16
  /-- The system copy of R14, Z8001 (R22). -/
  sysR14 : Word
  /-- The system copy of R15 (R22). -/
  sysR15 : Word
  /-- PC segment number, Z8001 (R25). -/
  pcSeg : BitVec 7
  /-- PC offset (R25). -/
  pcOff : Word
  /-- Flag and Control Word (R31). -/
  fcw : Fcw
  /-- PSAPSEG bits 14:8, Z8001 (R45). -/
  psapSeg : BitVec 7
  /-- PSAPOFF bits 15:8 (R45). -/
  psapOff : Byte
  /-- Refresh register (R46). -/
  refresh : Refresh
  /-- Model's own: refresh transactions may have stepped ROW since it was loaded (R96, D10, log 13). -/
  rowStepped : Bool
  /-- HALT is in effect (R50(d), R474). -/
  halted : Bool
  /-- The NMI latch (R50(a), R608). -/
  nmiLatch : Bool
  /-- The MO output is low, its active level (R50(h), R486). -/
  moLow : Bool
  /-- The requests of the last sample taken while halted (R607(d)). -/
  haltSample : Requests
  /-- A first-word fetch that STOP or a bus grant holds up, and what it is: an instruction's (`some none`), or the aborted
  one of an accepted request (`some (some k)`). The requests are not looked at again before it ends (R706, R707). -/
  held : Option (Option Exc)
  /-- RESET has been low and the reset sequence, which follows its release, is still to come (R700). -/
  resetting : Bool
  /-- Memory (R70). -/
  mem : Memory
  /-- The Z8010 units of the platform (R100, D15), none by default; a Z8002 system has none (R4), and there the list takes
  no part in anything (`State.units`). -/
  mmus : List Mmu
  /-- Model's own: the pin levels this step sees (R7, log 20). -/
  pins : Pins
  /-- Model's own: the pin levels of the steps to come; when none is left the levels stay (log 20). -/
  schedule : List Pins
  /-- Model's own: how many more places of `resetPoint` are passed before RESET falls inside the step; `none` when it does
  not (R702, log 44). -/
  resetIn : Option Nat
  /-- Model's own: the values devices supply to the coming I/O reads (R76, log 21). -/
  ioIn : List Word
  /-- Model's own: the values EPUs supply to the coming `EpuGive` and `EpuFlags` (R500, log 34). -/
  epuIn : List Word
  /-- Model's own: the transactions so far that memory does not show, the latest first (log 21). -/
  events : List BusEvent
  /-- Model's own: the address (offset) of the first word of the current instruction, `PC_instr` (R371, R620). -/
  instrPc : Word
  /-- Model's own: the first word of the current instruction, the identifier of internal traps (R603, R604). -/
  ir : Word
  /-- Model's own: how many free values have been used (D17, log 2). -/
  freeCount : Nat
  deriving DecidableEq, Repr

/-- What the machine does not have yet: nothing has run and nothing is placed. The fields that reset sets are at the
values of rule R700 for a memory of zeros: the word at 0002 gives FCW = 0 and the word at 0004 gives PC = 0 (log 3).
The rest are values this model names where the spec gives none (R60: "unspecified"; log 4, log 5, log 6). -/
def State.reset : State :=
  { cfg := Config.default
    regs := Vector.replicate 16 0
    sysR14 := 0
    sysR15 := 0
    pcSeg := 0
    pcOff := 0
    fcw := { seg := false, sn := false, epa := false, vie := false, nvie := false, c := false, z := false,
             s := false, pv := false, d := false, h := false }
    psapSeg := 0
    psapOff := 0
    refresh := { re := false, rate := 0, row := 0 }
    rowStepped := false
    halted := false
    nmiLatch := false
    moLow := false
    haltSample := Requests.quiet
    held := none
    resetting := false
    mem := []
    mmus := []
    pins := Pins.idle
    schedule := []
    resetIn := none
    ioIn := []
    epuIn := []
    events := []
    instrPc := 0
    ir := 0
    freeCount := 0 }

end Sys2Proof.Machine
end

