-- ==== Sys2Proof/Machine/Memory.lean ====
section
/-! DEFINITION. Memory as data: reading, writing and its canonical form (R70, R78). -/

namespace Sys2Proof.Machine

/-- What an address that nothing has written reads as. The spec gives no value (R60, D4): a byte of zeros is this
model's choice (DESIGN CHOICE, log 6, unsafe). -/
def Memory.blank : Byte := 0

/-- The byte at an address. -/
def Memory.read : Memory → Nat → Byte
  | [], _ => Memory.blank
  | (k, v) :: m, a => if a = k then v else Memory.read m a

/-- Write a byte and keep the canonical form: writing the blank value removes the entry. -/
def Memory.write : Memory → Nat → Byte → Memory
  | [], a, v => if v = Memory.blank then [] else [(a, v)]
  | (k, u) :: m, a, v =>
    if a < k then (if v = Memory.blank then (k, u) :: m else (a, v) :: (k, u) :: m)
    else if a = k then (if v = Memory.blank then m else (a, v) :: m)
    else (k, u) :: Memory.write m a v

/-- The canonical form: addresses strictly rising, and no entry equal to what an unlisted address reads as. -/
def Memory.wf : Memory → Bool
  | [] => true
  | (k, v) :: m =>
    v != Memory.blank && (match m with
      | [] => true
      | (k', _) :: _ => decide (k < k')) && Memory.wf m

/-- The word whose high byte is at `a` (R78). -/
def Memory.readWord (m : Memory) (a : Nat) : Word := m.read a ++ m.read (a + 1)

/-- Write a word with its high byte at `a` (R78). -/
def Memory.writeWord (m : Memory) (a : Nat) (v : Word) : Memory :=
  (m.write a (v.extractLsb' 8 8)).write (a + 1) (v.extractLsb' 0 8)

end Sys2Proof.Machine
end

