-- ==== Sys2Proof/Machine/Mmu.lean ====
section
/-! DEFINITION. Bus transactions and the optional Z8010 memory management units that see them (R72 to R74, R100 to R124). -/

namespace Sys2Proof.Machine

/-- The label a memory transaction carries (R74). `trapStack` is a stack push of the segment trap's own entry, for which
an MMU generates no Suppress (R116). -/
inductive Label where
  | ifetch | code | data | stack | epuData | epuStack | trapStack
  deriving DecidableEq, Repr

/-- The kinds of bus transactions (R72). -/
inductive BusKind where
  | internal | refresh | standardIo | specialIo
  | segmentAcknowledge | nmiAcknowledge | nviAcknowledge | viAcknowledge
  | data | stack | epuData | epuStack | code | ifetch | epuCpu
  deriving DecidableEq, Repr

/-- The status code ST3-ST0 of each kind (R72); 1111 is reserved. -/
def BusKind.status : BusKind → BitVec 4
  | .internal => 0b0000
  | .refresh => 0b0001
  | .standardIo => 0b0010
  | .specialIo => 0b0011
  | .segmentAcknowledge => 0b0100
  | .nmiAcknowledge => 0b0101
  | .nviAcknowledge => 0b0110
  | .viAcknowledge => 0b0111
  | .data => 0b1000
  | .stack => 0b1001
  | .epuData => 0b1010
  | .epuStack => 0b1011
  | .code => 0b1100
  | .ifetch => 0b1101
  | .epuCpu => 0b1110

/-- The kind of transaction a label names (R74). -/
def Label.kind : Label → BusKind
  | .ifetch => .ifetch
  | .code => .code
  | .data => .data
  | .stack => .stack
  | .epuData => .epuData
  | .epuStack => .epuStack
  | .trapStack => .stack

/-- The status code ST3-ST0 of a memory transaction (R72). -/
def Label.status (l : Label) : BitVec 4 := l.kind.status

/-- The kind of an I/O transaction (R76). -/
def IoSpace.kind : IoSpace → BusKind
  | .standard => .standardIo
  | .special => .specialIo

/-- The kind of an acknowledge transaction (R619); the internal traps have none. -/
def Exc.acknowledgeKind : Exc → Option BusKind
  | .segment => some .segmentAcknowledge
  | .nmi => some .nmiAcknowledge
  | .nvi => some .nviAcknowledge
  | .vi => some .viAcknowledge
  | .extended | .privileged | .systemCall => none

/-- The lines of the transaction an event records; N/S shows system in I/O and acknowledge transactions (R72, R619).
`epuNote` records no transaction of its own. -/
def BusEvent.lines : BusEvent → Option BusLines
  | .ioRead sp _ n _ => some { status := sp.kind.status, read := true, word := n == 2, system := true }
  | .ioWrite sp _ n _ => some { status := sp.kind.status, read := false, word := n == 2, system := true }
  | .abortedFetch _ sys => some { status := BusKind.ifetch.status, read := true, word := true, system := sys }
  | .acknowledge k _ =>
    k.acknowledgeKind.map fun b => { status := b.status, read := true, word := true, system := true }
  | .epuNote _ _ => none
  | .epuTake b _ _ => some b
  | .epuGive b _ _ => some b

/-- A program reference (R73: CODE covers 1100 and 1101). -/
def Label.isCode : Label → Bool
  | .ifetch => true
  | .code => true
  | _ => false

/-- A stack reference. -/
def Label.isStack : Label → Bool
  | .stack => true
  | .epuStack => true
  | .trapStack => true
  | _ => false

/-- The same reference when an EPU moves the data (R510). -/
def Label.epu : Label → Label
  | .stack => .epuStack
  | _ => .epuData

/-- One memory transaction as the bus shows it (R72, R124). -/
structure Access where
  addr : Addr
  label : Label
  /-- N/S shows system. -/
  sys : Bool
  write : Bool
  /-- B/W shows word. -/
  word : Bool
  deriving DecidableEq, Repr

/-- The lines of a memory transaction (R72). -/
def Access.lines (a : Access) : BusLines :=
  { status := a.label.status, read := !a.write, word := a.word, system := a.sys }

/-- Which of the memories of `SPACE_DECODE` a label reaches (R73, D3): without decoding all labels reach memory 0. -/
def spaceIndex (cfg : Config) (sys : Bool) (l : Label) : Nat :=
  (if cfg.decodeSystem && sys then 1 else 0) +
    (if cfg.decodeCode && l.isCode then 2 else if cfg.decodeStack && l.isStack then 4 else 0)

/-- The place of a 24-bit bus address in `State.mem`. -/
def memKey (cfg : Config) (sys : Bool) (l : Label) (phys : Nat) : Nat := spaceIndex cfg sys l * 2 ^ 24 + phys

/-- Does memory take part in an access at this place (R95, D4)? Plain RAM does; ROM does not take writes, and absent
memory takes nothing. -/
def admits (cfg : Config) (write : Bool) (key : Nat) : Bool :=
  cfg.memMap.all fun r =>
    !(decide (r.first ≤ key) && decide (key ≤ r.last) && (write || r.kind == .absent))

/-- The logical address as a bus address: without translation it is the physical address (R90). -/
def Addr.flat (a : Addr) : Nat := a.seg.toNat * 65536 + a.off.toNat

/-- Address arithmetic: the offset wraps, the segment never changes (R84). -/
def Addr.add (a : Addr) (k : Word) : Addr := { a with off := a.off + k }

/-! Fields of the Z8010's registers (bit positions G1, PRESUMED, log 36). -/

/-- Master Enable (R102). -/
def Mmu.msen (m : Mmu) : Bool := m.mode.getLsbD 7
/-- Translate (R102). -/
def Mmu.trns (m : Mmu) : Bool := m.mode.getLsbD 6
/-- Upper Range Select (R102). -/
def Mmu.urs (m : Mmu) : Bool := m.mode.getLsbD 5
/-- Multiple Segment Tables (R102). -/
def Mmu.mst (m : Mmu) : Bool := m.mode.getLsbD 4
/-- Normal Mode Select: the N/S level served, 1 for normal (R102). -/
def Mmu.nms (m : Mmu) : Bool := m.mode.getLsbD 3
/-- The ID field (R102). -/
def Mmu.id (m : Mmu) : Nat := m.mode.toNat % 8

/-- The high byte of an offset. -/
def offHigh (off : Word) : Byte := off.extractLsb' 8 8

/-- Does this MMU respond to the access (R110)? -/
def Mmu.responds (m : Mmu) (a : Access) : Bool :=
  m.msen && (m.urs == a.addr.seg.getLsbD 6) && (!m.mst || m.nms == !a.sys)

/-- The number of the descriptor an access selects: the low six bits of the segment (R110). -/
def descIndex (seg : BitVec 7) : Fin 64 := ⟨seg.toNat % 64, by omega⟩

/-- The descriptor an access selects. -/
def Mmu.desc (m : Mmu) (a : Access) : Descriptor := m.descs[descIndex a.addr.seg]

/-- The physical address a responding MMU puts out (R110, and R102 for TRNS = 0). -/
def Mmu.phys (m : Mmu) (a : Access) : Nat :=
  if m.trns then
    ((m.desc a).base.toNat + (offHigh a.addr.off).toNat) % 65536 * 256 + a.addr.off.toNat % 256
  else a.addr.flat

/-- The checks of rule R111 on a CPU access, as the VTR flags they set (R112). -/
def Mmu.violations (cfg : Config) (m : Mmu) (a : Access) : Byte :=
  let d := m.desc a
  let b := offHigh a.addr.off
  let rdv := d.attr.getLsbD 0 && a.write
  let sysv := d.attr.getLsbD 1 && !a.sys
  let cpuiv := d.attr.getLsbD 2
  let excv := d.attr.getLsbD 3 && !(if cfg.mmuExcAllows1100 then a.label.isCode else a.label == Label.ifetch)
  let slv := if d.attr.getLsbD 5 then b.toNat < d.limit.toNat else d.limit.toNat < b.toNat
  BitVec.ofNat 8 (rdv.toNat + 2 * sysv.toNat + 4 * cpuiv.toNat + 8 * excv.toNat + 16 * (decide slv).toNat)

/-- The write warning of rule R111 (6). -/
def Mmu.warning (m : Mmu) (a : Access) : Bool :=
  let d := m.desc a
  d.attr.getLsbD 5 && a.write && offHigh a.addr.off == d.limit

/-- The BCS value of an access (R104; layout G1, log 36). -/
def busCycleStatus (a : Access) : Byte :=
  BitVec.ofNat 8 (a.label.status.toNat * 16 + (!a.write).toNat * 8 + (!a.sys).toNat * 4)

/-- Record a violating or warning access in VSN, VOFF, BCS (R104, R112). Bit 7 of VSN, above the 7-bit segment number, is
zero, as it is of ISN (DESIGN CHOICE, log 38: R104 does not speak of it). -/
def Mmu.record (m : Mmu) (a : Access) : Mmu :=
  { m with vsn := a.addr.seg.setWidth 8, voff := offHigh a.addr.off, bcs := busCycleStatus a }

/-- Mark the descriptor of an access without violation: REF, and CHG for a write (R101, R112). -/
def Mmu.mark (m : Mmu) (a : Access) : Mmu :=
  let d := m.desc a
  let attr := d.attr ||| 0x80 ||| (if a.write then 0x40 else 0)
  { m with descs := m.descs.set (descIndex a.addr.seg) { d with attr := attr } }

/-- What a responding, translating MMU does with an access (R112). A write warning while a flag is set, in system mode and
not of a stack push, sets no flag and requests nothing: R112 names neither (DESIGN CHOICE, log 38). -/
def Mmu.check (cfg : Config) (m : Mmu) (a : Access) : Mmu :=
  let v := m.violations cfg a
  let pending := m.vtr != 0
  if v != 0 then
    let m1 := { m with suppress := m.suppress || a.label != Label.trapStack }
    if pending then { m1 with vtr := m.vtr ||| v ||| 0x80 }
    else { (m1.record a) with vtr := m.vtr ||| v, segt := true }
  else
    let m1 := m.mark a
    if m.warning a then
      if !pending then { (m1.record a) with vtr := m.vtr ||| 0x20, segt := true }
      else if a.sys && a.label.status == 0b1001 then
        if m.vtr.getLsbD 6 then m1 else { m1 with vtr := m.vtr ||| 0x40, segt := true }
      else if a.sys then m1
      else { m1 with vtr := m.vtr ||| 0x80 }
    else m1

/-- A violation is recorded: RDV, SYSV, CPUIV, EXCV or SLV is set. A write warning (PWW, SWW) is none (R111, R112). -/
def Mmu.violated (m : Mmu) : Bool := m.vtr &&& 0x1F != 0

/-- ISN and IOFF of an enabled MMU follow the first-word fetches until the first violation freezes them (R102, R104,
R112); every first-word fetch counts, whether the MMU responds to it or not and whatever TRNS is (DESIGN CHOICE, log 38). -/
def Mmu.track (m : Mmu) (a : Access) : Mmu :=
  if a.label = .ifetch ∧ m.msen = true ∧ m.violated = false then
    { m with isn := a.addr.seg.setWidth 8, ioff := offHigh a.addr.off }
  else m

/-- The MMUs of the platform after an access, and the bus address: the first one that responds checks and translates;
where none responds the logical address passes (DESIGN CHOICE, log 37: R110 leaves it to the platform). One that responds
with TRNS = 0 marks neither REF nor CHG (DESIGN CHOICE, log 38: R101 speaks of any access, R102 of no checking). -/
def mmuAccess (cfg : Config) (a : Access) : List Mmu → List Mmu × Nat
  | [] => ([], a.addr.flat)
  | m :: ms =>
    if m.responds a then ((if m.trns then m.check cfg a else m) :: ms, m.phys a)
    else
      let (ms', p) := mmuAccess cfg a ms
      (m :: ms', p)

/-- The bus address of an access without its effects on the MMUs. -/
def mmuPhys (a : Access) : List Mmu → Nat
  | [] => a.addr.flat
  | m :: ms => if m.responds a then m.phys a else mmuPhys a ms

/-! Commands (R118): the high byte of the port address. -/

/-- The descriptor SAR selects. -/
def Mmu.current (m : Mmu) : Descriptor := m.descs[(⟨m.sar.toNat % 64, by omega⟩ : Fin 64)]

/-- Replace the descriptor SAR selects. -/
def Mmu.setCurrent (m : Mmu) (d : Descriptor) : Mmu :=
  { m with descs := m.descs.set (⟨m.sar.toNat % 64, by omega⟩ : Fin 64) d }

/-- Byte `k` of a descriptor: base high, base low, limit, attributes (R103). -/
def Descriptor.byte (d : Descriptor) (k : Nat) : Byte :=
  match k with
  | 0 => d.base.extractLsb' 8 8
  | 1 => d.base.extractLsb' 0 8
  | 2 => d.limit
  | _ => d.attr

/-- Replace byte `k` of a descriptor. -/
def Descriptor.setByte (d : Descriptor) (k : Nat) (v : Byte) : Descriptor :=
  match k with
  | 0 => { d with base := v ++ d.base.extractLsb' 0 8 }
  | 1 => { d with base := d.base.extractLsb' 8 8 ++ v }
  | 2 => { d with limit := v }
  | _ => { d with attr := v }

/-- A descriptor command (R118, R103): which byte of the descriptor it moves, the DSC after it, and whether the field is
complete. `none` for the commands that are not descriptor commands. The base field counts by the low bit of DSC
(DESIGN CHOICE for a DSC of 2 or 3, log 37). A whole-descriptor command (0B, 0F) begun with DSC 1, 2 or 3 starts at that
byte, ends its field at byte 3 and leaves DSC 0 (DESIGN CHOICE, log 37: R103 tells only of a field begun at its first
byte). -/
def Mmu.field (m : Mmu) (cmd : Nat) : Option (Nat × BitVec 2 × Bool) :=
  match cmd % 4, cmd with
  | 0, 0x08 => some (m.dsc.toNat % 2, if m.dsc.toNat % 2 = 0 then m.dsc + 1 else m.dsc - 1, m.dsc.toNat % 2 = 1)
  | 0, 0x0C => some (m.dsc.toNat % 2, if m.dsc.toNat % 2 = 0 then m.dsc + 1 else m.dsc - 1, m.dsc.toNat % 2 = 1)
  | 1, 0x09 => some (2, m.dsc, true)
  | 1, 0x0D => some (2, m.dsc, true)
  | 2, 0x0A => some (3, m.dsc, true)
  | 2, 0x0E => some (3, m.dsc, true)
  | 3, 0x0B => some (m.dsc.toNat, m.dsc + 1, m.dsc = 3)
  | 3, 0x0F => some (m.dsc.toNat, m.dsc + 1, m.dsc = 3)
  | _, _ => none

/-- The counters after one byte of a descriptor command: commands 0C to 0F step SAR at the end of the field (R103). -/
def Mmu.advance (m : Mmu) (cmd : Nat) (dsc : BitVec 2) (done : Bool) : Mmu :=
  { m with dsc := dsc, sar := if done && 0x0C ≤ cmd then m.sar + 1 else m.sar }

/-- The byte a command reads and the MMU after it; `none` where rule R118 defines no value read. Commands 11, 13, 14, 15
and 16 act on a write alone, and a read of them changes nothing (DESIGN CHOICE, log 37: R118 gives them no direction). The
unused bits of the bytes that commands 01 and 20 read, above SAR and DSC, are zeros (DESIGN CHOICE, log 37: R103 gives the
places of the fields alone). -/
def Mmu.readCommand (m : Mmu) (cmd : Nat) : Option Byte × Mmu :=
  match m.field cmd with
  | some (k, dsc, done) => (some (m.current.byte k), m.advance cmd dsc done)
  | none =>
    match cmd with
    | 0x00 => (some m.mode, m)
    | 0x01 => (some (m.sar.setWidth 8), m)
    | 0x20 => (some (m.dsc.setWidth 8), m)
    | 0x02 => (some m.vtr, m)
    | 0x03 => (some m.vsn, m)
    | 0x04 => (some m.voff, m)
    | 0x05 => (some m.bcs, m)
    | 0x06 => (some m.isn, m)
    | 0x07 => (some m.ioff, m)
    | _ => (none, m)

/-- The MMU after a command that writes a byte (R118); codes it does not define do nothing (log 37). -/
def Mmu.writeCommand (m : Mmu) (cmd : Nat) (v : Byte) : Mmu :=
  match m.field cmd with
  | some (k, dsc, done) => (m.setCurrent (m.current.setByte k v)).advance cmd dsc done
  | none =>
    match cmd with
    | 0x00 => { m with mode := v }
    | 0x01 => { m with sar := v.setWidth 6 }
    | 0x20 => { m with dsc := v.setWidth 2 }
    | 0x11 => { m with vtr := 0 }
    | 0x13 => { m with vtr := m.vtr &&& 0xBF }
    | 0x14 => { m with vtr := m.vtr &&& 0x7F }
    | 0x15 => { m with descs := m.descs.map fun d => { d with attr := d.attr ||| 0x04 } }
    | 0x16 => { m with descs := m.descs.map fun d => { d with attr := d.attr ||| 0x10 } }
    | _ => m

/-- MMU reset (R120): Mode, VTR and DSC are cleared, MSEN is set if the chip select is low; "all other registers
undefined": free values numbered from `n`. The SEGT and Suppress outputs are released (DESIGN CHOICE, log 38: R120 names
registers alone). -/
def Mmu.resetFrom (m : Mmu) (n : Nat) : Mmu :=
  { m with
    mode := if m.csAtReset then 0x80 else 0
    vtr := 0
    dsc := 0
    sar := Config.freeBits 6 n
    vsn := Config.freeBits 8 (n + 1)
    voff := Config.freeBits 8 (n + 2)
    bcs := Config.freeBits 8 (n + 3)
    isn := Config.freeBits 8 (n + 4)
    ioff := Config.freeBits 8 (n + 5)
    descs := Vector.ofFn fun i : Fin 64 =>
      { base := Config.freeBits 16 (n + 6 + i.val), limit := Config.freeBits 8 (n + 70 + i.val),
        attr := Config.freeBits 8 (n + 134 + i.val) }
    suppress := false
    segt := false }

/-- How many free values one MMU's reset uses. -/
def mmuFreeValues : Nat := 198

/-- All MMUs after reset. -/
def resetMmus : List Mmu → Nat → List Mmu
  | [], _ => []
  | m :: ms, n => m.resetFrom n :: resetMmus ms (n + mmuFreeValues)

/-- The high byte of the word MMUs drive in a segment trap acknowledge: line `i` shows whether an MMU with ID `i`
requested the trap; a line no MMU drives floats and shows what the environment puts there (R116). Every unit drives its
line, a disabled one (MSEN = 0) too (DESIGN CHOICE, log 38: R102 has such a unit do nothing, R116 makes no exception); of
several with one ID any that requested it makes it a 1 (DESIGN CHOICE, log 38). -/
def mmuAckByte (ms : List Mmu) (floating : Byte) : Byte :=
  BitVec.ofNat 8 <| (List.range 8).foldl (init := 0) fun acc i =>
    acc + (if ms.any (fun m => m.id == i) then (ms.any fun m => m.id == i && m.segt).toNat
      else (floating.getLsbD i).toNat) * 2 ^ i

end Sys2Proof.Machine
end

