-- ==== Sys2Proof/Machine/Ops.lean ====
section
/-! DEFINITION. The named operations of the machine: registers, memory, stack, status, input and output, taking an
exception and returning from one, reset. Instruction meanings are written over these. -/

namespace Sys2Proof.Machine

/-- The ways an operation ends early: the two that stop the run, and RESET falling inside an instruction, which abandons it
with the state as it then is (R702). -/
inductive Stop where
  | fault (f : Fault)
  | refused (r : Refusal)
  | abandoned (s : State)
  deriving DecidableEq, Repr

/-- An operation: it reads and changes the state, or stops. -/
abbrev M := StateT State (Except Stop)

/-- What an instruction's meaning answers. -/
abbrev Out := Host.Outcome State Fault Refusal

/-- The outcome of an operation, as the host reads it; an abandoned instruction leaves what it had done (R702). -/
def M.run (x : M Unit) (s : State) : Out :=
  match x s with
  | .ok ((), s') => .next s'
  | .error (.abandoned s') => .next s'
  | .error (.fault f) => .fault f
  | .error (.refused r) => .refused r

/-- Stop with a fault. -/
def M.fault {α : Type} (f : Fault) : M α := fun _ => .error (.fault f)

/-- Stop with a refusal. -/
def M.refuse {α : Type} (r : Refusal) : M α := fun _ => .error (.refused r)

/-- A FREE VALUE (D17): `width` bits that nothing constrains, a fresh one at each use. -/
def free (width : Nat) : M (BitVec width) := fun s =>
  .ok (Config.freeBits width s.freeCount, { s with freeCount := s.freeCount + 1 })

/-- A free bit, for an undefined flag (U3). -/
def freeBool : M Bool := do
  let b ← free 1
  pure (b.getLsbD 0)

/-! Mode and registers. -/

/-- Segmented mode: a Z8001 with FCW.SEG = 1 (R32). -/
def State.isSeg (s : State) : Bool := s.cfg.version == .z8001 && s.fcw.seg

/-- The word register `n` as the current mode sees it (R22). -/
def State.reg (s : State) (n : Reg) : Word :=
  if n = 15 ∧ s.fcw.sn = true then s.sysR15
  else if n = 14 ∧ s.fcw.sn = true ∧ s.isSeg = true then s.sysR14
  else s.regs[n]

/-- Write the word register `n` as the current mode sees it (R22). -/
def State.setReg (s : State) (n : Reg) (v : Word) : State :=
  if n = 15 ∧ s.fcw.sn = true then { s with sysR15 := v }
  else if n = 14 ∧ s.fcw.sn = true ∧ s.isSeg = true then { s with sysR14 := v }
  else { s with regs := s.regs.set n v }

/-- The byte register `n`: RH0 to RH7, then RL0 to RL7 (R21). -/
def State.regB (s : State) (n : Reg) : Byte :=
  if n.val < 8 then (s.reg n).extractLsb' 8 8 else (s.reg n.wordOfByte).extractLsb' 0 8

/-- Write a byte register; the other byte of its word stays (R200). -/
def State.setRegB (s : State) (n : Reg) (v : Byte) : State :=
  if n.val < 8 then s.setReg n (v ++ (s.reg n).extractLsb' 0 8)
  else s.setReg n.wordOfByte ((s.reg n.wordOfByte).extractLsb' 8 8 ++ v)

/-- The register pair `n`: the high word in Rn (R21). -/
def State.regL (s : State) (n : Reg) : Long := s.reg n ++ s.reg (n + 1)

/-- Write a register pair. -/
def State.setRegL (s : State) (n : Reg) (v : Long) : State :=
  (s.setReg n (v.extractLsb' 16 16)).setReg (n + 1) (v.extractLsb' 0 16)

/-- The register quadruple `n`: the most significant word in Rn (R21). -/
def State.regQ (s : State) (n : Reg) : Quad := s.regL n ++ s.regL (n + 2)

/-- Write a register quadruple. -/
def State.setRegQ (s : State) (n : Reg) (v : Quad) : State :=
  (s.setRegL n (v.extractLsb' 32 32)).setRegL (n + 2) (v.extractLsb' 0 32)

/-- A register operand of any width (R133, R136). -/
def State.regAt (s : State) : (wd : Width) → Reg → BitVec wd.bits
  | .b, n => s.regB n
  | .w, n => s.reg n
  | .l, n => s.regL n

/-- Write a register operand of any width. -/
def State.setRegAt (s : State) : (wd : Width) → Reg → BitVec wd.bits → State
  | .b, n, v => s.setRegB n v
  | .w, n, v => s.setReg n v
  | .l, n, v => s.setRegL n v

/-- Read a register operand. -/
def readReg (wd : Width) (n : Reg) : M (BitVec wd.bits) := do
  let s ← get
  pure (s.regAt wd n)

/-- Write a register operand. -/
def writeReg (wd : Width) (n : Reg) (v : BitVec wd.bits) : M Unit :=
  modify fun s => s.setRegAt wd n v

/-! Addresses. -/

/-- The program counter. -/
def State.pc (s : State) : Addr := { seg := s.pcSeg, off := s.pcOff }

/-- The register number of the processor stack pointer: R15, or RR14 in segmented mode (R24). -/
def State.spReg (s : State) : Reg := if s.isSeg then 14 else 15

/-- The address an address register holds (R82). Bits 15 and 7:0 of a segment word are ignored (U9). -/
def State.addrOf (s : State) (n : Reg) : Addr :=
  if s.isSeg then { seg := (s.reg n).extractLsb' 8 7, off := s.reg (n + 1) }
  else { seg := s.pcSeg, off := s.reg n }

/-- The word register that holds the offset of an address register (R82, R86). -/
def State.offReg (s : State) (n : Reg) : Reg := if s.isSeg then n + 1 else n

/-- Add to the offset of an address register; the segment word stays (R84, R86, R370). -/
def State.stepPtr (s : State) (n : Reg) (k : Word) : State :=
  s.setReg (s.offReg n) (s.reg (s.offReg n) + k)

/-- The label of an access through an address register: STACK for the processor stack pointer (R74(f), (h)). -/
def State.labelOf (s : State) (n : Reg) : Label := if n = s.spReg then .stack else .data

/-- A segmented address as a long word, reserved bits zero (R81, R300(f), D27). -/
def Addr.toLong (a : Addr) : Long := 0#1 ++ a.seg ++ 0#8 ++ a.off

/-- The segment word of an address, reserved bits zero (R25, D27). -/
def Addr.segWord (a : Addr) : Word := 0#1 ++ a.seg ++ 0#8

/-- A segmented address read from a long word: bits 30:24 and 15:0 (R81). -/
def Addr.ofLong (v : Long) : Addr := { seg := v.extractLsb' 24 7, off := v.extractLsb' 0 16 }

/-- Load the PC as a jump does: in nonsegmented mode only the offset (R300(b)). -/
def State.jump (s : State) (a : Addr) : State :=
  if s.isSeg then { s with pcSeg := a.seg, pcOff := a.off } else { s with pcOff := a.off }

/-! Memory. -/

/-- The place in memory of a logical address when no MMU translates it (R90). -/
def State.key (s : State) (l : Label) (a : Addr) : Nat := memKey s.cfg s.fcw.sn l a.flat

/-- The byte a logical address names when no MMU translates it. -/
def State.byteAt (s : State) (l : Label) (a : Addr) : Byte := s.mem.read (s.key l a)

/-- The word at a logical address when no MMU translates it (R78). -/
def State.wordAt (s : State) (l : Label) (a : Addr) : Word := s.mem.readWord (s.key l a)

/-- Memory after a byte is stored at a logical address when no MMU translates it. -/
def State.storeByte (s : State) (l : Label) (a : Addr) (v : Byte) : State :=
  { s with mem := s.mem.write (s.key l a) v }

/-- Memory after a word is stored at a logical address when no MMU translates it (R78). -/
def State.storeWord (s : State) (l : Label) (a : Addr) (v : Word) : State :=
  { s with mem := s.mem.writeWord (s.key l a) v }

/-- The place of an access, or none where the memory map has nothing to take it (R95, D4). -/
def State.taking (s : State) (write : Bool) (key : Nat) : Option Nat :=
  if admits s.cfg write key then some key else none

/-- The MMUs on the bus: `MMU_SET` is a parameter of the Z8001 alone (R8), and a Z8002 system has none (R4). -/
def State.units (s : State) : List Mmu :=
  match s.cfg.version with
  | .z8001 => s.mmus
  | .z8002 => []

/-- Change every MMU on the bus. -/
def State.mapUnits (f : Mmu → Mmu) (s : State) : State :=
  match s.cfg.version with
  | .z8001 => { s with mmus := s.mmus.map f }
  | .z8002 => s

/-- Every address is plain RAM and no MMU stands before it, the platform of D4 and D15's defaults, and RESET does not fall
inside the instruction (R702). -/
abbrev State.plain (s : State) : Prop := s.units = [] ∧ s.cfg.memMap = [] ∧ s.resetIn = none

/-- A PLACE WHERE RESET MAY FALL inside an instruction or an entry, which is then abandoned with the state as it is (R702).
There is one before execution begins, one before every bus transaction, one before each later step of an operation that
changes registers or memory in several, and one in each turn of the loop of MREQ (log 44). -/
def resetPoint : M Unit := fun s =>
  match s.resetIn with
  | none => .ok ((), s)
  | some 0 => .error (.abandoned s)
  | some (n + 1) => .ok ((), { s with resetIn := some n })

/-- The place in memory of one transaction (R90), or none when an MMU suppresses it (R112) or nothing takes it. Suppress
holds until the next step begins: a violated push of an NMI, VI, NVI or internal trap entry suppresses that entry's reads
of the Program Status Area too, which then are free values (DESIGN CHOICE, log 38: R112 speaks of the end of the
instruction, and N36 leaves entries open). A first-word fetch is tracked in ISN and IOFF before it is checked, so that one
which is itself the first violation is recorded there (DESIGN CHOICE, log 38: R104 has the last one "before" it). -/
def route (l : Label) (a : Addr) (write word : Bool) : M (Option Nat) := fun s =>
  match s.units with
  | [] => .ok (s.taking write (s.key l a), s)
  | m :: ms =>
    let acc : Access := { addr := a, label := l, sys := s.fcw.sn, write := write, word := word }
    let (ms', p) := mmuAccess s.cfg acc ((m :: ms).map fun u => u.track acc)
    let s' := { s with mmus := ms' }
    if l != Label.trapStack && ms'.any (fun u => u.suppress) then .ok (none, s')
    else .ok (s.taking write (memKey s.cfg s.fcw.sn l p), s')

/-- The address of a word access: odd addresses stop the run, or lose bit 0 under `ODD_WORD_ADDR` (R80, U1). -/
def evenAddr (a : Addr) : M Addr := do
  let s ← get
  if a.off.getLsbD 0 then
    if s.cfg.dropAddressBit0 then pure { a with off := a.off &&& 0xFFFE } else M.fault .oddWordAddress
  else pure a

/-- The address an access puts on the bus: a byte may lie anywhere, a word at an even address alone (R80). -/
def busAddr (a : Addr) (word : Bool) : M Addr := if word then evenAddr a else pure a

/-- One memory transaction: RESET may fall before it; then its address, and its place in memory. -/
def translate (l : Label) (a : Addr) (write word : Bool) : M (Option Nat) := do
  resetPoint
  let a ← busAddr a word
  route l a write word

/-- Read a byte; a suppressed read, or one of absent memory, returns a free value (R79, R112, D4). -/
def readByte (l : Label) (a : Addr) : M Byte := do
  match ← translate l a false false with
  | some k =>
    let s ← get
    pure (s.mem.read k)
  | none => free 8

/-- Write a byte; a suppressed write, or one that nothing takes, changes nothing (R79, R112, D4). -/
def writeByte (l : Label) (a : Addr) (v : Byte) : M Unit := do
  match ← translate l a true false with
  | some k => modify fun s => { s with mem := s.mem.write k v }
  | none => pure ()

/-- Read a word, big-endian, at an even address (R78, R79). -/
def readWord (l : Label) (a : Addr) : M Word := do
  match ← translate l a false true with
  | some k =>
    let s ← get
    pure (s.mem.readWord k)
  | none => free 16

/-- Write a word, big-endian, at an even address (R78, R79). -/
def writeWord (l : Label) (a : Addr) (v : Word) : M Unit := do
  match ← translate l a true true with
  | some k => modify fun s => { s with mem := s.mem.writeWord k v }
  | none => pure ()

/-- Read an operand from memory; a long word is two word reads, at A and then at A+2 (R79, D8). -/
def readMem (l : Label) (a : Addr) : (wd : Width) → M (BitVec wd.bits)
  | .b => readByte l a
  | .w => readWord l a
  | .l => do
    let h ← readWord l a
    let lo ← readWord l (a.add 2)
    pure (h ++ lo)

/-- Write an operand to memory; a long word is two word writes, at A and then at A+2 (R79, D8). -/
def writeMem (l : Label) (a : Addr) : (wd : Width) → BitVec wd.bits → M Unit
  | .b, v => writeByte l a v
  | .w, v => writeWord l a v
  | .l, v => do
    writeWord l a (BitVec.extractLsb' 16 16 v)
    writeWord l (a.add 2) (BitVec.extractLsb' 0 16 v)

/-! The stack (R86). -/

/-- Push an operand on the stack of pointer `n` with label `l`: decrement, then store. -/
def pushAs (l : Label) (n : Reg) (wd : Width) (v : BitVec wd.bits) : M Unit := do
  resetPoint
  modify fun s => s.stepPtr n (-(BitVec.ofNat 16 wd.bytes))
  let s ← get
  writeMem l (s.addrOf n) wd v

/-- Push with the label of the pointer (R74(f)). -/
def push (n : Reg) (wd : Width) (v : BitVec wd.bits) : M Unit := do
  let s ← get
  pushAs (s.labelOf n) n wd v

/-- Pop an operand from the stack of pointer `n`: fetch, then increment (R86). -/
def pop (n : Reg) (wd : Width) : M (BitVec wd.bits) := do
  let s ← get
  let v ← readMem (s.labelOf n) (s.addrOf n) wd
  resetPoint
  modify fun s => s.stepPtr n (BitVec.ofNat 16 wd.bytes)
  pure v

/-! The Flag and Control Word. -/

/-- FCW as a word, reserved bits zero (R31, D7). -/
def Fcw.toWord (f : Fcw) : Word :=
  BitVec.ofBool f.seg ++ BitVec.ofBool f.sn ++ BitVec.ofBool f.epa ++ BitVec.ofBool f.vie ++ BitVec.ofBool f.nvie
    ++ 0#3 ++ BitVec.ofBool f.c ++ BitVec.ofBool f.z ++ BitVec.ofBool f.s ++ BitVec.ofBool f.pv ++ BitVec.ofBool f.d
    ++ BitVec.ofBool f.h ++ 0#2

/-- The bits of a word as an FCW, reserved bits dropped (R36, D7, U8). -/
def Fcw.ofWord (w : Word) : Fcw :=
  { seg := w.getLsbD 15, sn := w.getLsbD 14, epa := w.getLsbD 13, vie := w.getLsbD 12, nvie := w.getLsbD 11,
    c := w.getLsbD 7, z := w.getLsbD 6, s := w.getLsbD 5, pv := w.getLsbD 4, d := w.getLsbD 3, h := w.getLsbD 2 }

/-- `LoadFCW` (R307): SEG stays 0 on a Z8002, EPA stays 0 where it is not implemented. -/
def loadFcw (cfg : Config) (w : Word) : Fcw :=
  let f := Fcw.ofWord w
  { f with seg := f.seg && cfg.version == .z8001, epa := f.epa && cfg.epaImplemented }

/-- The flags byte, FCW bits 7:0 (R31). -/
def Fcw.flags (f : Fcw) : Byte := f.toWord.extractLsb' 0 8

/-- Load the six flags from a byte (R43, R477). -/
def Fcw.withFlags (f : Fcw) (v : Byte) : Fcw :=
  { f with c := v.getLsbD 7, z := v.getLsbD 6, s := v.getLsbD 5, pv := v.getLsbD 4, d := v.getLsbD 3,
           h := v.getLsbD 2 }

/-- Change FCW. -/
def setFcw (f : Fcw → Fcw) : M Unit := modify fun s => { s with fcw := f s.fcw }

/-- The condition codes on given flags (R150): bit 3 of the code inverts the test of the low three bits. -/
def condOn (cc : CC) (c z s v : Bool) : Bool :=
  (match cc.val % 8 with
    | 0 => false
    | 1 => s != v
    | 2 => z || (s != v)
    | 3 => c || z
    | 4 => v
    | 5 => s
    | 6 => z
    | _ => c) != decide (8 ≤ cc.val)

/-- `cond(cc)` on the FCW (R150). -/
def Fcw.cond (f : Fcw) (cc : CC) : Bool := condOn cc f.c f.z f.s f.pv

/-! Taking an exception (R600 to R621) and returning from one (R307, R623). -/

/-- The base of the Program Status Area (R45, R615). -/
def State.psa (s : State) : Addr := { seg := s.psapSeg, off := s.psapOff ++ 0#8 }

/-- Offset of an exception's program status block in the Program Status Area (R600, R615). -/
def Exc.block (v : Version) (k : Exc) : Word :=
  match v, k with
  | .z8001, .extended => 0x08
  | .z8001, .privileged => 0x10
  | .z8001, .systemCall => 0x18
  | .z8001, .segment => 0x20
  | .z8001, .nmi => 0x28
  | .z8001, .nvi => 0x30
  | .z8001, .vi => 0x38
  | .z8002, .extended => 0x04
  | .z8002, .privileged => 0x08
  | .z8002, .systemCall => 0x0C
  | .z8002, .segment => 0x10
  | .z8002, .nmi => 0x14
  | .z8002, .nvi => 0x18
  | .z8002, .vi => 0x1C

/-- How far into its block an exception's PC lies beyond the first one: twice the low byte of the identifier for a
vectored interrupt, nothing for the others (R616). -/
def Exc.vector (k : Exc) (id : Word) : Word :=
  if k = .vi then (id.extractLsb' 0 8).setWidth 16 * 2 else 0

/-- The machine forced to system mode and, on a Z8001, to segmented mode (R619, R620(a)). -/
def State.forceSystem (s : State) : State :=
  { s with fcw := { s.fcw with sn := true, seg := s.cfg.version == .z8001 || s.fcw.seg } }

/-- The label of the pushes of an entry (R116, R620(a)). -/
def Exc.pushLabel (k : Exc) : Label := if k = .segment then .trapStack else .stack

/-- THE ENTRY SEQUENCE (R620), the same for all seven kinds: force system mode, push the PC to save, the old FCW and the
identifier on the system stack, and load FCW and PC from the Program Status Area. -/
def enter (k : Exc) (id : Word) (pcs : Addr) : M Unit := do
  let old ← get
  modify State.forceSystem
  let v := old.cfg.version
  match v with
  | .z8002 =>
    pushAs k.pushLabel 15 .w pcs.off
    pushAs k.pushLabel 15 .w old.fcw.toWord
    pushAs k.pushLabel 15 .w id
    let b := old.psa.add (k.block v)
    let f ← readWord .code b
    let p ← readWord .code (b.add (2 + k.vector id))
    modify fun s => { s with fcw := loadFcw s.cfg f, pcOff := p }
  | .z8001 =>
    pushAs k.pushLabel 14 .w pcs.off
    pushAs k.pushLabel 14 .w pcs.segWord
    pushAs k.pushLabel 14 .w old.fcw.toWord
    pushAs k.pushLabel 14 .w id
    let b := old.psa.add (k.block v)
    let f ← readWord .code (b.add 2)
    let g ← readWord .code (b.add (4 + k.vector id))
    let p ← readWord .code (b.add (6 + k.vector id))
    modify fun s => { s with fcw := loadFcw s.cfg f, pcSeg := g.extractLsb' 8 7, pcOff := p }
  modify fun s => { s with halted := false, nmiLatch := s.nmiLatch && k != Exc.nmi }

/-- The address of the second word of the current instruction: what the extended and privileged instruction traps save
(R600, R603, R604). -/
def State.secondWord (s : State) : Addr := { seg := s.pcSeg, off := s.instrPc + 2 }

/-- Raise one of the traps that are made on the first word (R603, R604). -/
def trapOnFirstWord (k : Exc) : M Unit := do
  let s ← get
  enter k s.ir s.secondWord

/-- A privileged instruction: in normal mode it takes the privileged instruction trap and does nothing else
(R604, R470). -/
def privileged (body : M Unit) : M Unit := do
  let s ← get
  if s.fcw.sn then body else trapOnFirstWord .privileged

/-- An extended instruction: with FCW.EPA = 0 it takes the extended instruction trap and does nothing else
(R501, R603). -/
def extended (body : M Unit) : M Unit := do
  let s ← get
  if s.fcw.epa then body else trapOnFirstWord .extended

/-- RETURN FROM AN EXCEPTION, nonsegmented form (R307): pop the identifier, FCW and PC offset. -/
def returnNonseg : M Unit := do
  let _ ← pop 15 .w
  let f ← pop 15 .w
  let p ← pop 15 .w
  modify fun s => { s with fcw := loadFcw s.cfg f, pcOff := p }

/-- RETURN FROM AN EXCEPTION, segmented form (R307): pop the identifier, FCW, and the PC as a long word. -/
def returnSeg : M Unit := do
  let _ ← pop 14 .w
  let f ← pop 14 .w
  let v ← pop 14 .l
  let a := Addr.ofLong v
  modify fun s => { s with fcw := loadFcw s.cfg f, pcSeg := a.seg, pcOff := a.off }

/-! External requests (R606 to R613, R618, R619). -/

/-- The requests the pins and the latch show (R607(a), R606). SEGT exists on a Z8001 only. -/
def State.requests (s : State) : Requests :=
  { nmi := s.nmiLatch
    segt := s.cfg.version == .z8001 && (s.pins.segt || s.units.any fun m => m.segt)
    vi := s.pins.vi
    nvi := s.pins.nvi }

/-- Requests present in both of two samples (R607(d)). -/
def Requests.both (a b : Requests) : Requests :=
  { nmi := a.nmi && b.nmi, segt := a.segt && b.segt, vi := a.vi && b.vi, nvi := a.nvi && b.nvi }

/-- The request that is accepted: the highest-priority one that is enabled (R607(f), R613). -/
def Requests.accept (r : Requests) (f : Fcw) : Option Exc :=
  if r.nmi then some .nmi
  else if r.segt then some .segment
  else if r.vi && f.vie then some .vi
  else if r.nvi && f.nvie then some .nvi
  else none

/-- The external exception this boundary takes, if any: what a fetch that is held up already is (R706); else the request
accepted now, which while halted must have been seen on two consecutive samples (R607, R474). -/
def State.accepted (s : State) : Option Exc :=
  match s.held with
  | some k => k
  | none => (if s.halted then s.requests.both s.haltSample else s.requests).accept s.fcw

/-- Log a transaction that memory does not show. -/
def logEvent (e : BusEvent) : M Unit := modify fun s => { s with events := e :: s.events }

/-- The acknowledge transaction (R619): the identifier is the word on the bus; in a segment trap acknowledge the MMUs
drive the high byte and release SEGT (R116). -/
def acknowledge (k : Exc) : M Word := do
  let s ← get
  let id : Word :=
    if k = .segment ∧ s.units ≠ [] then
      mmuAckByte s.units (s.pins.ackWord.extractLsb' 8 8) ++ s.pins.ackWord.extractLsb' 0 8
    else s.pins.ackWord
  if k = .segment then modify fun s => s.mapUnits fun m => { m with segt := false }
  logEvent (.acknowledge k id)
  pure id

/-- Take an external exception: the aborted fetch, the acknowledge, the entry with the PC as it stands (R606, R610 to
R612, R618). The aborted fetch at an odd PC goes on, since its data is thrown away: only a fetch that is executed stops
there (DESIGN CHOICE, log 11: U19 has "the fetch that follows" refused and R618 does not speak of an odd PC). -/
def takeExternal (k : Exc) : M Unit := do
  resetPoint
  let s ← get
  logEvent (.abortedFetch s.pc s.fcw.sn)
  resetPoint
  let id ← acknowledge k
  enter k id s.pc

/-! Reset (R700). -/

/-- The MMUs on the bus are reset with the CPU (R120, R702). -/
def State.resetUnits (s : State) : State :=
  match s.cfg.version with
  | .z8001 =>
    { s with mmus := resetMmus s.mmus s.freeCount, freeCount := s.freeCount + mmuFreeValues * s.mmus.length }
  | .z8002 => s

/-- RESET is low: the CPU does nothing, and the reset sequence is to follow. MO is forced high at once (R700, R701), and the
MMUs have the reset of their own input (R120). -/
def State.underReset (s : State) : State :=
  { s.resetUnits with resetting := true, moLow := false, resetIn := none }

/-- The reset sequence, after the release of RESET: the program status is read from offsets 2, 4 and 6 in system mode, and
then RE, MO, the halt condition and the NMI latch are cleared (R700, D11). Every other register stays (R702). -/
def resetSequence : M Unit := do
  modify State.forceSystem
  let s ← get
  match s.cfg.version with
  | .z8002 =>
    let f ← readWord .code { seg := 0, off := 2 }
    let p ← readWord .code { seg := 0, off := 4 }
    modify fun s => { s with fcw := loadFcw s.cfg f, pcOff := p }
  | .z8001 =>
    let f ← readWord .code { seg := 0, off := 2 }
    let g ← readWord .code { seg := 0, off := 4 }
    let p ← readWord .code { seg := 0, off := 6 }
    modify fun s => { s with fcw := loadFcw s.cfg f, pcSeg := g.extractLsb' 8 7, pcOff := p }
  modify fun s =>
    { s with
      refresh := { s.refresh with re := false }
      rowStepped := s.rowStepped || s.refresh.re
      moLow := false
      halted := false
      nmiLatch := false
      haltSample := Requests.quiet
      held := none
      resetting := false }

/-! Input and output (R76, R118). -/

/-- The value a device supplies: the next one of the environment, else a free value (D5, log 21). -/
def deviceWord : M Word := do
  let s ← get
  match s.ioIn with
  | v :: rest =>
    set { s with ioIn := rest }
    pure v
  | [] => free 16

/-- The MMU a special I/O byte transaction selects: an even port whose low byte is its select value (R76, R118). A
word-wide one (SIN, SOUT, the word block forms) selects none and reaches the devices (DESIGN CHOICE, log 37: R118 speaks
of byte instructions only). -/
def mmuSelected (space : IoSpace) (wd : Width) (port : Word) (m : Mmu) : Bool :=
  space == .special && wd == .b && !port.getLsbD 0 && m.select == port.extractLsb' 0 8

/-- The MMU command of a port address: its high byte (R118). -/
def mmuCommand (port : Word) : Nat := (port.extractLsb' 8 8).toNat

/-- `IoRead` of a byte or a word (R76, R420). Where a port selects several MMUs the first one's byte is read, and every one
of them carries out the command (DESIGN CHOICE, log 37: R118 leaves the decoding to the platform). -/
def ioRead (space : IoSpace) (port : Word) (wd : Width) : M Word := do
  resetPoint
  let s ← get
  let v ← match s.units.find? (mmuSelected space wd port) with
    | some m => do
      let cmd := mmuCommand port
      set (s.mapUnits fun u => if mmuSelected space wd port u then (u.readCommand cmd).2 else u)
      match (m.readCommand cmd).1 with
      | some b => pure (b.setWidth 16)
      | none => deviceWord
    | none => deviceWord
  let v := match wd with
    | .b => (v.extractLsb' 0 8).setWidth 16
    | _ => v
  logEvent (.ioRead space port wd.bytes v)
  pure v

/-- `IoWrite` of a byte or a word (R76, R420). -/
def ioWrite (space : IoSpace) (port : Word) (wd : Width) (v : Word) : M Unit := do
  resetPoint
  modify fun s => s.mapUnits fun u =>
    if mmuSelected space wd port u then u.writeCommand (mmuCommand port) (v.extractLsb' 0 8) else u
  logEvent (.ioWrite space port wd.bytes v)

/-! Extended Processing Units (R500). -/

/-- The lines of a transaction between EPU and CPU registers or flags: status 1110 (R510(c), (d)). R/W shows read for EPU
to CPU and write for CPU to EPU, and B/W shows word (DESIGN CHOICE, log 34: R510 gives both for the memory templates
alone). -/
def State.epuCpuLines (s : State) (read : Bool) : BusLines :=
  { status := BusKind.epuCpu.status, read := read, word := true, system := s.fcw.sn }

/-- The lines of a transaction between EPU and memory (R510(b)). -/
def State.epuMemLines (s : State) (l : Label) (read : Bool) : BusLines :=
  { status := l.status, read := read, word := true, system := s.fcw.sn }

/-- `EpuGive`: the next word the EPU puts on the bus, else a free value (R500, U27, D14). -/
def epuGive : M Word := do
  let s ← get
  match s.epuIn with
  | v :: rest =>
    set { s with epuIn := rest }
    pure v
  | [] => free 16


/-! Repetition (R371). -/

/-- `RepeatStep`: unless the end condition holds the PC goes back to the instruction itself. -/
def repeatUnless (done : Bool) : M Unit :=
  if done then pure () else modify fun s => { s with pcOff := s.instrPc }

end Sys2Proof.Machine
end

