-- ==== Sys2Proof/Machine/Cycle.lean ====
section
/-! DEFINITION. What a step does around an instruction's meaning: which activity a step is, fetching an instruction,
the traps made on its first word, the look-ahead check, and the environment's next inputs (R26, R159, R603 to R613,
R700 to R707). -/

namespace Sys2Proof.Machine

/-- What the machine does in one step (R613, R705; log 20). -/
inductive Activity where
  /-- RESET is low: nothing is done (R700). -/
  | reset
  /-- RESET has been released: the reset sequence (R700). -/
  | restart
  /-- BUSREQ is low: Bus-Disconnect (R705, R707). -/
  | disconnected
  /-- STOP is low: Stop/Refresh (R705, R706). -/
  | stopped
  /-- An external request is accepted (R607). -/
  | take (k : Exc)
  /-- HALT is in effect and no request is accepted (R474). -/
  | waiting
  /-- An instruction is fetched and executed. -/
  | execute
  deriving DecidableEq, Repr

/-- The activity of the step that starts in this state. Reset is first in the priority order (R703), then
Bus-Disconnect (R705), then STOP, which is looked at before any first-word fetch, an aborted one included (R706). The reset
sequence follows the release of RESET at once, whatever BUSREQ and STOP show, and the step after it goes by them (DESIGN
CHOICE, log 44: of R705's two accounts D2's, by which the CPU first runs for at least one machine cycle). -/
def State.activity (s : State) : Activity :=
  if s.pins.reset then .reset
  else if s.resetting then .restart
  else if s.pins.busreq then .disconnected
  else if s.pins.stop then .stopped
  else match s.accepted with
    | some k => .take k
    | none => if s.halted then .waiting else .execute

/-- The first-word fetch about to be made is held up, with what it is (R706, R707). A halted machine makes none: it looks at
no request in such a step and takes no sample, and it keeps the last one, so that the samples before and after such a
period are consecutive (DESIGN CHOICE, log 45: R707 has no interrupt sampled in Bus-Disconnect, R705 no other function
performed in Stop/Refresh, and R607(d) does not say what is consecutive). -/
def State.hold (s : State) : State :=
  if s.halted then s else { s with held := some s.accepted }

/-- In Bus-Disconnect nothing that software sees changes, and no request is sampled (R705, R707). -/
def idleDisconnected : M Unit := modify State.hold

/-- In Stop/Refresh only ROW changes of what software sees; the fetch goes on when STOP is high again (R705, R706). -/
def idleStopped : M Unit := modify fun s => { s.hold with rowStepped := true }

/-- Halted: the requests are sampled (R474, R607(d)). -/
def idleWaiting : M Unit := modify fun s => { s with haltSample := s.requests }

/-- The Suppress lines of the MMUs are released at the end of an instruction (R112). Each iteration of a repeating
instruction is such an end, whether or not the violation requested a trap (DESIGN CHOICE, log 38: R371 lets a model take
one iteration as one step and does not speak of Suppress). -/
def releaseSuppress : M Unit := modify fun s => s.mapUnits fun m => { m with suppress := false }

/-- Take an external exception, at an instruction boundary. -/
def takeAtBoundary (k : Exc) : M Unit := do
  releaseSuppress
  modify fun s => { s with held := none }
  takeExternal k

/-- Fetch one word of the instruction; the PC moves past it at once (R26). -/
def fetchWord (l : Label) : M Word := do
  let s ← get
  let w ← readWord l s.pc
  modify fun s => { s with pcOff := s.pcOff + 2 }
  pure w

/-- First bytes of extended instructions (R156, R603). -/
def isExtendedOp (op : Nat) : Bool := op % 64 == 0x0E || op % 64 == 0x0F

/-- The first word is an extended instruction's (R156, R501). First bytes C0 and above are compact formats, none of them
extended (R131). -/
def isExtendedWord (w : Word) : Bool := w.op < 0xC0 && isExtendedOp w.op

/-- First bytes of privileged instructions (R604, D26). -/
def isPrivilegedOp (op : Nat) : Bool :=
  op == 0x39 || (0x3A ≤ op && op ≤ 0x3F) || (0x79 ≤ op && op ≤ 0x7D)

/-- The trap an instruction's first word raises, before any further word is fetched (R159, R603, R604, R614). -/
def firstWordTrap (f : Fcw) (w : Word) : Option Exc :=
  if isExtendedWord w && !f.epa then some .extended
  else if isPrivilegedOp w.op && !f.sn then some .privileged
  else none

/-- Fetch words until they decode to an instruction (R159), or to none. -/
def fetchMore (ws : List Word) : (fuel : Nat) → M (Option Instr)
  | 0 => do
    let s ← get
    match decode s.isSeg ws with
    | .ok (i, _) => pure (some i)
    | .error _ => pure none
  | k + 1 => do
    let s ← get
    match decode s.isSeg ws with
    | .ok (i, _) => pure (some i)
    | .error .truncated => do
      let w ← fetchWord .code
      fetchMore (ws ++ [w]) k
    | .error _ => pure none

/-- What the fetch of an instruction ends in. -/
inductive Fetched where
  | trap (k : Exc)
  | instr (i : Instr)
  deriving DecidableEq, Repr

/-- STOP is sampled once more before the second word of an extended instruction with FCW.EPA = 1; while it is low refresh
transactions step ROW, and nothing else changes (R510(e), R706). -/
def State.stopsInside (s : State) (w : Word) : Bool := s.fcw.epa && isExtendedWord w && s.pins.stopSecond

/-- Fetch an instruction: its first word, the check for traps on it, then its further words, four at most (R130). RESET may
fall before its execution begins (R702); words that are no instruction are refused after that (U2). -/
def fetchInstr : M Fetched := do
  releaseSuppress
  modify fun s => { s with instrPc := s.pcOff, held := none }
  let w ← fetchWord .ifetch
  modify fun s => { s with ir := w }
  let s ← get
  match firstWordTrap s.fcw w with
  | some k => pure (.trap k)
  | none =>
    modify fun s => { s with rowStepped := s.rowStepped || s.stopsInside w }
    let i ← fetchMore [w] (maxWords - 1)
    resetPoint
    match i with
    | some i => pure (.instr i)
    | none => M.refuse .reservedEncoding

/-- The place in memory of the byte at offset `off` of the PC's segment, as a fetch reaches it. -/
def State.fetchKey (s : State) (off : Word) : Nat :=
  memKey s.cfg s.fcw.sn .ifetch
    (mmuPhys { addr := { seg := s.pcSeg, off := off }, label := .ifetch, sys := s.fcw.sn, write := false, word := true }
      s.units)

/-- The end of a step: the pins take their next levels, and a high-to-low change of NMI sets its latch (R607, R608). -/
def State.endStep (s : State) : State :=
  match s.schedule with
  | [] => s
  | p :: ps =>
    { s with pins := p, schedule := ps, nmiLatch := s.nmiLatch || (p.nmi && !s.pins.nmi), resetIn := p.resetBefore }

/-- RESET has fallen inside the step (R702). -/
def State.resetFell (s : State) : Bool := s.resetIn == some 0

/-- The state at the end of what an instruction, an entry or a reset sequence did: where RESET fell inside it the machine
is under reset (R700, R702). -/
def State.orReset (after : State) : State := if after.resetFell then after.underReset else after

/-- The instruction at the PC is fetched next: no reset comes first, and no request aborts the fetch (R618, R702). -/
def State.fetchesNext (s : State) : Bool := !s.pins.reset && !s.resetFell && s.accepted.isNone

/-- What follows an instruction. Where RESET fell inside it the machine is under reset (R702). Else the look-ahead check (R93, D9, U13):
an instruction that changed the first word of the instruction fetched next is refused; where a reset or an accepted
request comes first, the look-ahead is thrown away (R93, R618) and every later fetch sees the store. -/
def lookAhead (before after : State) : Out :=
  let k := after.fetchKey after.pcOff
  if after.resetFell then .next after.underReset
  else if after.endStep.fetchesNext && before.mem.readWord k != after.mem.readWord k then
    .refused .storeIntoNextInstruction
  else .next after

/-- Apply a function to the next state of an outcome. -/
def Out.map (f : State → State) : Out → Out
  | .next s => .next (f s)
  | .fault e => .fault e
  | .refused r => .refused r

/-- Go on from the next state of an outcome. -/
def Out.bind (x : Out) (f : State → Out) : Out :=
  match x with
  | .next s => f s
  | .fault e => .fault e
  | .refused r => .refused r

/-- Place bytes in memory from offset `off` of the PC's segment on, where a fetch reads them. -/
def State.placeBytes (s : State) (off : Word) : List Byte → State
  | [] => s
  | b :: bs => State.placeBytes { s with mem := s.mem.write (s.fetchKey off) b } (off + 1) bs

/-- The same machine about to fetch: no pin active, no request latched, no fetch held up, no reset going on, not halted. -/
def State.readyToFetch (s : State) : State :=
  { s.mapUnits (fun m => { m with segt := false }) with
      pins := Pins.idle, halted := false, nmiLatch := false, held := none, resetting := false
      resetIn := none }

end Sys2Proof.Machine
end

