-- ==== Sys2Proof/Machine/Flags.lean ====
section
/-! DEFINITION. The flag computations of the arithmetic, logical, shift and decimal instructions, as functions of the
operands (R240, R245, R252, R253, R280, R340 to R356). -/

namespace Sys2Proof.Machine

/-- The outcome of an addition or subtraction of `n` bits (R240). -/
structure Arith (n : Nat) where
  r : BitVec n
  c : Bool
  z : Bool
  s : Bool
  v : Bool
  h : Bool
  deriving DecidableEq, Repr

/-- `Add_W(a, b, c)` (R240). -/
def addWith {n : Nat} (a b : BitVec n) (c : Bool) : Arith n :=
  let sum := a.toNat + b.toNat + c.toNat
  let r := BitVec.ofNat n sum
  { r := r
    c := decide (2 ^ n ≤ sum)
    z := r == 0
    s := r.msb
    v := a.msb == b.msb && r.msb != a.msb
    h := decide (16 ≤ a.toNat % 16 + b.toNat % 16 + c.toNat) }

/-- `Sub_W(a, b, c)` (R240): C and H are borrows. -/
def subWith {n : Nat} (a b : BitVec n) (c : Bool) : Arith n :=
  let r := a - b - BitVec.ofNat n c.toNat
  { r := r
    c := decide (a.toNat < b.toNat + c.toNat)
    z := r == 0
    s := r.msb
    v := a.msb != b.msb && r.msb == b.msb
    h := decide (a.toNat % 16 < b.toNat % 16 + c.toNat) }

/-- C, Z, S, V from an addition or subtraction; D and H stay (R242, R243). -/
def Fcw.arith {n : Nat} (f : Fcw) (x : Arith n) : Fcw := { f with c := x.c, z := x.z, s := x.s, pv := x.v }

/-- The byte forms of ADD, ADC, SUB, SBC also write D and H (R41, R42). -/
def Fcw.arithB (f : Fcw) (d : Bool) (x : Arith 8) : Fcw :=
  { f with c := x.c, z := x.z, s := x.s, pv := x.v, d := d, h := x.h }

/-- Z, S, V from an increment or decrement; C, D, H stay (R246, R247). -/
def Fcw.count {n : Nat} (f : Fcw) (x : Arith n) : Fcw := { f with z := x.z, s := x.s, pv := x.v }

/-- Flags of NEG (R250): C unless the result is zero, V if the operand is the most negative value. -/
def Fcw.negate {n : Nat} (f : Fcw) (r : BitVec n) : Fcw :=
  { f with c := r != 0, z := r == 0, s := r.msb, pv := r == BitVec.intMin n }

/-- Parity of a byte: true if it has an even number of ones (R280). -/
def evenParity (r : Byte) : Bool :=
  !(r.getLsbD 0 ^^ r.getLsbD 1 ^^ r.getLsbD 2 ^^ r.getLsbD 3 ^^ r.getLsbD 4 ^^ r.getLsbD 5 ^^ r.getLsbD 6
    ^^ r.getLsbD 7)

/-- Flags of a word logical instruction (R280): P/V stays. -/
def Fcw.logic {n : Nat} (f : Fcw) (r : BitVec n) : Fcw := { f with z := r == 0, s := r.msb }

/-- Flags of a byte logical instruction (R280): P/V is the parity. -/
def Fcw.logicB (f : Fcw) (r : Byte) : Fcw := { f with z := r == 0, s := r.msb, pv := evenParity r }

/-! Decimal adjust (R245). -/

/-- The table of rule R245: the number to add and C after, from D, C, H and the byte before; none for the
combinations it does not list. -/
def dabTable (d c h : Bool) (byte : Byte) : Option (Byte × Bool) :=
  let hi := byte.toNat / 16
  let lo := byte.toNat % 16
  match d, c, h with
  | false, false, false =>
    if hi ≤ 9 ∧ lo ≤ 9 then some (0x00, false)
    else if hi ≤ 8 ∧ 10 ≤ lo then some (0x06, false)
    else if 10 ≤ hi ∧ lo ≤ 9 then some (0x60, true)
    else some (0x66, true)
  | false, false, true =>
    if hi ≤ 9 ∧ lo ≤ 3 then some (0x06, false)
    else if 10 ≤ hi ∧ lo ≤ 3 then some (0x66, true)
    else none
  | false, true, false =>
    if hi ≤ 2 ∧ lo ≤ 9 then some (0x60, true)
    else if hi ≤ 2 ∧ 10 ≤ lo then some (0x66, true)
    else none
  | false, true, true => if hi ≤ 3 ∧ lo ≤ 3 then some (0x66, true) else none
  | true, false, false => if hi ≤ 9 ∧ lo ≤ 9 then some (0x00, false) else none
  | true, false, true => if hi ≤ 8 ∧ 6 ≤ lo then some (0xFA, false) else none
  | true, true, false => if 7 ≤ hi ∧ lo ≤ 9 then some (0xA0, true) else none
  | true, true, true => if 6 ≤ hi ∧ 6 ≤ lo then some (0x9A, true) else none

/-! Multiply and divide (R252, R253). -/

/-- Flags of MULT and MULTL (R252): `p` is the exact product of two `n`-bit operands. -/
def Fcw.product (f : Fcw) (n : Nat) (p : Int) : Fcw :=
  { f with c := decide (p < -(2 ^ (n - 1) : Int)) || decide ((2 ^ (n - 1) : Int) ≤ p), z := decide (p = 0),
           s := decide (p < 0), pv := false }

/-- The four outcomes of a division by `n` bits (R253). -/
inductive Quotient (n : Nat) where
  /-- Case 1: quotient and remainder. -/
  | fits (q m : BitVec n) (zero neg : Bool)
  /-- Case 2: the divisor is zero. -/
  | byZero
  /-- Case 3: the quotient needs more than `n + 1` bits. -/
  | tooLarge
  /-- Case 4: the quotient needs `n + 1` bits: its low `n` bits and the remainder. -/
  | oneBitOver (q m : BitVec n) (neg : Bool)
  deriving DecidableEq, Repr

/-- The division of a `2n`-bit dividend by an `n`-bit divisor (R253): the quotient is truncated toward zero and the
remainder has the sign of the dividend. -/
def divide {n : Nat} (a : BitVec (2 * n)) (b : BitVec n) : Quotient n :=
  let q := a.toInt.tdiv b.toInt
  let m := a.toInt.tmod b.toInt
  if b = 0 then .byZero
  else if -(2 ^ (n - 1) : Int) ≤ q ∧ q < (2 ^ (n - 1) : Int) then
    .fits (BitVec.ofInt n q) (BitVec.ofInt n m) (decide (q = 0)) (decide (q < 0))
  else if q < -(2 ^ n : Int) ∨ (2 ^ n : Int) ≤ q then .tooLarge
  else .oneBitOver (BitVec.ofInt n q) (BitVec.ofInt n m) (decide (q < 0))

/-! Rotates and shifts (R340 to R356), one place at a time. -/

/-- A register under shift: its value, the last bit out, and whether the sign differed after any single step. -/
structure Shift (n : Nat) where
  val : BitVec n
  c : Bool
  flipped : Bool
  deriving DecidableEq, Repr

/-- One place: from a value and C to the new value and C. -/
abbrev ShiftStep (n : Nat) := BitVec n → Bool → BitVec n × Bool

/-- Shift left, zero enters (R351, R352). -/
def shiftLeft1 {n : Nat} : ShiftStep n := fun v _ => (v <<< 1, v.msb)
/-- Shift right, the sign is replicated (R353). -/
def shiftRightArith1 {n : Nat} : ShiftStep n := fun v _ => (v.sshiftRight 1, v.getLsbD 0)
/-- Shift right, zero enters (R354). -/
def shiftRight1 {n : Nat} : ShiftStep n := fun v _ => (v >>> 1, v.getLsbD 0)
/-- Rotate left (R341). -/
def rotateLeft1 {n : Nat} : ShiftStep n := fun v _ => (v.rotateLeft 1, v.msb)
/-- Rotate right (R343). -/
def rotateRight1 {n : Nat} : ShiftStep n := fun v _ => (v.rotateRight 1, v.getLsbD 0)
/-- Rotate left through carry: the old carry enters bit 0 (R342). -/
def rotateLeftCarry1 {n : Nat} : ShiftStep n := fun v c =>
  (v <<< 1 ||| BitVec.ofNat n c.toNat, v.msb)
/-- Rotate right through carry: the old carry enters the most significant bit (R344). -/
def rotateRightCarry1 {n : Nat} : ShiftStep n := fun v c =>
  (v >>> 1 ||| BitVec.ofNat n (c.toNat * 2 ^ (n - 1)), v.getLsbD 0)

/-- `k` places. -/
def shiftBy {n : Nat} (step : ShiftStep n) : Nat → BitVec n → Bool → Shift n
  | 0, v, c => { val := v, c := c, flipped := false }
  | k + 1, v, c =>
    let x := step v c
    let y := shiftBy step k x.1 x.2
    { y with flipped := y.flipped || x.1.msb != v.msb }

/-- V of a shift or rotate (R340, D21, U21). -/
def Shift.overflow {n : Nat} (cfg : Config) (before : BitVec n) (x : Shift n) : Bool :=
  if cfg.shiftVAnyStep then x.flipped else before.msb != x.val.msb

/-- The flags every rotate and shift writes: C, Z, S and V as given (R340). -/
def Fcw.shift {n : Nat} (f : Fcw) (c v : Bool) (r : BitVec n) : Fcw :=
  { f with c := c, z := r == 0, s := r.msb, pv := v }

end Sys2Proof.Machine
end

