-- ==== Sys2Proof/Machine/Operands.lean ====
section
/-! DEFINITION. The operand forms: effective address and label of every addressing mode, and reading and writing an
operand (R135 to R147, R200). -/

namespace Sys2Proof.Machine

/-- The address an instruction holds (R139, R141); in nonsegmented mode the segment is that of the PC (R75). -/
def IAddr.addr (s : State) : IAddr → Addr
  | .ns a => { seg := s.pcSeg, off := a }
  | .short seg off => { seg := seg, off := off.setWidth 16 }
  | .long seg off => { seg := seg, off := off }

/-- The effective address of an IR, DA or X operand (R138 to R140). -/
def Mem.ea (s : State) : Mem → Addr
  | .ir r => s.addrOf r
  | .da a => IAddr.addr s a
  | .x a i => (IAddr.addr s a).add (s.reg i)

/-- The label of an IR, DA or X operand (R74(f), (h)). -/
def Mem.label (s : State) : Mem → Label
  | .ir r => s.labelOf r
  | .da _ => .data
  | .x _ _ => .data

/-- The effective address of a BA or BX operand (R143, R144). -/
def Based.ea (s : State) : Based → Addr
  | .ba base disp => (s.addrOf base).add disp
  | .bx base index => (s.addrOf base).add (s.reg index)

/-- The label of a BA or BX operand (R74(f)). -/
def Based.label (s : State) : Based → Label
  | .ba base _ => s.labelOf base
  | .bx base _ => s.labelOf base

/-- The effective address of an RA operand: the updated PC plus the displacement (R142). -/
def State.relative (s : State) (disp : Word) : Addr := s.pc.add disp

/-- Read an IR, DA or X operand. -/
def readM (wd : Width) (m : Mem) : M (BitVec wd.bits) := do
  let s ← get
  readMem (Mem.label s m) (Mem.ea s m) wd

/-- Write an IR, DA or X operand. -/
def writeM (wd : Width) (m : Mem) (v : BitVec wd.bits) : M Unit := do
  let s ← get
  writeMem (Mem.label s m) (Mem.ea s m) wd v

/-- Read a BA or BX operand. -/
def readBased (wd : Width) (b : Based) : M (BitVec wd.bits) := do
  let s ← get
  readMem (Based.label s b) (Based.ea s b) wd

/-- Write a BA or BX operand. -/
def writeBased (wd : Width) (b : Based) (v : BitVec wd.bits) : M Unit := do
  let s ← get
  writeMem (Based.label s b) (Based.ea s b) wd v

/-- Read an R, IR, DA or X operand. -/
def readDst (wd : Width) : Dst → M (BitVec wd.bits)
  | .reg r => readReg wd r
  | .mem m => readM wd m

/-- Write an R, IR, DA or X operand. -/
def writeDst (wd : Width) (d : Dst) (v : BitVec wd.bits) : M Unit :=
  match d with
  | .reg r => writeReg wd r v
  | .mem m => writeM wd m v

/-- Read an R, IM, IR, DA or X operand. -/
def readSrc {wd : Width} : Src wd → M (BitVec wd.bits)
  | .reg r => readReg wd r
  | .imm v => pure v
  | .mem m => readM wd m

/-- Read an operand, change it by `f`, and write it back, FCW being changed by `g` from the value read: the
one-operand read-modify-write instructions (R87, R728). The read changes no register, so both use one address. -/
def updateDst (wd : Width) (d : Dst) (f : BitVec wd.bits → BitVec wd.bits)
    (g : BitVec wd.bits → Fcw → Fcw) : M Unit := do
  let v ← readDst wd d
  writeDst wd d (f v)
  setFcw (g v)

end Sys2Proof.Machine
end

