-- ==== Sys2Proof/Machine/Arithmetic.lean ====
section
/-! DEFINITION. The arithmetic instructions (spec/41): none is privileged, none traps. -/

namespace Sys2Proof.Machine

/-- Add or subtract a source into a register (R241, R242, R255, R256): `op` is the sum or difference, `fl` its effect on
FCW. -/
def arithInto (wd : Width) (d : Reg) (s : Src wd) (op : BitVec wd.bits → BitVec wd.bits → Bool → Arith wd.bits)
    (withCarry : Bool) (fl : Fcw → Arith wd.bits → Fcw) : M Unit := do
  let b ← readSrc s
  let a ← readReg wd d
  let st ← get
  let x := op a b (withCarry && st.fcw.c)
  writeReg wd d x.r
  setFcw fun f => fl f x

/-- Compare a register with a source: the flags of the difference alone (R243). -/
def compareReg (wd : Width) (d : Reg) (s : Src wd) : M Unit := do
  let b ← readSrc s
  let a ← readReg wd d
  setFcw fun f => f.arith (subWith a b false)

/-- Compare memory with an immediate (R244). -/
def compareImm (wd : Width) (d : Mem) (v : BitVec wd.bits) : M Unit := do
  let a ← readM wd d
  setFcw fun f => f.arith (subWith a v false)

/-- Add `n + 1` (R247). -/
def increment (wd : Width) (d : Dst) (n : Fin 16) : M Unit :=
  updateDst wd d (fun a => (addWith a (BitVec.ofNat _ (n.val + 1)) false).r)
    (fun a f => f.count (addWith a (BitVec.ofNat _ (n.val + 1)) false))

/-- Subtract `n + 1` (R246). -/
def decrement (wd : Width) (d : Dst) (n : Fin 16) : M Unit :=
  updateDst wd d (fun a => (subWith a (BitVec.ofNat _ (n.val + 1)) false).r)
    (fun a f => f.count (subWith a (BitVec.ofNat _ (n.val + 1)) false))

/-- Replace an operand by its two's complement (R250). -/
def negate (wd : Width) (d : Dst) : M Unit :=
  updateDst wd d (fun a => -a) (fun a f => f.negate (-a))

/-- Replace a byte by its decimal adjustment (R245). A combination that the table does not list leaves the byte, C, Z and
S each a free value (U16). -/
def decimalAdjust (d : Reg) : M Unit := do
  let s ← get
  let a := s.regB d
  match dabTable s.fcw.d s.fcw.c s.fcw.h a with
  | some (k, c) =>
    writeReg .b d (a + k)
    setFcw fun f => { f with c := c, z := a + k == 0, s := (a + k).msb }
  | none =>
    let r ← free 8
    let c ← freeBool
    let z ← freeBool
    let sg ← freeBool
    writeReg .b d r
    setFcw fun f => { f with c := c, z := z, s := sg }

/-- Signed multiply of the low half of a pair (R252). -/
def multiply (d : Reg) (s : Src .w) : M Unit := do
  let b ← readSrc s
  let a ← readReg .w (d + 1)
  let p : Int := (a : Word).toInt * (b : Word).toInt
  writeReg .l d (BitVec.ofInt 32 p)
  setFcw fun f => f.product 16 p

/-- Signed multiply of the low half of a quadruple (R252). -/
def multiplyLong (d : Reg) (s : Src .l) : M Unit := do
  let b ← readSrc s
  let a ← readReg .l (d + 2)
  let p : Int := (a : Long).toInt * (b : Long).toInt
  modify fun st => st.setRegQ d (BitVec.ofInt 64 p)
  setFcw fun f => f.product 32 p

/-- What a division leaves (R253): the destination, written by `wr` from remainder and quotient, and the flags. Case 3
leaves the destination, C and S free values (U17). -/
def finishDivide {n : Nat} (wr : BitVec n → BitVec n → M Unit) (x : Quotient n) : M Unit := do
  match x with
  | .fits q m zero neg =>
    wr m q
    setFcw fun f => { f with c := false, z := zero, s := neg, pv := false }
  | .byZero => setFcw fun f => { f with c := false, z := true, s := false, pv := true }
  | .tooLarge =>
    let m ← free n
    let q ← free n
    let c ← freeBool
    let sg ← freeBool
    wr m q
    setFcw fun f => { f with c := c, z := false, s := sg, pv := true }
  | .oneBitOver q m neg =>
    wr m q
    setFcw fun f => { f with c := true, z := false, s := neg, pv := true }

/-- Signed divide of a pair (R253): the remainder goes to the high half, the quotient to the low half. -/
def divideWord (d : Reg) (s : Src .w) : M Unit := do
  let b ← readSrc s
  let a ← readReg .l d
  finishDivide (n := 16) (fun m q => writeReg .l d (m ++ q)) (divide (n := 16) a b)

/-- Signed divide of a quadruple (R253). -/
def divideLong (d : Reg) (s : Src .l) : M Unit := do
  let b ← readSrc s
  let st ← get
  finishDivide (n := 32) (fun m q => modify fun st => st.setRegQ d (m ++ q)) (divide (n := 32) (st.regQ d) b)

/-- ADC (R241). -/
def execAdc (d : Reg) (s : Reg) (st : State) : Out := M.run (arithInto .w d (.reg s) addWith true Fcw.arith) st

/-- ADCB (R241). -/
def execAdcb (d : Reg) (s : Reg) (st : State) : Out :=
  M.run (arithInto .b d (.reg s) addWith true (fun f x => f.arithB false x)) st

/-- ADD (R242). -/
def execAdd (d : Reg) (s : Src .w) (st : State) : Out := M.run (arithInto .w d s addWith false Fcw.arith) st

/-- ADDB (R242). -/
def execAddb (d : Reg) (s : Src .b) (st : State) : Out :=
  M.run (arithInto .b d s addWith false (fun f x => f.arithB false x)) st

/-- ADDL (R242). -/
def execAddl (d : Reg) (s : Src .l) (st : State) : Out := M.run (arithInto .l d s addWith false Fcw.arith) st

/-- CP (R243). -/
def execCp (d : Reg) (s : Src .w) (st : State) : Out := M.run (compareReg .w d s) st

/-- CPB (R243). -/
def execCpb (d : Reg) (s : Src .b) (st : State) : Out := M.run (compareReg .b d s) st

/-- CPL (R243). -/
def execCpl (d : Reg) (s : Src .l) (st : State) : Out := M.run (compareReg .l d s) st

/-- CP (R244; memory with immediate). -/
def execCpImm (d : Mem) (v : Word) (st : State) : Out := M.run (compareImm .w d v) st

/-- CPB (R244; memory with immediate). -/
def execCpbImm (d : Mem) (v : Byte) (st : State) : Out := M.run (compareImm .b d v) st

/-- DAB (R245). -/
def execDab (d : Reg) (st : State) : Out := M.run (decimalAdjust d) st

/-- DEC (R246; subtracts n + 1). -/
def execDec (d : Dst) (n : Fin 16) (st : State) : Out := M.run (decrement .w d n) st

/-- DECB (R246; subtracts n + 1). -/
def execDecb (d : Dst) (n : Fin 16) (st : State) : Out := M.run (decrement .b d n) st

/-- INC (R247; adds n + 1). -/
def execInc (d : Dst) (n : Fin 16) (st : State) : Out := M.run (increment .w d n) st

/-- INCB (R247; adds n + 1). -/
def execIncb (d : Dst) (n : Fin 16) (st : State) : Out := M.run (increment .b d n) st

/-- EXTSB (R248: the low byte of a word register). -/
def execExtsb (d : Reg) (st : State) : Out :=
  M.run (writeReg .w d (((st.reg d).extractLsb' 0 8).signExtend 16)) st

/-- EXTS (R248: the low word of a pair). -/
def execExts (d : Reg) (st : State) : Out := M.run (writeReg .l d ((st.reg (d + 1)).signExtend 32)) st

/-- EXTSL (R248: the low pair of a quadruple). -/
def execExtsl (d : Reg) (st : State) : Out :=
  M.run (modify fun s => s.setRegQ d ((s.regL (d + 2)).signExtend 64)) st

/-- NEG (R250). -/
def execNeg (d : Dst) (st : State) : Out := M.run (negate .w d) st

/-- NEGB (R250). -/
def execNegb (d : Dst) (st : State) : Out := M.run (negate .b d) st

/-- MULT (R252). -/
def execMult (d : Reg) (s : Src .w) (st : State) : Out := M.run (multiply d s) st

/-- MULTL (R252). -/
def execMultl (d : Reg) (s : Src .l) (st : State) : Out := M.run (multiplyLong d s) st

/-- DIV (R253). -/
def execDiv (d : Reg) (s : Src .w) (st : State) : Out := M.run (divideWord d s) st

/-- DIVL (R253). -/
def execDivl (d : Reg) (s : Src .l) (st : State) : Out := M.run (divideLong d s) st

/-- SBC (R255). -/
def execSbc (d : Reg) (s : Reg) (st : State) : Out := M.run (arithInto .w d (.reg s) subWith true Fcw.arith) st

/-- SBCB (R255). -/
def execSbcb (d : Reg) (s : Reg) (st : State) : Out :=
  M.run (arithInto .b d (.reg s) subWith true (fun f x => f.arithB true x)) st

/-- SUB (R256). -/
def execSub (d : Reg) (s : Src .w) (st : State) : Out := M.run (arithInto .w d s subWith false Fcw.arith) st

/-- SUBB (R256). -/
def execSubb (d : Reg) (s : Src .b) (st : State) : Out :=
  M.run (arithInto .b d s subWith false (fun f x => f.arithB true x)) st

/-- SUBL (R256). -/
def execSubl (d : Reg) (s : Src .l) (st : State) : Out := M.run (arithInto .l d s subWith false Fcw.arith) st

end Sys2Proof.Machine
end

