-- ==== Sys2Proof/Machine/Bit.lean ====
section
/-! DEFINITION. The bit manipulation instructions (spec/44): none is privileged, none traps. -/

namespace Sys2Proof.Machine

/-- A word of `n` bits with bit `k` alone set. -/
def bitMask (n : Nat) (k : Nat) : BitVec n := BitVec.ofNat n (2 ^ k)

/-- Z is set if bit `k` of the operand is zero (R321). -/
def testBit (wd : Width) (d : Dst) (k : Nat) : M Unit := do
  let v ← readDst wd d
  setFcw fun f => { f with z := !v.getLsbD k }

/-- Clear bit `k` of the operand (R323). -/
def clearBit (wd : Width) (d : Dst) (k : Nat) : M Unit := do
  let v ← readDst wd d
  writeDst wd d (v &&& ~~~bitMask wd.bits k)

/-- Set bit `k` of the operand (R324). -/
def setBit (wd : Width) (d : Dst) (k : Nat) : M Unit := do
  let v ← readDst wd d
  writeDst wd d (v ||| bitMask wd.bits k)

/-- The bit number a dynamic form takes from a word register: its low four bits, or three for a byte (R320, R322). -/
def State.bitNumber (s : State) (wd : Width) (r : Reg) : Nat := (s.reg r).toNat % wd.bits

/-- S receives the most significant bit of the operand, and the operand becomes all ones (R326). The read and the write
are one indivisible step (R91). -/
def testAndSet (wd : Width) (d : Dst) : M Unit := do
  let v ← readDst wd d
  setFcw fun f => { f with s := v.msb }
  writeDst wd d (BitVec.allOnes wd.bits)

/-- BIT (R321; static: bit number k). -/
def execBit (d : Dst) (k : Fin 16) (st : State) : Out := M.run (testBit .w d k.val) st

/-- BIT (R322; dynamic: bit number in R[s]). -/
def execBitDyn (d : Reg) (s : Reg) (st : State) : Out := M.run (testBit .w (.reg d) (st.bitNumber .w s)) st

/-- BITB (R321; static: bit number k). -/
def execBitb (d : Dst) (k : Fin 16) (st : State) : Out := M.run (testBit .b d k.val) st

/-- BITB (R322; dynamic: bit number in R[s]). -/
def execBitbDyn (d : Reg) (s : Reg) (st : State) : Out := M.run (testBit .b (.reg d) (st.bitNumber .b s)) st

/-- RES (R323; static: bit number k). -/
def execRes (d : Dst) (k : Fin 16) (st : State) : Out := M.run (clearBit .w d k.val) st

/-- RES (R323; dynamic: bit number in R[s]). -/
def execResDyn (d : Reg) (s : Reg) (st : State) : Out := M.run (clearBit .w (.reg d) (st.bitNumber .w s)) st

/-- RESB (R323; static: bit number k). -/
def execResb (d : Dst) (k : Fin 16) (st : State) : Out := M.run (clearBit .b d k.val) st

/-- RESB (R323; dynamic: bit number in R[s]). -/
def execResbDyn (d : Reg) (s : Reg) (st : State) : Out := M.run (clearBit .b (.reg d) (st.bitNumber .b s)) st

/-- SET (R324; static: bit number k). -/
def execSet (d : Dst) (k : Fin 16) (st : State) : Out := M.run (setBit .w d k.val) st

/-- SET (R324; dynamic: bit number in R[s]). -/
def execSetDyn (d : Reg) (s : Reg) (st : State) : Out := M.run (setBit .w (.reg d) (st.bitNumber .w s)) st

/-- SETB (R324; static: bit number k). -/
def execSetb (d : Dst) (k : Fin 16) (st : State) : Out := M.run (setBit .b d k.val) st

/-- SETB (R324; dynamic: bit number in R[s]). -/
def execSetbDyn (d : Reg) (s : Reg) (st : State) : Out := M.run (setBit .b (.reg d) (st.bitNumber .b s)) st

/-- TSET (R326). -/
def execTset (d : Dst) (st : State) : Out := M.run (testAndSet .w d) st

/-- TSETB (R326). -/
def execTsetb (d : Dst) (st : State) : Out := M.run (testAndSet .b d) st

end Sys2Proof.Machine
end

