-- ==== Sys2Proof/Machine/Block.lean ====
section
/-! DEFINITION. The block transfer, string and translate instructions (spec/46). A repeating form does one element in a step (R371). -/

namespace Sys2Proof.Machine

/-- The size of an element as a signed pointer step: up or down by the width in bytes (R370). -/
def elementStep (wd : Width) (up : Bool) : Word :=
  if up then BitVec.ofNat 16 wd.bytes else -(BitVec.ofNat 16 wd.bytes)

/-- Read the element a pointer register names (R370). -/
def readPtr (wd : Width) (p : Reg) : M (BitVec wd.bits) := do
  let s ← get
  readMem (s.labelOf p) (s.addrOf p) wd

/-- Write the element a pointer register names (R370). -/
def writePtr (wd : Width) (p : Reg) (v : BitVec wd.bits) : M Unit := do
  let s ← get
  writeMem (s.labelOf p) (s.addrOf p) wd v

/-- Step a pointer register by one element (R370). -/
def stepElement (wd : Width) (up : Bool) (p : Reg) : M Unit := do
  resetPoint
  modify fun s => s.stepPtr p (elementStep wd up)

/-- Decrement the counter; P/V says that it became zero (R370). The answer is that same bit. -/
def countElement (r : Reg) : M Bool := do
  resetPoint
  let s ← get
  let v := s.reg r - 1
  writeReg .w r v
  setFcw fun f => { f with pv := v == 0 }
  pure (v == 0)

/-- Leave a free value in Z (U3). -/
def freeZ : M Unit := do
  let z ← freeBool
  setFcw fun f => { f with z := z }

/-- One element of a compare of register `d` with memory (R372, R375, R377): Z is the condition, C and S are free
values. The answer is whether the repetition ends: the condition holds or the counter is zero. -/
def compareElement (wd : Width) (up : Bool) (d s r : Reg) (cc : CC) : M Bool := do
  let b ← readPtr wd s
  let a ← readReg wd d
  let x := subWith a b false
  let hit := condOn cc x.c x.z x.s x.v
  let c ← freeBool
  let sg ← freeBool
  setFcw fun f => { f with c := c, z := hit, s := sg }
  stepElement wd up s
  let zero ← countElement r
  pure (hit || zero)

/-- One element of a compare of two strings (R372, R379, R381): the source is read first (D23); C, S are those of the
comparison, Z is the condition. -/
def compareStrings (wd : Width) (up : Bool) (d s r : Reg) (cc : CC) : M Bool := do
  let b ← readPtr wd s
  let a ← readPtr wd d
  let x := subWith a b false
  let hit := condOn cc x.c x.z x.s x.v
  setFcw fun f => { f with c := x.c, z := hit, s := x.s }
  stepElement wd up d
  stepElement wd up s
  let zero ← countElement r
  pure (hit || zero)

/-- One element of a block load (R385, R387): Z is a free value. -/
def moveElement (wd : Width) (up : Bool) (d s r : Reg) : M Bool := do
  let v ← readPtr wd s
  writePtr wd d v
  stepElement wd up d
  stepElement wd up s
  freeZ
  countElement r

/-- `TblAddr` (R390): the entry of the table at pointer `t` for a byte. -/
def State.tableAddr (s : State) (t : Reg) (b : Byte) : Addr := (s.addrOf t).add (b.setWidth 16)

/-- Read the table entry for a byte (R390). -/
def readTable (t : Reg) (b : Byte) : M Byte := do
  let s ← get
  readByte (s.labelOf t) (s.tableAddr t b)

/-- One element of a translate (R391, R393): RH1 and Z are free values (U3, U24). -/
def translateElement (up : Bool) (d t r : Reg) : M Bool := do
  let b ← readPtr .b d
  let v ← readTable t b
  writePtr .b d v
  stepElement .b up d
  freeZ
  let zero ← countElement r
  resetPoint
  let rh1 ← free 8
  writeReg .b 1 rh1
  pure zero

/-- One element of a translate and test (R395, R397): RH1 receives the entry, Z says that it is zero. The answer is
whether the repetition ends: the entry is not zero or the counter is. -/
def translateTest (up : Bool) (p t r : Reg) : M Bool := do
  let b ← readPtr .b p
  let v ← readTable t b
  writeReg .b 1 v
  setFcw fun f => { f with z := v == 0 }
  stepElement .b up p
  let zero ← countElement r
  pure (v != 0 || zero)

/-- One element and no repetition. -/
def once (body : M Bool) : M Unit := do
  let _ ← body
  pure ()

/-- `RepeatStep` (R371): one element, and the instruction again unless it has ended. -/
def repeating (body : M Bool) : M Unit := do
  let done ← body
  repeatUnless done

/-- CPI (R377; register d against @s, counter r). -/
def execCpi (d : Reg) (s : Reg) (r : Reg) (cc : CC) (st : State) : Out :=
  M.run (once (compareElement .w true d s r cc)) st

/-- CPIB (R377; register d against @s, counter r). -/
def execCpib (d : Reg) (s : Reg) (r : Reg) (cc : CC) (st : State) : Out :=
  M.run (once (compareElement .b true d s r cc)) st

/-- CPIR (R378; register d against @s, counter r). -/
def execCpir (d : Reg) (s : Reg) (r : Reg) (cc : CC) (st : State) : Out :=
  M.run (repeating (compareElement .w true d s r cc)) st

/-- CPIRB (R378; register d against @s, counter r). -/
def execCpirb (d : Reg) (s : Reg) (r : Reg) (cc : CC) (st : State) : Out :=
  M.run (repeating (compareElement .b true d s r cc)) st

/-- CPD (R375; register d against @s, counter r). -/
def execCpd (d : Reg) (s : Reg) (r : Reg) (cc : CC) (st : State) : Out :=
  M.run (once (compareElement .w false d s r cc)) st

/-- CPDB (R375; register d against @s, counter r). -/
def execCpdb (d : Reg) (s : Reg) (r : Reg) (cc : CC) (st : State) : Out :=
  M.run (once (compareElement .b false d s r cc)) st

/-- CPDR (R376; register d against @s, counter r). -/
def execCpdr (d : Reg) (s : Reg) (r : Reg) (cc : CC) (st : State) : Out :=
  M.run (repeating (compareElement .w false d s r cc)) st

/-- CPDRB (R376; register d against @s, counter r). -/
def execCpdrb (d : Reg) (s : Reg) (r : Reg) (cc : CC) (st : State) : Out :=
  M.run (repeating (compareElement .b false d s r cc)) st

/-- CPSI (R381; @d against @s, counter r). -/
def execCpsi (d : Reg) (s : Reg) (r : Reg) (cc : CC) (st : State) : Out :=
  M.run (once (compareStrings .w true d s r cc)) st

/-- CPSIB (R381; @d against @s, counter r). -/
def execCpsib (d : Reg) (s : Reg) (r : Reg) (cc : CC) (st : State) : Out :=
  M.run (once (compareStrings .b true d s r cc)) st

/-- CPSIR (R382; @d against @s, counter r). -/
def execCpsir (d : Reg) (s : Reg) (r : Reg) (cc : CC) (st : State) : Out :=
  M.run (repeating (compareStrings .w true d s r cc)) st

/-- CPSIRB (R382; @d against @s, counter r). -/
def execCpsirb (d : Reg) (s : Reg) (r : Reg) (cc : CC) (st : State) : Out :=
  M.run (repeating (compareStrings .b true d s r cc)) st

/-- CPSD (R379; @d against @s, counter r). -/
def execCpsd (d : Reg) (s : Reg) (r : Reg) (cc : CC) (st : State) : Out :=
  M.run (once (compareStrings .w false d s r cc)) st

/-- CPSDB (R379; @d against @s, counter r). -/
def execCpsdb (d : Reg) (s : Reg) (r : Reg) (cc : CC) (st : State) : Out :=
  M.run (once (compareStrings .b false d s r cc)) st

/-- CPSDR (R380; @d against @s, counter r). -/
def execCpsdr (d : Reg) (s : Reg) (r : Reg) (cc : CC) (st : State) : Out :=
  M.run (repeating (compareStrings .w false d s r cc)) st

/-- CPSDRB (R380; @d against @s, counter r). -/
def execCpsdrb (d : Reg) (s : Reg) (r : Reg) (cc : CC) (st : State) : Out :=
  M.run (repeating (compareStrings .b false d s r cc)) st

/-- LDI (R387; @d from @s, counter r). -/
def execLdi (d : Reg) (s : Reg) (r : Reg) (st : State) : Out := M.run (once (moveElement .w true d s r)) st

/-- LDIB (R387; @d from @s, counter r). -/
def execLdib (d : Reg) (s : Reg) (r : Reg) (st : State) : Out := M.run (once (moveElement .b true d s r)) st

/-- LDIR (R388; @d from @s, counter r). -/
def execLdir (d : Reg) (s : Reg) (r : Reg) (st : State) : Out :=
  M.run (repeating (moveElement .w true d s r)) st

/-- LDIRB (R388; @d from @s, counter r). -/
def execLdirb (d : Reg) (s : Reg) (r : Reg) (st : State) : Out :=
  M.run (repeating (moveElement .b true d s r)) st

/-- LDD (R385; @d from @s, counter r). -/
def execLdd (d : Reg) (s : Reg) (r : Reg) (st : State) : Out := M.run (once (moveElement .w false d s r)) st

/-- LDDB (R385; @d from @s, counter r). -/
def execLddb (d : Reg) (s : Reg) (r : Reg) (st : State) : Out := M.run (once (moveElement .b false d s r)) st

/-- LDDR (R386; @d from @s, counter r). -/
def execLddr (d : Reg) (s : Reg) (r : Reg) (st : State) : Out :=
  M.run (repeating (moveElement .w false d s r)) st

/-- LDDRB (R386; @d from @s, counter r). -/
def execLddrb (d : Reg) (s : Reg) (r : Reg) (st : State) : Out :=
  M.run (repeating (moveElement .b false d s r)) st

/-- TRIB (R393; string pointer d, table pointer s, counter r). -/
def execTrib (d : Reg) (s : Reg) (r : Reg) (st : State) : Out := M.run (once (translateElement true d s r)) st

/-- TRIRB (R394; string pointer d, table pointer s, counter r). -/
def execTrirb (d : Reg) (s : Reg) (r : Reg) (st : State) : Out :=
  M.run (repeating (translateElement true d s r)) st

/-- TRDB (R391; string pointer d, table pointer s, counter r). -/
def execTrdb (d : Reg) (s : Reg) (r : Reg) (st : State) : Out := M.run (once (translateElement false d s r)) st

/-- TRDRB (R392; string pointer d, table pointer s, counter r). -/
def execTrdrb (d : Reg) (s : Reg) (r : Reg) (st : State) : Out :=
  M.run (repeating (translateElement false d s r)) st

/-- TRTIB (R397; string pointer d, table pointer s, counter r). -/
def execTrtib (d : Reg) (s : Reg) (r : Reg) (st : State) : Out := M.run (once (translateTest true d s r)) st

/-- TRTIRB (R398; string pointer d, table pointer s, counter r). -/
def execTrtirb (d : Reg) (s : Reg) (r : Reg) (st : State) : Out :=
  M.run (repeating (translateTest true d s r)) st

/-- TRTDB (R395; string pointer d, table pointer s, counter r). -/
def execTrtdb (d : Reg) (s : Reg) (r : Reg) (st : State) : Out := M.run (once (translateTest false d s r)) st

/-- TRTDRB (R396; string pointer d, table pointer s, counter r). -/
def execTrtdrb (d : Reg) (s : Reg) (r : Reg) (st : State) : Out :=
  M.run (repeating (translateTest false d s r)) st

end Sys2Proof.Machine
end

