-- ==== Sys2Proof/Machine/Control.lean ====
section
/-! DEFINITION. The program control instructions (spec/43). PC stands after the instruction when they run (R300). -/

namespace Sys2Proof.Machine

/-- Push the PC on the processor stack: a word, or a long word in segmented mode (R300(e), (f), R301). -/
def pushPc : M Unit := do
  let s ← get
  if s.isSeg then push 14 .l s.pc.toLong else push 15 .w s.pcOff

/-- Move the PC by a number of bytes within its segment (R300(c)). -/
def moveBy (k : Word) : M Unit := modify fun s => { s with pcOff := s.pcOff + k }

/-- Decrement a counter register; if it is not zero then, jump back by twice the displacement (R303). -/
def countDown (wd : Width) (r : Reg) (disp : BitVec 7) : M Unit := do
  let s ← get
  let v := s.regAt wd r - 1
  writeReg wd r v
  if v = 0 then pure () else moveBy (-(disp.setWidth 16 * 2))

/-- Pop the PC from the processor stack (R306). -/
def popPc : M Unit := do
  let s ← get
  if s.isSeg then do
    let v ← pop 14 .l
    modify fun s => s.jump (Addr.ofLong v)
  else do
    let v ← pop 15 .w
    modify fun s => { s with pcOff := v }

/-- CALL (R301: the target is computed before the push, D20). -/
def execCall (t : Mem) (st : State) : Out :=
  M.run (do
    let target := Mem.ea st t
    pushPc
    modify fun s => s.jump target) st

/-- CALR (R302: twice the displacement is subtracted). -/
def execCalr (disp : BitVec 12) (st : State) : Out :=
  M.run (do
    pushPc
    moveBy (-(disp.signExtend 16 * 2))) st

/-- DJNZ (R303; word counter). -/
def execDjnz (r : Reg) (disp : BitVec 7) (st : State) : Out := M.run (countDown .w r disp) st

/-- DBJNZ (R303; byte counter). -/
def execDbjnz (r : Reg) (disp : BitVec 7) (st : State) : Out := M.run (countDown .b r disp) st

/-- JP (R304). -/
def execJp (cc : CC) (t : Mem) (st : State) : Out :=
  M.run (if st.fcw.cond cc then modify (·.jump (Mem.ea st t)) else pure ()) st

/-- JR (R305: twice the displacement is added). -/
def execJr (cc : CC) (disp : BitVec 8) (st : State) : Out :=
  M.run (if st.fcw.cond cc then moveBy (disp.signExtend 16 * 2) else pure ()) st

/-- RET (R306). -/
def execRet (cc : CC) (st : State) : Out := M.run (if st.fcw.cond cc then popPc else pure ()) st

/-- IRET (R307; on a Z8001 with SEG = 0 refused, R308, U18). -/
def execIret (st : State) : Out :=
  M.run (privileged do
    let s ← get
    if s.isSeg then returnSeg
    else if s.cfg.version = .z8002 then returnNonseg
    else M.refuse .iretNonsegmented) st

/-- SC (R309, R605: the identifier is the instruction word). -/
def execSc (n : Byte) (st : State) : Out := M.run (enter .systemCall (0x7F#8 ++ n) st.pc) st

end Sys2Proof.Machine
end

