-- ==== Sys2Proof/Machine/CpuControl.lean ====
section
/-! DEFINITION. The CPU control instructions (spec/48). -/

namespace Sys2Proof.Machine

/-- The value LDCTL reads from REFRESH (R476): bits 8:1 of ROW, bit 0 zero, bits 15:9 free (U4). ROW is a free value
when refresh transactions may have stepped it (R96, D10). -/
def readRefresh : M Word := do
  let s ← get
  let row ← if s.refresh.re || s.rowStepped then free 8 else pure s.refresh.row
  let high ← free 7
  pure (high ++ row ++ 0#1)

/-- The value of a control register (R48, R476). PSAPSEG and NSPSEG exist in segmented mode only (U10). -/
def readControl (c : CtlReg) : M Word := do
  let s ← get
  match c with
  | .fcw => pure s.fcw.toWord
  | .refresh => readRefresh
  | .psapseg => if s.isSeg then pure (0#1 ++ s.psapSeg ++ 0#8) else M.refuse .controlRegisterAbsent
  | .psapoff => pure (s.psapOff ++ 0#8)
  | .nspseg => if s.isSeg then pure s.regs[14] else M.refuse .controlRegisterAbsent
  | .nspoff => pure s.regs[15]

/-- Load a control register from a word (R48, R476). -/
def writeControl (c : CtlReg) (v : Word) : M Unit := do
  let s ← get
  match c with
  | .fcw => setFcw fun _ => loadFcw s.cfg v
  | .refresh =>
    set { s with
      refresh := { re := v.getLsbD 15, rate := v.extractLsb' 9 6, row := v.extractLsb' 1 8 }
      rowStepped := false }
  | .psapseg => if s.isSeg then set { s with psapSeg := v.extractLsb' 8 7 } else M.refuse .controlRegisterAbsent
  | .psapoff => set { s with psapOff := v.extractLsb' 8 8 }
  | .nspseg => if s.isSeg then set { s with regs := s.regs.set 14 v } else M.refuse .controlRegisterAbsent
  | .nspoff => set { s with regs := s.regs.set 15 v }

/-- LDPS (R478): the address is formed under the old FCW; the segmented block's first word is not read (D24). -/
def loadProgramStatus (l : Label) (a : Addr) : M Unit := do
  let s ← get
  if s.isSeg then do
    let f ← readWord l (a.add 2)
    let g ← readWord l (a.add 4)
    let p ← readWord l (a.add 6)
    modify fun s => { s with fcw := loadFcw s.cfg f, pcSeg := g.extractLsb' 8 7, pcOff := p }
  else do
    let f ← readWord l a
    let p ← readWord l (a.add 2)
    modify fun s => { s with fcw := loadFcw s.cfg f, pcOff := p }

/-- How often the loop of MREQ decrements a register of this value before it is zero: 0 stands for 65,536 (R481). -/
def delayCount (v : Word) : Nat := (v - 1).toNat + 1

/-- The delay loop of MREQ, all its turns at once: the register ends at zero, or holds what is left of it where RESET falls
in a turn (R481, R702). It is the loop turn by turn: `delayLoop_turns`. -/
def delayLoop (d : Reg) : M Unit := fun s =>
  match s.resetIn with
  | none => .ok ((), s.setReg d 0)
  | some k =>
    let n := delayCount (s.reg d)
    if k < n then .error (.abandoned { s.setReg d (s.reg d - BitVec.ofNat 16 k) with resetIn := some 0 })
    else .ok ((), { s.setReg d 0 with resetIn := some (k - n) })

/-- MREQ (R481): MO goes low, the delay loop runs, and MI is tested again. -/
def multiMicroRequest (d : Reg) : M Unit := do
  let s ← get
  if s.pins.mi then do
    setFcw fun f => { f with z := false, s := false }
    modify fun s => { s with moLow := false }
  else do
    setFcw fun f => { f with z := false }
    modify fun s' => { s' with moLow := true }
    delayLoop d
    setFcw fun f => { f with z := true, s := s.pins.miSecond }
    modify fun s' => { s' with moLow := s.pins.miSecond }

/-- COMFLG (R473: D and H stay). -/
def execComflg (c : Bool) (z : Bool) (s : Bool) (p : Bool) (st : State) : Out :=
  M.run (setFcw fun f =>
    { f with c := f.c ^^ c, z := f.z ^^ z, s := f.s ^^ s, pv := f.pv ^^ p }) st

/-- RESFLG (R484: D and H stay). -/
def execResflg (c : Bool) (z : Bool) (s : Bool) (p : Bool) (st : State) : Out :=
  M.run (setFcw fun f =>
    { f with c := f.c && !c, z := f.z && !z, s := f.s && !s, pv := f.pv && !p }) st

/-- SETFLG (R485: D and H stay). -/
def execSetflg (c : Bool) (z : Bool) (s : Bool) (p : Bool) (st : State) : Out :=
  M.run (setFcw fun f =>
    { f with c := f.c || c, z := f.z || z, s := f.s || s, pv := f.pv || p }) st

/-- DI (R472; the interrupts named (instruction bit 0)). -/
def execDi (vi : Bool) (nvi : Bool) (st : State) : Out :=
  M.run (privileged (setFcw fun f => { f with vie := f.vie && !vi, nvie := f.nvie && !nvi })) st

/-- EI (R471; the interrupts named (instruction bit 0)). -/
def execEi (vi : Bool) (nvi : Bool) (st : State) : Out :=
  M.run (privileged (setFcw fun f => { f with vie := f.vie || vi, nvie := f.nvie || nvi })) st

/-- HALT (R474: the machine waits for an accepted request). -/
def execHalt (st : State) : Out :=
  M.run (privileged (modify fun s => { s with halted := true, haltSample := Requests.quiet })) st

/-- LDCTL (R476; control register from register). -/
def execLdctlWrite (c : CtlReg) (s : Reg) (st : State) : Out :=
  M.run (privileged (writeControl c (st.reg s))) st

/-- LDCTL (R476; register from control register). -/
def execLdctlRead (d : Reg) (c : CtlReg) (st : State) : Out :=
  M.run (privileged do
    let v ← readControl c
    writeReg .w d v) st

/-- LDCTLB (R477, not privileged: FLAGS from a byte register). -/
def execLdctlbWrite (s : Reg) (st : State) : Out := M.run (setFcw fun f => f.withFlags (st.regB s)) st

/-- LDCTLB (R477, not privileged: a byte register from FLAGS). -/
def execLdctlbRead (d : Reg) (st : State) : Out := M.run (writeReg .b d st.fcw.flags) st

/-- LDPS (R478). Its operand has the label of any IR operand, so that @R15 or @RR14 is STACK (DESIGN CHOICE, log 52: R74(e)
has the operand DATA as "an ordinary IR, DA or X operand", R74(f) and R478's `lab` have it STACK there). -/
def execLdps (s : Mem) (st : State) : Out :=
  M.run (privileged (loadProgramStatus (Mem.label st s) (Mem.ea st s))) st

/-- MBIT (R480: S is set if MI is high; Z is a free value). -/
def execMbit (st : State) : Out :=
  M.run (privileged do
    let z ← freeBool
    setFcw fun f => { f with s := !st.pins.mi, z := z }) st

/-- MREQ (R481). -/
def execMreq (d : Reg) (st : State) : Out := M.run (privileged (multiMicroRequest d)) st

/-- MRES (R482: MO goes high). -/
def execMres (st : State) : Out := M.run (privileged (modify fun s => { s with moLow := false })) st

/-- MSET (R483: MO goes low). -/
def execMset (st : State) : Out := M.run (privileged (modify fun s => { s with moLow := true })) st

/-- NOP (R479). -/
def execNop (st : State) : Out := M.run (pure ()) st

end Sys2Proof.Machine
end

