-- ==== Sys2Proof/Machine/Load.lean ====
section
/-! DEFINITION. The load and exchange instructions (spec/40): none writes a flag, none is privileged. -/

namespace Sys2Proof.Machine

/-- Exchange a register with an operand (R202): read the source, write it, then write the register. -/
def exchange (wd : Width) (d : Reg) (s : Dst) : M Unit := do
  let tmp ← readDst wd s
  let v ← readReg wd d
  writeDst wd s v
  resetPoint
  writeReg wd d tmp

/-- Load a register from an operand (R205). -/
def load (wd : Width) (d : Reg) (s : Src wd) : M Unit := do
  let v ← readSrc s
  writeReg wd d v

/-- Load a register from a BA or BX operand (R206). -/
def loadBased (wd : Width) (d : Reg) (s : Based) : M Unit := do
  let v ← readBased wd s
  writeReg wd d v

/-- Store a register by IR, DA or X (R207). -/
def store (wd : Width) (d : Mem) (s : Reg) : M Unit := do
  let v ← readReg wd s
  writeM wd d v

/-- Store a register by BA or BX (R208). -/
def storeBased (wd : Width) (d : Based) (s : Reg) : M Unit := do
  let v ← readReg wd s
  writeBased wd d v

/-- Load an effective address (R215): the offset in nonsegmented mode; a pair in segmented mode, whose reserved bits 31
and 23:16 are free values (U12). -/
def loadAddress (d : Reg) (a : Addr) : M Unit := do
  let s ← get
  if s.isSeg then do
    let r31 ← free 1
    let r16 ← free 8
    writeReg .l d (r31 ++ a.seg ++ r16 ++ a.off)
  else writeReg .w d a.off

/-- Load a register from program memory, relative to the PC (R224). -/
def loadRelative (wd : Width) (d : Reg) (disp : Word) : M Unit := do
  let s ← get
  let v ← readMem .code (s.relative disp) wd
  writeReg wd d v

/-- Store a register in program memory, relative to the PC (R224). -/
def storeRelative (wd : Width) (disp : Word) (s : Reg) : M Unit := do
  let st ← get
  writeMem .code (st.relative disp) wd (st.regAt wd s)

/-- The register `i` places after `r`, R0 following R15 (R220). -/
def regAfter (r : Reg) (i : Nat) : Reg := r + Fin.ofNat 16 i

/-- The address `i` words after `a` (R220). -/
def wordAfter (a : Addr) (i : Nat) : Addr := a.add (BitVec.ofNat 16 (2 * i))

/-- Load the registers from `r` on from words in rising addresses: the `k` elements from number `i` on (R220). -/
def loadMultiple (l : Label) (a : Addr) (r : Reg) (i : Nat) : (k : Nat) → M Unit
  | 0 => pure ()
  | k + 1 => do
    let v ← readWord l (wordAfter a i)
    writeReg .w (regAfter r i) v
    loadMultiple l a r (i + 1) k

/-- Store the registers from `r` on in words at rising addresses: the `k` elements from number `i` on (R220). -/
def storeMultiple (l : Label) (a : Addr) (r : Reg) (i : Nat) : (k : Nat) → M Unit
  | 0 => pure ()
  | k + 1 => do
    let v ← readReg .w (regAfter r i)
    writeWord l (wordAfter a i) v
    storeMultiple l a r (i + 1) k

/-- POP (R228): the destination's address is formed before the stack pointer moves; the destination is written, then
the pointer is incremented. -/
def popTo (wd : Width) (d : Dst) (sp : Reg) : M Unit := do
  let s ← get
  let v ← readMem (s.labelOf sp) (s.addrOf sp) wd
  writeDst wd d v
  resetPoint
  modify fun s => s.stepPtr sp (BitVec.ofNat 16 wd.bytes)

/-- PUSH (R230): the source is read, the pointer is decremented, the operand is stored. -/
def pushFrom (wd : Width) (sp : Reg) (s : Dst) : M Unit := do
  let v ← readDst wd s
  push sp wd v

/-- CLR (R201: the destination is not read). -/
def execClr (d : Dst) (st : State) : Out := M.run (writeDst .w d 0) st

/-- CLRB (R201: the destination is not read). -/
def execClrb (d : Dst) (st : State) : Out := M.run (writeDst .b d 0) st

/-- EX (R202). -/
def execEx (d : Reg) (s : Dst) (st : State) : Out := M.run (exchange .w d s) st

/-- EXB (R202). -/
def execExb (d : Reg) (s : Dst) (st : State) : Out := M.run (exchange .b d s) st

/-- LD (R205; register from R, IM, IR, DA, X). -/
def execLd (d : Reg) (s : Src .w) (st : State) : Out := M.run (load .w d s) st

/-- LDB (R205; register from R, IM, IR, DA, X). -/
def execLdb (d : Reg) (s : Src .b) (st : State) : Out := M.run (load .b d s) st

/-- LDL (R205; register from R, IM, IR, DA, X). -/
def execLdl (d : Reg) (s : Src .l) (st : State) : Out := M.run (load .l d s) st

/-- LD (R206; register from BA, BX). -/
def execLdBased (d : Reg) (s : Based) (st : State) : Out := M.run (loadBased .w d s) st

/-- LDB (R206; register from BA, BX). -/
def execLdbBased (d : Reg) (s : Based) (st : State) : Out := M.run (loadBased .b d s) st

/-- LDL (R206; register from BA, BX). -/
def execLdlBased (d : Reg) (s : Based) (st : State) : Out := M.run (loadBased .l d s) st

/-- LD (R207; memory (IR, DA, X) from register). -/
def execLdStore (d : Mem) (s : Reg) (st : State) : Out := M.run (store .w d s) st

/-- LDB (R207; memory (IR, DA, X) from register). -/
def execLdbStore (d : Mem) (s : Reg) (st : State) : Out := M.run (store .b d s) st

/-- LDL (R207; memory (IR, DA, X) from register). -/
def execLdlStore (d : Mem) (s : Reg) (st : State) : Out := M.run (store .l d s) st

/-- LD (R208; memory (BA, BX) from register). -/
def execLdStoreBased (d : Based) (s : Reg) (st : State) : Out := M.run (storeBased .w d s) st

/-- LDB (R208; memory (BA, BX) from register). -/
def execLdbStoreBased (d : Based) (s : Reg) (st : State) : Out := M.run (storeBased .b d s) st

/-- LDL (R208; memory (BA, BX) from register). -/
def execLdlStoreBased (d : Based) (s : Reg) (st : State) : Out := M.run (storeBased .l d s) st

/-- LD (R209; memory from immediate). -/
def execLdImm (d : Mem) (v : Word) (st : State) : Out := M.run (writeM .w d v) st

/-- LDB (R209; memory from immediate). -/
def execLdbImm (d : Mem) (v : Byte) (st : State) : Out := M.run (writeM .b d v) st

/-- LDB (R210; compact form). -/
def execLdbShort (d : Reg) (v : Byte) (st : State) : Out := M.run (writeReg .b d v) st

/-- LDA (R215; DA, X). -/
def execLda (d : Reg) (s : Mem) (st : State) : Out := M.run (loadAddress d (Mem.ea st s)) st

/-- LDA (R215; BA, BX). -/
def execLdaBased (d : Reg) (s : Based) (st : State) : Out := M.run (loadAddress d (Based.ea st s)) st

/-- LDAR (R216). The reserved bits of the pair are zeros by R216 and R81, and any value, as LDA leaves them, under U12
(`ldarReservedFree`, log 51). -/
def execLdar (d : Reg) (disp : Word) (st : State) : Out :=
  M.run (if st.isSeg && !st.cfg.ldarReservedFree then writeReg .l d (st.relative disp).toLong
    else loadAddress d (st.relative disp)) st

/-- LDK (R218). -/
def execLdk (d : Reg) (n : Fin 16) (st : State) : Out := M.run (writeReg .w d (BitVec.ofNat 16 n.val)) st

/-- LDM (R220; registers from memory, num = n + 1). -/
def execLdmLoad (d : Reg) (s : Mem) (n : Fin 16) (st : State) : Out :=
  M.run (loadMultiple (Mem.label st s) (Mem.ea st s) d 0 (n.val + 1)) st

/-- LDM (R220; memory from registers, num = n + 1). -/
def execLdmStore (d : Mem) (s : Reg) (n : Fin 16) (st : State) : Out :=
  M.run (storeMultiple (Mem.label st d) (Mem.ea st d) s 0 (n.val + 1)) st

/-- LDR (R224; register from program memory). -/
def execLdr (d : Reg) (disp : Word) (st : State) : Out := M.run (loadRelative .w d disp) st

/-- LDRB (R224; register from program memory). -/
def execLdrb (d : Reg) (disp : Word) (st : State) : Out := M.run (loadRelative .b d disp) st

/-- LDRL (R224; register from program memory). -/
def execLdrl (d : Reg) (disp : Word) (st : State) : Out := M.run (loadRelative .l d disp) st

/-- LDR (R224; program memory from register). -/
def execLdrStore (disp : Word) (s : Reg) (st : State) : Out := M.run (storeRelative .w disp s) st

/-- LDRB (R224; program memory from register). -/
def execLdrbStore (disp : Word) (s : Reg) (st : State) : Out := M.run (storeRelative .b disp s) st

/-- LDRL (R224; program memory from register). -/
def execLdrlStore (disp : Word) (s : Reg) (st : State) : Out := M.run (storeRelative .l disp s) st

/-- POP (R228). -/
def execPop (d : Dst) (sp : Reg) (st : State) : Out := M.run (popTo .w d sp) st

/-- POPL (R228). -/
def execPopl (d : Dst) (sp : Reg) (st : State) : Out := M.run (popTo .l d sp) st

/-- PUSH (R230). -/
def execPush (sp : Reg) (s : Dst) (st : State) : Out := M.run (pushFrom .w sp s) st

/-- PUSHL (R230). -/
def execPushl (sp : Reg) (s : Dst) (st : State) : Out := M.run (pushFrom .l sp s) st

/-- PUSH (R231). -/
def execPushImm (sp : Reg) (v : Word) (st : State) : Out := M.run (Machine.push sp .w v) st

end Sys2Proof.Machine
end

