-- ==== Sys2Proof/Machine/Extended.lean ====
section
/-! DEFINITION. The seven templates of extended instructions (spec/49): with FCW.EPA = 0 each takes the extended instruction trap. -/

namespace Sys2Proof.Machine

/-- The number of words a template moves: one more than bits 3:0 of its second word (R511). -/
def epuCount (w2 : Word) : Nat := w2.toNat % 16 + 1

/-- The first CPU register a register template names: bits 11:8 of its second word (R511). -/
def epuReg (w2 : Word) : Reg := ⟨w2.toNat / 256 % 16, by omega⟩

/-- Memory from EPU: the `k` words from number `i` on (R502). -/
def epuToMemory (l : Label) (a : Addr) (i : Nat) : (k : Nat) → M Unit
  | 0 => pure ()
  | k + 1 => do
    resetPoint
    let v ← epuGive
    writeWord l (wordAfter a i) v
    let s ← get
    logEvent (.epuGive (s.epuMemLines l false) i v)
    epuToMemory l a (i + 1) k

/-- EPU from memory: the `k` words from number `i` on (R503). -/
def memoryToEpu (l : Label) (a : Addr) (i : Nat) : (k : Nat) → M Unit
  | 0 => pure ()
  | k + 1 => do
    let v ← readWord l (wordAfter a i)
    let s ← get
    logEvent (.epuTake (s.epuMemLines l true) i v)
    memoryToEpu l a (i + 1) k

/-- CPU registers from EPU: the `k` registers from number `i` on (R504, R506). -/
def epuToRegs (r : Reg) (i : Nat) : (k : Nat) → M Unit
  | 0 => pure ()
  | k + 1 => do
    resetPoint
    let v ← epuGive
    let s ← get
    logEvent (.epuGive (s.epuCpuLines true) i v)
    writeReg .w (regAfter r i) v
    epuToRegs r (i + 1) k

/-- EPU from CPU registers: the `k` registers from number `i` on (R505, R506). -/
def regsToEpu (r : Reg) (i : Nat) : (k : Nat) → M Unit
  | 0 => pure ()
  | k + 1 => do
    resetPoint
    let v ← readReg .w (regAfter r i)
    let s ← get
    logEvent (.epuTake (s.epuCpuLines false) i v)
    regsToEpu r (i + 1) k

/-- Every EPU sees the two words of the instruction (R500): `EpuNote`. -/
def epuNote (i : Instr) : M Unit :=
  match encode i with
  | w1 :: w2 :: _ => logEvent (.epuNote w1 w2)
  | _ => pure ()

/-- The flags from EPU (R507): R0 becomes a free value (U28). -/
def epuFlags : M Unit := do
  resetPoint
  let v ← epuGive
  let s ← get
  logEvent (.epuGive (s.epuCpuLines true) 0 ((v.extractLsb' 0 8).setWidth 16))
  setFcw fun f => f.withFlags (v.extractLsb' 0 8)
  resetPoint
  let r0 ← free 16
  writeReg .w 0 r0

/-- EPU_LDM_FROM (R502; memory from EPU). -/
def execEpuLdmFrom (d : Mem) (ii : Fin 4) (w2 : Word) (st : State) : Out :=
  M.run (extended do
    epuNote (.epuLdmFrom d ii w2)
    epuToMemory (Mem.label st d).epu (Mem.ea st d) 0 (epuCount w2)) st

/-- EPU_LDM_TO (R503; EPU from memory). -/
def execEpuLdmTo (s : Mem) (ii : Fin 4) (w2 : Word) (st : State) : Out :=
  M.run (extended do
    epuNote (.epuLdmTo s ii w2)
    memoryToEpu (Mem.label st s).epu (Mem.ea st s) 0 (epuCount w2)) st

/-- EPU_LDR_FROM (R504; registers from EPU). -/
def execEpuLdrFrom (x : Fin 8) (ii : Fin 4) (w2 : Word) (st : State) : Out :=
  M.run (extended do
    epuNote (.epuLdrFrom x ii w2)
    epuToRegs (epuReg w2) 0 (epuCount w2)) st

/-- EPU_LDR_TO (R505; EPU from registers). -/
def execEpuLdrTo (x : Fin 8) (ii : Fin 4) (w2 : Word) (st : State) : Out :=
  M.run (extended do
    epuNote (.epuLdrTo x ii w2)
    regsToEpu (epuReg w2) 0 (epuCount w2)) st

/-- EPU_LDF_FROM (R507; flags from EPU). -/
def execEpuLdfFrom (x : Fin 16) (ii : Fin 4) (w2 : Word) (st : State) : Out :=
  M.run (extended do
    epuNote (.epuLdfFrom x ii w2)
    epuFlags) st

/-- EPU_LDF_TO (R508; EPU from flags). -/
def execEpuLdfTo (x : Fin 16) (ii : Fin 4) (w2 : Word) (st : State) : Out :=
  M.run (extended do
    epuNote (.epuLdfTo x ii w2)
    resetPoint
    logEvent (.epuTake (st.epuCpuLines false) 0 (st.fcw.flags.setWidth 16))) st

/-- EPU_OP (R509: to the CPU a no-operation). -/
def execEpuOp (x : Fin 16) (ii : Fin 4) (w2 : Word) (st : State) : Out :=
  M.run (extended (epuNote (.epuOp x ii w2))) st

end Sys2Proof.Machine
end

