-- ==== Sys2Proof/Machine/InputOutput.lean ====
section
/-! DEFINITION. The input and output instructions (spec/47): every one is privileged. -/

namespace Sys2Proof.Machine

/-- Input into a register (R421, R422): the low byte for a byte form. -/
def inputTo (space : IoSpace) (wd : Width) (d : Reg) (port : Word) : M Unit := do
  let v ← ioRead space port wd
  resetPoint
  writeReg wd d (v.setWidth wd.bits)

/-- Output from a register (R423, R424). -/
def outputFrom (space : IoSpace) (wd : Width) (port : Word) (s : Reg) : M Unit := do
  let st ← get
  ioWrite space port wd ((st.regAt wd s).setWidth 16)

/-- After the transfer of a block form: the pointer, then the counter; Z is a free value (R428). The answer is whether
the counter became zero. -/
def finishElement (wd : Width) (up : Bool) (p r : Reg) : M Bool := do
  stepElement wd up p
  freeZ
  countElement r

/-- `InStep` (R428): one element from the port in `R[q]` to memory at pointer `p`. -/
def inputElement (space : IoSpace) (wd : Width) (up : Bool) (p q r : Reg) : M Bool := do
  let s ← get
  let v ← ioRead space (s.reg q) wd
  writePtr wd p (v.setWidth wd.bits)
  finishElement wd up p r

/-- `OutStep` (R428): one element from memory at pointer `p` to the port in `R[q]`. -/
def outputElement (space : IoSpace) (wd : Width) (up : Bool) (p q r : Reg) : M Bool := do
  let v ← readPtr wd p
  let s ← get
  ioWrite space (s.reg q) wd (v.setWidth 16)
  finishElement wd up p r

/-- IN (R421; port in R[s]). -/
def execInIr (d : Reg) (s : Reg) (st : State) : Out := M.run (privileged (inputTo .standard .w d (st.reg s))) st

/-- IN (R421; direct port). -/
def execInDa (d : Reg) (port : Word) (st : State) : Out := M.run (privileged (inputTo .standard .w d port)) st

/-- INB (R421; port in R[s]). -/
def execInbIr (d : Reg) (s : Reg) (st : State) : Out :=
  M.run (privileged (inputTo .standard .b d (st.reg s))) st

/-- INB (R421; direct port). -/
def execInbDa (d : Reg) (port : Word) (st : State) : Out := M.run (privileged (inputTo .standard .b d port)) st

/-- OUT (R423; port in R[d]). -/
def execOutIr (d : Reg) (s : Reg) (st : State) : Out :=
  M.run (privileged (outputFrom .standard .w (st.reg d) s)) st

/-- OUT (R423; direct port). -/
def execOutDa (port : Word) (s : Reg) (st : State) : Out :=
  M.run (privileged (outputFrom .standard .w port s)) st

/-- OUTB (R423; port in R[d]). -/
def execOutbIr (d : Reg) (s : Reg) (st : State) : Out :=
  M.run (privileged (outputFrom .standard .b (st.reg d) s)) st

/-- OUTB (R423; direct port). -/
def execOutbDa (port : Word) (s : Reg) (st : State) : Out :=
  M.run (privileged (outputFrom .standard .b port s)) st

/-- SIN (R422). -/
def execSin (d : Reg) (port : Word) (st : State) : Out := M.run (privileged (inputTo .special .w d port)) st

/-- SINB (R422). -/
def execSinb (d : Reg) (port : Word) (st : State) : Out := M.run (privileged (inputTo .special .b d port)) st

/-- SOUT (R424). -/
def execSout (port : Word) (s : Reg) (st : State) : Out := M.run (privileged (outputFrom .special .w port s)) st

/-- SOUTB (R424). -/
def execSoutb (port : Word) (s : Reg) (st : State) : Out :=
  M.run (privileged (outputFrom .special .b port s)) st

/-- INI (R430; memory pointer d, port in R[s], counter r). -/
def execIni (d : Reg) (s : Reg) (r : Reg) (st : State) : Out :=
  M.run (privileged (once (inputElement .standard .w true d s r))) st

/-- INIB (R430; memory pointer d, port in R[s], counter r). -/
def execInib (d : Reg) (s : Reg) (r : Reg) (st : State) : Out :=
  M.run (privileged (once (inputElement .standard .b true d s r))) st

/-- INIR (R431; memory pointer d, port in R[s], counter r). -/
def execInir (d : Reg) (s : Reg) (r : Reg) (st : State) : Out :=
  M.run (privileged (repeating (inputElement .standard .w true d s r))) st

/-- INIRB (R431; memory pointer d, port in R[s], counter r). -/
def execInirb (d : Reg) (s : Reg) (r : Reg) (st : State) : Out :=
  M.run (privileged (repeating (inputElement .standard .b true d s r))) st

/-- IND (R432; memory pointer d, port in R[s], counter r). -/
def execInd (d : Reg) (s : Reg) (r : Reg) (st : State) : Out :=
  M.run (privileged (once (inputElement .standard .w false d s r))) st

/-- INDB (R432; memory pointer d, port in R[s], counter r). -/
def execIndb (d : Reg) (s : Reg) (r : Reg) (st : State) : Out :=
  M.run (privileged (once (inputElement .standard .b false d s r))) st

/-- INDR (R433; memory pointer d, port in R[s], counter r). -/
def execIndr (d : Reg) (s : Reg) (r : Reg) (st : State) : Out :=
  M.run (privileged (repeating (inputElement .standard .w false d s r))) st

/-- INDRB (R433; memory pointer d, port in R[s], counter r). -/
def execIndrb (d : Reg) (s : Reg) (r : Reg) (st : State) : Out :=
  M.run (privileged (repeating (inputElement .standard .b false d s r))) st

/-- OUTI (R440; port in R[d], memory pointer s, counter r). -/
def execOuti (d : Reg) (s : Reg) (r : Reg) (st : State) : Out :=
  M.run (privileged (once (outputElement .standard .w true s d r))) st

/-- OUTIB (R440; port in R[d], memory pointer s, counter r). -/
def execOutib (d : Reg) (s : Reg) (r : Reg) (st : State) : Out :=
  M.run (privileged (once (outputElement .standard .b true s d r))) st

/-- OTIR (R441; port in R[d], memory pointer s, counter r). -/
def execOtir (d : Reg) (s : Reg) (r : Reg) (st : State) : Out :=
  M.run (privileged (repeating (outputElement .standard .w true s d r))) st

/-- OTIRB (R441; port in R[d], memory pointer s, counter r). -/
def execOtirb (d : Reg) (s : Reg) (r : Reg) (st : State) : Out :=
  M.run (privileged (repeating (outputElement .standard .b true s d r))) st

/-- OUTD (R442; port in R[d], memory pointer s, counter r). -/
def execOutd (d : Reg) (s : Reg) (r : Reg) (st : State) : Out :=
  M.run (privileged (once (outputElement .standard .w false s d r))) st

/-- OUTDB (R442; port in R[d], memory pointer s, counter r). -/
def execOutdb (d : Reg) (s : Reg) (r : Reg) (st : State) : Out :=
  M.run (privileged (once (outputElement .standard .b false s d r))) st

/-- OTDR (R443; port in R[d], memory pointer s, counter r). -/
def execOtdr (d : Reg) (s : Reg) (r : Reg) (st : State) : Out :=
  M.run (privileged (repeating (outputElement .standard .w false s d r))) st

/-- OTDRB (R443; port in R[d], memory pointer s, counter r). -/
def execOtdrb (d : Reg) (s : Reg) (r : Reg) (st : State) : Out :=
  M.run (privileged (repeating (outputElement .standard .b false s d r))) st

/-- SINI (R430; memory pointer d, port in R[s], counter r). -/
def execSini (d : Reg) (s : Reg) (r : Reg) (st : State) : Out :=
  M.run (privileged (once (inputElement .special .w true d s r))) st

/-- SINIB (R430; memory pointer d, port in R[s], counter r). -/
def execSinib (d : Reg) (s : Reg) (r : Reg) (st : State) : Out :=
  M.run (privileged (once (inputElement .special .b true d s r))) st

/-- SINIR (R431; memory pointer d, port in R[s], counter r). -/
def execSinir (d : Reg) (s : Reg) (r : Reg) (st : State) : Out :=
  M.run (privileged (repeating (inputElement .special .w true d s r))) st

/-- SINIRB (R431; memory pointer d, port in R[s], counter r). -/
def execSinirb (d : Reg) (s : Reg) (r : Reg) (st : State) : Out :=
  M.run (privileged (repeating (inputElement .special .b true d s r))) st

/-- SIND (R432; memory pointer d, port in R[s], counter r). -/
def execSind (d : Reg) (s : Reg) (r : Reg) (st : State) : Out :=
  M.run (privileged (once (inputElement .special .w false d s r))) st

/-- SINDB (R432; memory pointer d, port in R[s], counter r). -/
def execSindb (d : Reg) (s : Reg) (r : Reg) (st : State) : Out :=
  M.run (privileged (once (inputElement .special .b false d s r))) st

/-- SINDR (R433; memory pointer d, port in R[s], counter r). -/
def execSindr (d : Reg) (s : Reg) (r : Reg) (st : State) : Out :=
  M.run (privileged (repeating (inputElement .special .w false d s r))) st

/-- SINDRB (R433; memory pointer d, port in R[s], counter r). -/
def execSindrb (d : Reg) (s : Reg) (r : Reg) (st : State) : Out :=
  M.run (privileged (repeating (inputElement .special .b false d s r))) st

/-- SOUTI (R440; port in R[d], memory pointer s, counter r). -/
def execSouti (d : Reg) (s : Reg) (r : Reg) (st : State) : Out :=
  M.run (privileged (once (outputElement .special .w true s d r))) st

/-- SOUTIB (R440; port in R[d], memory pointer s, counter r). -/
def execSoutib (d : Reg) (s : Reg) (r : Reg) (st : State) : Out :=
  M.run (privileged (once (outputElement .special .b true s d r))) st

/-- SOTIR (R441; port in R[d], memory pointer s, counter r). -/
def execSotir (d : Reg) (s : Reg) (r : Reg) (st : State) : Out :=
  M.run (privileged (repeating (outputElement .special .w true s d r))) st

/-- SOTIRB (R441; port in R[d], memory pointer s, counter r). -/
def execSotirb (d : Reg) (s : Reg) (r : Reg) (st : State) : Out :=
  M.run (privileged (repeating (outputElement .special .b true s d r))) st

/-- SOUTD (R442; port in R[d], memory pointer s, counter r). -/
def execSoutd (d : Reg) (s : Reg) (r : Reg) (st : State) : Out :=
  M.run (privileged (once (outputElement .special .w false s d r))) st

/-- SOUTDB (R442; port in R[d], memory pointer s, counter r). -/
def execSoutdb (d : Reg) (s : Reg) (r : Reg) (st : State) : Out :=
  M.run (privileged (once (outputElement .special .b false s d r))) st

/-- SOTDR (R443; port in R[d], memory pointer s, counter r). -/
def execSotdr (d : Reg) (s : Reg) (r : Reg) (st : State) : Out :=
  M.run (privileged (repeating (outputElement .special .w false s d r))) st

/-- SOTDRB (R443; port in R[d], memory pointer s, counter r). -/
def execSotdrb (d : Reg) (s : Reg) (r : Reg) (st : State) : Out :=
  M.run (privileged (repeating (outputElement .special .b false s d r))) st

end Sys2Proof.Machine
end

