-- ==== Sys2Proof/Machine/Logical.lean ====
section
/-! DEFINITION. The logical instructions (spec/42): none is privileged, none traps. -/

namespace Sys2Proof.Machine

/-- Combine a source with a register bit by bit (R281, R283, R284); `fl` is the effect on FCW. -/
def logicInto (wd : Width) (d : Reg) (s : Src wd) (op : BitVec wd.bits → BitVec wd.bits → BitVec wd.bits)
    (fl : Fcw → BitVec wd.bits → Fcw) : M Unit := do
  let b ← readSrc s
  let a ← readReg wd d
  writeReg wd d (op a b)
  setFcw fun f => fl f (op a b)

/-- Complement an operand (R282). -/
def complement (wd : Width) (d : Dst) (fl : Fcw → BitVec wd.bits → Fcw) : M Unit :=
  updateDst wd d (fun a => ~~~a) (fun a f => fl f (~~~a))

/-- Set the flags from an operand and leave the operand (R285). -/
def testOperand (wd : Width) (d : Dst) (fl : Fcw → BitVec wd.bits → Fcw) : M Unit := do
  let a ← readDst wd d
  setFcw fun f => fl f a

/-- Set the flags from a long operand: P/V is a free value (R285, U3). -/
def testLong (d : Dst) : M Unit := do
  let a ← readDst .l d
  let v ← freeBool
  setFcw fun f => { f.logic a with pv := v }

/-- Set bit 0 of a register if the condition holds, else leave the register (R286). -/
def testCondition (wd : Width) (cc : CC) (d : Reg) : M Unit := do
  let s ← get
  if s.fcw.cond cc then writeReg wd d (s.regAt wd d ||| 1) else pure ()

/-- AND (R281). -/
def execAnd (d : Reg) (s : Src .w) (st : State) : Out := M.run (logicInto .w d s (· &&& ·) Fcw.logic) st

/-- ANDB (R281). -/
def execAndb (d : Reg) (s : Src .b) (st : State) : Out := M.run (logicInto .b d s (· &&& ·) Fcw.logicB) st

/-- OR (R283). -/
def execOr (d : Reg) (s : Src .w) (st : State) : Out := M.run (logicInto .w d s (· ||| ·) Fcw.logic) st

/-- ORB (R283). -/
def execOrb (d : Reg) (s : Src .b) (st : State) : Out := M.run (logicInto .b d s (· ||| ·) Fcw.logicB) st

/-- XOR (R284). -/
def execXor (d : Reg) (s : Src .w) (st : State) : Out := M.run (logicInto .w d s (· ^^^ ·) Fcw.logic) st

/-- XORB (R284). -/
def execXorb (d : Reg) (s : Src .b) (st : State) : Out := M.run (logicInto .b d s (· ^^^ ·) Fcw.logicB) st

/-- COM (R282). -/
def execCom (d : Dst) (st : State) : Out := M.run (complement .w d Fcw.logic) st

/-- COMB (R282). -/
def execComb (d : Dst) (st : State) : Out := M.run (complement .b d Fcw.logicB) st

/-- TEST (R285). -/
def execTest (d : Dst) (st : State) : Out := M.run (testOperand .w d Fcw.logic) st

/-- TESTB (R285). -/
def execTestb (d : Dst) (st : State) : Out := M.run (testOperand .b d Fcw.logicB) st

/-- TESTL (R285). -/
def execTestl (d : Dst) (st : State) : Out := M.run (testLong d) st

/-- TCC (R286). -/
def execTcc (cc : CC) (d : Reg) (st : State) : Out := M.run (testCondition .w cc d) st

/-- TCCB (R286). -/
def execTccb (cc : CC) (d : Reg) (st : State) : Out := M.run (testCondition .b cc d) st

end Sys2Proof.Machine
end

