-- ==== Sys2Proof/Machine/Shifts.lean ====
section
/-! DEFINITION. The rotate and shift instructions (spec/45): none is privileged, none traps; every destination is a register. -/

namespace Sys2Proof.Machine

/-- Rotate a register by one place, or by two (R341 to R344). -/
def rotate (wd : Width) (step : ShiftStep wd.bits) (d : Reg) (twice : Bool) : M Unit := do
  let s ← get
  let a := s.regAt wd d
  let x := shiftBy step (if twice then 2 else 1) a s.fcw.c
  writeReg wd d x.val
  setFcw fun f => f.shift x.c (x.overflow s.cfg a) x.val

/-- Shift a register left arithmetically by `n` places (R351): C is a free value when `n` is 0 (U3). -/
def shiftLeftArith (wd : Width) (d : Reg) (n : Nat) : M Unit := do
  let s ← get
  let a := s.regAt wd d
  let x := shiftBy shiftLeft1 n a s.fcw.c
  let c ← if n = 0 then freeBool else pure x.c
  writeReg wd d x.val
  setFcw fun f => f.shift c (x.overflow s.cfg a) x.val

/-- Shift a register left logically by `n` places (R352): V is a free value, and C when `n` is 0 (U3). -/
def shiftLeftLogical (wd : Width) (d : Reg) (n : Nat) : M Unit := do
  let s ← get
  let a := s.regAt wd d
  let x := shiftBy shiftLeft1 n a s.fcw.c
  let c ← if n = 0 then freeBool else pure x.c
  let v ← freeBool
  writeReg wd d x.val
  setFcw fun f => f.shift c v x.val

/-- Shift a register right arithmetically by `n` places, `n` at least 1 (R353): V is cleared. -/
def shiftRightArith (wd : Width) (d : Reg) (n : Nat) : M Unit := do
  let s ← get
  let a := s.regAt wd d
  let x := shiftBy shiftRightArith1 n a s.fcw.c
  writeReg wd d x.val
  setFcw fun f => f.shift x.c false x.val

/-- Shift a register right logically by `n` places, `n` at least 1 (R354): V is a free value (U3). -/
def shiftRightLogical (wd : Width) (d : Reg) (n : Nat) : M Unit := do
  let s ← get
  let a := s.regAt wd d
  let x := shiftBy shiftRight1 n a s.fcw.c
  let v ← freeBool
  writeReg wd d x.val
  setFcw fun f => f.shift x.c v x.val

/-- A dynamic shift whose count is out of range: the destination, C, Z, S and V are free values (U23). -/
def shiftUndefined (wd : Width) (d : Reg) : M Unit := do
  let r ← free wd.bits
  let c ← freeBool
  let z ← freeBool
  let sg ← freeBool
  let v ← freeBool
  writeReg wd d r
  setFcw fun f => { f with c := c, z := z, s := sg, pv := v }

/-- A dynamic shift (R355, R356): the signed word in `R[s]` is the count, to the left when positive; it is read before
the destination is written. -/
def shiftDynamic (wd : Width) (left right : Reg → Nat → M Unit) (d s : Reg) : M Unit := do
  let st ← get
  let n := (st.reg s).toInt
  if (wd.bits : Int) < n ∨ n < -(wd.bits : Int) then shiftUndefined wd d
  else if 0 ≤ n then left d n.toNat
  else right d (-n).toNat

/-- RLDB on link and source (R349): the new link and the new source. -/
def rotateDigitLeft (link src : Byte) : Byte × Byte :=
  (link.extractLsb' 4 4 ++ src.extractLsb' 4 4, src.extractLsb' 0 4 ++ link.extractLsb' 0 4)

/-- RRDB on link and source (R349): the new link and the new source. -/
def rotateDigitRight (link src : Byte) : Byte × Byte :=
  (link.extractLsb' 4 4 ++ src.extractLsb' 0 4, link.extractLsb' 0 4 ++ src.extractLsb' 4 4)

/-- RLDB and RRDB (R349): Z is set if the link becomes zero; S is a free value (U3). -/
def rotateDigit (move : Byte → Byte → Byte × Byte) (link s : Reg) : M Unit := do
  let st ← get
  let x := move (st.regB link) (st.regB s)
  writeReg .b link x.1
  writeReg .b s x.2
  let sg ← freeBool
  setFcw fun f => { f with z := x.1 == 0, s := sg }

/-- RL (R341; by 2 if twice, else by 1). -/
def execRl (d : Reg) (twice : Bool) (st : State) : Out := M.run (rotate .w rotateLeft1 d twice) st

/-- RLB (R341; by 2 if twice, else by 1). -/
def execRlb (d : Reg) (twice : Bool) (st : State) : Out := M.run (rotate .b rotateLeft1 d twice) st

/-- RLC (R342; by 2 if twice, else by 1). -/
def execRlc (d : Reg) (twice : Bool) (st : State) : Out := M.run (rotate .w rotateLeftCarry1 d twice) st

/-- RLCB (R342; by 2 if twice, else by 1). -/
def execRlcb (d : Reg) (twice : Bool) (st : State) : Out := M.run (rotate .b rotateLeftCarry1 d twice) st

/-- RR (R343; by 2 if twice, else by 1). -/
def execRr (d : Reg) (twice : Bool) (st : State) : Out := M.run (rotate .w rotateRight1 d twice) st

/-- RRB (R343; by 2 if twice, else by 1). -/
def execRrb (d : Reg) (twice : Bool) (st : State) : Out := M.run (rotate .b rotateRight1 d twice) st

/-- RRC (R344; by 2 if twice, else by 1). -/
def execRrc (d : Reg) (twice : Bool) (st : State) : Out := M.run (rotate .w rotateRightCarry1 d twice) st

/-- RRCB (R344; by 2 if twice, else by 1). -/
def execRrcb (d : Reg) (twice : Bool) (st : State) : Out := M.run (rotate .b rotateRightCarry1 d twice) st

/-- RLDB (R349). -/
def execRldb (link : Reg) (s : Reg) (st : State) : Out := M.run (rotateDigit rotateDigitLeft link s) st

/-- RRDB (R349). -/
def execRrdb (link : Reg) (s : Reg) (st : State) : Out := M.run (rotateDigit rotateDigitRight link s) st

/-- SLA (R351; static, by n places). -/
def execSla (d : Reg) (n : Nat) (st : State) : Out := M.run (shiftLeftArith .w d n) st

/-- SLAB (R351; static, by n places). -/
def execSlab (d : Reg) (n : Nat) (st : State) : Out := M.run (shiftLeftArith .b d n) st

/-- SLAL (R351; static, by n places). -/
def execSlal (d : Reg) (n : Nat) (st : State) : Out := M.run (shiftLeftArith .l d n) st

/-- SLL (R352; static, by n places). -/
def execSll (d : Reg) (n : Nat) (st : State) : Out := M.run (shiftLeftLogical .w d n) st

/-- SLLB (R352; static, by n places). -/
def execSllb (d : Reg) (n : Nat) (st : State) : Out := M.run (shiftLeftLogical .b d n) st

/-- SLLL (R352; static, by n places). -/
def execSlll (d : Reg) (n : Nat) (st : State) : Out := M.run (shiftLeftLogical .l d n) st

/-- SRA (R353; static, by n places). -/
def execSra (d : Reg) (n : Nat) (st : State) : Out := M.run (shiftRightArith .w d n) st

/-- SRAB (R353; static, by n places). -/
def execSrab (d : Reg) (n : Nat) (st : State) : Out := M.run (shiftRightArith .b d n) st

/-- SRAL (R353; static, by n places). -/
def execSral (d : Reg) (n : Nat) (st : State) : Out := M.run (shiftRightArith .l d n) st

/-- SRL (R354; static, by n places). -/
def execSrl (d : Reg) (n : Nat) (st : State) : Out := M.run (shiftRightLogical .w d n) st

/-- SRLB (R354; static, by n places). -/
def execSrlb (d : Reg) (n : Nat) (st : State) : Out := M.run (shiftRightLogical .b d n) st

/-- SRLL (R354; static, by n places). -/
def execSrll (d : Reg) (n : Nat) (st : State) : Out := M.run (shiftRightLogical .l d n) st

/-- SDA (R355; count in R[s]). -/
def execSda (d : Reg) (s : Reg) (st : State) : Out :=
  M.run (shiftDynamic .w (shiftLeftArith .w) (shiftRightArith .w) d s) st

/-- SDAB (R355; count in R[s]). -/
def execSdab (d : Reg) (s : Reg) (st : State) : Out :=
  M.run (shiftDynamic .b (shiftLeftArith .b) (shiftRightArith .b) d s) st

/-- SDAL (R355; count in R[s]). -/
def execSdal (d : Reg) (s : Reg) (st : State) : Out :=
  M.run (shiftDynamic .l (shiftLeftArith .l) (shiftRightArith .l) d s) st

/-- SDL (R356; count in R[s]). -/
def execSdl (d : Reg) (s : Reg) (st : State) : Out :=
  M.run (shiftDynamic .w (shiftLeftLogical .w) (shiftRightLogical .w) d s) st

/-- SDLB (R356; count in R[s]). -/
def execSdlb (d : Reg) (s : Reg) (st : State) : Out :=
  M.run (shiftDynamic .b (shiftLeftLogical .b) (shiftRightLogical .b) d s) st

/-- SDLL (R356; count in R[s]). -/
def execSdll (d : Reg) (s : Reg) (st : State) : Out :=
  M.run (shiftDynamic .l (shiftLeftLogical .l) (shiftRightLogical .l) d s) st

end Sys2Proof.Machine
end

