-- ==== Sys2Proof/Machine/Dispatch.lean ====
section
/-! DEFINITION. One arm per instruction, each a direct call of its meaning. -/

namespace Sys2Proof.Machine

/-- The meaning of an instruction, in the state after its words have been fetched: PC stands after it, `instrPc` and `ir`
hold its address and first word (R26, R200). -/
def exec (i : Instr) (s : State) : Host.Outcome State Fault Refusal :=
  match i with
  -- Load and exchange (spec/40)
  | .clr d => Sys2Proof.Machine.execClr d s
  | .clrb d => Sys2Proof.Machine.execClrb d s
  | .ex d src => Sys2Proof.Machine.execEx d src s
  | .exb d src => Sys2Proof.Machine.execExb d src s
  | .ld d src => Sys2Proof.Machine.execLd d src s
  | .ldb d src => Sys2Proof.Machine.execLdb d src s
  | .ldl d src => Sys2Proof.Machine.execLdl d src s
  | .ldBased d src => Sys2Proof.Machine.execLdBased d src s
  | .ldbBased d src => Sys2Proof.Machine.execLdbBased d src s
  | .ldlBased d src => Sys2Proof.Machine.execLdlBased d src s
  | .ldStore d src => Sys2Proof.Machine.execLdStore d src s
  | .ldbStore d src => Sys2Proof.Machine.execLdbStore d src s
  | .ldlStore d src => Sys2Proof.Machine.execLdlStore d src s
  | .ldStoreBased d src => Sys2Proof.Machine.execLdStoreBased d src s
  | .ldbStoreBased d src => Sys2Proof.Machine.execLdbStoreBased d src s
  | .ldlStoreBased d src => Sys2Proof.Machine.execLdlStoreBased d src s
  | .ldImm d v => Sys2Proof.Machine.execLdImm d v s
  | .ldbImm d v => Sys2Proof.Machine.execLdbImm d v s
  | .ldbShort d v => Sys2Proof.Machine.execLdbShort d v s
  | .lda d src => Sys2Proof.Machine.execLda d src s
  | .ldaBased d src => Sys2Proof.Machine.execLdaBased d src s
  | .ldar d disp => Sys2Proof.Machine.execLdar d disp s
  | .ldk d n => Sys2Proof.Machine.execLdk d n s
  | .ldmLoad d src n => Sys2Proof.Machine.execLdmLoad d src n s
  | .ldmStore d src n => Sys2Proof.Machine.execLdmStore d src n s
  | .ldr d disp => Sys2Proof.Machine.execLdr d disp s
  | .ldrb d disp => Sys2Proof.Machine.execLdrb d disp s
  | .ldrl d disp => Sys2Proof.Machine.execLdrl d disp s
  | .ldrStore disp src => Sys2Proof.Machine.execLdrStore disp src s
  | .ldrbStore disp src => Sys2Proof.Machine.execLdrbStore disp src s
  | .ldrlStore disp src => Sys2Proof.Machine.execLdrlStore disp src s
  | .pop d sp => Sys2Proof.Machine.execPop d sp s
  | .popl d sp => Sys2Proof.Machine.execPopl d sp s
  | .push sp src => Sys2Proof.Machine.execPush sp src s
  | .pushl sp src => Sys2Proof.Machine.execPushl sp src s
  | .pushImm sp v => Sys2Proof.Machine.execPushImm sp v s
  -- Arithmetic (spec/41)
  | .adc d src => Sys2Proof.Machine.execAdc d src s
  | .adcb d src => Sys2Proof.Machine.execAdcb d src s
  | .add d src => Sys2Proof.Machine.execAdd d src s
  | .addb d src => Sys2Proof.Machine.execAddb d src s
  | .addl d src => Sys2Proof.Machine.execAddl d src s
  | .cp d src => Sys2Proof.Machine.execCp d src s
  | .cpb d src => Sys2Proof.Machine.execCpb d src s
  | .cpl d src => Sys2Proof.Machine.execCpl d src s
  | .cpImm d v => Sys2Proof.Machine.execCpImm d v s
  | .cpbImm d v => Sys2Proof.Machine.execCpbImm d v s
  | .dab d => Sys2Proof.Machine.execDab d s
  | .dec d n => Sys2Proof.Machine.execDec d n s
  | .decb d n => Sys2Proof.Machine.execDecb d n s
  | .inc d n => Sys2Proof.Machine.execInc d n s
  | .incb d n => Sys2Proof.Machine.execIncb d n s
  | .extsb d => Sys2Proof.Machine.execExtsb d s
  | .exts d => Sys2Proof.Machine.execExts d s
  | .extsl d => Sys2Proof.Machine.execExtsl d s
  | .neg d => Sys2Proof.Machine.execNeg d s
  | .negb d => Sys2Proof.Machine.execNegb d s
  | .mult d src => Sys2Proof.Machine.execMult d src s
  | .multl d src => Sys2Proof.Machine.execMultl d src s
  | .div d src => Sys2Proof.Machine.execDiv d src s
  | .divl d src => Sys2Proof.Machine.execDivl d src s
  | .sbc d src => Sys2Proof.Machine.execSbc d src s
  | .sbcb d src => Sys2Proof.Machine.execSbcb d src s
  | .sub d src => Sys2Proof.Machine.execSub d src s
  | .subb d src => Sys2Proof.Machine.execSubb d src s
  | .subl d src => Sys2Proof.Machine.execSubl d src s
  -- Logical (spec/42)
  | .and d src => Sys2Proof.Machine.execAnd d src s
  | .andb d src => Sys2Proof.Machine.execAndb d src s
  | .com d => Sys2Proof.Machine.execCom d s
  | .comb d => Sys2Proof.Machine.execComb d s
  | .or d src => Sys2Proof.Machine.execOr d src s
  | .orb d src => Sys2Proof.Machine.execOrb d src s
  | .xor d src => Sys2Proof.Machine.execXor d src s
  | .xorb d src => Sys2Proof.Machine.execXorb d src s
  | .test d => Sys2Proof.Machine.execTest d s
  | .testb d => Sys2Proof.Machine.execTestb d s
  | .testl d => Sys2Proof.Machine.execTestl d s
  | .tcc cc d => Sys2Proof.Machine.execTcc cc d s
  | .tccb cc d => Sys2Proof.Machine.execTccb cc d s
  -- Program control (spec/43)
  | .call t => Sys2Proof.Machine.execCall t s
  | .calr disp => Sys2Proof.Machine.execCalr disp s
  | .djnz r disp => Sys2Proof.Machine.execDjnz r disp s
  | .dbjnz r disp => Sys2Proof.Machine.execDbjnz r disp s
  | .jp cc t => Sys2Proof.Machine.execJp cc t s
  | .jr cc disp => Sys2Proof.Machine.execJr cc disp s
  | .ret cc => Sys2Proof.Machine.execRet cc s
  | .iret => Sys2Proof.Machine.execIret s
  | .sc n => Sys2Proof.Machine.execSc n s
  -- Bit manipulation (spec/44)
  | .bit d k => Sys2Proof.Machine.execBit d k s
  | .bitDyn d src => Sys2Proof.Machine.execBitDyn d src s
  | .bitb d k => Sys2Proof.Machine.execBitb d k s
  | .bitbDyn d src => Sys2Proof.Machine.execBitbDyn d src s
  | .res d k => Sys2Proof.Machine.execRes d k s
  | .resDyn d src => Sys2Proof.Machine.execResDyn d src s
  | .resb d k => Sys2Proof.Machine.execResb d k s
  | .resbDyn d src => Sys2Proof.Machine.execResbDyn d src s
  | .set d k => Sys2Proof.Machine.execSet d k s
  | .setDyn d src => Sys2Proof.Machine.execSetDyn d src s
  | .setb d k => Sys2Proof.Machine.execSetb d k s
  | .setbDyn d src => Sys2Proof.Machine.execSetbDyn d src s
  | .tset d => Sys2Proof.Machine.execTset d s
  | .tsetb d => Sys2Proof.Machine.execTsetb d s
  -- Rotate and shift (spec/45)
  | .rl d twice => Sys2Proof.Machine.execRl d twice s
  | .rlb d twice => Sys2Proof.Machine.execRlb d twice s
  | .rlc d twice => Sys2Proof.Machine.execRlc d twice s
  | .rlcb d twice => Sys2Proof.Machine.execRlcb d twice s
  | .rr d twice => Sys2Proof.Machine.execRr d twice s
  | .rrb d twice => Sys2Proof.Machine.execRrb d twice s
  | .rrc d twice => Sys2Proof.Machine.execRrc d twice s
  | .rrcb d twice => Sys2Proof.Machine.execRrcb d twice s
  | .rldb link src => Sys2Proof.Machine.execRldb link src s
  | .rrdb link src => Sys2Proof.Machine.execRrdb link src s
  | .sla d n => Sys2Proof.Machine.execSla d n s
  | .slab d n => Sys2Proof.Machine.execSlab d n s
  | .slal d n => Sys2Proof.Machine.execSlal d n s
  | .sll d n => Sys2Proof.Machine.execSll d n s
  | .sllb d n => Sys2Proof.Machine.execSllb d n s
  | .slll d n => Sys2Proof.Machine.execSlll d n s
  | .sra d n => Sys2Proof.Machine.execSra d n s
  | .srab d n => Sys2Proof.Machine.execSrab d n s
  | .sral d n => Sys2Proof.Machine.execSral d n s
  | .srl d n => Sys2Proof.Machine.execSrl d n s
  | .srlb d n => Sys2Proof.Machine.execSrlb d n s
  | .srll d n => Sys2Proof.Machine.execSrll d n s
  | .sda d src => Sys2Proof.Machine.execSda d src s
  | .sdab d src => Sys2Proof.Machine.execSdab d src s
  | .sdal d src => Sys2Proof.Machine.execSdal d src s
  | .sdl d src => Sys2Proof.Machine.execSdl d src s
  | .sdlb d src => Sys2Proof.Machine.execSdlb d src s
  | .sdll d src => Sys2Proof.Machine.execSdll d src s
  -- Block transfer and string manipulation (spec/46)
  | .cpi d src r cc => Sys2Proof.Machine.execCpi d src r cc s
  | .cpib d src r cc => Sys2Proof.Machine.execCpib d src r cc s
  | .cpir d src r cc => Sys2Proof.Machine.execCpir d src r cc s
  | .cpirb d src r cc => Sys2Proof.Machine.execCpirb d src r cc s
  | .cpd d src r cc => Sys2Proof.Machine.execCpd d src r cc s
  | .cpdb d src r cc => Sys2Proof.Machine.execCpdb d src r cc s
  | .cpdr d src r cc => Sys2Proof.Machine.execCpdr d src r cc s
  | .cpdrb d src r cc => Sys2Proof.Machine.execCpdrb d src r cc s
  | .cpsi d src r cc => Sys2Proof.Machine.execCpsi d src r cc s
  | .cpsib d src r cc => Sys2Proof.Machine.execCpsib d src r cc s
  | .cpsir d src r cc => Sys2Proof.Machine.execCpsir d src r cc s
  | .cpsirb d src r cc => Sys2Proof.Machine.execCpsirb d src r cc s
  | .cpsd d src r cc => Sys2Proof.Machine.execCpsd d src r cc s
  | .cpsdb d src r cc => Sys2Proof.Machine.execCpsdb d src r cc s
  | .cpsdr d src r cc => Sys2Proof.Machine.execCpsdr d src r cc s
  | .cpsdrb d src r cc => Sys2Proof.Machine.execCpsdrb d src r cc s
  | .ldi d src r => Sys2Proof.Machine.execLdi d src r s
  | .ldib d src r => Sys2Proof.Machine.execLdib d src r s
  | .ldir d src r => Sys2Proof.Machine.execLdir d src r s
  | .ldirb d src r => Sys2Proof.Machine.execLdirb d src r s
  | .ldd d src r => Sys2Proof.Machine.execLdd d src r s
  | .lddb d src r => Sys2Proof.Machine.execLddb d src r s
  | .lddr d src r => Sys2Proof.Machine.execLddr d src r s
  | .lddrb d src r => Sys2Proof.Machine.execLddrb d src r s
  | .trib d src r => Sys2Proof.Machine.execTrib d src r s
  | .trirb d src r => Sys2Proof.Machine.execTrirb d src r s
  | .trdb d src r => Sys2Proof.Machine.execTrdb d src r s
  | .trdrb d src r => Sys2Proof.Machine.execTrdrb d src r s
  | .trtib d src r => Sys2Proof.Machine.execTrtib d src r s
  | .trtirb d src r => Sys2Proof.Machine.execTrtirb d src r s
  | .trtdb d src r => Sys2Proof.Machine.execTrtdb d src r s
  | .trtdrb d src r => Sys2Proof.Machine.execTrtdrb d src r s
  -- Input/output (spec/47)
  | .inIr d src => Sys2Proof.Machine.execInIr d src s
  | .inDa d port => Sys2Proof.Machine.execInDa d port s
  | .inbIr d src => Sys2Proof.Machine.execInbIr d src s
  | .inbDa d port => Sys2Proof.Machine.execInbDa d port s
  | .outIr d src => Sys2Proof.Machine.execOutIr d src s
  | .outDa port src => Sys2Proof.Machine.execOutDa port src s
  | .outbIr d src => Sys2Proof.Machine.execOutbIr d src s
  | .outbDa port src => Sys2Proof.Machine.execOutbDa port src s
  | .sin d port => Sys2Proof.Machine.execSin d port s
  | .sinb d port => Sys2Proof.Machine.execSinb d port s
  | .sout port src => Sys2Proof.Machine.execSout port src s
  | .soutb port src => Sys2Proof.Machine.execSoutb port src s
  | .ini d src r => Sys2Proof.Machine.execIni d src r s
  | .inib d src r => Sys2Proof.Machine.execInib d src r s
  | .inir d src r => Sys2Proof.Machine.execInir d src r s
  | .inirb d src r => Sys2Proof.Machine.execInirb d src r s
  | .ind d src r => Sys2Proof.Machine.execInd d src r s
  | .indb d src r => Sys2Proof.Machine.execIndb d src r s
  | .indr d src r => Sys2Proof.Machine.execIndr d src r s
  | .indrb d src r => Sys2Proof.Machine.execIndrb d src r s
  | .outi d src r => Sys2Proof.Machine.execOuti d src r s
  | .outib d src r => Sys2Proof.Machine.execOutib d src r s
  | .otir d src r => Sys2Proof.Machine.execOtir d src r s
  | .otirb d src r => Sys2Proof.Machine.execOtirb d src r s
  | .outd d src r => Sys2Proof.Machine.execOutd d src r s
  | .outdb d src r => Sys2Proof.Machine.execOutdb d src r s
  | .otdr d src r => Sys2Proof.Machine.execOtdr d src r s
  | .otdrb d src r => Sys2Proof.Machine.execOtdrb d src r s
  | .sini d src r => Sys2Proof.Machine.execSini d src r s
  | .sinib d src r => Sys2Proof.Machine.execSinib d src r s
  | .sinir d src r => Sys2Proof.Machine.execSinir d src r s
  | .sinirb d src r => Sys2Proof.Machine.execSinirb d src r s
  | .sind d src r => Sys2Proof.Machine.execSind d src r s
  | .sindb d src r => Sys2Proof.Machine.execSindb d src r s
  | .sindr d src r => Sys2Proof.Machine.execSindr d src r s
  | .sindrb d src r => Sys2Proof.Machine.execSindrb d src r s
  | .souti d src r => Sys2Proof.Machine.execSouti d src r s
  | .soutib d src r => Sys2Proof.Machine.execSoutib d src r s
  | .sotir d src r => Sys2Proof.Machine.execSotir d src r s
  | .sotirb d src r => Sys2Proof.Machine.execSotirb d src r s
  | .soutd d src r => Sys2Proof.Machine.execSoutd d src r s
  | .soutdb d src r => Sys2Proof.Machine.execSoutdb d src r s
  | .sotdr d src r => Sys2Proof.Machine.execSotdr d src r s
  | .sotdrb d src r => Sys2Proof.Machine.execSotdrb d src r s
  -- CPU control (spec/48)
  | .comflg c z src p => Sys2Proof.Machine.execComflg c z src p s
  | .resflg c z src p => Sys2Proof.Machine.execResflg c z src p s
  | .setflg c z src p => Sys2Proof.Machine.execSetflg c z src p s
  | .di vi nvi => Sys2Proof.Machine.execDi vi nvi s
  | .ei vi nvi => Sys2Proof.Machine.execEi vi nvi s
  | .halt => Sys2Proof.Machine.execHalt s
  | .ldctlWrite c src => Sys2Proof.Machine.execLdctlWrite c src s
  | .ldctlRead d c => Sys2Proof.Machine.execLdctlRead d c s
  | .ldctlbWrite src => Sys2Proof.Machine.execLdctlbWrite src s
  | .ldctlbRead d => Sys2Proof.Machine.execLdctlbRead d s
  | .ldps src => Sys2Proof.Machine.execLdps src s
  | .mbit => Sys2Proof.Machine.execMbit s
  | .mreq d => Sys2Proof.Machine.execMreq d s
  | .mres => Sys2Proof.Machine.execMres s
  | .mset => Sys2Proof.Machine.execMset s
  | .nop => Sys2Proof.Machine.execNop s
  -- Extended instructions (spec/49)
  | .epuLdmFrom d ii w2 => Sys2Proof.Machine.execEpuLdmFrom d ii w2 s
  | .epuLdmTo src ii w2 => Sys2Proof.Machine.execEpuLdmTo src ii w2 s
  | .epuLdrFrom x ii w2 => Sys2Proof.Machine.execEpuLdrFrom x ii w2 s
  | .epuLdrTo x ii w2 => Sys2Proof.Machine.execEpuLdrTo x ii w2 s
  | .epuLdfFrom x ii w2 => Sys2Proof.Machine.execEpuLdfFrom x ii w2 s
  | .epuLdfTo x ii w2 => Sys2Proof.Machine.execEpuLdfTo x ii w2 s
  | .epuOp x ii w2 => Sys2Proof.Machine.execEpuOp x ii w2 s

end Sys2Proof.Machine
end

