-- ==== Sys2Proof/Machine/Step.lean ====
section
/-! DEFINITION. One step of the machine: an instruction, one element of a repeating instruction, an exception entry, a
reset, or an idle step (D6). -/

namespace Sys2Proof.Machine

/-- Fetch an instruction and execute it, or take the trap its first word raises. -/
def runInstr (s : State) : Host.Outcome State Fault Refusal :=
  match fetchInstr s with
  | .error (.fault f) => .fault f
  | .error (.refused r) => .refused r
  | .error (.abandoned s') => .next s'
  | .ok (.trap k, s') => M.run (trapOnFirstWord k) s'
  | .ok (.instr i, s') => exec i s'

/-- What a step does before the environment's next inputs arrive. -/
def act (s : State) : Host.Outcome State Fault Refusal :=
  match s.activity with
  | .reset => .next s.underReset
  | .restart => Out.map State.orReset (M.run resetSequence s)
  | .disconnected => M.run idleDisconnected s
  | .stopped => M.run idleStopped s
  | .take k => Out.map State.orReset (M.run (takeAtBoundary k) s)
  | .waiting => M.run idleWaiting s
  | .execute => Out.bind (runInstr s) (lookAhead s)

/-- ONE STEP. -/
def step (s : State) : Host.Outcome State Fault Refusal := Out.map State.endStep (act s)

/-- The same machine with the instruction of `nbits` bits `w` (all higher bits zero) stored at the PC, ready to fetch
it: it stands for loading a program into memory from outside (log 7). -/
def State.withFetchWord (s : State) (nbits w : Nat) : State :=
  (s.placeBytes s.pcOff (tableBytes nbits w)).readyToFetch

end Sys2Proof.Machine
end

