-- ==== Sys2Proof/Safety.lean ====
section
/-! DEFINITION. The terms statements use: operand values and stores on a machine without MMUs, what makes an access
aligned, the invariant every step keeps, which instructions are privileged or extended, and what each instruction may
write. -/

namespace Sys2Proof

open Machine

/-! The invariant. -/

/-- What holds of every state a run from a sound state reaches: memory is in canonical form (R70); on a Z8002 there is no
segmented mode and no segment number (R22, R25, R32); FCW.EPA is 0 where it is not implemented (R34, R501). -/
structure Machine.State.Inv (s : State) : Prop where
  mem : s.mem.wf = true
  nonseg : s.cfg.version = .z8002 → s.fcw.seg = false ∧ s.pcSeg = 0 ∧ s.psapSeg = 0
  epa : s.cfg.epaImplemented = false → s.fcw.epa = false

/-! Operands on a machine whose memory is plain RAM without MMUs (`State.plain`). -/

/-- An access of this width at this address is aligned (R80). -/
def Machine.Addr.aligned (wd : Width) (a : Addr) : Bool := wd == .b || !a.off.getLsbD 0

/-- The value at an address (R78): a long word is the words at A and A+2. -/
def Machine.State.value (s : State) (l : Label) (a : Addr) : (wd : Width) → BitVec wd.bits
  | .b => s.byteAt l a
  | .w => s.wordAt l a
  | .l => s.wordAt l a ++ s.wordAt l (a.add 2)

/-- The state after a value is stored at an address (R78). -/
def Machine.State.stored (s : State) (l : Label) (a : Addr) : (wd : Width) → BitVec wd.bits → State
  | .b, v => s.storeByte l a v
  | .w, v => s.storeWord l a v
  | .l, v => (s.storeWord l a (BitVec.extractLsb' 16 16 v)).storeWord l (a.add 2) (BitVec.extractLsb' 0 16 v)

/-- An IR, DA or X operand of this width is aligned. -/
def Mem.ready (wd : Width) (s : State) (m : Mem) : Bool := (Mem.ea s m).aligned wd

/-- A BA or BX operand of this width is aligned. -/
def Based.ready (wd : Width) (s : State) (b : Based) : Bool := (Based.ea s b).aligned wd

/-- A register operand, or an aligned memory operand. -/
def Dst.ready (wd : Width) (s : State) : Dst → Bool
  | .reg _ => true
  | .mem m => m.ready wd s

/-- A register or immediate operand, or an aligned memory operand. -/
def Src.ready {wd : Width} (s : State) : Src wd → Bool
  | .reg _ => true
  | .imm _ => true
  | .mem m => m.ready wd s

/-- The value of an IR, DA or X operand. -/
def Mem.value (wd : Width) (s : State) (m : Mem) : BitVec wd.bits := s.value (Mem.label s m) (Mem.ea s m) wd

/-- The value of a BA or BX operand. -/
def Based.value (wd : Width) (s : State) (b : Based) : BitVec wd.bits := s.value (Based.label s b) (Based.ea s b) wd

/-- The value of an R, IR, DA or X operand. -/
def Dst.value (wd : Width) (s : State) : Dst → BitVec wd.bits
  | .reg r => s.regAt wd r
  | .mem m => m.value wd s

/-- The value of an R, IM, IR, DA or X operand. -/
def Src.value {wd : Width} (s : State) : Src wd → BitVec wd.bits
  | .reg r => s.regAt wd r
  | .imm v => v
  | .mem m => m.value wd s

/-- The state after an IR, DA or X operand receives a value. -/
def Mem.put (wd : Width) (s : State) (m : Mem) (v : BitVec wd.bits) : State :=
  s.stored (Mem.label s m) (Mem.ea s m) wd v

/-- The state after a BA or BX operand receives a value. -/
def Based.put (wd : Width) (s : State) (b : Based) (v : BitVec wd.bits) : State :=
  s.stored (Based.label s b) (Based.ea s b) wd v

/-- The state after an R, IR, DA or X operand receives a value. -/
def Dst.put (wd : Width) (s : State) (d : Dst) (v : BitVec wd.bits) : State :=
  match d with
  | .reg r => s.setRegAt wd r v
  | .mem m => m.put wd s v

/-- The same state with another FCW. -/
def Machine.State.withFcw (s : State) (f : Fcw) : State := { s with fcw := f }

/-! The stack. -/

/-- The state after a push through pointer `n` (R86). -/
def Machine.State.pushed (s : State) (l : Label) (n : Reg) (wd : Width) (v : BitVec wd.bits) : State :=
  (s.stepPtr n (-(BitVec.ofNat 16 wd.bytes))).stored l ((s.stepPtr n (-(BitVec.ofNat 16 wd.bytes))).addrOf n) wd v

/-- The value on top of the stack of pointer `n` (R86). -/
def Machine.State.top (s : State) (n : Reg) (wd : Width) : BitVec wd.bits := s.value (s.labelOf n) (s.addrOf n) wd

/-- The state after a pop through pointer `n` (R86). -/
def Machine.State.popped (s : State) (n : Reg) (wd : Width) : State := s.stepPtr n (BitVec.ofNat 16 wd.bytes)

/-- The state after the PC is pushed on the processor stack (R300(e)). -/
def Machine.State.pcPushed (s : State) : State :=
  if s.isSeg then s.pushed .stack 14 .l s.pc.toLong else s.pushed .stack 15 .w s.pcOff

/-- The processor stack pointer is even (R86). -/
def Machine.State.stackReady (s : State) : Bool := (s.addrOf s.spReg).aligned .w

/-- The state with a counter register decremented (R303, R370). -/
def Machine.State.counted (s : State) (r : Reg) : State := s.setReg r (s.reg r - 1)

/-- The value of the element at pointer `n` (R370). -/
def Machine.State.elem (s : State) (wd : Width) (n : Reg) : BitVec wd.bits := s.value (s.labelOf n) (s.addrOf n) wd

/-- The state after an element is stored at pointer `n` (R370). -/
def Machine.State.elemPut (s : State) (wd : Width) (n : Reg) (v : BitVec wd.bits) : State :=
  s.stored (s.labelOf n) (s.addrOf n) wd v

/-- The first `n` words in rising addresses from the PC on, as a fetch reads them (R26, R78). -/
def Machine.State.codeWords (s : State) (n : Nat) : List Word :=
  (List.range n).map fun k => s.wordAt .code (s.pc.add (BitVec.ofNat 16 (2 * k)))

/-- The state in which an instruction of `n` words executes: the PC has moved past it, the machine knows where it began
and its first word (R26, R603), no fetch is held up any more (R706), and ROW may have been stepped where STOP was low before
the second word of an extended instruction (R510(e)). -/
def Machine.State.fetched (s : State) (n : Nat) : State :=
  { s with
    pcOff := s.pcOff + BitVec.ofNat 16 (2 * n), instrPc := s.pcOff, ir := s.wordAt .code s.pc, held := none
    rowStepped := s.rowStepped || s.stopsInside (s.wordAt .code s.pc) }

/-! Taking an exception. -/

/-- The state with the program status of an exception on the system stack (R620, R621): old PC, old FCW, identifier. -/
def Machine.State.entryFrame (s : State) (k : Exc) (id : Word) (pcs : Addr) : State :=
  match s.cfg.version with
  | .z8002 =>
    ((s.forceSystem.pushed k.pushLabel 15 .w pcs.off).pushed k.pushLabel 15 .w s.fcw.toWord).pushed k.pushLabel 15 .w id
  | .z8001 =>
    (((s.forceSystem.pushed k.pushLabel 14 .w pcs.off).pushed k.pushLabel 14 .w pcs.segWord).pushed
      k.pushLabel 14 .w s.fcw.toWord).pushed k.pushLabel 14 .w id

/-- The word `n` bytes into the exception's block of the Program Status Area (R600, R615). -/
def Machine.State.blockWord (s : State) (k : Exc) (n : Word) : Word := s.wordAt .code ((s.psa.add (k.block s.cfg.version)).add n)

/-- The state after the whole entry sequence (R620). -/
def Machine.State.entered (s : State) (k : Exc) (id : Word) (pcs : Addr) : State :=
  let u := s.entryFrame k id pcs
  match s.cfg.version with
  | .z8002 =>
    { u with fcw := loadFcw s.cfg (u.blockWord k 0), pcOff := u.blockWord k (2 + k.vector id)
             halted := false, nmiLatch := s.nmiLatch && k != Exc.nmi }
  | .z8001 =>
    { u with fcw := loadFcw s.cfg (u.blockWord k 2), pcSeg := (u.blockWord k (4 + k.vector id)).extractLsb' 8 7
             pcOff := u.blockWord k (6 + k.vector id), halted := false, nmiLatch := s.nmiLatch && k != Exc.nmi }

/-- The system stack pointer is even (R86, R622). -/
def Machine.State.systemStackReady (s : State) : Bool := !s.sysR15.getLsbD 0

/-! Classes of instructions. -/

/-- The privileged instructions (R470, R604). -/
def Instr.isPrivileged : Instr → Bool
  | .inIr .. | .inDa .. | .inbIr .. | .inbDa .. | .outIr .. | .outDa .. | .outbIr .. | .outbDa .. => true
  | .sin .. | .sinb .. | .sout .. | .soutb .. => true
  | .ini .. | .inib .. | .inir .. | .inirb .. | .ind .. | .indb .. | .indr .. | .indrb .. => true
  | .outi .. | .outib .. | .otir .. | .otirb .. | .outd .. | .outdb .. | .otdr .. | .otdrb .. => true
  | .sini .. | .sinib .. | .sinir .. | .sinirb .. | .sind .. | .sindb .. | .sindr .. | .sindrb .. => true
  | .souti .. | .soutib .. | .sotir .. | .sotirb .. | .soutd .. | .soutdb .. | .sotdr .. | .sotdrb .. => true
  | .di .. | .ei .. | .halt | .ldctlWrite .. | .ldctlRead .. | .ldps .. => true
  | .mbit | .mreq .. | .mres | .mset | .iret => true
  | _ => false

/-- The extended instructions (R500, R603). -/
def Instr.isExtended : Instr → Bool
  | .epuLdmFrom .. | .epuLdmTo .. | .epuLdrFrom .. | .epuLdrTo .. | .epuLdfFrom .. | .epuLdfTo .. | .epuOp .. => true
  | _ => false

/-- The instruction has its own effect here and takes no exception: it is no system call, in system mode if it is
privileged, and with FCW.EPA = 1 if it is extended. -/
def Instr.runs (s : State) (i : Instr) : Bool :=
  (!i.isPrivileged || s.fcw.sn) && (!i.isExtended || s.fcw.epa) &&
    match i with
    | .sc _ => false
    | _ => true

/-! What an instruction may write. -/

/-- The word registers an operand of this width covers (R21). -/
def regsOf : Width → Reg → List Reg
  | .b, r => [r.wordOfByte]
  | .w, r => [r]
  | .l, r => [r, r + 1]

/-- The word registers a quadruple covers (R21). -/
def quadRegs (r : Reg) : List Reg := [r, r + 1, r + 2, r + 3]

/-- The word register that holds the offset of an address register (R82). -/
def ptrOff (seg : Bool) (n : Reg) : Reg := if seg then n + 1 else n

/-- The registers a destination operand covers: none in memory. -/
def Dst.regs (wd : Width) : Dst → List Reg
  | .reg r => regsOf wd r
  | .mem _ => []

/-- The registers from `r` on, R0 following R15. -/
def runOfRegs (r : Reg) (n : Nat) : List Reg := (List.range n).map fun i => regAfter r i

/-- The word registers an instruction's own effect may write, stack pointers and counters included. -/
def Instr.targets (seg : Bool) : Instr → List Reg
  | .clr d | .inc d _ | .dec d _ | .neg d | .com d | .res d _ | .set d _ | .tset d => d.regs .w
  | .clrb d | .incb d _ | .decb d _ | .negb d | .comb d | .resb d _ | .setb d _ | .tsetb d => d.regs .b
  | .ex d s => d :: s.regs .w
  | .exb d s => d.wordOfByte :: s.regs .b
  | .ld d _ | .ldBased d _ | .ldk d _ | .ldr d _ | .adc d _ | .add d _ | .extsb d | .sbc d _ | .sub d _ => [d]
  | .and d _ | .or d _ | .xor d _ | .tcc _ d | .resDyn d _ | .setDyn d _ => [d]
  | .rl d _ | .rlc d _ | .rr d _ | .rrc d _ | .sla d _ | .sll d _ | .sra d _ | .srl d _ | .sda d _ | .sdl d _ => [d]
  | .ldb d _ | .ldbBased d _ | .ldbShort d _ | .ldrb d _ | .adcb d _ | .addb d _ | .dab d | .sbcb d _ | .subb d _ =>
    [d.wordOfByte]
  | .andb d _ | .orb d _ | .xorb d _ | .tccb _ d | .resbDyn d _ | .setbDyn d _ => [d.wordOfByte]
  | .rlb d _ | .rlcb d _ | .rrb d _ | .rrcb d _ | .slab d _ | .sllb d _ | .srab d _ | .srlb d _ => [d.wordOfByte]
  | .sdab d _ | .sdlb d _ => [d.wordOfByte]
  | .rldb d s | .rrdb d s => [d.wordOfByte, s.wordOfByte]
  | .ldl d _ | .ldlBased d _ | .ldrl d _ | .addl d _ | .subl d _ | .exts d | .mult d _ | .div d _ => [d, d + 1]
  | .slal d _ | .slll d _ | .sral d _ | .srll d _ | .sdal d _ | .sdll d _ => [d, d + 1]
  | .extsl d | .multl d _ | .divl d _ => quadRegs d
  | .lda d _ | .ldaBased d _ | .ldar d _ => if seg then [d, d + 1] else [d]
  | .ldmLoad d _ n => runOfRegs d (n.val + 1)
  | .pop d sp => ptrOff seg sp :: d.regs .w
  | .popl d sp => ptrOff seg sp :: d.regs .l
  | .push sp _ | .pushl sp _ | .pushImm sp _ => [ptrOff seg sp]
  | .call _ | .calr _ | .ret _ | .iret => [15]
  | .djnz r _ => [r]
  | .dbjnz r _ => [r.wordOfByte]
  | .cpi _ s r _ | .cpib _ s r _ | .cpir _ s r _ | .cpirb _ s r _ => [ptrOff seg s, r]
  | .cpd _ s r _ | .cpdb _ s r _ | .cpdr _ s r _ | .cpdrb _ s r _ => [ptrOff seg s, r]
  | .cpsi d s r _ | .cpsib d s r _ | .cpsir d s r _ | .cpsirb d s r _ => [ptrOff seg d, ptrOff seg s, r]
  | .cpsd d s r _ | .cpsdb d s r _ | .cpsdr d s r _ | .cpsdrb d s r _ => [ptrOff seg d, ptrOff seg s, r]
  | .ldi d s r | .ldib d s r | .ldir d s r | .ldirb d s r => [ptrOff seg d, ptrOff seg s, r]
  | .ldd d s r | .lddb d s r | .lddr d s r | .lddrb d s r => [ptrOff seg d, ptrOff seg s, r]
  | .trib d _ r | .trirb d _ r | .trdb d _ r | .trdrb d _ r => [ptrOff seg d, r, 1]
  | .trtib d _ r | .trtirb d _ r | .trtdb d _ r | .trtdrb d _ r => [ptrOff seg d, r, 1]
  | .inIr d _ | .inDa d _ | .sin d _ | .ldctlRead d _ | .mreq d => [d]
  | .inbIr d _ | .inbDa d _ | .sinb d _ | .ldctlbRead d => [d.wordOfByte]
  | .ini d _ r | .inib d _ r | .inir d _ r | .inirb d _ r => [ptrOff seg d, r]
  | .ind d _ r | .indb d _ r | .indr d _ r | .indrb d _ r => [ptrOff seg d, r]
  | .sini d _ r | .sinib d _ r | .sinir d _ r | .sinirb d _ r => [ptrOff seg d, r]
  | .sind d _ r | .sindb d _ r | .sindr d _ r | .sindrb d _ r => [ptrOff seg d, r]
  | .outi _ s r | .outib _ s r | .otir _ s r | .otirb _ s r => [ptrOff seg s, r]
  | .outd _ s r | .outdb _ s r | .otdr _ s r | .otdrb _ s r => [ptrOff seg s, r]
  | .souti _ s r | .soutib _ s r | .sotir _ s r | .sotirb _ s r => [ptrOff seg s, r]
  | .soutd _ s r | .soutdb _ s r | .sotdr _ s r | .sotdrb _ s r => [ptrOff seg s, r]
  | .ldctlWrite .nspseg _ => [14]
  | .ldctlWrite .nspoff _ => [15]
  | .epuLdrFrom _ _ w2 => runOfRegs (epuReg w2) (epuCount w2)
  | .epuLdfFrom _ _ _ => [0]
  | _ => []

/-- One store: its label, its address and its width. -/
structure StoreAt where
  label : Label
  addr : Addr
  wd : Width
  deriving DecidableEq, Repr

/-- The places in memory of the bytes of a store; the address of a word loses bit 0 where `ODD_WORD_ADDR` has it so
(U1). -/
def StoreAt.bytes (s : State) (x : StoreAt) : List Nat :=
  let a : Addr := { x.addr with off := x.addr.off &&& 0xFFFE }
  let b : Addr := { x.addr with off := (x.addr.off + 2) &&& 0xFFFE }
  match x.wd with
  | .b => [s.key x.label x.addr]
  | .w => [s.key x.label a, s.key x.label a + 1]
  | .l => [s.key x.label a, s.key x.label a + 1, s.key x.label b, s.key x.label b + 1]

/-- The store a destination operand receives: none in a register. -/
def Dst.store (wd : Width) (s : State) : Dst → List StoreAt
  | .reg _ => []
  | .mem m => [⟨Mem.label s m, Mem.ea s m, wd⟩]

/-- The store of an IR, DA or X operand. -/
def Mem.store (wd : Width) (s : State) (m : Mem) : List StoreAt := [⟨Mem.label s m, Mem.ea s m, wd⟩]

/-- The store of a BA or BX operand. -/
def Based.store (wd : Width) (s : State) (b : Based) : List StoreAt := [⟨Based.label s b, Based.ea s b, wd⟩]

/-- The store of a push through pointer `n` (R86). -/
def pushStore (wd : Width) (s : State) (n : Reg) : List StoreAt :=
  [⟨s.labelOf n, (s.stepPtr n (-(BitVec.ofNat 16 wd.bytes))).addrOf n, wd⟩]

/-- The store of an element at pointer `n` (R370). -/
def ptrStore (wd : Width) (s : State) (n : Reg) : List StoreAt := [⟨s.labelOf n, s.addrOf n, wd⟩]

/-- `n` words in rising addresses (R220). -/
def wordStores (l : Label) (a : Addr) (n : Nat) : List StoreAt := (List.range n).map fun i => ⟨l, wordAfter a i, .w⟩

/-- The stores of an instruction's own effect; an instruction not named here stores nothing. -/
def Instr.stores (s : State) : Instr → List StoreAt
  | .clr d | .inc d _ | .dec d _ | .neg d | .com d | .res d _ | .set d _ | .tset d | .ex _ d | .pop d _ => d.store .w s
  | .clrb d | .incb d _ | .decb d _ | .negb d | .comb d | .resb d _ | .setb d _ | .tsetb d | .exb _ d => d.store .b s
  | .popl d _ => d.store .l s
  | .ldStore d _ | .ldImm d _ => d.store .w s
  | .ldbStore d _ | .ldbImm d _ => d.store .b s
  | .ldlStore d _ => d.store .l s
  | .ldStoreBased d _ => d.store .w s
  | .ldbStoreBased d _ => d.store .b s
  | .ldlStoreBased d _ => d.store .l s
  | .ldmStore d _ n => wordStores (Mem.label s d) (Mem.ea s d) (n.val + 1)
  | .ldrStore disp _ => [⟨.code, s.relative disp, .w⟩]
  | .ldrbStore disp _ => [⟨.code, s.relative disp, .b⟩]
  | .ldrlStore disp _ => [⟨.code, s.relative disp, .l⟩]
  | .push sp _ | .pushImm sp _ => pushStore .w s sp
  | .pushl sp _ => pushStore .l s sp
  | .call _ | .calr _ => if s.isSeg then pushStore .l s 14 else pushStore .w s 15
  | .ldi d _ _ | .ldir d _ _ | .ldd d _ _ | .lddr d _ _ => ptrStore .w s d
  | .ldib d _ _ | .ldirb d _ _ | .lddb d _ _ | .lddrb d _ _ => ptrStore .b s d
  | .trib d _ _ | .trirb d _ _ | .trdb d _ _ | .trdrb d _ _ => ptrStore .b s d
  | .ini d _ _ | .inir d _ _ | .ind d _ _ | .indr d _ _ => ptrStore .w s d
  | .inib d _ _ | .inirb d _ _ | .indb d _ _ | .indrb d _ _ => ptrStore .b s d
  | .sini d _ _ | .sinir d _ _ | .sind d _ _ | .sindr d _ _ => ptrStore .w s d
  | .sinib d _ _ | .sinirb d _ _ | .sindb d _ _ | .sindrb d _ _ => ptrStore .b s d
  | .epuLdmFrom d _ w2 => wordStores (Mem.label s d).epu (Mem.ea s d) (epuCount w2)
  | _ => []

/-- The transactions an extended instruction shows to the EPUs (R500): no input or output. -/
def Machine.BusEvent.isEpu : BusEvent → Bool
  | .epuNote .. => true
  | .epuTake .. => true
  | .epuGive .. => true
  | _ => false

end Sys2Proof
end

