-- ==== Sys2Proof/Certificates/Slice0/Obligations.lean ====
section
/-! DEFINITION. The statements for the provers. Operand values, stores and stacks are those of Sys2Proof/Safety.lean;
`s.plain` is the default platform, plain RAM everywhere and no MMU (D4, D15), with no RESET falling inside the instruction
(R702, log 44). A statement that gives the whole next state as an equation is its own frame: every field it does not name
is as before. -/

section Statements

open Sys2Proof Sys2Proof.Machine

/-! The machine as a whole. -/

/-- The machine right after reset meets the invariant. -/
def Obligations.ResetMeetsInvariant : Prop := State.reset.Inv

/-- Every step keeps the invariant and the parameters of the machine (R22, R25, R32, R34, R70). -/
def Obligations.StepKeepsInvariant : Prop :=
  ∀ s t : State, s.Inv → step s = .next t → t.Inv ∧ t.cfg = s.cfg

/-- Decoding the encoding of a well-formed instruction gives it back, with the words after it left over. -/
def Obligations.DecodeEncode : Prop :=
  ∀ (seg : Bool) (i : Instr) (rest : List Word), i.wf seg = true → decode seg (encode i ++ rest) = .ok (i, rest)

/-- What decodes is well formed, and the decoder reads nothing beyond the words it uses (R130, R159). -/
def Obligations.DecodeWellFormed : Prop :=
  ∀ (seg : Bool) (ws rest : List Word) (i : Instr), decode seg ws = .ok (i, rest) →
    i.wf seg = true ∧ ∃ p, ws = p ++ rest ∧ p ≠ [] ∧ p.length ≤ maxWords ∧
      ∀ rest', decode seg (p ++ rest') = .ok (i, rest')

/-- Words the sources print decode to the instructions they print beside them (R165 and the examples of R245 to R485). -/
def Obligations.DecodeSamples : Prop :=
  decode false [0x8132] = .ok (.add 2 (.reg 3), []) ∧
  decode false [0x0102, 0x1234] = .ok (.add 2 (.imm 0x1234), []) ∧
  decode false [0x0002, 0x1212] = .ok (.addb 2 (.imm 0x12), []) ∧
  decode false [0x1602, 0x1234, 0x5678] = .ok (.addl 2 (.imm 0x12345678), []) ∧
  decode false [0x7B00] = .ok (.iret, []) ∧
  decode false [0x8D07] = .ok (.nop, []) ∧
  decode false [0x7A00] = .ok (.halt, []) ∧
  decode false [0x2701, 0x0500] = .ok (.bitDyn 5 1, []) ∧
  decode false [0xB844, 0x0350] = .ok (.trirb 4 5 3, []) ∧
  decode false [0x3A87, 0x0100] = .ok (.soutb 0x0100 8, [])

/-- A step runs the instruction that the words at the PC decode to, one step of `exec`; then the look-ahead check (the
choice of D9 and U13, log 16) refuses a step that changed the first word of the instruction fetched next, and the pins take
their next levels. -/
def Obligations.StepRunsDecoded : Prop :=
  ∀ (s : State) (n : Nat) (i : Instr), s.plain → s.activity = .execute → s.pc.aligned .w = true → n ≤ maxWords →
    decode s.isSeg (s.codeWords n) = .ok (i, []) → firstWordTrap s.fcw (s.wordAt .code s.pc) = none →
    step s = Out.map State.endStep (Out.bind (exec i (s.fetched n)) (lookAhead s))

/-- A first word that traps is not decoded further: the machine enters the trap with the PC after that word
(R159, R603, R604, R614). Two clauses are choices: a word whose first byte is privileged traps in normal mode even where it
is no instruction (the spec's decision D26, log 48), and the look-ahead check of D9 and U13 is applied to the stores of the
entry too (the model's choice, log 16). -/
def Obligations.FirstWordTraps : Prop :=
  ∀ (s : State) (k : Exc), s.plain → s.activity = .execute → s.pc.aligned .w = true →
    s.systemStackReady = true → firstWordTrap s.fcw (s.wordAt .code s.pc) = some k →
    (k = .extended ∨ k = .privileged) ∧
    step s = Out.map State.endStep (Out.bind
      (.next ((s.fetched 1).entered k (s.wordAt .code s.pc) (s.pc.add 2))) (lookAhead s))

/-- Words that are no instruction of the sources are refused by name (R156, U2). -/
def Obligations.ReservedRefused : Prop :=
  ∀ (s : State) (n : Nat) (e : DecodeError), s.plain → s.activity = .execute → s.pc.aligned .w = true →
    1 ≤ n → n ≤ maxWords → firstWordTrap s.fcw (s.wordAt .code s.pc) = none →
    decode s.isSeg (s.codeWords n) = .error e → e ≠ .truncated → step s = .refused .reservedEncoding

/-- A value stored at an aligned address reads back, memory keeps its canonical form, and every byte outside the
stored ones reads as before (R70, R78). -/
def Obligations.StoreReadsBack : Prop :=
  ∀ (s : State) (l : Label) (a : Addr) (wd : Width) (v : BitVec wd.bits), s.mem.wf = true → a.aligned wd = true →
    (s.stored l a wd v).value l a wd = v ∧ (s.stored l a wd v).mem.wf = true ∧
    ∀ k, k ∉ StoreAt.bytes s ⟨l, a, wd⟩ → (s.stored l a wd v).mem.read k = s.mem.read k

/-- Which copies a reference to R14, R15, RR14 or the low half of RQ12 reads and writes, which the implicit stack pointer
is, and which an entry uses (R22). -/
def Obligations.StackPointerCopies : Prop :=
  ∀ (s : State) (v : Word) (w : Long) (q : Quad),
    let wh := w.extractLsb' 16 16
    let wl := w.extractLsb' 0 16
    let low := (s.regs.set 12 (q.extractLsb' 48 16)).set 13 (q.extractLsb' 32 16)
    let q2 := q.extractLsb' 16 16
    let q3 := q.extractLsb' 0 16
    (s.fcw.sn = true → s.isSeg = true →
      s.reg 14 = s.sysR14 ∧ s.reg 15 = s.sysR15 ∧ s.regL 14 = s.sysR14 ++ s.sysR15 ∧
      s.setReg 14 v = { s with sysR14 := v } ∧ s.setReg 15 v = { s with sysR15 := v } ∧
      s.setRegL 14 w = { s with sysR14 := wh, sysR15 := wl } ∧
      s.setRegQ 12 q = { s with regs := low, sysR14 := q2, sysR15 := q3 }) ∧
    (s.fcw.sn = true → s.isSeg = false →
      s.reg 14 = s.regs[14] ∧ s.reg 15 = s.sysR15 ∧ s.regL 14 = s.regs[14] ++ s.sysR15 ∧
      s.setReg 14 v = { s with regs := s.regs.set 14 v } ∧ s.setReg 15 v = { s with sysR15 := v } ∧
      s.setRegL 14 w = { s with regs := s.regs.set 14 wh, sysR15 := wl } ∧
      s.setRegQ 12 q = { s with regs := low.set 14 q2, sysR15 := q3 }) ∧
    (s.fcw.sn = false →
      s.reg 14 = s.regs[14] ∧ s.reg 15 = s.regs[15] ∧ s.regL 14 = s.regs[14] ++ s.regs[15] ∧
      s.setReg 14 v = { s with regs := s.regs.set 14 v } ∧ s.setReg 15 v = { s with regs := s.regs.set 15 v } ∧
      s.setRegL 14 w = { s with regs := (s.regs.set 14 wh).set 15 wl } ∧
      s.setRegQ 12 q = { s with regs := (low.set 14 q2).set 15 q3 }) ∧
    (s.cfg.version = .z8002 → s.isSeg = false) ∧ (s.regQ 12).extractLsb' 0 32 = s.regL 14 ∧
    (s.isSeg = true → s.addrOf s.spReg = { seg := (s.reg 14).extractLsb' 8 7, off := s.reg 15 }) ∧
    (s.isSeg = false → s.addrOf s.spReg = { seg := s.pcSeg, off := s.reg 15 }) ∧
    s.forceSystem.reg 15 = s.sysR15 ∧ (s.cfg.version = .z8001 → s.forceSystem.reg 14 = s.sysR14) ∧
    (∀ b : Reg, b.wordOfByte ≠ 14 ∧ b.wordOfByte ≠ 15) ∧
    ∀ n m : Reg, (s.setReg n v).reg m = if m = n then v else s.reg m

/-- A word access at an odd address stops the run: every access of memory, stack and instruction fetch, every form with a
word or long-word operand in memory, LDM, the stack forms, CALL, RET, IRET, LDPS, the word block forms, the EPU transfers,
every entry, and a step with an odd PC (R80; the stop is U1's choice, log 11). RESET must not fall inside the instruction:
it would abandon it before the access (R702, log 44). -/
def Obligations.OddAddressStops : Prop :=
  ∀ s : State, s.cfg.dropAddressBit0 = false → s.resetIn = none →
    let odd : Stop := .fault .oddWordAddress
    let stop := fun is : List Instr => ∀ i ∈ is, exec i s = .fault .oddWordAddress
    let even := fun p : Reg => (s.addrOf p).aligned .w = true
    (∀ (l : Label) (a : Addr) (wd : Width), a.aligned wd = false →
      readMem l a wd s = .error odd ∧ ∀ v, writeMem l a wd v s = .error odd) ∧
    (∀ (l : Label) (a : Addr) (v : Word), a.aligned .w = false →
      readWord l a s = .error odd ∧ writeWord l a v s = .error odd) ∧
    (∀ l : Label, s.pc.aligned .w = false → fetchWord l s = .error odd) ∧
    (∀ (l : Label) (n : Reg) (wd : Width), (s.addrOf n).aligned wd = false →
      pop n wd s = .error odd ∧ ∀ v, pushAs l n wd v s = .error odd ∧ push n wd v s = .error odd) ∧
    (∀ (m : Mem) (d sp : Reg) (n : Fin 16) (v : Word), m.ready .w s = false →
      stop [.ld d (.mem m), .ldl d (.mem m), .ldStore m d, .ldlStore m d, .ldImm m v, .clr (.mem m), .ex d (.mem m),
        .ldmLoad d m n, .ldmStore m d n, .push sp (.mem m), .pushl sp (.mem m)] ∧
      stop [.add d (.mem m), .addl d (.mem m), .sub d (.mem m), .subl d (.mem m), .cp d (.mem m), .cpl d (.mem m),
        .cpImm m v, .inc (.mem m) n, .dec (.mem m) n, .neg (.mem m), .mult d (.mem m), .multl d (.mem m),
        .div d (.mem m), .divl d (.mem m)] ∧
      stop [.and d (.mem m), .or d (.mem m), .xor d (.mem m), .com (.mem m), .test (.mem m), .testl (.mem m),
        .bit (.mem m) n, .res (.mem m) n, .set (.mem m) n, .tset (.mem m)] ∧
      (s.fcw.sn = true → stop [.ldps m]) ∧
      (s.fcw.epa = true → ∀ (ii : Fin 4) (w2 : Word), stop [.epuLdmFrom m ii w2, .epuLdmTo m ii w2]) ∧
      (s.plain → even sp → stop [.pop (.mem m) sp, .popl (.mem m) sp])) ∧
    (∀ (b : Based) (d : Reg), b.ready .w s = false →
      stop [.ldBased d b, .ldlBased d b, .ldStoreBased b d, .ldlStoreBased b d]) ∧
    (∀ (d : Reg) (disp : Word), (s.relative disp).aligned .w = false →
      stop [.ldr d disp, .ldrl d disp, .ldrStore disp d, .ldrlStore disp d]) ∧
    (∀ (x : Dst) (r sp : Reg) (v : Word), ¬ even sp →
      stop [.pop x sp, .popl x sp, .push sp (.reg r), .pushl sp (.reg r), .pushImm sp v] ∧
      (s.plain → x.ready .w s = true → stop [.push sp x, .pushl sp x])) ∧
    (s.stackReady = false →
      (∀ (t : Mem) (disp : BitVec 12), stop [.call t, .calr disp]) ∧
      (∀ cc : CC, s.fcw.cond cc = true → stop [.ret cc]) ∧
      (s.fcw.sn = true → (s.isSeg = true ∨ s.cfg.version = .z8002) → stop [.iret])) ∧
    (∀ (d p r : Reg) (cc : CC),
      (¬ even p →
        stop [.cpi d p r cc, .cpir d p r cc, .cpd d p r cc, .cpdr d p r cc, .cpsi d p r cc, .cpsir d p r cc,
          .cpsd d p r cc, .cpsdr d p r cc, .ldi d p r, .ldir d p r, .ldd d p r, .lddr d p r] ∧
        (s.fcw.sn = true → stop [.ini p d r, .inir p d r, .ind p d r, .indr p d r, .sini p d r, .sinir p d r,
          .sind p d r, .sindr p d r, .outi d p r, .otir d p r, .outd d p r, .otdr d p r, .souti d p r, .sotir d p r,
          .soutd d p r, .sotdr d p r])) ∧
      (s.plain → even p → ¬ even d →
        stop [.cpsi d p r cc, .cpsir d p r cc, .cpsd d p r cc, .cpsdr d p r cc, .ldi d p r, .ldir d p r, .ldd d p r,
          .lddr d p r])) ∧
    (s.systemStackReady = false →
      (∀ (k : Exc) (id : Word) (pcs : Addr), enter k id pcs s = .error odd) ∧
      (∀ n : Byte, stop [.sc n]) ∧
      (∀ i : Instr, i.isPrivileged = true → s.fcw.sn = false → stop [i]) ∧
      (∀ i : Instr, i.isExtended = true → s.fcw.epa = false → stop [i]) ∧
      (∀ k : Exc, s.activity = .take k → step s = .fault .oddWordAddress)) ∧
    (s.activity = .execute → s.pc.aligned .w = false → step s = .fault .oddWordAddress)

/-! Load and exchange (spec/40). -/

/-- Loads into a register: LD, LDB, LDL from R, IM, IR, DA, X, BA, BX, the short LDB, and LDK; no flag changes
(R205, R206, R210, R218). -/
def Obligations.LoadRegister : Prop :=
  ∀ (s : State) (d : Reg), s.plain →
    (∀ x : Src .w, x.ready s = true → exec (.ld d x) s = .next (s.setRegAt .w d (x.value s))) ∧
    (∀ x : Src .b, x.ready s = true → exec (.ldb d x) s = .next (s.setRegAt .b d (x.value s))) ∧
    (∀ x : Src .l, x.ready s = true → exec (.ldl d x) s = .next (s.setRegAt .l d (x.value s))) ∧
    (∀ b : Based, b.ready .w s = true → exec (.ldBased d b) s = .next (s.setRegAt .w d (b.value .w s))) ∧
    (∀ b : Based, b.ready .b s = true → exec (.ldbBased d b) s = .next (s.setRegAt .b d (b.value .b s))) ∧
    (∀ b : Based, b.ready .l s = true → exec (.ldlBased d b) s = .next (s.setRegAt .l d (b.value .l s))) ∧
    (∀ v : Byte, exec (.ldbShort d v) s = .next (s.setRegAt .b d v)) ∧
    (∀ n : Fin 16, exec (.ldk d n) s = .next (s.setRegAt .w d (BitVec.ofNat 16 n.val)))

/-- Stores of a register or an immediate, and CLR; no flag changes (R201, R207, R208, R209). -/
def Obligations.StoreMemory : Prop :=
  ∀ (s : State) (r : Reg), s.plain →
    (∀ m : Mem, m.ready .w s = true → exec (.ldStore m r) s = .next (m.put .w s (s.regAt .w r))) ∧
    (∀ m : Mem, m.ready .b s = true → exec (.ldbStore m r) s = .next (m.put .b s (s.regAt .b r))) ∧
    (∀ m : Mem, m.ready .l s = true → exec (.ldlStore m r) s = .next (m.put .l s (s.regAt .l r))) ∧
    (∀ b : Based, b.ready .w s = true → exec (.ldStoreBased b r) s = .next (b.put .w s (s.regAt .w r))) ∧
    (∀ b : Based, b.ready .b s = true → exec (.ldbStoreBased b r) s = .next (b.put .b s (s.regAt .b r))) ∧
    (∀ b : Based, b.ready .l s = true → exec (.ldlStoreBased b r) s = .next (b.put .l s (s.regAt .l r))) ∧
    (∀ (m : Mem) (v : Word), m.ready .w s = true → exec (.ldImm m v) s = .next (m.put .w s v)) ∧
    (∀ (m : Mem) (v : Byte), m.ready .b s = true → exec (.ldbImm m v) s = .next (m.put .b s v)) ∧
    (∀ d : Dst, d.ready .w s = true → exec (.clr d) s = .next (d.put .w s 0)) ∧
    (∀ d : Dst, d.ready .b s = true → exec (.clrb d) s = .next (d.put .b s 0))

/-- EX and EXB exchange their operands; no flag changes (R202). -/
def Obligations.Exchange : Prop :=
  ∀ (s : State) (d : Reg) (x : Dst), s.plain →
    (x.ready .w s = true →
      exec (.ex d x) s = .next ((x.put .w s (s.regAt .w d)).setRegAt .w d (x.value .w s))) ∧
    (x.ready .b s = true →
      exec (.exb d x) s = .next ((x.put .b s (s.regAt .b d)).setRegAt .b d (x.value .b s)))

/-- LDA and LDAR load an effective address: the offset in nonsegmented mode; in segmented mode a pair, whose reserved
bits are any value for LDA (R215, U12), and for LDAR zeros (R216, R81), or any value where the machine is taken to follow
U12 there (`ldarReservedFree`, the model's parameter between the two: log 51). -/
def Obligations.LoadAddress : Prop :=
  ∀ (s : State) (d : Reg),
    (s.isSeg = false →
      (∀ m : Mem, exec (.lda d m) s = .next (s.setReg d (Mem.ea s m).off)) ∧
      (∀ b : Based, exec (.ldaBased d b) s = .next (s.setReg d (Based.ea s b).off)) ∧
      (∀ disp : Word, exec (.ldar d disp) s = .next (s.setReg d (s.pcOff + disp)))) ∧
    (s.isSeg = true →
      (∀ m : Mem, ∃ (r31 : BitVec 1) (r16 : Byte) (n : Nat), exec (.lda d m) s = .next
        (({ s with freeCount := n }).setRegL d (r31 ++ (Mem.ea s m).seg ++ r16 ++ (Mem.ea s m).off))) ∧
      (∀ b : Based, ∃ (r31 : BitVec 1) (r16 : Byte) (n : Nat), exec (.ldaBased d b) s = .next
        (({ s with freeCount := n }).setRegL d (r31 ++ (Based.ea s b).seg ++ r16 ++ (Based.ea s b).off))) ∧
      (∀ disp : Word, if s.cfg.ldarReservedFree then
          ∃ (r31 : BitVec 1) (r16 : Byte) (n : Nat), exec (.ldar d disp) s = .next
            (({ s with freeCount := n }).setRegL d (r31 ++ s.pcSeg ++ r16 ++ (s.pcOff + disp)))
        else exec (.ldar d disp) s = .next (s.setRegL d (0#1 ++ s.pcSeg ++ 0#8 ++ (s.pcOff + disp)))))

/-- LDR, LDRB and LDRL move a register to or from program memory relative to the PC after the instruction (R224). -/
def Obligations.LoadRelative : Prop :=
  ∀ (s : State) (r : Reg) (disp : Word), s.plain →
    ((s.relative disp).aligned .w = true →
      exec (.ldr r disp) s = .next (s.setRegAt .w r (s.value .code (s.pc.add disp) .w)) ∧
      exec (.ldrl r disp) s = .next (s.setRegAt .l r (s.value .code (s.pc.add disp) .l)) ∧
      exec (.ldrStore disp r) s = .next (s.stored .code (s.pc.add disp) .w (s.regAt .w r)) ∧
      exec (.ldrlStore disp r) s = .next (s.stored .code (s.pc.add disp) .l (s.regAt .l r))) ∧
    exec (.ldrb r disp) s = .next (s.setRegAt .b r (s.value .code (s.pc.add disp) .b)) ∧
    exec (.ldrbStore disp r) s = .next (s.stored .code (s.pc.add disp) .b (s.regAt .b r))

/-- LDM moves `n + 1` words between consecutive registers, R0 after R15, and consecutive words of memory, in that order, and
leaves everything else: the next state is these register writes, or these stores, and nothing more (R220). -/
def Obligations.LoadMultiple : Prop :=
  ∀ (s : State) (m : Mem) (r : Reg) (n : Fin 16), s.plain → m.ready .w s = true →
    let loaded := (List.range (n.val + 1)).foldl
      (fun t j => t.setReg (regAfter r j) (s.wordAt (Mem.label s m) (wordAfter (Mem.ea s m) j))) s
    let stored := (List.range (n.val + 1)).foldl
      (fun t j => t.storeWord (Mem.label s m) (wordAfter (Mem.ea s m) j) (s.reg (regAfter r j))) s
    exec (.ldmLoad r m n) s = .next loaded ∧ exec (.ldmStore m r n) s = .next stored ∧
    (∀ j, j ≤ n.val → loaded.reg (regAfter r j) = s.wordAt (Mem.label s m) (wordAfter (Mem.ea s m) j)) ∧
    (∀ q, q ∉ runOfRegs r (n.val + 1) → loaded.reg q = s.reg q) ∧
    loaded = { s with regs := loaded.regs, sysR14 := loaded.sysR14, sysR15 := loaded.sysR15 } ∧
    (s.mem.wf = true → ∀ j, j ≤ n.val →
      stored.wordAt (Mem.label s m) (wordAfter (Mem.ea s m) j) = s.reg (regAfter r j)) ∧
    (s.mem.wf = true → ∀ k, (∀ x ∈ Instr.stores s (.ldmStore m r n), k ∉ x.bytes s) →
      stored.mem.read k = s.mem.read k) ∧
    stored = { s with mem := stored.mem }

/-- POP, POPL: the destination receives the top of the stack, then the pointer moves up. PUSH, PUSHL: the source is
read, the pointer moves down, the operand is stored there (R86, R228, R230, R231). Where operand and stack pointer overlap
the order is a choice: U15 has the word forms follow the operation lines (log 19); the long forms that R228 and R230 forbid
are no well-formed instruction and are never decoded (log 27), and exec runs them as any other term (log 48). -/
def Obligations.StackResult : Prop :=
  ∀ (s : State) (x : Dst) (sp : Reg), s.plain → (s.addrOf sp).aligned .w = true →
    (x.ready .w s = true → exec (.pop x sp) s = .next ((x.put .w s (s.top sp .w)).popped sp .w)) ∧
    (x.ready .l s = true → exec (.popl x sp) s = .next ((x.put .l s (s.top sp .l)).popped sp .l)) ∧
    (x.ready .w s = true → exec (.push sp x) s = .next (s.pushed (s.labelOf sp) sp .w (x.value .w s))) ∧
    (x.ready .l s = true → exec (.pushl sp x) s = .next (s.pushed (s.labelOf sp) sp .l (x.value .l s))) ∧
    (∀ v : Word, exec (.pushImm sp v) s = .next (s.pushed (s.labelOf sp) sp .w v))

/-! Arithmetic (spec/41). -/

/-- ADC, ADD, SBC, SUB and their byte and long forms: the destination and C, Z, S, V are those of the sum or
difference; only the byte forms write D and H (R41, R42, R241, R242, R255, R256). -/
def Obligations.AddSubtract : Prop :=
  ∀ (s : State) (d r : Reg), s.plain →
    (∀ x : Src .w, x.ready s = true →
      (let y := addWith (s.regAt .w d) (x.value s) false
       exec (.add d x) s =
         .next ((s.setRegAt .w d y.r).withFcw { s.fcw with c := y.c, z := y.z, s := y.s, pv := y.v })) ∧
      (let y := subWith (s.regAt .w d) (x.value s) false
       exec (.sub d x) s =
         .next ((s.setRegAt .w d y.r).withFcw { s.fcw with c := y.c, z := y.z, s := y.s, pv := y.v }))) ∧
    (∀ x : Src .b, x.ready s = true →
      (let y := addWith (s.regAt .b d) (x.value s) false
       exec (.addb d x) s = .next ((s.setRegAt .b d y.r).withFcw
         { s.fcw with c := y.c, z := y.z, s := y.s, pv := y.v, d := false, h := y.h })) ∧
      (let y := subWith (s.regAt .b d) (x.value s) false
       exec (.subb d x) s = .next ((s.setRegAt .b d y.r).withFcw
         { s.fcw with c := y.c, z := y.z, s := y.s, pv := y.v, d := true, h := y.h }))) ∧
    (∀ x : Src .l, x.ready s = true →
      (let y := addWith (s.regAt .l d) (x.value s) false
       exec (.addl d x) s =
         .next ((s.setRegAt .l d y.r).withFcw { s.fcw with c := y.c, z := y.z, s := y.s, pv := y.v })) ∧
      (let y := subWith (s.regAt .l d) (x.value s) false
       exec (.subl d x) s =
         .next ((s.setRegAt .l d y.r).withFcw { s.fcw with c := y.c, z := y.z, s := y.s, pv := y.v }))) ∧
    (let y := addWith (s.regAt .w d) (s.regAt .w r) s.fcw.c
     exec (.adc d r) s =
       .next ((s.setRegAt .w d y.r).withFcw { s.fcw with c := y.c, z := y.z, s := y.s, pv := y.v })) ∧
    (let y := subWith (s.regAt .w d) (s.regAt .w r) s.fcw.c
     exec (.sbc d r) s =
       .next ((s.setRegAt .w d y.r).withFcw { s.fcw with c := y.c, z := y.z, s := y.s, pv := y.v })) ∧
    (let y := addWith (s.regAt .b d) (s.regAt .b r) s.fcw.c
     exec (.adcb d r) s = .next ((s.setRegAt .b d y.r).withFcw
       { s.fcw with c := y.c, z := y.z, s := y.s, pv := y.v, d := false, h := y.h })) ∧
    (let y := subWith (s.regAt .b d) (s.regAt .b r) s.fcw.c
     exec (.sbcb d r) s = .next ((s.setRegAt .b d y.r).withFcw
       { s.fcw with c := y.c, z := y.z, s := y.s, pv := y.v, d := true, h := y.h }))

/-- `Add_W` and `Sub_W` of rule R240 (C of a difference is also the inverse of the carry of the two's-complement sum),
and what V means: the exact signed result does not fit. -/
def Obligations.ArithmeticFlags : Prop :=
  ∀ (n : Nat) (a b : BitVec n) (c : Bool), 4 ≤ n →
    (let x := addWith a b c
     x.r.toNat = (a.toNat + b.toNat + c.toNat) % 2 ^ n ∧ (x.c = true ↔ 2 ^ n ≤ a.toNat + b.toNat + c.toNat) ∧
     (x.z = true ↔ x.r = 0) ∧ x.s = x.r.msb ∧ (x.v = true ↔ a.msb = b.msb ∧ x.r.msb ≠ a.msb) ∧
     (x.h = true ↔ 16 ≤ a.toNat % 16 + b.toNat % 16 + c.toNat) ∧
     (x.v = true ↔ a.toInt + b.toInt + c.toNat < -2 ^ (n - 1) ∨ 2 ^ (n - 1) ≤ a.toInt + b.toInt + c.toNat)) ∧
    (let x := subWith a b c
     (x.r.toNat : Int) = ((a.toNat : Int) - b.toNat - c.toNat) % 2 ^ n ∧ (x.c = true ↔ a.toNat < b.toNat + c.toNat) ∧
     (x.z = true ↔ x.r = 0) ∧ x.s = x.r.msb ∧ (x.v = true ↔ a.msb ≠ b.msb ∧ x.r.msb = b.msb) ∧
     (x.c = true ↔ a.toNat + (~~~b).toNat + (!c).toNat < 2 ^ n) ∧
     (x.h = true ↔ a.toNat % 16 < b.toNat % 16 + c.toNat) ∧
     (x.v = true ↔ a.toInt - b.toInt - c.toNat < -2 ^ (n - 1) ∨ 2 ^ (n - 1) ≤ a.toInt - b.toInt - c.toNat))

/-- CP and its forms write C, Z, S, V of the difference and nothing else (R243, R244). -/
def Obligations.CompareResult : Prop :=
  ∀ (s : State) (d : Reg), s.plain →
    (∀ x : Src .w, x.ready s = true → let y := subWith (s.regAt .w d) (x.value s) false
      exec (.cp d x) s = .next (s.withFcw { s.fcw with c := y.c, z := y.z, s := y.s, pv := y.v })) ∧
    (∀ x : Src .b, x.ready s = true → let y := subWith (s.regAt .b d) (x.value s) false
      exec (.cpb d x) s = .next (s.withFcw { s.fcw with c := y.c, z := y.z, s := y.s, pv := y.v })) ∧
    (∀ x : Src .l, x.ready s = true → let y := subWith (s.regAt .l d) (x.value s) false
      exec (.cpl d x) s = .next (s.withFcw { s.fcw with c := y.c, z := y.z, s := y.s, pv := y.v })) ∧
    (∀ (m : Mem) (v : Word), m.ready .w s = true → let y := subWith (n := 16) (m.value .w s) v false
      exec (.cpImm m v) s = .next (s.withFcw { s.fcw with c := y.c, z := y.z, s := y.s, pv := y.v })) ∧
    (∀ (m : Mem) (v : Byte), m.ready .b s = true → let y := subWith (n := 8) (m.value .b s) v false
      exec (.cpbImm m v) s = .next (s.withFcw { s.fcw with c := y.c, z := y.z, s := y.s, pv := y.v }))

/-- INC, DEC and their byte forms add or subtract 1 to 16 and write Z, S, V; C, D, H stay (R246, R247). -/
def Obligations.IncrementDecrement : Prop :=
  ∀ (s : State) (d : Dst) (n : Fin 16), s.plain →
    (d.ready .w s = true →
      (let y := addWith (n := 16) (d.value .w s) (BitVec.ofNat 16 (n.val + 1)) false
       exec (.inc d n) s = .next ((d.put .w s y.r).withFcw { s.fcw with z := y.z, s := y.s, pv := y.v })) ∧
      (let y := subWith (n := 16) (d.value .w s) (BitVec.ofNat 16 (n.val + 1)) false
       exec (.dec d n) s = .next ((d.put .w s y.r).withFcw { s.fcw with z := y.z, s := y.s, pv := y.v }))) ∧
    (d.ready .b s = true →
      (let y := addWith (n := 8) (d.value .b s) (BitVec.ofNat 8 (n.val + 1)) false
       exec (.incb d n) s = .next ((d.put .b s y.r).withFcw { s.fcw with z := y.z, s := y.s, pv := y.v })) ∧
      (let y := subWith (n := 8) (d.value .b s) (BitVec.ofNat 8 (n.val + 1)) false
       exec (.decb d n) s = .next ((d.put .b s y.r).withFcw { s.fcw with z := y.z, s := y.s, pv := y.v })))

/-- DAB after a byte addition or subtraction of two-digit decimal numbers leaves the decimal sum or difference modulo
100, and C says that it passed 99 or fell below 0 (R245). Every other case completes too and leaves P/V, D, H: R245 calls
the operation undefined there, and the free values are the choice of U16 (log 32). -/
def Obligations.DecimalAdjust : Prop :=
  (∀ (s : State) (d : Reg) (x y : Fin 100) (c : Bool),
    let bcd := fun k : Nat => BitVec.ofNat 8 (k / 10 * 16 + k % 10)
    let a := addWith (bcd x) (bcd y) c
    s.fcw.d = false → s.fcw.c = a.c → s.fcw.h = a.h → s.regB d = a.r →
    let r := bcd ((x.val + y.val + c.toNat) % 100)
    exec (.dab d) s = .next ((s.setRegB d r).withFcw
      { s.fcw with c := decide (100 ≤ x.val + y.val + c.toNat), z := r == 0, s := r.msb })) ∧
  (∀ (s : State) (d : Reg) (x y : Fin 100) (c : Bool),
    let bcd := fun k : Nat => BitVec.ofNat 8 (k / 10 * 16 + k % 10)
    let a := subWith (bcd x) (bcd y) c
    s.fcw.d = true → s.fcw.c = a.c → s.fcw.h = a.h → s.regB d = a.r →
    let r := bcd ((x.val + 200 - y.val - c.toNat) % 100)
    exec (.dab d) s = .next ((s.setRegB d r).withFcw
      { s.fcw with c := decide (x.val < y.val + c.toNat), z := r == 0, s := r.msb })) ∧
  (∀ (s : State) (d : Reg), ∃ (r : Byte) (c z g : Bool) (n : Nat),
    exec (.dab d) s =
      .next ((({ s with freeCount := n }).setRegB d r).withFcw { s.fcw with c := c, z := z, s := g }))

/-- EXTSB, EXTS, EXTSL extend the sign of the low half; NEG and NEGB replace by the two's complement (R248, R250). -/
def Obligations.ExtendNegate : Prop :=
  ∀ (s : State) (d : Reg) (x : Dst),
    exec (.extsb d) s = .next (s.setReg d (BitVec.ofInt 16 ((s.reg d).extractLsb' 0 8).toInt)) ∧
    exec (.exts d) s = .next (s.setRegL d (BitVec.ofInt 32 (s.reg (d + 1)).toInt)) ∧
    exec (.extsl d) s = .next (s.setRegQ d (BitVec.ofInt 64 (s.regL (d + 2)).toInt)) ∧
    (s.plain → x.ready .w s = true →
      let r : Word := -(x.value .w s)
      exec (.neg x) s = .next ((x.put .w s r).withFcw
        { s.fcw with c := r != 0, z := r == 0, s := r.msb, pv := r == 0x8000 })) ∧
    (s.plain → x.ready .b s = true →
      let r : Byte := -(x.value .b s)
      exec (.negb x) s = .next ((x.put .b s r).withFcw
        { s.fcw with c := r != 0, z := r == 0, s := r.msb, pv := r == 0x80 }))

/-- MULT and MULTL leave the exact signed product, and C says that it does not fit the low half (R252). -/
def Obligations.Multiply : Prop :=
  ∀ (s : State) (d : Reg), s.plain →
    (∀ x : Src .w, x.ready s = true → ∃ p : Long, p.toInt = (s.reg (d + 1)).toInt * (x.value s).toInt ∧
      exec (.mult d x) s = .next ((s.setRegL d p).withFcw
        { s.fcw with c := decide (p.toInt < -2 ^ 15 ∨ 2 ^ 15 ≤ p.toInt), z := p == 0, s := p.msb, pv := false })) ∧
    (∀ x : Src .l, x.ready s = true → ∃ p : Quad, p.toInt = (s.regL (d + 2)).toInt * (x.value s).toInt ∧
      exec (.multl d x) s = .next ((s.setRegQ d p).withFcw
        { s.fcw with c := decide (p.toInt < -2 ^ 31 ∨ 2 ^ 31 ≤ p.toInt), z := p == 0, s := p.msb, pv := false }))

/-- DIV and DIVL: the four cases of the table of R253; in the third the destination, C and S are any value (U17). -/
def Obligations.Divide : Prop :=
  ∀ (s : State) (d : Reg), s.plain →
    (∀ x : Src .w, x.ready s = true →
      let a := (s.regL d).toInt
      let b := (x.value s).toInt
      let q := a.tdiv b
      (b = 0 → exec (.div d x) s =
        .next (s.withFcw { s.fcw with c := false, z := true, s := false, pv := true })) ∧
      (b ≠ 0 → -2 ^ 15 ≤ q → q < 2 ^ 15 → ∃ m k : Word, k.toInt = q ∧ m.toInt = a - q * b ∧
        exec (.div d x) s = .next ((s.setRegL d (m ++ k)).withFcw
          { s.fcw with c := false, z := decide (q = 0), s := decide (q < 0), pv := false })) ∧
      (b ≠ 0 → (q < -2 ^ 16 ∨ 2 ^ 16 ≤ q) → ∃ (v : Long) (c g : Bool) (n : Nat),
        exec (.div d x) s = .next ((({ s with freeCount := n }).setRegL d v).withFcw
          { s.fcw with c := c, z := false, s := g, pv := true })) ∧
      (b ≠ 0 → -2 ^ 16 ≤ q → q < 2 ^ 16 → (q < -2 ^ 15 ∨ 2 ^ 15 ≤ q) →
        ∃ m k : Word, k = BitVec.ofInt 16 q ∧ m.toInt = a - q * b ∧
        exec (.div d x) s = .next ((s.setRegL d (m ++ k)).withFcw
          { s.fcw with c := true, z := false, s := decide (q < 0), pv := true }))) ∧
    (∀ x : Src .l, x.ready s = true →
      let a := (s.regQ d).toInt
      let b := (x.value s).toInt
      let q := a.tdiv b
      (b = 0 → exec (.divl d x) s =
        .next (s.withFcw { s.fcw with c := false, z := true, s := false, pv := true })) ∧
      (b ≠ 0 → -2 ^ 31 ≤ q → q < 2 ^ 31 → ∃ m k : Long, k.toInt = q ∧ m.toInt = a - q * b ∧
        exec (.divl d x) s = .next ((s.setRegQ d (m ++ k)).withFcw
          { s.fcw with c := false, z := decide (q = 0), s := decide (q < 0), pv := false })) ∧
      (b ≠ 0 → (q < -2 ^ 32 ∨ 2 ^ 32 ≤ q) → ∃ (v : Quad) (c g : Bool) (n : Nat),
        exec (.divl d x) s = .next ((({ s with freeCount := n }).setRegQ d v).withFcw
          { s.fcw with c := c, z := false, s := g, pv := true })) ∧
      (b ≠ 0 → -2 ^ 32 ≤ q → q < 2 ^ 32 → (q < -2 ^ 31 ∨ 2 ^ 31 ≤ q) →
        ∃ m k : Long, k = BitVec.ofInt 32 q ∧ m.toInt = a - q * b ∧
        exec (.divl d x) s = .next ((s.setRegQ d (m ++ k)).withFcw
          { s.fcw with c := true, z := false, s := decide (q < 0), pv := true })))

/-! Logical (spec/42). -/

/-- AND, OR, XOR, COM: the result bit by bit, Z, S; the byte forms leave the parity in P/V, the word forms leave P/V
(R280 to R284). -/
def Obligations.LogicalResult : Prop :=
  ∀ (s : State) (d : Reg) (y : Dst), s.plain →
    let w := fun (o : Out) (u : State) (r : Word) => o = .next (u.withFcw { s.fcw with z := r == 0, s := r.msb })
    let b := fun (o : Out) (u : State) (r : Byte) => o = .next (u.withFcw { s.fcw with
      z := r == 0, s := r.msb, pv := decide (((List.range 8).countP fun i => r.getLsbD i) % 2 = 0) })
    (∀ x : Src .w, x.ready s = true →
      (let r := s.reg d &&& x.value s; w (exec (.and d x) s) (s.setReg d r) r) ∧
      (let r := s.reg d ||| x.value s; w (exec (.or d x) s) (s.setReg d r) r) ∧
      (let r := s.reg d ^^^ x.value s; w (exec (.xor d x) s) (s.setReg d r) r)) ∧
    (∀ x : Src .b, x.ready s = true →
      (let r := s.regB d &&& x.value s; b (exec (.andb d x) s) (s.setRegB d r) r) ∧
      (let r := s.regB d ||| x.value s; b (exec (.orb d x) s) (s.setRegB d r) r) ∧
      (let r := s.regB d ^^^ x.value s; b (exec (.xorb d x) s) (s.setRegB d r) r)) ∧
    (y.ready .w s = true → let r : Word := ~~~(y.value .w s); w (exec (.com y) s) (y.put .w s r) r) ∧
    (y.ready .b s = true → let r : Byte := ~~~(y.value .b s); b (exec (.comb y) s) (y.put .b s r) r)

/-- TEST, TESTB, TESTL write flags alone, TESTL leaving any value in P/V (U3); TCC, TCCB set bit 0 of a register where
the condition holds (R285, R286). -/
def Obligations.TestResult : Prop :=
  ∀ (s : State) (x : Dst) (cc : CC) (d : Reg),
    (s.plain → x.ready .w s = true → let r : Word := x.value .w s
      exec (.test x) s = .next (s.withFcw { s.fcw with z := r == 0, s := r.msb })) ∧
    (s.plain → x.ready .b s = true → let r : Byte := x.value .b s
      exec (.testb x) s = .next (s.withFcw { s.fcw with
        z := r == 0, s := r.msb, pv := decide (((List.range 8).countP fun i => r.getLsbD i) % 2 = 0) })) ∧
    (s.plain → x.ready .l s = true → let r : Long := x.value .l s
      ∃ (v : Bool) (n : Nat), exec (.testl x) s =
        .next (({ s with freeCount := n }).withFcw { s.fcw with z := r == 0, s := r.msb, pv := v })) ∧
    exec (.tcc cc d) s = .next (if s.fcw.cond cc then s.setReg d (s.reg d ||| 1) else s) ∧
    exec (.tccb cc d) s = .next (if s.fcw.cond cc then s.setRegB d (s.regB d ||| 1) else s)

/-- The sixteen condition codes (R150). -/
def Obligations.ConditionCodes : Prop :=
  ∀ f : Fcw,
    f.cond 0 = false ∧ f.cond 8 = true ∧
    (f.cond 1 = true ↔ f.s ≠ f.pv) ∧ (f.cond 9 = true ↔ f.s = f.pv) ∧
    (f.cond 2 = true ↔ f.z = true ∨ f.s ≠ f.pv) ∧ (f.cond 10 = true ↔ f.z = false ∧ f.s = f.pv) ∧
    (f.cond 3 = true ↔ f.c = true ∨ f.z = true) ∧ (f.cond 11 = true ↔ f.c = false ∧ f.z = false) ∧
    f.cond 4 = f.pv ∧ f.cond 12 = !f.pv ∧ f.cond 5 = f.s ∧ f.cond 13 = !f.s ∧
    f.cond 6 = f.z ∧ f.cond 14 = !f.z ∧ f.cond 7 = f.c ∧ f.cond 15 = !f.c

/-! Program control (spec/43). -/

/-- CALL and CALR push the PC and go to the target, which is computed before the push (R301, R302; D20, log 19). -/
def Obligations.CallResult : Prop :=
  ∀ s : State, s.plain → s.stackReady = true →
    (∀ t : Mem, exec (.call t) s = .next (s.pcPushed.jump (Mem.ea s t))) ∧
    (∀ disp : BitVec 12, exec (.calr disp) s =
      .next { s.pcPushed with pcOff := s.pcOff - BitVec.ofInt 16 (2 * disp.toInt) })

/-- RET pops the PC where its condition holds, and does nothing where it does not (R306). -/
def Obligations.ReturnResult : Prop :=
  ∀ (s : State) (cc : CC),
    (s.fcw.cond cc = false → exec (.ret cc) s = .next s) ∧
    (s.fcw.cond cc = true → s.plain → s.stackReady = true →
      (s.isSeg = true → exec (.ret cc) s = .next { s.popped 14 .l with
        pcSeg := (s.top 14 .l).extractLsb' 24 7, pcOff := (s.top 14 .l).extractLsb' 0 16 }) ∧
      (s.isSeg = false → exec (.ret cc) s = .next { s.popped 15 .w with pcOff := s.top 15 .w }))

/-- A call and the return that follows it restore the PC and every register (R301, R306). -/
def Obligations.CallThenReturn : Prop :=
  ∀ (s : State) (t : Mem), s.plain → s.mem.wf = true → s.stackReady = true →
    ∃ u v, exec (.call t) s = .next u ∧ exec (.ret 8) u = .next v ∧ v.pc = s.pc ∧ v.fcw = s.fcw ∧
      ∀ r, v.reg r = s.reg r

/-- JP, JR, DJNZ, DBJNZ: where the jump is made only the PC changes, and the counter (R303, R304, R305). -/
def Obligations.JumpResult : Prop :=
  ∀ (s : State) (cc : CC) (r : Reg),
    (∀ t : Mem, exec (.jp cc t) s = .next (if s.fcw.cond cc then s.jump (Mem.ea s t) else s)) ∧
    (∀ disp : BitVec 8, exec (.jr cc disp) s = .next
      (if s.fcw.cond cc then { s with pcOff := s.pcOff + BitVec.ofInt 16 (2 * disp.toInt) } else s)) ∧
    (∀ disp : BitVec 7, exec (.djnz r disp) s = .next
      (if s.reg r = 1 then s.setReg r 0
       else { s.setReg r (s.reg r - 1) with pcOff := s.pcOff - BitVec.ofNat 16 (2 * disp.toNat) })) ∧
    (∀ disp : BitVec 7, exec (.dbjnz r disp) s = .next
      (if s.regB r = 1 then s.setRegB r 0
       else { s.setRegB r (s.regB r - 1) with pcOff := s.pcOff - BitVec.ofNat 16 (2 * disp.toNat) }))

/-! Bit manipulation (spec/44). -/

/-- BIT, RES, SET and their byte forms, static and dynamic: Z from the bit, or one bit changed; the dynamic forms take
the bit number from the low four or three bits of a register (R320 to R324). TSET and TSETB leave the old most
significant bit in S and all ones in the operand (R326). -/
def Obligations.BitResult : Prop :=
  ∀ (s : State) (x : Dst) (d r : Reg) (k : Fin 16),
    let kw := (s.reg r).toNat % 16
    let kb := (s.reg r).toNat % 8
    (s.plain → x.ready .w s = true →
      exec (.bit x k) s = .next (s.withFcw { s.fcw with z := !(x.value .w s).getLsbD k.val }) ∧
      (∃ v : Word, (∀ j, v.getLsbD j = ((x.value .w s).getLsbD j && j != k.val)) ∧
        exec (.res x k) s = .next (x.put .w s v)) ∧
      (∃ v : Word, (∀ j, v.getLsbD j = ((x.value .w s).getLsbD j || j == k.val)) ∧
        exec (.set x k) s = .next (x.put .w s v)) ∧
      exec (.tset x) s = .next (x.put .w (s.withFcw { s.fcw with s := (x.value .w s).getLsbD 15 }) 0xFFFF)) ∧
    (s.plain → x.ready .b s = true →
      (k.val < 8 → exec (.bitb x k) s = .next (s.withFcw { s.fcw with z := !(x.value .b s).getLsbD k.val }) ∧
        (∃ v : Byte, (∀ j, v.getLsbD j = ((x.value .b s).getLsbD j && j != k.val)) ∧
          exec (.resb x k) s = .next (x.put .b s v)) ∧
        (∃ v : Byte, (∀ j, v.getLsbD j = ((x.value .b s).getLsbD j || j == k.val)) ∧
          exec (.setb x k) s = .next (x.put .b s v))) ∧
      exec (.tsetb x) s = .next (x.put .b (s.withFcw { s.fcw with s := (x.value .b s).getLsbD 7 }) 0xFF)) ∧
    exec (.bitDyn d r) s = .next (s.withFcw { s.fcw with z := !(s.reg d).getLsbD kw }) ∧
    exec (.bitbDyn d r) s = .next (s.withFcw { s.fcw with z := !(s.regB d).getLsbD kb }) ∧
    (∃ v : Word, (∀ j, v.getLsbD j = ((s.reg d).getLsbD j && j != kw)) ∧ exec (.resDyn d r) s = .next (s.setReg d v)) ∧
    (∃ v : Word, (∀ j, v.getLsbD j = ((s.reg d).getLsbD j || j == kw)) ∧ exec (.setDyn d r) s = .next (s.setReg d v)) ∧
    (∃ v : Byte, (∀ j, v.getLsbD j = ((s.regB d).getLsbD j && j != kb)) ∧
      exec (.resbDyn d r) s = .next (s.setRegB d v)) ∧
    (∃ v : Byte, (∀ j, v.getLsbD j = ((s.regB d).getLsbD j || j == kb)) ∧
      exec (.setbDyn d r) s = .next (s.setRegB d v))

/-! Rotate and shift (spec/45). -/

/-- RL, RR, RLC, RRC and their byte forms: the register is rotated, or the register and C together; C is the last bit
out, V says that the sign changed (R340 to R344; D21, log 17). RLDB and RRDB rotate the three digits of the link's low
half and the source; Z says that the link became zero, S is any value (R349, U3). -/
def Obligations.RotateResult : Prop :=
  ∀ (s : State) (d r : Reg) (twice : Bool),
    let n := if twice then 2 else 1
    let w := fun (o : Out) (x : Word) (c : Bool) => ∃ v : Bool,
      (s.cfg.shiftVAnyStep = false → v = ((s.reg d).msb != x.msb)) ∧
      o = .next ((s.setReg d x).withFcw { s.fcw with c := c, z := x == 0, s := x.msb, pv := v })
    let b := fun (o : Out) (x : Byte) (c : Bool) => ∃ v : Bool,
      (s.cfg.shiftVAnyStep = false → v = ((s.regB d).msb != x.msb)) ∧
      o = .next ((s.setRegB d x).withFcw { s.fcw with c := c, z := x == 0, s := x.msb, pv := v })
    let lw := (BitVec.ofBool s.fcw.c ++ s.reg d).rotateLeft n
    let rw := (BitVec.ofBool s.fcw.c ++ s.reg d).rotateRight n
    let lb := (BitVec.ofBool s.fcw.c ++ s.regB d).rotateLeft n
    let rb := (BitVec.ofBool s.fcw.c ++ s.regB d).rotateRight n
    let digits := fun (o : Out) (x y : Byte) => ∃ (g : Bool) (k : Nat), o = .next
      (({ (s.setRegB d x).setRegB r y with freeCount := k }).withFcw { s.fcw with z := x == 0, s := g })
    w (exec (.rl d twice) s) ((s.reg d).rotateLeft n) (((s.reg d).rotateLeft n).getLsbD 0) ∧
    b (exec (.rlb d twice) s) ((s.regB d).rotateLeft n) (((s.regB d).rotateLeft n).getLsbD 0) ∧
    w (exec (.rr d twice) s) ((s.reg d).rotateRight n) ((s.reg d).rotateRight n).msb ∧
    b (exec (.rrb d twice) s) ((s.regB d).rotateRight n) ((s.regB d).rotateRight n).msb ∧
    w (exec (.rlc d twice) s) (lw.extractLsb' 0 16) lw.msb ∧
    b (exec (.rlcb d twice) s) (lb.extractLsb' 0 8) lb.msb ∧
    w (exec (.rrc d twice) s) (rw.extractLsb' 0 16) rw.msb ∧
    b (exec (.rrcb d twice) s) (rb.extractLsb' 0 8) rb.msb ∧
    digits (exec (.rldb d r) s) ((s.regB d).extractLsb' 4 4 ++ (s.regB r).extractLsb' 4 4)
      ((s.regB r).extractLsb' 0 4 ++ (s.regB d).extractLsb' 0 4) ∧
    digits (exec (.rrdb d r) s) ((s.regB d).extractLsb' 4 4 ++ (s.regB r).extractLsb' 0 4)
      ((s.regB d).extractLsb' 0 4 ++ (s.regB r).extractLsb' 4 4)

/-- The static shifts of every width by every count of their range: the result, C the last bit out, V (R350 to R354); C
of a shift by zero places and V of the logical shifts are any value (U3; D21, log 17). -/
def Obligations.StaticShift : Prop :=
  ∀ (s : State) (d : Reg) (n : Nat),
    let shifted := fun (wd : Width) (r : BitVec wd.bits) (c v : Bool) (k : Nat) =>
      (({ s with freeCount := k }).setRegAt wd d r).withFcw { s.fcw with c := c, z := r == 0, s := r.msb, pv := v }
    let left := fun (wd : Width) (arith : Bool) (o : Out) => n ≤ wd.bits →
      let a := s.regAt wd d
      ∃ (c v : Bool) (k : Nat), (0 < n → c = a.getLsbD (wd.bits - n)) ∧
        (arith = true → s.cfg.shiftVAnyStep = false → v = (a.msb != (a <<< n).msb)) ∧
        o = .next (shifted wd (a <<< n) c v k)
    let right := fun (wd : Width) (o : Out) => 1 ≤ n → n ≤ wd.bits →
      let a := s.regAt wd d
      ∃ (v : Bool) (k : Nat), o = .next (shifted wd (a >>> n) (a.getLsbD (n - 1)) v k)
    let rightArith := fun (wd : Width) (o : Out) => 1 ≤ n → n ≤ wd.bits →
      let a := s.regAt wd d
      o = .next (shifted wd (a.sshiftRight n) (a.getLsbD (n - 1)) false s.freeCount)
    left .w true (exec (.sla d n) s) ∧ left .b true (exec (.slab d n) s) ∧ left .l true (exec (.slal d n) s) ∧
    left .w false (exec (.sll d n) s) ∧ left .b false (exec (.sllb d n) s) ∧ left .l false (exec (.slll d n) s) ∧
    rightArith .w (exec (.sra d n) s) ∧ rightArith .b (exec (.srab d n) s) ∧ rightArith .l (exec (.sral d n) s) ∧
    right .w (exec (.srl d n) s) ∧ right .b (exec (.srlb d n) s) ∧ right .l (exec (.srll d n) s)

/-- The dynamic shifts do what the static shift by the count in the register does, to the left when it is positive; a
count out of range leaves any value in the destination, C, Z, S and V (R355, R356; U23). -/
def Obligations.DynamicShift : Prop :=
  ∀ (s : State) (d r : Reg),
    let n := (s.reg r).toInt
    let like := fun (wd : Width) (o left right : Out) =>
      (0 ≤ n → n ≤ wd.bits → o = left) ∧ (n < 0 → -(wd.bits : Int) ≤ n → o = right) ∧
      ((n < -(wd.bits : Int) ∨ (wd.bits : Int) < n) → ∃ (v : BitVec wd.bits) (c z g p : Bool) (k : Nat),
        o = .next ((({ s with freeCount := k }).setRegAt wd d v).withFcw { s.fcw with c := c, z := z, s := g, pv := p }))
    like .w (exec (.sda d r) s) (exec (.sla d n.toNat) s) (exec (.sra d (-n).toNat) s) ∧
    like .b (exec (.sdab d r) s) (exec (.slab d n.toNat) s) (exec (.srab d (-n).toNat) s) ∧
    like .l (exec (.sdal d r) s) (exec (.slal d n.toNat) s) (exec (.sral d (-n).toNat) s) ∧
    like .w (exec (.sdl d r) s) (exec (.sll d n.toNat) s) (exec (.srl d (-n).toNat) s) ∧
    like .b (exec (.sdlb d r) s) (exec (.sllb d n.toNat) s) (exec (.srlb d (-n).toNat) s) ∧
    like .l (exec (.sdll d r) s) (exec (.slll d n.toNat) s) (exec (.srll d (-n).toNat) s)

/-! Block transfer and strings (spec/46). -/

/-- CPI, CPD and their repeating forms: one comparison of a register with the element at the pointer; Z is the
condition on its flags, P/V says that the counter became zero, C and S are any value; a repeating form goes back to itself
until either holds (R370 to R378). -/
def Obligations.BlockCompare : Prop :=
  ∀ (s : State) (d p r : Reg) (cc : CC), s.plain →
    let after := fun (wd : Width) (up rep : Bool) (o : Out) =>
      let y := subWith (s.regAt wd d) (s.elem wd p) false
      let hit := condOn cc y.c y.z y.s y.v
      let u := (s.stepPtr p (elementStep wd up)).counted r
      let zero := u.reg r == 0
      ∃ (c g : Bool) (n : Nat), o = .next { u with
        freeCount := n, fcw := { s.fcw with c := c, z := hit, s := g, pv := zero }
        pcOff := if rep && !(hit || zero) then s.instrPc else s.pcOff }
    ((s.addrOf p).aligned .w = true →
      after .w true false (exec (.cpi d p r cc) s) ∧ after .w true true (exec (.cpir d p r cc) s) ∧
      after .w false false (exec (.cpd d p r cc) s) ∧ after .w false true (exec (.cpdr d p r cc) s)) ∧
    after .b true false (exec (.cpib d p r cc) s) ∧ after .b true true (exec (.cpirb d p r cc) s) ∧
    after .b false false (exec (.cpdb d p r cc) s) ∧ after .b false true (exec (.cpdrb d p r cc) s)

/-- CPSI, CPSD and their repeating forms: one comparison of the elements at two pointers; Z is the condition, C and S
are those of the comparison, which the spec itself adopts among its sources (R372, R379 to R382); that a repeating form
leaves these flags between its iterations too is decision D22 (R371, log 22). -/
def Obligations.StringCompare : Prop :=
  ∀ (s : State) (d p r : Reg) (cc : CC), s.plain →
    let after := fun (wd : Width) (up rep : Bool) (o : Out) =>
      let y := subWith (s.elem wd d) (s.elem wd p) false
      let hit := condOn cc y.c y.z y.s y.v
      let u := ((s.stepPtr d (elementStep wd up)).stepPtr p (elementStep wd up)).counted r
      let zero := u.reg r == 0
      o = .next { u with
        fcw := { s.fcw with c := y.c, z := hit, s := y.s, pv := zero }
        pcOff := if rep && !(hit || zero) then s.instrPc else s.pcOff }
    ((s.addrOf d).aligned .w = true → (s.addrOf p).aligned .w = true →
      after .w true false (exec (.cpsi d p r cc) s) ∧ after .w true true (exec (.cpsir d p r cc) s) ∧
      after .w false false (exec (.cpsd d p r cc) s) ∧ after .w false true (exec (.cpsdr d p r cc) s)) ∧
    after .b true false (exec (.cpsib d p r cc) s) ∧ after .b true true (exec (.cpsirb d p r cc) s) ∧
    after .b false false (exec (.cpsdb d p r cc) s) ∧ after .b false true (exec (.cpsdrb d p r cc) s)

/-- LDI, LDD and their repeating forms move one element; P/V says that the counter became zero, Z is any value
(R385 to R388). What a repeating form leaves in P/V and Z between its iterations is decision D22 (R371, log 22). -/
def Obligations.BlockMove : Prop :=
  ∀ (s : State) (d p r : Reg), s.plain →
    let after := fun (wd : Width) (up rep : Bool) (o : Out) =>
      let u := (((s.elemPut wd d (s.elem wd p)).stepPtr d (elementStep wd up)).stepPtr p (elementStep wd up)).counted r
      let zero := u.reg r == 0
      ∃ (z : Bool) (n : Nat), o = .next { u with
        freeCount := n, fcw := { s.fcw with z := z, pv := zero }
        pcOff := if rep && !zero then s.instrPc else s.pcOff }
    ((s.addrOf d).aligned .w = true → (s.addrOf p).aligned .w = true →
      after .w true false (exec (.ldi d p r) s) ∧ after .w true true (exec (.ldir d p r) s) ∧
      after .w false false (exec (.ldd d p r) s) ∧ after .w false true (exec (.lddr d p r) s)) ∧
    after .b true false (exec (.ldib d p r) s) ∧ after .b true true (exec (.ldirb d p r) s) ∧
    after .b false false (exec (.lddb d p r) s) ∧ after .b false true (exec (.lddrb d p r) s)

/-- TRIB, TRDB and their repeating forms replace a byte by its entry of the table, leaving any value in RH1 and Z;
TRTIB, TRTDB and theirs put the entry in RH1, and repeat while it is zero (R390 to R398). The flags a repeating form leaves
between its iterations are decision D22 (R371, log 22), and any value in RH1 is the choice of U24 (log 33). -/
def Obligations.Translate : Prop :=
  ∀ (s : State) (d p r : Reg), s.plain →
    let e := s.byteAt (s.labelOf p) ((s.addrOf p).add ((s.elem .b d).setWidth 16))
    let after := fun (up rep : Bool) (o : Out) =>
      let u := ((s.elemPut .b d e).stepPtr d (elementStep .b up)).counted r
      let zero := u.reg r == 0
      ∃ (z : Bool) (h : Byte) (n : Nat), o = .next { u.setRegB 1 h with
        freeCount := n, fcw := { s.fcw with z := z, pv := zero }
        pcOff := if rep && !zero then s.instrPc else s.pcOff }
    let tested := fun (up rep : Bool) (o : Out) =>
      let u := ((s.setRegB 1 e).stepPtr d (elementStep .b up)).counted r
      let zero := u.reg r == 0
      o = .next { u with
        fcw := { s.fcw with z := e == 0, pv := zero }
        pcOff := if rep && !(e != 0 || zero) then s.instrPc else s.pcOff }
    after true false (exec (.trib d p r) s) ∧ after true true (exec (.trirb d p r) s) ∧
    after false false (exec (.trdb d p r) s) ∧ after false true (exec (.trdrb d p r) s) ∧
    tested true false (exec (.trtib d p r) s) ∧ tested true true (exec (.trtirb d p r) s) ∧
    tested false false (exec (.trtdb d p r) s) ∧ tested false true (exec (.trtdrb d p r) s)

/-! Input and output (spec/47). -/

/-- IN, SIN, OUT, SOUT in system mode, no RESET falling inside (R702, log 44): one transaction; the value read is the one
the device supplies, or any value (R76, R421 to R424; log 21). -/
def Obligations.InputOutput : Prop :=
  ∀ (s : State) (d p r : Reg) (port : Word), s.units = [] → s.resetIn = none → s.fcw.sn = true →
    let input := fun (sp : IoSpace) (q : Word) (o : Out) => ∃ (v : Word) (rest : List Word) (n : Nat),
      (s.ioIn = v :: rest ∨ (s.ioIn = [] ∧ rest = [])) ∧
      o = .next (({ s with ioIn := rest, freeCount := n, events := .ioRead sp q 2 v :: s.events }).setReg d v)
    let inputB := fun (sp : IoSpace) (q : Word) (o : Out) => ∃ (w : Word) (v : Byte) (rest : List Word) (n : Nat),
      v = w.extractLsb' 0 8 ∧ (s.ioIn = w :: rest ∨ (s.ioIn = [] ∧ rest = [])) ∧
      o = .next (({ s with
        ioIn := rest, freeCount := n, events := .ioRead sp q 1 (v.setWidth 16) :: s.events }).setRegB d v)
    let output := fun (sp : IoSpace) (q : Word) (o : Out) =>
      o = .next { s with events := .ioWrite sp q 2 (s.reg r) :: s.events }
    let outputB := fun (sp : IoSpace) (q : Word) (o : Out) =>
      o = .next { s with events := .ioWrite sp q 1 ((s.regB r).setWidth 16) :: s.events }
    input .standard (s.reg p) (exec (.inIr d p) s) ∧ input .standard port (exec (.inDa d port) s) ∧
    input .special port (exec (.sin d port) s) ∧
    inputB .standard (s.reg p) (exec (.inbIr d p) s) ∧ inputB .standard port (exec (.inbDa d port) s) ∧
    inputB .special port (exec (.sinb d port) s) ∧
    output .standard (s.reg p) (exec (.outIr p r) s) ∧ output .standard port (exec (.outDa port r) s) ∧
    output .special port (exec (.sout port r) s) ∧
    outputB .standard (s.reg p) (exec (.outbIr p r) s) ∧ outputB .standard port (exec (.outbDa port r) s) ∧
    outputB .special port (exec (.soutb port r) s)

/-- The block input and output forms in system mode: one element between the port and memory, then pointer and counter;
P/V says that the counter became zero, Z is any value (R428 to R443). The flags a repeating form leaves between its
elements are decision D22 (R371, log 22), and the value a device supplies is the environment's, or any value (D5, log 21). -/
def Obligations.BlockInputOutput : Prop :=
  ∀ (s : State) (d p r : Reg), s.plain → s.fcw.sn = true →
    let ended := fun (wd : Width) (up rep : Bool) (t : State) (o : Out) => ∃ (z : Bool) (n : Nat),
      let u := (t.stepPtr d (elementStep wd up)).counted r
      let zero := u.reg r == 0
      o = .next { u with
        freeCount := n, fcw := { s.fcw with z := z, pv := zero }
        pcOff := if rep && !zero then s.instrPc else s.pcOff }
    let input := fun (sp : IoSpace) (wd : Width) (up rep : Bool) (o : Out) =>
      ∃ (w v : Word) (rest : List Word),
        (s.ioIn = w :: rest ∨ (s.ioIn = [] ∧ rest = [])) ∧ v = (w.setWidth wd.bits).setWidth 16 ∧
        ended wd up rep (({ s with ioIn := rest, events := .ioRead sp (s.reg p) wd.bytes v :: s.events }).elemPut wd d
          (v.setWidth wd.bits)) o
    let output := fun (sp : IoSpace) (wd : Width) (up rep : Bool) (o : Out) =>
      ended wd up rep
        { s with events := .ioWrite sp (s.reg p) wd.bytes ((s.elem wd d).setWidth 16) :: s.events } o
    ((s.addrOf d).aligned .w = true →
      input .standard .w true false (exec (.ini d p r) s) ∧ input .standard .w true true (exec (.inir d p r) s) ∧
      input .standard .w false false (exec (.ind d p r) s) ∧ input .standard .w false true (exec (.indr d p r) s) ∧
      input .special .w true false (exec (.sini d p r) s) ∧ input .special .w true true (exec (.sinir d p r) s) ∧
      input .special .w false false (exec (.sind d p r) s) ∧ input .special .w false true (exec (.sindr d p r) s) ∧
      output .standard .w true false (exec (.outi p d r) s) ∧ output .standard .w true true (exec (.otir p d r) s) ∧
      output .standard .w false false (exec (.outd p d r) s) ∧ output .standard .w false true (exec (.otdr p d r) s) ∧
      output .special .w true false (exec (.souti p d r) s) ∧ output .special .w true true (exec (.sotir p d r) s) ∧
      output .special .w false false (exec (.soutd p d r) s) ∧ output .special .w false true (exec (.sotdr p d r) s)) ∧
    input .standard .b true false (exec (.inib d p r) s) ∧ input .standard .b true true (exec (.inirb d p r) s) ∧
    input .standard .b false false (exec (.indb d p r) s) ∧ input .standard .b false true (exec (.indrb d p r) s) ∧
    input .special .b true false (exec (.sinib d p r) s) ∧ input .special .b true true (exec (.sinirb d p r) s) ∧
    input .special .b false false (exec (.sindb d p r) s) ∧ input .special .b false true (exec (.sindrb d p r) s) ∧
    output .standard .b true false (exec (.outib p d r) s) ∧ output .standard .b true true (exec (.otirb p d r) s) ∧
    output .standard .b false false (exec (.outdb p d r) s) ∧ output .standard .b false true (exec (.otdrb p d r) s) ∧
    output .special .b true false (exec (.soutib p d r) s) ∧ output .special .b true true (exec (.sotirb p d r) s) ∧
    output .special .b false false (exec (.soutdb p d r) s) ∧ output .special .b false true (exec (.sotdrb p d r) s)

/-! CPU control (spec/48). -/

/-- COMFLG, RESFLG, SETFLG, LDCTLB and NOP, which run in either mode (R43, R473, R477, R479, R484, R485). -/
def Obligations.FlagInstructions : Prop :=
  ∀ (s : State) (c z g p : Bool) (r : Reg),
    let f := s.fcw
    exec (.comflg c z g p) s =
      .next (s.withFcw { f with c := f.c ^^ c, z := f.z ^^ z, s := f.s ^^ g, pv := f.pv ^^ p }) ∧
    exec (.resflg c z g p) s =
      .next (s.withFcw { f with c := f.c && !c, z := f.z && !z, s := f.s && !g, pv := f.pv && !p }) ∧
    exec (.setflg c z g p) s =
      .next (s.withFcw { f with c := f.c || c, z := f.z || z, s := f.s || g, pv := f.pv || p }) ∧
    exec (.ldctlbWrite r) s = .next (s.withFcw { f with
      c := (s.regB r).getLsbD 7, z := (s.regB r).getLsbD 6, s := (s.regB r).getLsbD 5, pv := (s.regB r).getLsbD 4
      d := (s.regB r).getLsbD 3, h := (s.regB r).getLsbD 2 }) ∧
    exec (.ldctlbRead r) s = .next (s.setRegB r (BitVec.ofBool f.c ++ BitVec.ofBool f.z ++ BitVec.ofBool f.s ++
      BitVec.ofBool f.pv ++ BitVec.ofBool f.d ++ BitVec.ofBool f.h ++ 0#2)) ∧
    exec .nop s = .next s

/-- EI, DI, HALT and the multi-micro instructions in system mode (R471, R472, R474, R480 to R483), MREQ where RESET does
not fall inside its loop (R702, log 44); a halted machine without an accepted request waits, with its state as it was but
for the sample it took (R474). That HALT leaves an empty sample and each waiting step takes a new one is the model's
reading of R607(d) (log 43, DEDUCED). -/
def Obligations.ControlInstructions : Prop :=
  ∀ (s : State) (a b : Bool) (r : Reg),
    (s.fcw.sn = true →
      exec (.ei a b) s = .next (s.withFcw { s.fcw with vie := s.fcw.vie || a, nvie := s.fcw.nvie || b }) ∧
      exec (.di a b) s = .next (s.withFcw { s.fcw with vie := s.fcw.vie && !a, nvie := s.fcw.nvie && !b }) ∧
      exec .halt s = .next { s with halted := true, haltSample := Requests.quiet } ∧
      exec .mres s = .next { s with moLow := false } ∧ exec .mset s = .next { s with moLow := true } ∧
      (∃ (z : Bool) (n : Nat), exec .mbit s =
        .next (({ s with freeCount := n }).withFcw { s.fcw with s := !s.pins.mi, z := z })) ∧
      (s.resetIn = none →
        exec (.mreq r) s = .next (if s.pins.mi then { s.withFcw { s.fcw with z := false, s := false } with moLow := false }
          else { (s.setReg r 0).withFcw { s.fcw with z := true, s := s.pins.miSecond } with
            moLow := s.pins.miSecond }))) ∧
    (s.halted = true → s.pins.reset = false → s.resetting = false → s.pins.busreq = false → s.pins.stop = false → s.accepted = none →
      step s = .next ({ s with haltSample := s.requests }).endStep)

/-- LDCTL in system mode, every control register; PSAPSEG and NSPSEG outside segmented mode are refused
(R45 to R48, R476; U4, U10). -/
def Obligations.ControlRegisters : Prop :=
  ∀ (s : State) (r : Reg), s.fcw.sn = true →
    let v := s.reg r
    exec (.ldctlWrite .fcw r) s = .next (s.withFcw (loadFcw s.cfg v)) ∧
    exec (.ldctlWrite .psapoff r) s = .next { s with psapOff := v.extractLsb' 8 8 } ∧
    exec (.ldctlWrite .nspoff r) s = .next { s with regs := s.regs.set 15 v } ∧
    exec (.ldctlWrite .refresh r) s = .next { s with
      refresh := { re := v.getLsbD 15, rate := v.extractLsb' 9 6, row := v.extractLsb' 1 8 }, rowStepped := false } ∧
    exec (.ldctlRead r .fcw) s = .next (s.setReg r s.fcw.toWord) ∧
    exec (.ldctlRead r .psapoff) s = .next (s.setReg r (s.psapOff ++ 0#8)) ∧
    exec (.ldctlRead r .nspoff) s = .next (s.setReg r s.regs[15]) ∧
    (∃ (h : BitVec 7) (row : Byte) (n : Nat),
      (s.refresh.re = false → s.rowStepped = false → row = s.refresh.row) ∧
      exec (.ldctlRead r .refresh) s = .next (({ s with freeCount := n }).setReg r (h ++ row ++ 0#1))) ∧
    (s.isSeg = true →
      exec (.ldctlWrite .psapseg r) s = .next { s with psapSeg := v.extractLsb' 8 7 } ∧
      exec (.ldctlWrite .nspseg r) s = .next { s with regs := s.regs.set 14 v } ∧
      exec (.ldctlRead r .psapseg) s = .next (s.setReg r (0#1 ++ s.psapSeg ++ 0#8)) ∧
      exec (.ldctlRead r .nspseg) s = .next (s.setReg r s.regs[14])) ∧
    (s.isSeg = false →
      exec (.ldctlWrite .psapseg r) s = .refused .controlRegisterAbsent ∧
      exec (.ldctlWrite .nspseg r) s = .refused .controlRegisterAbsent ∧
      exec (.ldctlRead r .psapseg) s = .refused .controlRegisterAbsent ∧
      exec (.ldctlRead r .nspseg) s = .refused .controlRegisterAbsent)

/-- The word form of FCW: the defined bits in their places, zeros in the reserved ones; loading a word takes its defined
bits, SEG on a Z8001 alone and EPA where it is implemented (R31, R36, R307; D7, log 10). -/
def Obligations.FcwWord : Prop :=
  (∀ f : Fcw, Fcw.ofWord f.toWord = f) ∧
  (∀ w : Word, (Fcw.ofWord w).toWord = w &&& 0xF8FC) ∧
  (∀ (cfg : Config) (w : Word), (loadFcw cfg w).toWord = w &&& 0xF8FC &&&
    (if cfg.version = .z8001 then 0xFFFF else 0x7FFF) &&& (if cfg.epaImplemented then 0xFFFF else 0xDFFF))

/-- LDPS in system mode loads FCW and PC from a program status in memory: two words, or the last three of four in
segmented mode (R30, R478; D24, log 23). That @R15 or @RR14, the stack pointer of the mode, is read with the label STACK is
the model's choice (DESIGN CHOICE, log 52: R74(e) says DATA, R74(f) and R478's `lab` say STACK). -/
def Obligations.LoadProgramStatus : Prop :=
  ∀ (s : State) (m : Mem), s.plain → s.fcw.sn = true → m.ready .w s = true →
    let w := fun k : Word => s.wordAt (Mem.label s m) ((Mem.ea s m).add k)
    (s.isSeg = false → exec (.ldps m) s = .next { s with fcw := loadFcw s.cfg (w 0), pcOff := w 2 }) ∧
    (s.isSeg = true → exec (.ldps m) s = .next { s with
      fcw := loadFcw s.cfg (w 2), pcSeg := (w 4).extractLsb' 8 7, pcOff := w 6 })

/-! Extended instructions (spec/49). -/

/-- The seven templates with FCW.EPA = 1: every EPU sees the two instruction words; words go between memory or
consecutive registers and the EPU, or the flags do, in transactions whose lines show it; an internal operation does nothing
else (R500 to R511). How words and flags stand in the transactions, the R/W and B/W lines of those between EPU and CPU, and
what the environment supplies, are the model's choice (log 34). -/
def Obligations.ExtendedTransfers : Prop :=
  ∀ (s : State) (m : Mem) (ii : Fin 4) (w2 : Word), s.plain → s.mem.wf = true → s.fcw.epa = true →
    let n := epuCount w2
    let cpu := fun read : Bool => ({ status := 0b1110, read := read, word := true, system := s.fcw.sn } : BusLines)
    let mem := fun read : Bool =>
      ({ status := if Mem.label s m = .stack then 0b1011 else 0b1010, read := read, word := true, system := s.fcw.sn } :
        BusLines)
    let noted := fun (i : Instr) => BusEvent.epuNote ((encode i).headD 0) w2 :: s.events
    let given := fun (t : State) (f : Nat → Word) => n ≤ s.epuIn.length → (t.epuIn = s.epuIn.drop n ∧
      ∀ j, j < n → some (f j) = s.epuIn[j]?)
    let logged := fun (e : Nat → Word → BusEvent) (i : Instr) (f : Nat → Word) =>
      ((List.range n).map fun j => e j (f j)).reverse ++ noted i
    (∀ x : Fin 16, exec (.epuOp x ii w2) s = .next { s with events := noted (.epuOp x ii w2) }) ∧
    (∀ x : Fin 16, exec (.epuLdfTo x ii w2) s = .next { s with
      events := .epuTake (cpu false) 0 (s.fcw.flags.setWidth 16) :: noted (.epuLdfTo x ii w2) }) ∧
    (∀ x : Fin 16, ∃ (v r0 : Word) (rest : List Word) (k : Nat),
      (s.epuIn = v :: rest ∨ (s.epuIn = [] ∧ rest = [])) ∧
      exec (.epuLdfFrom x ii w2) s = .next (({ s with
        epuIn := rest, freeCount := k
        events := .epuGive (cpu true) 0 ((v.extractLsb' 0 8).setWidth 16) :: noted (.epuLdfFrom x ii w2)
        fcw := s.fcw.withFlags (v.extractLsb' 0 8) }).setReg 0 r0)) ∧
    (∀ x : Fin 8, exec (.epuLdrTo x ii w2) s = .next { s with
      events := logged (.epuTake (cpu false)) (.epuLdrTo x ii w2) (fun j => s.reg (regAfter (epuReg w2) j)) }) ∧
    (∀ x : Fin 8, ∃ t, exec (.epuLdrFrom x ii w2) s = .next t ∧
      t.events = logged (.epuGive (cpu true)) (.epuLdrFrom x ii w2) (fun j => t.reg (regAfter (epuReg w2) j)) ∧
      given t (fun j => t.reg (regAfter (epuReg w2) j)) ∧
      (∀ q, q ∉ runOfRegs (epuReg w2) n → t.reg q = s.reg q) ∧
      t = { s with regs := t.regs, sysR14 := t.sysR14, sysR15 := t.sysR15, epuIn := t.epuIn, events := t.events
                   freeCount := t.freeCount }) ∧
    (m.ready .w s = true →
      exec (.epuLdmTo m ii w2) s = .next { s with
        events := logged (.epuTake (mem true)) (.epuLdmTo m ii w2)
          (fun j => s.wordAt (Mem.label s m).epu (wordAfter (Mem.ea s m) j)) }) ∧
    (m.ready .w s = true → ∃ t, exec (.epuLdmFrom m ii w2) s = .next t ∧
      t.events = logged (.epuGive (mem false)) (.epuLdmFrom m ii w2)
        (fun j => t.wordAt (Mem.label s m).epu (wordAfter (Mem.ea s m) j)) ∧
      given t (fun j => t.wordAt (Mem.label s m).epu (wordAfter (Mem.ea s m) j)) ∧
      (∀ k, (∀ x ∈ Instr.stores s (.epuLdmFrom m ii w2), k ∉ x.bytes s) → t.mem.read k = s.mem.read k) ∧
      t = { s with mem := t.mem, epuIn := t.epuIn, events := t.events, freeCount := t.freeCount })

/-! Exceptions and reset (spec/60, spec/70). -/

/-- A privileged instruction in normal mode and an extended one with FCW.EPA = 0 take their trap and do nothing else; SC
takes the system call trap, saving the address after it, FCW and the instruction word
(R309, R470, R501, R603, R604, R605). -/
def Obligations.InternalTraps : Prop :=
  ∀ (s : State) (i : Instr), s.plain → s.systemStackReady = true →
    (i.isPrivileged = true → s.fcw.sn = false →
      exec i s = .next (s.entered .privileged s.ir { seg := s.pcSeg, off := s.instrPc + 2 })) ∧
    (i.isExtended = true → s.fcw.epa = false →
      exec i s = .next (s.entered .extended s.ir { seg := s.pcSeg, off := s.instrPc + 2 })) ∧
    (∀ n : Byte, exec (.sc n) s = .next (s.entered .systemCall (BitVec.ofNat 16 (0x7F00 + n.toNat)) s.pc))

/-- What an entry leaves on the system stack: the PC, the FCW and the identifier, from the top down; no other register
changes, and the system stack pointer moves by three words or four (R620, R621). -/
def Obligations.EntrySaves : Prop :=
  ∀ (s : State) (k : Exc) (id : Word) (pcs : Addr), s.mem.wf = true → s.systemStackReady = true →
    let u := s.entryFrame k id pcs
    let at2 := fun o : Word => u.wordAt .stack { seg := s.pcSeg, off := s.sysR15 - o }
    let at1 := fun o : Word => u.wordAt .stack { seg := s.sysR14.extractLsb' 8 7, off := s.sysR15 - o }
    u.regs = s.regs ∧ u.sysR14 = s.sysR14 ∧ u.fcw.sn = true ∧
    (s.cfg.version = .z8002 → s.fcw.seg = false →
      u.sysR15 = s.sysR15 - 6 ∧ at2 2 = pcs.off ∧ at2 4 = s.fcw.toWord ∧ at2 6 = id) ∧
    (s.cfg.version = .z8001 →
      u.fcw.seg = true ∧ u.sysR15 = s.sysR15 - 8 ∧ at1 2 = pcs.off ∧ at1 4 = 0#1 ++ pcs.seg ++ 0#8 ∧
      at1 6 = s.fcw.toWord ∧ at1 8 = id)

/-- IRET in system mode pops the identifier, FCW and PC; on a Z8001 in nonsegmented mode it is refused
(R307, R308; U18). -/
def Obligations.InterruptReturn : Prop :=
  ∀ s : State, s.fcw.sn = true →
    (s.plain → s.cfg.version = .z8002 → s.stackReady = true →
      let w := fun k : Word => s.wordAt .stack ((s.addrOf 15).add k)
      exec .iret s = .next { s.setReg 15 (s.reg 15 + 6) with fcw := loadFcw s.cfg (w 2), pcOff := w 4 }) ∧
    (s.plain → s.isSeg = true → s.stackReady = true →
      let w := fun k : Word => s.wordAt .stack ((s.addrOf 14).add k)
      exec .iret s = .next { s.setReg 15 (s.reg 15 + 8) with
        fcw := loadFcw s.cfg (w 2), pcSeg := (w 4).extractLsb' 8 7, pcOff := w 6 }) ∧
    (s.cfg.version = .z8001 → s.isSeg = false → exec .iret s = .refused .iretNonsegmented)

/-- An IRET in the handler, with the stack as the entry left it, brings back the PC, the FCW and every register: any
exception, either version (R307, R620, R623). -/
def Obligations.EntryThenReturn : Prop :=
  ∀ (s : State) (k : Exc) (id : Word) (pcs : Addr), s.plain → s.Inv → s.systemStackReady = true →
    let u := s.entered k id pcs
    u.fcw.sn = true → (s.cfg.version = .z8001 → u.fcw.seg = true) → (s.cfg.version = .z8002 → pcs.seg = s.pcSeg) →
    ∃ v, exec .iret u = .next v ∧ v.fcw = s.fcw ∧ v.pc = pcs ∧
      v.regs = s.regs ∧ v.sysR14 = s.sysR14 ∧ v.sysR15 = s.sysR15

/-- External requests: NMI, then a segment trap, then a vectored interrupt if VIE, then a non-vectored one if NVIE; a
halted machine takes only a request that the sample before showed too (the reading of R607(d) in log 43), and each waiting
step takes a sample. A fetch that STOP or a bus grant held up goes on as what it was (log 45). The accepted request is
entered with the PC as it stands (the segment trap too: D12, log 40) and the word on the bus as its identifier (log 49)
(R35, R606, R607, R610 to R613, R618, R619). -/
def Obligations.ExternalRequests : Prop :=
  ∀ s : State, s.pins.reset = false → s.resetting = false → s.pins.busreq = false → s.pins.stop = false →
    let h := s.haltSample
    let segt : Bool := s.cfg.version == .z8001 && (s.pins.segt || s.mmus.any fun m => m.segt)
    (s.held = none → s.halted = false →
      s.accepted =
        if s.nmiLatch then some .nmi
        else if segt then some .segment
        else if s.pins.vi = true ∧ s.fcw.vie = true then some .vi
        else if s.pins.nvi = true ∧ s.fcw.nvie = true then some .nvi
        else none) ∧
    (s.held = none → s.halted = true →
      s.accepted =
        if s.nmiLatch = true ∧ h.nmi = true then some .nmi
        else if segt = true ∧ h.segt = true then some .segment
        else if s.pins.vi = true ∧ h.vi = true ∧ s.fcw.vie = true then some .vi
        else if s.pins.nvi = true ∧ h.nvi = true ∧ s.fcw.nvie = true then some .nvi
        else none) ∧
    (s.halted = true → s.accepted = none → ∃ t, step s = .next t ∧
      t.haltSample = { nmi := s.nmiLatch, segt := segt, vi := s.pins.vi, nvi := s.pins.nvi }) ∧
    (s.held = none → s.halted = true → h = Requests.quiet → s.accepted = none) ∧
    (∀ d, s.held = some d → s.accepted = d) ∧
    (∀ k, s.accepted = some k → s.plain → s.systemStackReady = true →
      step s = .next (State.endStep
        (({ s with
            held := none
            events := .acknowledge k s.pins.ackWord :: .abortedFetch s.pc s.fcw.sn :: s.events }).entered
          k s.pins.ackWord s.pc)))

/-- While RESET is low nothing is done but that MO is forced high and the MMUs have their own reset. The step after its
release is the reset sequence: it reads FCW and PC from offsets 2, 4 and 6 of segment 0 in system mode and clears RE, MO,
the halt and the NMI latch; it writes no memory and no other register (R60, R700 to R702; the latch: D11, log 25). That the
sequence comes at once after the release, whatever BUSREQ and STOP show, is the model's choice (log 44). -/
def Obligations.ResetSequence : Prop :=
  ∀ s : State,
    (s.pins.reset = true → ∃ t, act s = .next t ∧
      t = { s with resetting := true, moLow := false, resetIn := none, mmus := t.mmus, freeCount := t.freeCount }) ∧
    (s.plain → s.pins.reset = false → s.resetting = true →
      let w := fun k : Word => s.forceSystem.wordAt .code { seg := 0, off := k }
      ∃ t, act s = .next t ∧ t.resetting = false ∧ t.refresh = { s.refresh with re := false } ∧ t.moLow = false ∧
        t.halted = false ∧ t.nmiLatch = false ∧ t.mem = s.mem ∧ t.regs = s.regs ∧ t.sysR14 = s.sysR14 ∧
        t.sysR15 = s.sysR15 ∧ t.psapSeg = s.psapSeg ∧ t.psapOff = s.psapOff ∧ t.fcw = loadFcw s.cfg (w 2) ∧
        (s.cfg.version = .z8002 → t.pcOff = w 4 ∧ t.pcSeg = s.pcSeg) ∧
        (s.cfg.version = .z8001 → t.pcSeg = (w 4).extractLsb' 8 7 ∧ t.pcOff = w 6))

/-- A byte or word write that reaches a translating MMU, on a Z8001 (R4, R8). It is violated by RD; by SYS in normal mode; by CPUI; by EXC, if it
is no program reference that EXC admits; by an offset above the limit, or below it in a segment that grows down. A violated write changes
no memory and asserts Suppress: where no flag is set the VTR flags name the causes, VSN and VOFF the place, and a segment
trap is requested; where one is set FATL is set and nothing is requested. Any other write goes to the translated address
and marks its descriptor changed and referenced; it sets PWW and requests a trap where it warns and no flag is set
(R101, R102, R104, R110 to R112). Three clauses rest on the model's readings: the places of the fields and flags are
presumed (log 36), bit 7 of VSN is zero (DESIGN CHOICE, log 38), and which program references EXC admits, those of status
1101 alone or those of status 1100 too, is the parameter `mmuExcAllows1100` (U14; DESIGN CHOICE, log 39). -/
def Obligations.MmuProtection : Prop :=
  ∀ (s : State) (m : Mmu) (l : Label) (a : Addr),
    let d := m.descs[descIndex a.seg]
    let b := (a.off.extractLsb' 8 8).toNat
    let rd := d.attr.getLsbD 0
    let sysv := d.attr.getLsbD 1 && !s.fcw.sn
    let cpui := d.attr.getLsbD 2
    let exc := d.attr.getLsbD 3 && l != .ifetch && !(l == .code && s.cfg.mmuExcAllows1100)
    let down := d.attr.getLsbD 5
    let past := if down then decide (b < d.limit.toNat) else decide (d.limit.toNat < b)
    let violated := rd || sysv || cpui || exc || past
    let causes : Byte := 0#3 ++ BitVec.ofBool past ++ BitVec.ofBool exc ++ BitVec.ofBool cpui ++ BitVec.ofBool sysv ++
      BitVec.ofBool rd
    let place := memKey s.cfg s.fcw.sn l ((d.base.toNat + b) % 65536 * 256 + a.off.toNat % 256)
    let wrote := fun (x : M Unit) (mem : Memory) => ∃ u : Mmu,
      x s = .ok ((), { s with mem := if violated then s.mem else mem, mmus := [u] }) ∧
      (violated = true → u.suppress = true ∧ u.descs = m.descs) ∧
      (violated = true → m.vtr = 0 →
        u.segt = true ∧ u.vtr = causes ∧ u.vsn = a.seg.setWidth 8 ∧ u.voff = a.off.extractLsb' 8 8) ∧
      (violated = true → m.vtr ≠ 0 →
        u.segt = m.segt ∧ u.vtr = m.vtr ||| causes ||| 0x80 ∧ u.vsn = m.vsn ∧ u.voff = m.voff ∧ u.bcs = m.bcs) ∧
      (violated = false → u.suppress = false ∧
        u.descs = m.descs.set (descIndex a.seg) { d with attr := d.attr ||| 0xC0 }) ∧
      (violated = false → (down = false ∨ b ≠ d.limit.toNat) → u.segt = m.segt ∧ u.vtr = m.vtr) ∧
      (violated = false → down = true → b = d.limit.toNat → m.vtr = 0 → u.segt = true ∧ u.vtr = 0x20)
    s.cfg.version = .z8001 → s.mmus = [m] → s.cfg.memMap = [] → s.resetIn = none → m.msen = true → m.urs = a.seg.getLsbD 6 →
    (m.mst = true → m.nms = !s.fcw.sn) → m.trns = true → m.suppress = false → l ≠ .trapStack →
    (∀ v : Byte, wrote (writeByte l a v) (s.mem.write place v)) ∧
    (a.aligned .w = true → ∀ v : Word, wrote (writeWord l a v) (s.mem.writeWord place v))

/-! Frames over the whole instruction set. -/

/-- An instruction's own effect writes no register but its targets (`Instr.targets`: destinations, stack pointers,
autostepped pointers, counters): every other general register, in every copy, is as before. -/
def Obligations.FrameRegisters : Prop :=
  ∀ (s t : State) (i : Instr), i.runs s = true → exec i s = .next t →
    (∀ r : Reg, r ∉ i.targets s.isSeg → t.regs[r] = s.regs[r]) ∧
    (15 ∉ i.targets s.isSeg → t.sysR15 = s.sysR15) ∧ (14 ∉ i.targets s.isSeg → t.sysR14 = s.sysR14)

/-- An instruction's own effect changes no byte of memory but those of its stores (`Instr.stores`: the label and
address each form computes). -/
def Obligations.FrameMemory : Prop :=
  ∀ (s t : State) (i : Instr), s.plain → i.runs s = true → exec i s = .next t →
    ∀ k, (∀ x ∈ i.stores s, k ∉ x.bytes s) → t.mem.read k = s.mem.read k

/-- Which instructions change the special state: an instruction's own effect changes PSAP, REFRESH, MO, the halt flag
and the control bits of FCW only where the spec gives it that effect (R31 to R36, R45, R46, R48, R474, R481 to R483). -/
def Obligations.FrameSpecials : Prop :=
  ∀ (s t : State) (i : Instr), i.runs s = true → exec i s = .next t →
    ((∀ r, i ≠ .ldctlWrite .psapseg r) → t.psapSeg = s.psapSeg) ∧
    ((∀ r, i ≠ .ldctlWrite .psapoff r) → t.psapOff = s.psapOff) ∧
    ((∀ r, i ≠ .ldctlWrite .refresh r) → t.refresh = s.refresh ∧ t.rowStepped = s.rowStepped) ∧
    (i ≠ .mset → i ≠ .mres → (∀ r, i ≠ .mreq r) → t.moLow = s.moLow) ∧
    (i ≠ .halt → t.halted = s.halted) ∧
    (i ≠ .iret → (∀ r, i ≠ .ldctlWrite .fcw r) → (∀ m, i ≠ .ldps m) →
      t.fcw.seg = s.fcw.seg ∧ t.fcw.sn = s.fcw.sn ∧ t.fcw.epa = s.fcw.epa ∧
      ((∀ a b, i ≠ .ei a b) → (∀ a b, i ≠ .di a b) → t.fcw.vie = s.fcw.vie ∧ t.fcw.nvie = s.fcw.nvie)) ∧
    t.cfg = s.cfg ∧ t.nmiLatch = s.nmiLatch ∧ t.pins = s.pins ∧ t.schedule = s.schedule

/-- NORMAL MODE IS CONFINED: no instruction run in normal mode changes PSAP, REFRESH, MO or the halt flag to set, or
makes an input or output transaction; the control bits of FCW and the system stack pointer change only where it entered
an exception (R33, R420, R470, R604). -/
def Obligations.NormalModeConfined : Prop :=
  ∀ (s t : State) (i : Instr), s.fcw.sn = false → exec i s = .next t →
    t.psapSeg = s.psapSeg ∧ t.psapOff = s.psapOff ∧ t.refresh = s.refresh ∧ t.moLow = s.moLow ∧
    (t.halted = true → s.halted = true) ∧
    (∃ new, t.events = new ++ s.events ∧ ∀ e ∈ new, e.isEpu = true) ∧
    ((t.fcw.seg = s.fcw.seg ∧ t.fcw.sn = false ∧ t.fcw.epa = s.fcw.epa ∧ t.fcw.vie = s.fcw.vie ∧
      t.fcw.nvie = s.fcw.nvie ∧ t.sysR14 = s.sysR14 ∧ t.sysR15 = s.sysR15) ∨
     ∃ k id pcs, (k = .privileged ∨ k = .extended ∨ k = .systemCall) ∧ M.run (enter k id pcs) s = .next t)

end Statements
end

