-- ==== Sys2Proof/Laws/Memory.lean ====
section
/-! SUPPORT. Laws of memory as data: what a read gives after a write, and that every write keeps the canonical form. -/

namespace Sys2Proof.Machine

@[simp] theorem Memory.read_nil (a : Nat) : Memory.read [] a = Memory.blank := rfl

theorem Memory.read_cons (k : Nat) (v : Byte) (m : Memory) (a : Nat) :
    Memory.read ((k, v) :: m) a = if a = k then v else Memory.read m a := rfl

/-- Addresses below the first listed one read as blank. -/
theorem Memory.read_lt (m : Memory) (a : Nat) (h : m.wf = true) (hk : ∀ c ∈ m.head?, a < c.1) :
    m.read a = Memory.blank := by
  induction m with
  | nil => rfl
  | cons c m ih =>
    obtain ⟨k, v⟩ := c
    have hak : a < k := hk _ rfl
    rw [Memory.read_cons, if_neg (by omega)]
    cases m with
    | nil => rfl
    | cons c' m' =>
      simp [Memory.wf] at h
      exact ih (by simp [Memory.wf]; tauto) (by simp; omega)

/-- The canonical form of a nonempty memory, in one line. -/
theorem Memory.wf_cons (k : Nat) (v : Byte) (m : Memory) :
    Memory.wf ((k, v) :: m) = true ↔
      v ≠ Memory.blank ∧ (∀ c ∈ m.head?, k < c.1) ∧ m.wf = true := by
  cases m with
  | nil => simp [Memory.wf]
  | cons c m => obtain ⟨k', v'⟩ := c; simp [Memory.wf]; tauto

/-- A byte written is the byte read. -/
theorem Memory.read_write_same (m : Memory) (a : Nat) (v : Byte) (h : m.wf = true) :
    (m.write a v).read a = v := by
  induction m with
  | nil => simp only [Memory.write]; split <;> simp_all [Memory.read]
  | cons c m ih =>
    obtain ⟨k, u⟩ := c
    have hw := h
    rw [Memory.wf_cons] at h
    simp only [Memory.write]
    split
    · rename_i hlt
      split
      · rename_i hv
        rw [hv]
        exact Memory.read_lt _ _ hw (by simpa using hlt)
      · simp [Memory.read]
    · split
      · rename_i hak
        subst hak
        split
        · rename_i hv
          rw [hv]
          exact Memory.read_lt _ _ h.2.2 h.2.1
        · simp [Memory.read]
      · rename_i hak
        rw [Memory.read_cons, if_neg hak]
        exact ih h.2.2

/-- A write leaves every other byte as it was. -/
theorem Memory.read_write_other (m : Memory) (a b : Nat) (v : Byte) (hb : b ≠ a) :
    (m.write a v).read b = m.read b := by
  induction m with
  | nil => simp only [Memory.write]; split <;> simp [Memory.read, hb]
  | cons c m ih =>
    obtain ⟨k, u⟩ := c
    simp only [Memory.write]
    split
    · split
      · rfl
      · rw [Memory.read_cons, if_neg hb]
    · split
      · rename_i hak
        subst hak
        split <;> simp [Memory.read, hb]
      · rw [Memory.read_cons, Memory.read_cons, ih]

/-- A byte of memory after a write. -/
theorem Memory.read_write (m : Memory) (a b : Nat) (v : Byte) (h : m.wf = true) :
    (m.write a v).read b = if b = a then v else m.read b := by
  split
  · rename_i hb; rw [hb, Memory.read_write_same m a v h]
  · rename_i hb; exact Memory.read_write_other m a b v hb

theorem Memory.head_write (m : Memory) (a : Nat) (v : Byte) (k : Nat) (hk : k < a)
    (h : ∀ c ∈ m.head?, k < c.1) (hw : m.wf = true) : ∀ c ∈ (m.write a v).head?, k < c.1 := by
  cases m with
  | nil => simp only [Memory.write]; split <;> simp [hk]
  | cons c m =>
    obtain ⟨k', u⟩ := c
    rw [Memory.wf_cons] at hw
    simp at h
    have := hw.2.1
    simp only [Memory.write]
    split
    · split <;> simp [hk, h]
    · split
      · split
        · intro c hc; have := this c hc; omega
        · simp [hk]
      · simp [h]

/-- A write keeps the canonical form. -/
theorem Memory.write_wf (m : Memory) (a : Nat) (v : Byte) (h : m.wf = true) : (m.write a v).wf = true := by
  induction m with
  | nil => simp only [Memory.write]; split <;> simp_all [Memory.wf]
  | cons c m ih =>
    obtain ⟨k, u⟩ := c
    have hw := h
    rw [Memory.wf_cons] at h
    simp only [Memory.write]
    split
    · split
      · exact hw
      · rename_i hlt hv
        rw [Memory.wf_cons]
        exact ⟨hv, by simpa using hlt, hw⟩
    · split
      · rename_i hak
        split
        · exact h.2.2
        · rename_i hv
          rw [Memory.wf_cons, hak]
          exact ⟨hv, h.2.1, h.2.2⟩
      · rw [Memory.wf_cons]
        exact ⟨h.1, Memory.head_write m a v k (by omega) h.2.1 h.2.2, ih h.2.2⟩

/-- A word write keeps the canonical form. -/
theorem Memory.writeWord_wf (m : Memory) (a : Nat) (v : Word) (h : m.wf = true) : (m.writeWord a v).wf = true :=
  Memory.write_wf _ _ _ (Memory.write_wf _ _ _ h)

/-- A byte of memory after a word write. -/
theorem Memory.read_writeWord (m : Memory) (a b : Nat) (v : Word) (h : m.wf = true) :
    (m.writeWord a v).read b =
      if b = a then v.extractLsb' 8 8 else if b = a + 1 then v.extractLsb' 0 8 else m.read b := by
  unfold Memory.writeWord
  rw [Memory.read_write _ _ _ _ (Memory.write_wf _ _ _ h), Memory.read_write _ _ _ _ h]
  by_cases h1 : b = a
  · subst h1; simp
  · simp [h1]

/-- A word write leaves every byte but its two as it was. -/
theorem Memory.read_writeWord_other (m : Memory) (a b : Nat) (v : Word) (h1 : b ≠ a) (h2 : b ≠ a + 1) :
    (m.writeWord a v).read b = m.read b := by
  unfold Memory.writeWord
  rw [Memory.read_write_other _ _ _ _ h2, Memory.read_write_other _ _ _ _ h1]

/-- A word written is the word read. -/
theorem Memory.readWord_writeWord (m : Memory) (a : Nat) (v : Word) (h : m.wf = true) :
    (m.writeWord a v).readWord a = v := by
  unfold Memory.readWord
  rw [Memory.read_writeWord _ _ _ _ h, Memory.read_writeWord _ _ _ _ h]
  rw [if_pos rfl, if_neg (by omega), if_pos rfl]
  ext i hi
  rw [BitVec.getElem_append]
  split
  · simp [BitVec.getLsbD_eq_getElem hi]
  · have : 8 + (i - 8) = i := by omega
    simp [this, BitVec.getLsbD_eq_getElem hi]

/-- A word write leaves every word that does not overlap it. -/
theorem Memory.readWord_writeWord_other (m : Memory) (a b : Nat) (v : Word) (h : a + 2 ≤ b ∨ b + 2 ≤ a) :
    (m.writeWord a v).readWord b = m.readWord b := by
  unfold Memory.readWord
  rw [Memory.read_writeWord_other _ _ _ _ (by omega) (by omega),
    Memory.read_writeWord_other _ _ _ _ (by omega) (by omega)]

end Sys2Proof.Machine
end

