-- ==== Sys2Proof/Laws/State.lean ====
section
/-! SUPPORT. One lemma for each field of the state and each named update of it: what the update leaves, and what a
register reads as after a register is written. -/

namespace Sys2Proof.Machine

open Sys2Proof

/-! `setReg` -/

@[simp] theorem State.setReg_cfg (s : State) (n : Reg) (v : Word) : (s.setReg n v).cfg = s.cfg := by
  unfold State.setReg; split <;> [rfl; (split <;> rfl)]
@[simp] theorem State.setReg_pcSeg (s : State) (n : Reg) (v : Word) : (s.setReg n v).pcSeg = s.pcSeg := by
  unfold State.setReg; split <;> [rfl; (split <;> rfl)]
@[simp] theorem State.setReg_pcOff (s : State) (n : Reg) (v : Word) : (s.setReg n v).pcOff = s.pcOff := by
  unfold State.setReg; split <;> [rfl; (split <;> rfl)]
@[simp] theorem State.setReg_fcw (s : State) (n : Reg) (v : Word) : (s.setReg n v).fcw = s.fcw := by
  unfold State.setReg; split <;> [rfl; (split <;> rfl)]
@[simp] theorem State.setReg_psapSeg (s : State) (n : Reg) (v : Word) : (s.setReg n v).psapSeg = s.psapSeg := by
  unfold State.setReg; split <;> [rfl; (split <;> rfl)]
@[simp] theorem State.setReg_psapOff (s : State) (n : Reg) (v : Word) : (s.setReg n v).psapOff = s.psapOff := by
  unfold State.setReg; split <;> [rfl; (split <;> rfl)]
@[simp] theorem State.setReg_refresh (s : State) (n : Reg) (v : Word) : (s.setReg n v).refresh = s.refresh := by
  unfold State.setReg; split <;> [rfl; (split <;> rfl)]
@[simp] theorem State.setReg_rowStepped (s : State) (n : Reg) (v : Word) : (s.setReg n v).rowStepped = s.rowStepped := by
  unfold State.setReg; split <;> [rfl; (split <;> rfl)]
@[simp] theorem State.setReg_halted (s : State) (n : Reg) (v : Word) : (s.setReg n v).halted = s.halted := by
  unfold State.setReg; split <;> [rfl; (split <;> rfl)]
@[simp] theorem State.setReg_nmiLatch (s : State) (n : Reg) (v : Word) : (s.setReg n v).nmiLatch = s.nmiLatch := by
  unfold State.setReg; split <;> [rfl; (split <;> rfl)]
@[simp] theorem State.setReg_moLow (s : State) (n : Reg) (v : Word) : (s.setReg n v).moLow = s.moLow := by
  unfold State.setReg; split <;> [rfl; (split <;> rfl)]
@[simp] theorem State.setReg_haltSample (s : State) (n : Reg) (v : Word) : (s.setReg n v).haltSample = s.haltSample := by
  unfold State.setReg; split <;> [rfl; (split <;> rfl)]
@[simp] theorem State.setReg_held (s : State) (n : Reg) (v : Word) : (s.setReg n v).held = s.held := by
  unfold State.setReg; split <;> [rfl; (split <;> rfl)]
@[simp] theorem State.setReg_resetting (s : State) (n : Reg) (v : Word) : (s.setReg n v).resetting = s.resetting := by
  unfold State.setReg; split <;> [rfl; (split <;> rfl)]
@[simp] theorem State.setReg_mem (s : State) (n : Reg) (v : Word) : (s.setReg n v).mem = s.mem := by
  unfold State.setReg; split <;> [rfl; (split <;> rfl)]
@[simp] theorem State.setReg_mmus (s : State) (n : Reg) (v : Word) : (s.setReg n v).mmus = s.mmus := by
  unfold State.setReg; split <;> [rfl; (split <;> rfl)]
@[simp] theorem State.setReg_pins (s : State) (n : Reg) (v : Word) : (s.setReg n v).pins = s.pins := by
  unfold State.setReg; split <;> [rfl; (split <;> rfl)]
@[simp] theorem State.setReg_schedule (s : State) (n : Reg) (v : Word) : (s.setReg n v).schedule = s.schedule := by
  unfold State.setReg; split <;> [rfl; (split <;> rfl)]
@[simp] theorem State.setReg_resetIn (s : State) (n : Reg) (v : Word) : (s.setReg n v).resetIn = s.resetIn := by
  unfold State.setReg; split <;> [rfl; (split <;> rfl)]
@[simp] theorem State.setReg_ioIn (s : State) (n : Reg) (v : Word) : (s.setReg n v).ioIn = s.ioIn := by
  unfold State.setReg; split <;> [rfl; (split <;> rfl)]
@[simp] theorem State.setReg_epuIn (s : State) (n : Reg) (v : Word) : (s.setReg n v).epuIn = s.epuIn := by
  unfold State.setReg; split <;> [rfl; (split <;> rfl)]
@[simp] theorem State.setReg_events (s : State) (n : Reg) (v : Word) : (s.setReg n v).events = s.events := by
  unfold State.setReg; split <;> [rfl; (split <;> rfl)]
@[simp] theorem State.setReg_instrPc (s : State) (n : Reg) (v : Word) : (s.setReg n v).instrPc = s.instrPc := by
  unfold State.setReg; split <;> [rfl; (split <;> rfl)]
@[simp] theorem State.setReg_ir (s : State) (n : Reg) (v : Word) : (s.setReg n v).ir = s.ir := by
  unfold State.setReg; split <;> [rfl; (split <;> rfl)]
@[simp] theorem State.setReg_freeCount (s : State) (n : Reg) (v : Word) : (s.setReg n v).freeCount = s.freeCount := by
  unfold State.setReg; split <;> [rfl; (split <;> rfl)]
@[simp] theorem State.setReg_isSeg (s : State) (n : Reg) (v : Word) : (s.setReg n v).isSeg = s.isSeg := by simp [State.isSeg]

/-! `setRegB` -/

@[simp] theorem State.setRegB_cfg (s : State) (n : Reg) (v : Byte) : (s.setRegB n v).cfg = s.cfg := by
  unfold State.setRegB; split <;> simp
@[simp] theorem State.setRegB_pcSeg (s : State) (n : Reg) (v : Byte) : (s.setRegB n v).pcSeg = s.pcSeg := by
  unfold State.setRegB; split <;> simp
@[simp] theorem State.setRegB_pcOff (s : State) (n : Reg) (v : Byte) : (s.setRegB n v).pcOff = s.pcOff := by
  unfold State.setRegB; split <;> simp
@[simp] theorem State.setRegB_fcw (s : State) (n : Reg) (v : Byte) : (s.setRegB n v).fcw = s.fcw := by
  unfold State.setRegB; split <;> simp
@[simp] theorem State.setRegB_psapSeg (s : State) (n : Reg) (v : Byte) : (s.setRegB n v).psapSeg = s.psapSeg := by
  unfold State.setRegB; split <;> simp
@[simp] theorem State.setRegB_psapOff (s : State) (n : Reg) (v : Byte) : (s.setRegB n v).psapOff = s.psapOff := by
  unfold State.setRegB; split <;> simp
@[simp] theorem State.setRegB_refresh (s : State) (n : Reg) (v : Byte) : (s.setRegB n v).refresh = s.refresh := by
  unfold State.setRegB; split <;> simp
@[simp] theorem State.setRegB_rowStepped (s : State) (n : Reg) (v : Byte) : (s.setRegB n v).rowStepped = s.rowStepped := by
  unfold State.setRegB; split <;> simp
@[simp] theorem State.setRegB_halted (s : State) (n : Reg) (v : Byte) : (s.setRegB n v).halted = s.halted := by
  unfold State.setRegB; split <;> simp
@[simp] theorem State.setRegB_nmiLatch (s : State) (n : Reg) (v : Byte) : (s.setRegB n v).nmiLatch = s.nmiLatch := by
  unfold State.setRegB; split <;> simp
@[simp] theorem State.setRegB_moLow (s : State) (n : Reg) (v : Byte) : (s.setRegB n v).moLow = s.moLow := by
  unfold State.setRegB; split <;> simp
@[simp] theorem State.setRegB_haltSample (s : State) (n : Reg) (v : Byte) : (s.setRegB n v).haltSample = s.haltSample := by
  unfold State.setRegB; split <;> simp
@[simp] theorem State.setRegB_held (s : State) (n : Reg) (v : Byte) : (s.setRegB n v).held = s.held := by
  unfold State.setRegB; split <;> simp
@[simp] theorem State.setRegB_resetting (s : State) (n : Reg) (v : Byte) : (s.setRegB n v).resetting = s.resetting := by
  unfold State.setRegB; split <;> simp
@[simp] theorem State.setRegB_mem (s : State) (n : Reg) (v : Byte) : (s.setRegB n v).mem = s.mem := by
  unfold State.setRegB; split <;> simp
@[simp] theorem State.setRegB_mmus (s : State) (n : Reg) (v : Byte) : (s.setRegB n v).mmus = s.mmus := by
  unfold State.setRegB; split <;> simp
@[simp] theorem State.setRegB_pins (s : State) (n : Reg) (v : Byte) : (s.setRegB n v).pins = s.pins := by
  unfold State.setRegB; split <;> simp
@[simp] theorem State.setRegB_schedule (s : State) (n : Reg) (v : Byte) : (s.setRegB n v).schedule = s.schedule := by
  unfold State.setRegB; split <;> simp
@[simp] theorem State.setRegB_resetIn (s : State) (n : Reg) (v : Byte) : (s.setRegB n v).resetIn = s.resetIn := by
  unfold State.setRegB; split <;> simp
@[simp] theorem State.setRegB_ioIn (s : State) (n : Reg) (v : Byte) : (s.setRegB n v).ioIn = s.ioIn := by
  unfold State.setRegB; split <;> simp
@[simp] theorem State.setRegB_epuIn (s : State) (n : Reg) (v : Byte) : (s.setRegB n v).epuIn = s.epuIn := by
  unfold State.setRegB; split <;> simp
@[simp] theorem State.setRegB_events (s : State) (n : Reg) (v : Byte) : (s.setRegB n v).events = s.events := by
  unfold State.setRegB; split <;> simp
@[simp] theorem State.setRegB_instrPc (s : State) (n : Reg) (v : Byte) : (s.setRegB n v).instrPc = s.instrPc := by
  unfold State.setRegB; split <;> simp
@[simp] theorem State.setRegB_ir (s : State) (n : Reg) (v : Byte) : (s.setRegB n v).ir = s.ir := by
  unfold State.setRegB; split <;> simp
@[simp] theorem State.setRegB_freeCount (s : State) (n : Reg) (v : Byte) : (s.setRegB n v).freeCount = s.freeCount := by
  unfold State.setRegB; split <;> simp
@[simp] theorem State.setRegB_isSeg (s : State) (n : Reg) (v : Byte) : (s.setRegB n v).isSeg = s.isSeg := by simp [State.isSeg]

/-! `setRegL` -/

@[simp] theorem State.setRegL_cfg (s : State) (n : Reg) (v : Long) : (s.setRegL n v).cfg = s.cfg := by
  simp [State.setRegL]
@[simp] theorem State.setRegL_pcSeg (s : State) (n : Reg) (v : Long) : (s.setRegL n v).pcSeg = s.pcSeg := by
  simp [State.setRegL]
@[simp] theorem State.setRegL_pcOff (s : State) (n : Reg) (v : Long) : (s.setRegL n v).pcOff = s.pcOff := by
  simp [State.setRegL]
@[simp] theorem State.setRegL_fcw (s : State) (n : Reg) (v : Long) : (s.setRegL n v).fcw = s.fcw := by
  simp [State.setRegL]
@[simp] theorem State.setRegL_psapSeg (s : State) (n : Reg) (v : Long) : (s.setRegL n v).psapSeg = s.psapSeg := by
  simp [State.setRegL]
@[simp] theorem State.setRegL_psapOff (s : State) (n : Reg) (v : Long) : (s.setRegL n v).psapOff = s.psapOff := by
  simp [State.setRegL]
@[simp] theorem State.setRegL_refresh (s : State) (n : Reg) (v : Long) : (s.setRegL n v).refresh = s.refresh := by
  simp [State.setRegL]
@[simp] theorem State.setRegL_rowStepped (s : State) (n : Reg) (v : Long) : (s.setRegL n v).rowStepped = s.rowStepped := by
  simp [State.setRegL]
@[simp] theorem State.setRegL_halted (s : State) (n : Reg) (v : Long) : (s.setRegL n v).halted = s.halted := by
  simp [State.setRegL]
@[simp] theorem State.setRegL_nmiLatch (s : State) (n : Reg) (v : Long) : (s.setRegL n v).nmiLatch = s.nmiLatch := by
  simp [State.setRegL]
@[simp] theorem State.setRegL_moLow (s : State) (n : Reg) (v : Long) : (s.setRegL n v).moLow = s.moLow := by
  simp [State.setRegL]
@[simp] theorem State.setRegL_haltSample (s : State) (n : Reg) (v : Long) : (s.setRegL n v).haltSample = s.haltSample := by
  simp [State.setRegL]
@[simp] theorem State.setRegL_held (s : State) (n : Reg) (v : Long) : (s.setRegL n v).held = s.held := by
  simp [State.setRegL]
@[simp] theorem State.setRegL_resetting (s : State) (n : Reg) (v : Long) : (s.setRegL n v).resetting = s.resetting := by
  simp [State.setRegL]
@[simp] theorem State.setRegL_mem (s : State) (n : Reg) (v : Long) : (s.setRegL n v).mem = s.mem := by
  simp [State.setRegL]
@[simp] theorem State.setRegL_mmus (s : State) (n : Reg) (v : Long) : (s.setRegL n v).mmus = s.mmus := by
  simp [State.setRegL]
@[simp] theorem State.setRegL_pins (s : State) (n : Reg) (v : Long) : (s.setRegL n v).pins = s.pins := by
  simp [State.setRegL]
@[simp] theorem State.setRegL_schedule (s : State) (n : Reg) (v : Long) : (s.setRegL n v).schedule = s.schedule := by
  simp [State.setRegL]
@[simp] theorem State.setRegL_resetIn (s : State) (n : Reg) (v : Long) : (s.setRegL n v).resetIn = s.resetIn := by
  simp [State.setRegL]
@[simp] theorem State.setRegL_ioIn (s : State) (n : Reg) (v : Long) : (s.setRegL n v).ioIn = s.ioIn := by
  simp [State.setRegL]
@[simp] theorem State.setRegL_epuIn (s : State) (n : Reg) (v : Long) : (s.setRegL n v).epuIn = s.epuIn := by
  simp [State.setRegL]
@[simp] theorem State.setRegL_events (s : State) (n : Reg) (v : Long) : (s.setRegL n v).events = s.events := by
  simp [State.setRegL]
@[simp] theorem State.setRegL_instrPc (s : State) (n : Reg) (v : Long) : (s.setRegL n v).instrPc = s.instrPc := by
  simp [State.setRegL]
@[simp] theorem State.setRegL_ir (s : State) (n : Reg) (v : Long) : (s.setRegL n v).ir = s.ir := by
  simp [State.setRegL]
@[simp] theorem State.setRegL_freeCount (s : State) (n : Reg) (v : Long) : (s.setRegL n v).freeCount = s.freeCount := by
  simp [State.setRegL]
@[simp] theorem State.setRegL_isSeg (s : State) (n : Reg) (v : Long) : (s.setRegL n v).isSeg = s.isSeg := by simp [State.isSeg]

/-! `setRegQ` -/

@[simp] theorem State.setRegQ_cfg (s : State) (n : Reg) (v : Quad) : (s.setRegQ n v).cfg = s.cfg := by
  simp [State.setRegQ]
@[simp] theorem State.setRegQ_pcSeg (s : State) (n : Reg) (v : Quad) : (s.setRegQ n v).pcSeg = s.pcSeg := by
  simp [State.setRegQ]
@[simp] theorem State.setRegQ_pcOff (s : State) (n : Reg) (v : Quad) : (s.setRegQ n v).pcOff = s.pcOff := by
  simp [State.setRegQ]
@[simp] theorem State.setRegQ_fcw (s : State) (n : Reg) (v : Quad) : (s.setRegQ n v).fcw = s.fcw := by
  simp [State.setRegQ]
@[simp] theorem State.setRegQ_psapSeg (s : State) (n : Reg) (v : Quad) : (s.setRegQ n v).psapSeg = s.psapSeg := by
  simp [State.setRegQ]
@[simp] theorem State.setRegQ_psapOff (s : State) (n : Reg) (v : Quad) : (s.setRegQ n v).psapOff = s.psapOff := by
  simp [State.setRegQ]
@[simp] theorem State.setRegQ_refresh (s : State) (n : Reg) (v : Quad) : (s.setRegQ n v).refresh = s.refresh := by
  simp [State.setRegQ]
@[simp] theorem State.setRegQ_rowStepped (s : State) (n : Reg) (v : Quad) : (s.setRegQ n v).rowStepped = s.rowStepped := by
  simp [State.setRegQ]
@[simp] theorem State.setRegQ_halted (s : State) (n : Reg) (v : Quad) : (s.setRegQ n v).halted = s.halted := by
  simp [State.setRegQ]
@[simp] theorem State.setRegQ_nmiLatch (s : State) (n : Reg) (v : Quad) : (s.setRegQ n v).nmiLatch = s.nmiLatch := by
  simp [State.setRegQ]
@[simp] theorem State.setRegQ_moLow (s : State) (n : Reg) (v : Quad) : (s.setRegQ n v).moLow = s.moLow := by
  simp [State.setRegQ]
@[simp] theorem State.setRegQ_haltSample (s : State) (n : Reg) (v : Quad) : (s.setRegQ n v).haltSample = s.haltSample := by
  simp [State.setRegQ]
@[simp] theorem State.setRegQ_held (s : State) (n : Reg) (v : Quad) : (s.setRegQ n v).held = s.held := by
  simp [State.setRegQ]
@[simp] theorem State.setRegQ_resetting (s : State) (n : Reg) (v : Quad) : (s.setRegQ n v).resetting = s.resetting := by
  simp [State.setRegQ]
@[simp] theorem State.setRegQ_mem (s : State) (n : Reg) (v : Quad) : (s.setRegQ n v).mem = s.mem := by
  simp [State.setRegQ]
@[simp] theorem State.setRegQ_mmus (s : State) (n : Reg) (v : Quad) : (s.setRegQ n v).mmus = s.mmus := by
  simp [State.setRegQ]
@[simp] theorem State.setRegQ_pins (s : State) (n : Reg) (v : Quad) : (s.setRegQ n v).pins = s.pins := by
  simp [State.setRegQ]
@[simp] theorem State.setRegQ_schedule (s : State) (n : Reg) (v : Quad) : (s.setRegQ n v).schedule = s.schedule := by
  simp [State.setRegQ]
@[simp] theorem State.setRegQ_resetIn (s : State) (n : Reg) (v : Quad) : (s.setRegQ n v).resetIn = s.resetIn := by
  simp [State.setRegQ]
@[simp] theorem State.setRegQ_ioIn (s : State) (n : Reg) (v : Quad) : (s.setRegQ n v).ioIn = s.ioIn := by
  simp [State.setRegQ]
@[simp] theorem State.setRegQ_epuIn (s : State) (n : Reg) (v : Quad) : (s.setRegQ n v).epuIn = s.epuIn := by
  simp [State.setRegQ]
@[simp] theorem State.setRegQ_events (s : State) (n : Reg) (v : Quad) : (s.setRegQ n v).events = s.events := by
  simp [State.setRegQ]
@[simp] theorem State.setRegQ_instrPc (s : State) (n : Reg) (v : Quad) : (s.setRegQ n v).instrPc = s.instrPc := by
  simp [State.setRegQ]
@[simp] theorem State.setRegQ_ir (s : State) (n : Reg) (v : Quad) : (s.setRegQ n v).ir = s.ir := by
  simp [State.setRegQ]
@[simp] theorem State.setRegQ_freeCount (s : State) (n : Reg) (v : Quad) : (s.setRegQ n v).freeCount = s.freeCount := by
  simp [State.setRegQ]
@[simp] theorem State.setRegQ_isSeg (s : State) (n : Reg) (v : Quad) : (s.setRegQ n v).isSeg = s.isSeg := by simp [State.isSeg]

/-! `setRegAt` -/

@[simp] theorem State.setRegAt_cfg (s : State) (wd : Width) (n : Reg) (v : BitVec wd.bits) : (s.setRegAt wd n v).cfg = s.cfg := by
  cases wd <;> simp [State.setRegAt]
@[simp] theorem State.setRegAt_pcSeg (s : State) (wd : Width) (n : Reg) (v : BitVec wd.bits) : (s.setRegAt wd n v).pcSeg = s.pcSeg := by
  cases wd <;> simp [State.setRegAt]
@[simp] theorem State.setRegAt_pcOff (s : State) (wd : Width) (n : Reg) (v : BitVec wd.bits) : (s.setRegAt wd n v).pcOff = s.pcOff := by
  cases wd <;> simp [State.setRegAt]
@[simp] theorem State.setRegAt_fcw (s : State) (wd : Width) (n : Reg) (v : BitVec wd.bits) : (s.setRegAt wd n v).fcw = s.fcw := by
  cases wd <;> simp [State.setRegAt]
@[simp] theorem State.setRegAt_psapSeg (s : State) (wd : Width) (n : Reg) (v : BitVec wd.bits) : (s.setRegAt wd n v).psapSeg = s.psapSeg := by
  cases wd <;> simp [State.setRegAt]
@[simp] theorem State.setRegAt_psapOff (s : State) (wd : Width) (n : Reg) (v : BitVec wd.bits) : (s.setRegAt wd n v).psapOff = s.psapOff := by
  cases wd <;> simp [State.setRegAt]
@[simp] theorem State.setRegAt_refresh (s : State) (wd : Width) (n : Reg) (v : BitVec wd.bits) : (s.setRegAt wd n v).refresh = s.refresh := by
  cases wd <;> simp [State.setRegAt]
@[simp] theorem State.setRegAt_rowStepped (s : State) (wd : Width) (n : Reg) (v : BitVec wd.bits) : (s.setRegAt wd n v).rowStepped = s.rowStepped := by
  cases wd <;> simp [State.setRegAt]
@[simp] theorem State.setRegAt_halted (s : State) (wd : Width) (n : Reg) (v : BitVec wd.bits) : (s.setRegAt wd n v).halted = s.halted := by
  cases wd <;> simp [State.setRegAt]
@[simp] theorem State.setRegAt_nmiLatch (s : State) (wd : Width) (n : Reg) (v : BitVec wd.bits) : (s.setRegAt wd n v).nmiLatch = s.nmiLatch := by
  cases wd <;> simp [State.setRegAt]
@[simp] theorem State.setRegAt_moLow (s : State) (wd : Width) (n : Reg) (v : BitVec wd.bits) : (s.setRegAt wd n v).moLow = s.moLow := by
  cases wd <;> simp [State.setRegAt]
@[simp] theorem State.setRegAt_haltSample (s : State) (wd : Width) (n : Reg) (v : BitVec wd.bits) : (s.setRegAt wd n v).haltSample = s.haltSample := by
  cases wd <;> simp [State.setRegAt]
@[simp] theorem State.setRegAt_held (s : State) (wd : Width) (n : Reg) (v : BitVec wd.bits) : (s.setRegAt wd n v).held = s.held := by
  cases wd <;> simp [State.setRegAt]
@[simp] theorem State.setRegAt_resetting (s : State) (wd : Width) (n : Reg) (v : BitVec wd.bits) : (s.setRegAt wd n v).resetting = s.resetting := by
  cases wd <;> simp [State.setRegAt]
@[simp] theorem State.setRegAt_mem (s : State) (wd : Width) (n : Reg) (v : BitVec wd.bits) : (s.setRegAt wd n v).mem = s.mem := by
  cases wd <;> simp [State.setRegAt]
@[simp] theorem State.setRegAt_mmus (s : State) (wd : Width) (n : Reg) (v : BitVec wd.bits) : (s.setRegAt wd n v).mmus = s.mmus := by
  cases wd <;> simp [State.setRegAt]
@[simp] theorem State.setRegAt_pins (s : State) (wd : Width) (n : Reg) (v : BitVec wd.bits) : (s.setRegAt wd n v).pins = s.pins := by
  cases wd <;> simp [State.setRegAt]
@[simp] theorem State.setRegAt_schedule (s : State) (wd : Width) (n : Reg) (v : BitVec wd.bits) : (s.setRegAt wd n v).schedule = s.schedule := by
  cases wd <;> simp [State.setRegAt]
@[simp] theorem State.setRegAt_resetIn (s : State) (wd : Width) (n : Reg) (v : BitVec wd.bits) : (s.setRegAt wd n v).resetIn = s.resetIn := by
  cases wd <;> simp [State.setRegAt]
@[simp] theorem State.setRegAt_ioIn (s : State) (wd : Width) (n : Reg) (v : BitVec wd.bits) : (s.setRegAt wd n v).ioIn = s.ioIn := by
  cases wd <;> simp [State.setRegAt]
@[simp] theorem State.setRegAt_epuIn (s : State) (wd : Width) (n : Reg) (v : BitVec wd.bits) : (s.setRegAt wd n v).epuIn = s.epuIn := by
  cases wd <;> simp [State.setRegAt]
@[simp] theorem State.setRegAt_events (s : State) (wd : Width) (n : Reg) (v : BitVec wd.bits) : (s.setRegAt wd n v).events = s.events := by
  cases wd <;> simp [State.setRegAt]
@[simp] theorem State.setRegAt_instrPc (s : State) (wd : Width) (n : Reg) (v : BitVec wd.bits) : (s.setRegAt wd n v).instrPc = s.instrPc := by
  cases wd <;> simp [State.setRegAt]
@[simp] theorem State.setRegAt_ir (s : State) (wd : Width) (n : Reg) (v : BitVec wd.bits) : (s.setRegAt wd n v).ir = s.ir := by
  cases wd <;> simp [State.setRegAt]
@[simp] theorem State.setRegAt_freeCount (s : State) (wd : Width) (n : Reg) (v : BitVec wd.bits) : (s.setRegAt wd n v).freeCount = s.freeCount := by
  cases wd <;> simp [State.setRegAt]
@[simp] theorem State.setRegAt_isSeg (s : State) (wd : Width) (n : Reg) (v : BitVec wd.bits) : (s.setRegAt wd n v).isSeg = s.isSeg := by simp [State.isSeg]

/-! `stepPtr` -/

@[simp] theorem State.stepPtr_cfg (s : State) (n : Reg) (k : Word) : (s.stepPtr n k).cfg = s.cfg := by
  simp [State.stepPtr]
@[simp] theorem State.stepPtr_pcSeg (s : State) (n : Reg) (k : Word) : (s.stepPtr n k).pcSeg = s.pcSeg := by
  simp [State.stepPtr]
@[simp] theorem State.stepPtr_pcOff (s : State) (n : Reg) (k : Word) : (s.stepPtr n k).pcOff = s.pcOff := by
  simp [State.stepPtr]
@[simp] theorem State.stepPtr_fcw (s : State) (n : Reg) (k : Word) : (s.stepPtr n k).fcw = s.fcw := by
  simp [State.stepPtr]
@[simp] theorem State.stepPtr_psapSeg (s : State) (n : Reg) (k : Word) : (s.stepPtr n k).psapSeg = s.psapSeg := by
  simp [State.stepPtr]
@[simp] theorem State.stepPtr_psapOff (s : State) (n : Reg) (k : Word) : (s.stepPtr n k).psapOff = s.psapOff := by
  simp [State.stepPtr]
@[simp] theorem State.stepPtr_refresh (s : State) (n : Reg) (k : Word) : (s.stepPtr n k).refresh = s.refresh := by
  simp [State.stepPtr]
@[simp] theorem State.stepPtr_rowStepped (s : State) (n : Reg) (k : Word) : (s.stepPtr n k).rowStepped = s.rowStepped := by
  simp [State.stepPtr]
@[simp] theorem State.stepPtr_halted (s : State) (n : Reg) (k : Word) : (s.stepPtr n k).halted = s.halted := by
  simp [State.stepPtr]
@[simp] theorem State.stepPtr_nmiLatch (s : State) (n : Reg) (k : Word) : (s.stepPtr n k).nmiLatch = s.nmiLatch := by
  simp [State.stepPtr]
@[simp] theorem State.stepPtr_moLow (s : State) (n : Reg) (k : Word) : (s.stepPtr n k).moLow = s.moLow := by
  simp [State.stepPtr]
@[simp] theorem State.stepPtr_haltSample (s : State) (n : Reg) (k : Word) : (s.stepPtr n k).haltSample = s.haltSample := by
  simp [State.stepPtr]
@[simp] theorem State.stepPtr_held (s : State) (n : Reg) (k : Word) : (s.stepPtr n k).held = s.held := by
  simp [State.stepPtr]
@[simp] theorem State.stepPtr_resetting (s : State) (n : Reg) (k : Word) : (s.stepPtr n k).resetting = s.resetting := by
  simp [State.stepPtr]
@[simp] theorem State.stepPtr_mem (s : State) (n : Reg) (k : Word) : (s.stepPtr n k).mem = s.mem := by
  simp [State.stepPtr]
@[simp] theorem State.stepPtr_mmus (s : State) (n : Reg) (k : Word) : (s.stepPtr n k).mmus = s.mmus := by
  simp [State.stepPtr]
@[simp] theorem State.stepPtr_pins (s : State) (n : Reg) (k : Word) : (s.stepPtr n k).pins = s.pins := by
  simp [State.stepPtr]
@[simp] theorem State.stepPtr_schedule (s : State) (n : Reg) (k : Word) : (s.stepPtr n k).schedule = s.schedule := by
  simp [State.stepPtr]
@[simp] theorem State.stepPtr_resetIn (s : State) (n : Reg) (k : Word) : (s.stepPtr n k).resetIn = s.resetIn := by
  simp [State.stepPtr]
@[simp] theorem State.stepPtr_ioIn (s : State) (n : Reg) (k : Word) : (s.stepPtr n k).ioIn = s.ioIn := by
  simp [State.stepPtr]
@[simp] theorem State.stepPtr_epuIn (s : State) (n : Reg) (k : Word) : (s.stepPtr n k).epuIn = s.epuIn := by
  simp [State.stepPtr]
@[simp] theorem State.stepPtr_events (s : State) (n : Reg) (k : Word) : (s.stepPtr n k).events = s.events := by
  simp [State.stepPtr]
@[simp] theorem State.stepPtr_instrPc (s : State) (n : Reg) (k : Word) : (s.stepPtr n k).instrPc = s.instrPc := by
  simp [State.stepPtr]
@[simp] theorem State.stepPtr_ir (s : State) (n : Reg) (k : Word) : (s.stepPtr n k).ir = s.ir := by
  simp [State.stepPtr]
@[simp] theorem State.stepPtr_freeCount (s : State) (n : Reg) (k : Word) : (s.stepPtr n k).freeCount = s.freeCount := by
  simp [State.stepPtr]
@[simp] theorem State.stepPtr_isSeg (s : State) (n : Reg) (k : Word) : (s.stepPtr n k).isSeg = s.isSeg := by simp [State.isSeg]

/-! `storeByte` -/

@[simp] theorem State.storeByte_cfg (s : State) (l : Label) (a : Addr) (v : Byte) : (s.storeByte l a v).cfg = s.cfg := rfl
@[simp] theorem State.storeByte_regs (s : State) (l : Label) (a : Addr) (v : Byte) : (s.storeByte l a v).regs = s.regs := rfl
@[simp] theorem State.storeByte_sysR14 (s : State) (l : Label) (a : Addr) (v : Byte) : (s.storeByte l a v).sysR14 = s.sysR14 := rfl
@[simp] theorem State.storeByte_sysR15 (s : State) (l : Label) (a : Addr) (v : Byte) : (s.storeByte l a v).sysR15 = s.sysR15 := rfl
@[simp] theorem State.storeByte_pcSeg (s : State) (l : Label) (a : Addr) (v : Byte) : (s.storeByte l a v).pcSeg = s.pcSeg := rfl
@[simp] theorem State.storeByte_pcOff (s : State) (l : Label) (a : Addr) (v : Byte) : (s.storeByte l a v).pcOff = s.pcOff := rfl
@[simp] theorem State.storeByte_fcw (s : State) (l : Label) (a : Addr) (v : Byte) : (s.storeByte l a v).fcw = s.fcw := rfl
@[simp] theorem State.storeByte_psapSeg (s : State) (l : Label) (a : Addr) (v : Byte) : (s.storeByte l a v).psapSeg = s.psapSeg := rfl
@[simp] theorem State.storeByte_psapOff (s : State) (l : Label) (a : Addr) (v : Byte) : (s.storeByte l a v).psapOff = s.psapOff := rfl
@[simp] theorem State.storeByte_refresh (s : State) (l : Label) (a : Addr) (v : Byte) : (s.storeByte l a v).refresh = s.refresh := rfl
@[simp] theorem State.storeByte_rowStepped (s : State) (l : Label) (a : Addr) (v : Byte) : (s.storeByte l a v).rowStepped = s.rowStepped := rfl
@[simp] theorem State.storeByte_halted (s : State) (l : Label) (a : Addr) (v : Byte) : (s.storeByte l a v).halted = s.halted := rfl
@[simp] theorem State.storeByte_nmiLatch (s : State) (l : Label) (a : Addr) (v : Byte) : (s.storeByte l a v).nmiLatch = s.nmiLatch := rfl
@[simp] theorem State.storeByte_moLow (s : State) (l : Label) (a : Addr) (v : Byte) : (s.storeByte l a v).moLow = s.moLow := rfl
@[simp] theorem State.storeByte_haltSample (s : State) (l : Label) (a : Addr) (v : Byte) : (s.storeByte l a v).haltSample = s.haltSample := rfl
@[simp] theorem State.storeByte_held (s : State) (l : Label) (a : Addr) (v : Byte) : (s.storeByte l a v).held = s.held := rfl
@[simp] theorem State.storeByte_resetting (s : State) (l : Label) (a : Addr) (v : Byte) : (s.storeByte l a v).resetting = s.resetting := rfl
@[simp] theorem State.storeByte_mmus (s : State) (l : Label) (a : Addr) (v : Byte) : (s.storeByte l a v).mmus = s.mmus := rfl
@[simp] theorem State.storeByte_pins (s : State) (l : Label) (a : Addr) (v : Byte) : (s.storeByte l a v).pins = s.pins := rfl
@[simp] theorem State.storeByte_schedule (s : State) (l : Label) (a : Addr) (v : Byte) : (s.storeByte l a v).schedule = s.schedule := rfl
@[simp] theorem State.storeByte_resetIn (s : State) (l : Label) (a : Addr) (v : Byte) : (s.storeByte l a v).resetIn = s.resetIn := rfl
@[simp] theorem State.storeByte_ioIn (s : State) (l : Label) (a : Addr) (v : Byte) : (s.storeByte l a v).ioIn = s.ioIn := rfl
@[simp] theorem State.storeByte_epuIn (s : State) (l : Label) (a : Addr) (v : Byte) : (s.storeByte l a v).epuIn = s.epuIn := rfl
@[simp] theorem State.storeByte_events (s : State) (l : Label) (a : Addr) (v : Byte) : (s.storeByte l a v).events = s.events := rfl
@[simp] theorem State.storeByte_instrPc (s : State) (l : Label) (a : Addr) (v : Byte) : (s.storeByte l a v).instrPc = s.instrPc := rfl
@[simp] theorem State.storeByte_ir (s : State) (l : Label) (a : Addr) (v : Byte) : (s.storeByte l a v).ir = s.ir := rfl
@[simp] theorem State.storeByte_freeCount (s : State) (l : Label) (a : Addr) (v : Byte) : (s.storeByte l a v).freeCount = s.freeCount := rfl
@[simp] theorem State.storeByte_isSeg (s : State) (l : Label) (a : Addr) (v : Byte) : (s.storeByte l a v).isSeg = s.isSeg := by simp [State.isSeg]

/-! `storeWord` -/

@[simp] theorem State.storeWord_cfg (s : State) (l : Label) (a : Addr) (v : Word) : (s.storeWord l a v).cfg = s.cfg := rfl
@[simp] theorem State.storeWord_regs (s : State) (l : Label) (a : Addr) (v : Word) : (s.storeWord l a v).regs = s.regs := rfl
@[simp] theorem State.storeWord_sysR14 (s : State) (l : Label) (a : Addr) (v : Word) : (s.storeWord l a v).sysR14 = s.sysR14 := rfl
@[simp] theorem State.storeWord_sysR15 (s : State) (l : Label) (a : Addr) (v : Word) : (s.storeWord l a v).sysR15 = s.sysR15 := rfl
@[simp] theorem State.storeWord_pcSeg (s : State) (l : Label) (a : Addr) (v : Word) : (s.storeWord l a v).pcSeg = s.pcSeg := rfl
@[simp] theorem State.storeWord_pcOff (s : State) (l : Label) (a : Addr) (v : Word) : (s.storeWord l a v).pcOff = s.pcOff := rfl
@[simp] theorem State.storeWord_fcw (s : State) (l : Label) (a : Addr) (v : Word) : (s.storeWord l a v).fcw = s.fcw := rfl
@[simp] theorem State.storeWord_psapSeg (s : State) (l : Label) (a : Addr) (v : Word) : (s.storeWord l a v).psapSeg = s.psapSeg := rfl
@[simp] theorem State.storeWord_psapOff (s : State) (l : Label) (a : Addr) (v : Word) : (s.storeWord l a v).psapOff = s.psapOff := rfl
@[simp] theorem State.storeWord_refresh (s : State) (l : Label) (a : Addr) (v : Word) : (s.storeWord l a v).refresh = s.refresh := rfl
@[simp] theorem State.storeWord_rowStepped (s : State) (l : Label) (a : Addr) (v : Word) : (s.storeWord l a v).rowStepped = s.rowStepped := rfl
@[simp] theorem State.storeWord_halted (s : State) (l : Label) (a : Addr) (v : Word) : (s.storeWord l a v).halted = s.halted := rfl
@[simp] theorem State.storeWord_nmiLatch (s : State) (l : Label) (a : Addr) (v : Word) : (s.storeWord l a v).nmiLatch = s.nmiLatch := rfl
@[simp] theorem State.storeWord_moLow (s : State) (l : Label) (a : Addr) (v : Word) : (s.storeWord l a v).moLow = s.moLow := rfl
@[simp] theorem State.storeWord_haltSample (s : State) (l : Label) (a : Addr) (v : Word) : (s.storeWord l a v).haltSample = s.haltSample := rfl
@[simp] theorem State.storeWord_held (s : State) (l : Label) (a : Addr) (v : Word) : (s.storeWord l a v).held = s.held := rfl
@[simp] theorem State.storeWord_resetting (s : State) (l : Label) (a : Addr) (v : Word) : (s.storeWord l a v).resetting = s.resetting := rfl
@[simp] theorem State.storeWord_mmus (s : State) (l : Label) (a : Addr) (v : Word) : (s.storeWord l a v).mmus = s.mmus := rfl
@[simp] theorem State.storeWord_pins (s : State) (l : Label) (a : Addr) (v : Word) : (s.storeWord l a v).pins = s.pins := rfl
@[simp] theorem State.storeWord_schedule (s : State) (l : Label) (a : Addr) (v : Word) : (s.storeWord l a v).schedule = s.schedule := rfl
@[simp] theorem State.storeWord_resetIn (s : State) (l : Label) (a : Addr) (v : Word) : (s.storeWord l a v).resetIn = s.resetIn := rfl
@[simp] theorem State.storeWord_ioIn (s : State) (l : Label) (a : Addr) (v : Word) : (s.storeWord l a v).ioIn = s.ioIn := rfl
@[simp] theorem State.storeWord_epuIn (s : State) (l : Label) (a : Addr) (v : Word) : (s.storeWord l a v).epuIn = s.epuIn := rfl
@[simp] theorem State.storeWord_events (s : State) (l : Label) (a : Addr) (v : Word) : (s.storeWord l a v).events = s.events := rfl
@[simp] theorem State.storeWord_instrPc (s : State) (l : Label) (a : Addr) (v : Word) : (s.storeWord l a v).instrPc = s.instrPc := rfl
@[simp] theorem State.storeWord_ir (s : State) (l : Label) (a : Addr) (v : Word) : (s.storeWord l a v).ir = s.ir := rfl
@[simp] theorem State.storeWord_freeCount (s : State) (l : Label) (a : Addr) (v : Word) : (s.storeWord l a v).freeCount = s.freeCount := rfl
@[simp] theorem State.storeWord_isSeg (s : State) (l : Label) (a : Addr) (v : Word) : (s.storeWord l a v).isSeg = s.isSeg := by simp [State.isSeg]

/-! `stored` -/

@[simp] theorem State.stored_cfg (s : State) (l : Label) (a : Addr) (wd : Width) (v : BitVec wd.bits) : (s.stored l a wd v).cfg = s.cfg := by
  cases wd <;> rfl
@[simp] theorem State.stored_regs (s : State) (l : Label) (a : Addr) (wd : Width) (v : BitVec wd.bits) : (s.stored l a wd v).regs = s.regs := by
  cases wd <;> rfl
@[simp] theorem State.stored_sysR14 (s : State) (l : Label) (a : Addr) (wd : Width) (v : BitVec wd.bits) : (s.stored l a wd v).sysR14 = s.sysR14 := by
  cases wd <;> rfl
@[simp] theorem State.stored_sysR15 (s : State) (l : Label) (a : Addr) (wd : Width) (v : BitVec wd.bits) : (s.stored l a wd v).sysR15 = s.sysR15 := by
  cases wd <;> rfl
@[simp] theorem State.stored_pcSeg (s : State) (l : Label) (a : Addr) (wd : Width) (v : BitVec wd.bits) : (s.stored l a wd v).pcSeg = s.pcSeg := by
  cases wd <;> rfl
@[simp] theorem State.stored_pcOff (s : State) (l : Label) (a : Addr) (wd : Width) (v : BitVec wd.bits) : (s.stored l a wd v).pcOff = s.pcOff := by
  cases wd <;> rfl
@[simp] theorem State.stored_fcw (s : State) (l : Label) (a : Addr) (wd : Width) (v : BitVec wd.bits) : (s.stored l a wd v).fcw = s.fcw := by
  cases wd <;> rfl
@[simp] theorem State.stored_psapSeg (s : State) (l : Label) (a : Addr) (wd : Width) (v : BitVec wd.bits) : (s.stored l a wd v).psapSeg = s.psapSeg := by
  cases wd <;> rfl
@[simp] theorem State.stored_psapOff (s : State) (l : Label) (a : Addr) (wd : Width) (v : BitVec wd.bits) : (s.stored l a wd v).psapOff = s.psapOff := by
  cases wd <;> rfl
@[simp] theorem State.stored_refresh (s : State) (l : Label) (a : Addr) (wd : Width) (v : BitVec wd.bits) : (s.stored l a wd v).refresh = s.refresh := by
  cases wd <;> rfl
@[simp] theorem State.stored_rowStepped (s : State) (l : Label) (a : Addr) (wd : Width) (v : BitVec wd.bits) : (s.stored l a wd v).rowStepped = s.rowStepped := by
  cases wd <;> rfl
@[simp] theorem State.stored_halted (s : State) (l : Label) (a : Addr) (wd : Width) (v : BitVec wd.bits) : (s.stored l a wd v).halted = s.halted := by
  cases wd <;> rfl
@[simp] theorem State.stored_nmiLatch (s : State) (l : Label) (a : Addr) (wd : Width) (v : BitVec wd.bits) : (s.stored l a wd v).nmiLatch = s.nmiLatch := by
  cases wd <;> rfl
@[simp] theorem State.stored_moLow (s : State) (l : Label) (a : Addr) (wd : Width) (v : BitVec wd.bits) : (s.stored l a wd v).moLow = s.moLow := by
  cases wd <;> rfl
@[simp] theorem State.stored_haltSample (s : State) (l : Label) (a : Addr) (wd : Width) (v : BitVec wd.bits) : (s.stored l a wd v).haltSample = s.haltSample := by
  cases wd <;> rfl
@[simp] theorem State.stored_held (s : State) (l : Label) (a : Addr) (wd : Width) (v : BitVec wd.bits) : (s.stored l a wd v).held = s.held := by
  cases wd <;> rfl
@[simp] theorem State.stored_resetting (s : State) (l : Label) (a : Addr) (wd : Width) (v : BitVec wd.bits) : (s.stored l a wd v).resetting = s.resetting := by
  cases wd <;> rfl
@[simp] theorem State.stored_mmus (s : State) (l : Label) (a : Addr) (wd : Width) (v : BitVec wd.bits) : (s.stored l a wd v).mmus = s.mmus := by
  cases wd <;> rfl
@[simp] theorem State.stored_pins (s : State) (l : Label) (a : Addr) (wd : Width) (v : BitVec wd.bits) : (s.stored l a wd v).pins = s.pins := by
  cases wd <;> rfl
@[simp] theorem State.stored_schedule (s : State) (l : Label) (a : Addr) (wd : Width) (v : BitVec wd.bits) : (s.stored l a wd v).schedule = s.schedule := by
  cases wd <;> rfl
@[simp] theorem State.stored_resetIn (s : State) (l : Label) (a : Addr) (wd : Width) (v : BitVec wd.bits) : (s.stored l a wd v).resetIn = s.resetIn := by
  cases wd <;> rfl
@[simp] theorem State.stored_ioIn (s : State) (l : Label) (a : Addr) (wd : Width) (v : BitVec wd.bits) : (s.stored l a wd v).ioIn = s.ioIn := by
  cases wd <;> rfl
@[simp] theorem State.stored_epuIn (s : State) (l : Label) (a : Addr) (wd : Width) (v : BitVec wd.bits) : (s.stored l a wd v).epuIn = s.epuIn := by
  cases wd <;> rfl
@[simp] theorem State.stored_events (s : State) (l : Label) (a : Addr) (wd : Width) (v : BitVec wd.bits) : (s.stored l a wd v).events = s.events := by
  cases wd <;> rfl
@[simp] theorem State.stored_instrPc (s : State) (l : Label) (a : Addr) (wd : Width) (v : BitVec wd.bits) : (s.stored l a wd v).instrPc = s.instrPc := by
  cases wd <;> rfl
@[simp] theorem State.stored_ir (s : State) (l : Label) (a : Addr) (wd : Width) (v : BitVec wd.bits) : (s.stored l a wd v).ir = s.ir := by
  cases wd <;> rfl
@[simp] theorem State.stored_freeCount (s : State) (l : Label) (a : Addr) (wd : Width) (v : BitVec wd.bits) : (s.stored l a wd v).freeCount = s.freeCount := by
  cases wd <;> rfl
@[simp] theorem State.stored_isSeg (s : State) (l : Label) (a : Addr) (wd : Width) (v : BitVec wd.bits) : (s.stored l a wd v).isSeg = s.isSeg := by simp [State.isSeg]

/-! `pushed` -/

@[simp] theorem State.pushed_cfg (s : State) (l : Label) (n : Reg) (wd : Width) (v : BitVec wd.bits) : (s.pushed l n wd v).cfg = s.cfg := by
  simp [State.pushed]
@[simp] theorem State.pushed_pcSeg (s : State) (l : Label) (n : Reg) (wd : Width) (v : BitVec wd.bits) : (s.pushed l n wd v).pcSeg = s.pcSeg := by
  simp [State.pushed]
@[simp] theorem State.pushed_pcOff (s : State) (l : Label) (n : Reg) (wd : Width) (v : BitVec wd.bits) : (s.pushed l n wd v).pcOff = s.pcOff := by
  simp [State.pushed]
@[simp] theorem State.pushed_fcw (s : State) (l : Label) (n : Reg) (wd : Width) (v : BitVec wd.bits) : (s.pushed l n wd v).fcw = s.fcw := by
  simp [State.pushed]
@[simp] theorem State.pushed_psapSeg (s : State) (l : Label) (n : Reg) (wd : Width) (v : BitVec wd.bits) : (s.pushed l n wd v).psapSeg = s.psapSeg := by
  simp [State.pushed]
@[simp] theorem State.pushed_psapOff (s : State) (l : Label) (n : Reg) (wd : Width) (v : BitVec wd.bits) : (s.pushed l n wd v).psapOff = s.psapOff := by
  simp [State.pushed]
@[simp] theorem State.pushed_refresh (s : State) (l : Label) (n : Reg) (wd : Width) (v : BitVec wd.bits) : (s.pushed l n wd v).refresh = s.refresh := by
  simp [State.pushed]
@[simp] theorem State.pushed_rowStepped (s : State) (l : Label) (n : Reg) (wd : Width) (v : BitVec wd.bits) : (s.pushed l n wd v).rowStepped = s.rowStepped := by
  simp [State.pushed]
@[simp] theorem State.pushed_halted (s : State) (l : Label) (n : Reg) (wd : Width) (v : BitVec wd.bits) : (s.pushed l n wd v).halted = s.halted := by
  simp [State.pushed]
@[simp] theorem State.pushed_nmiLatch (s : State) (l : Label) (n : Reg) (wd : Width) (v : BitVec wd.bits) : (s.pushed l n wd v).nmiLatch = s.nmiLatch := by
  simp [State.pushed]
@[simp] theorem State.pushed_moLow (s : State) (l : Label) (n : Reg) (wd : Width) (v : BitVec wd.bits) : (s.pushed l n wd v).moLow = s.moLow := by
  simp [State.pushed]
@[simp] theorem State.pushed_haltSample (s : State) (l : Label) (n : Reg) (wd : Width) (v : BitVec wd.bits) : (s.pushed l n wd v).haltSample = s.haltSample := by
  simp [State.pushed]
@[simp] theorem State.pushed_held (s : State) (l : Label) (n : Reg) (wd : Width) (v : BitVec wd.bits) : (s.pushed l n wd v).held = s.held := by
  simp [State.pushed]
@[simp] theorem State.pushed_resetting (s : State) (l : Label) (n : Reg) (wd : Width) (v : BitVec wd.bits) : (s.pushed l n wd v).resetting = s.resetting := by
  simp [State.pushed]
@[simp] theorem State.pushed_mmus (s : State) (l : Label) (n : Reg) (wd : Width) (v : BitVec wd.bits) : (s.pushed l n wd v).mmus = s.mmus := by
  simp [State.pushed]
@[simp] theorem State.pushed_pins (s : State) (l : Label) (n : Reg) (wd : Width) (v : BitVec wd.bits) : (s.pushed l n wd v).pins = s.pins := by
  simp [State.pushed]
@[simp] theorem State.pushed_schedule (s : State) (l : Label) (n : Reg) (wd : Width) (v : BitVec wd.bits) : (s.pushed l n wd v).schedule = s.schedule := by
  simp [State.pushed]
@[simp] theorem State.pushed_resetIn (s : State) (l : Label) (n : Reg) (wd : Width) (v : BitVec wd.bits) : (s.pushed l n wd v).resetIn = s.resetIn := by
  simp [State.pushed]
@[simp] theorem State.pushed_ioIn (s : State) (l : Label) (n : Reg) (wd : Width) (v : BitVec wd.bits) : (s.pushed l n wd v).ioIn = s.ioIn := by
  simp [State.pushed]
@[simp] theorem State.pushed_epuIn (s : State) (l : Label) (n : Reg) (wd : Width) (v : BitVec wd.bits) : (s.pushed l n wd v).epuIn = s.epuIn := by
  simp [State.pushed]
@[simp] theorem State.pushed_events (s : State) (l : Label) (n : Reg) (wd : Width) (v : BitVec wd.bits) : (s.pushed l n wd v).events = s.events := by
  simp [State.pushed]
@[simp] theorem State.pushed_instrPc (s : State) (l : Label) (n : Reg) (wd : Width) (v : BitVec wd.bits) : (s.pushed l n wd v).instrPc = s.instrPc := by
  simp [State.pushed]
@[simp] theorem State.pushed_ir (s : State) (l : Label) (n : Reg) (wd : Width) (v : BitVec wd.bits) : (s.pushed l n wd v).ir = s.ir := by
  simp [State.pushed]
@[simp] theorem State.pushed_freeCount (s : State) (l : Label) (n : Reg) (wd : Width) (v : BitVec wd.bits) : (s.pushed l n wd v).freeCount = s.freeCount := by
  simp [State.pushed]
@[simp] theorem State.pushed_isSeg (s : State) (l : Label) (n : Reg) (wd : Width) (v : BitVec wd.bits) : (s.pushed l n wd v).isSeg = s.isSeg := by simp [State.isSeg]

/-! `popped` -/

@[simp] theorem State.popped_cfg (s : State) (n : Reg) (wd : Width) : (s.popped n wd).cfg = s.cfg := by
  simp [State.popped]
@[simp] theorem State.popped_pcSeg (s : State) (n : Reg) (wd : Width) : (s.popped n wd).pcSeg = s.pcSeg := by
  simp [State.popped]
@[simp] theorem State.popped_pcOff (s : State) (n : Reg) (wd : Width) : (s.popped n wd).pcOff = s.pcOff := by
  simp [State.popped]
@[simp] theorem State.popped_fcw (s : State) (n : Reg) (wd : Width) : (s.popped n wd).fcw = s.fcw := by
  simp [State.popped]
@[simp] theorem State.popped_psapSeg (s : State) (n : Reg) (wd : Width) : (s.popped n wd).psapSeg = s.psapSeg := by
  simp [State.popped]
@[simp] theorem State.popped_psapOff (s : State) (n : Reg) (wd : Width) : (s.popped n wd).psapOff = s.psapOff := by
  simp [State.popped]
@[simp] theorem State.popped_refresh (s : State) (n : Reg) (wd : Width) : (s.popped n wd).refresh = s.refresh := by
  simp [State.popped]
@[simp] theorem State.popped_rowStepped (s : State) (n : Reg) (wd : Width) : (s.popped n wd).rowStepped = s.rowStepped := by
  simp [State.popped]
@[simp] theorem State.popped_halted (s : State) (n : Reg) (wd : Width) : (s.popped n wd).halted = s.halted := by
  simp [State.popped]
@[simp] theorem State.popped_nmiLatch (s : State) (n : Reg) (wd : Width) : (s.popped n wd).nmiLatch = s.nmiLatch := by
  simp [State.popped]
@[simp] theorem State.popped_moLow (s : State) (n : Reg) (wd : Width) : (s.popped n wd).moLow = s.moLow := by
  simp [State.popped]
@[simp] theorem State.popped_haltSample (s : State) (n : Reg) (wd : Width) : (s.popped n wd).haltSample = s.haltSample := by
  simp [State.popped]
@[simp] theorem State.popped_held (s : State) (n : Reg) (wd : Width) : (s.popped n wd).held = s.held := by
  simp [State.popped]
@[simp] theorem State.popped_resetting (s : State) (n : Reg) (wd : Width) : (s.popped n wd).resetting = s.resetting := by
  simp [State.popped]
@[simp] theorem State.popped_mem (s : State) (n : Reg) (wd : Width) : (s.popped n wd).mem = s.mem := by
  simp [State.popped]
@[simp] theorem State.popped_mmus (s : State) (n : Reg) (wd : Width) : (s.popped n wd).mmus = s.mmus := by
  simp [State.popped]
@[simp] theorem State.popped_pins (s : State) (n : Reg) (wd : Width) : (s.popped n wd).pins = s.pins := by
  simp [State.popped]
@[simp] theorem State.popped_schedule (s : State) (n : Reg) (wd : Width) : (s.popped n wd).schedule = s.schedule := by
  simp [State.popped]
@[simp] theorem State.popped_resetIn (s : State) (n : Reg) (wd : Width) : (s.popped n wd).resetIn = s.resetIn := by
  simp [State.popped]
@[simp] theorem State.popped_ioIn (s : State) (n : Reg) (wd : Width) : (s.popped n wd).ioIn = s.ioIn := by
  simp [State.popped]
@[simp] theorem State.popped_epuIn (s : State) (n : Reg) (wd : Width) : (s.popped n wd).epuIn = s.epuIn := by
  simp [State.popped]
@[simp] theorem State.popped_events (s : State) (n : Reg) (wd : Width) : (s.popped n wd).events = s.events := by
  simp [State.popped]
@[simp] theorem State.popped_instrPc (s : State) (n : Reg) (wd : Width) : (s.popped n wd).instrPc = s.instrPc := by
  simp [State.popped]
@[simp] theorem State.popped_ir (s : State) (n : Reg) (wd : Width) : (s.popped n wd).ir = s.ir := by
  simp [State.popped]
@[simp] theorem State.popped_freeCount (s : State) (n : Reg) (wd : Width) : (s.popped n wd).freeCount = s.freeCount := by
  simp [State.popped]
@[simp] theorem State.popped_isSeg (s : State) (n : Reg) (wd : Width) : (s.popped n wd).isSeg = s.isSeg := by simp [State.isSeg]

/-! `jump` -/

@[simp] theorem State.jump_cfg (s : State) (a : Addr) : (s.jump a).cfg = s.cfg := by
  unfold State.jump; split <;> rfl
@[simp] theorem State.jump_regs (s : State) (a : Addr) : (s.jump a).regs = s.regs := by
  unfold State.jump; split <;> rfl
@[simp] theorem State.jump_sysR14 (s : State) (a : Addr) : (s.jump a).sysR14 = s.sysR14 := by
  unfold State.jump; split <;> rfl
@[simp] theorem State.jump_sysR15 (s : State) (a : Addr) : (s.jump a).sysR15 = s.sysR15 := by
  unfold State.jump; split <;> rfl
@[simp] theorem State.jump_fcw (s : State) (a : Addr) : (s.jump a).fcw = s.fcw := by
  unfold State.jump; split <;> rfl
@[simp] theorem State.jump_psapSeg (s : State) (a : Addr) : (s.jump a).psapSeg = s.psapSeg := by
  unfold State.jump; split <;> rfl
@[simp] theorem State.jump_psapOff (s : State) (a : Addr) : (s.jump a).psapOff = s.psapOff := by
  unfold State.jump; split <;> rfl
@[simp] theorem State.jump_refresh (s : State) (a : Addr) : (s.jump a).refresh = s.refresh := by
  unfold State.jump; split <;> rfl
@[simp] theorem State.jump_rowStepped (s : State) (a : Addr) : (s.jump a).rowStepped = s.rowStepped := by
  unfold State.jump; split <;> rfl
@[simp] theorem State.jump_halted (s : State) (a : Addr) : (s.jump a).halted = s.halted := by
  unfold State.jump; split <;> rfl
@[simp] theorem State.jump_nmiLatch (s : State) (a : Addr) : (s.jump a).nmiLatch = s.nmiLatch := by
  unfold State.jump; split <;> rfl
@[simp] theorem State.jump_moLow (s : State) (a : Addr) : (s.jump a).moLow = s.moLow := by
  unfold State.jump; split <;> rfl
@[simp] theorem State.jump_haltSample (s : State) (a : Addr) : (s.jump a).haltSample = s.haltSample := by
  unfold State.jump; split <;> rfl
@[simp] theorem State.jump_held (s : State) (a : Addr) : (s.jump a).held = s.held := by
  unfold State.jump; split <;> rfl
@[simp] theorem State.jump_resetting (s : State) (a : Addr) : (s.jump a).resetting = s.resetting := by
  unfold State.jump; split <;> rfl
@[simp] theorem State.jump_mem (s : State) (a : Addr) : (s.jump a).mem = s.mem := by
  unfold State.jump; split <;> rfl
@[simp] theorem State.jump_mmus (s : State) (a : Addr) : (s.jump a).mmus = s.mmus := by
  unfold State.jump; split <;> rfl
@[simp] theorem State.jump_pins (s : State) (a : Addr) : (s.jump a).pins = s.pins := by
  unfold State.jump; split <;> rfl
@[simp] theorem State.jump_schedule (s : State) (a : Addr) : (s.jump a).schedule = s.schedule := by
  unfold State.jump; split <;> rfl
@[simp] theorem State.jump_resetIn (s : State) (a : Addr) : (s.jump a).resetIn = s.resetIn := by
  unfold State.jump; split <;> rfl
@[simp] theorem State.jump_ioIn (s : State) (a : Addr) : (s.jump a).ioIn = s.ioIn := by
  unfold State.jump; split <;> rfl
@[simp] theorem State.jump_epuIn (s : State) (a : Addr) : (s.jump a).epuIn = s.epuIn := by
  unfold State.jump; split <;> rfl
@[simp] theorem State.jump_events (s : State) (a : Addr) : (s.jump a).events = s.events := by
  unfold State.jump; split <;> rfl
@[simp] theorem State.jump_instrPc (s : State) (a : Addr) : (s.jump a).instrPc = s.instrPc := by
  unfold State.jump; split <;> rfl
@[simp] theorem State.jump_ir (s : State) (a : Addr) : (s.jump a).ir = s.ir := by
  unfold State.jump; split <;> rfl
@[simp] theorem State.jump_freeCount (s : State) (a : Addr) : (s.jump a).freeCount = s.freeCount := by
  unfold State.jump; split <;> rfl
@[simp] theorem State.jump_isSeg (s : State) (a : Addr) : (s.jump a).isSeg = s.isSeg := by simp [State.isSeg]

/-! `withFcw` -/

@[simp] theorem State.withFcw_cfg (s : State) (f : Fcw) : (s.withFcw f).cfg = s.cfg := rfl
@[simp] theorem State.withFcw_regs (s : State) (f : Fcw) : (s.withFcw f).regs = s.regs := rfl
@[simp] theorem State.withFcw_sysR14 (s : State) (f : Fcw) : (s.withFcw f).sysR14 = s.sysR14 := rfl
@[simp] theorem State.withFcw_sysR15 (s : State) (f : Fcw) : (s.withFcw f).sysR15 = s.sysR15 := rfl
@[simp] theorem State.withFcw_pcSeg (s : State) (f : Fcw) : (s.withFcw f).pcSeg = s.pcSeg := rfl
@[simp] theorem State.withFcw_pcOff (s : State) (f : Fcw) : (s.withFcw f).pcOff = s.pcOff := rfl
@[simp] theorem State.withFcw_psapSeg (s : State) (f : Fcw) : (s.withFcw f).psapSeg = s.psapSeg := rfl
@[simp] theorem State.withFcw_psapOff (s : State) (f : Fcw) : (s.withFcw f).psapOff = s.psapOff := rfl
@[simp] theorem State.withFcw_refresh (s : State) (f : Fcw) : (s.withFcw f).refresh = s.refresh := rfl
@[simp] theorem State.withFcw_rowStepped (s : State) (f : Fcw) : (s.withFcw f).rowStepped = s.rowStepped := rfl
@[simp] theorem State.withFcw_halted (s : State) (f : Fcw) : (s.withFcw f).halted = s.halted := rfl
@[simp] theorem State.withFcw_nmiLatch (s : State) (f : Fcw) : (s.withFcw f).nmiLatch = s.nmiLatch := rfl
@[simp] theorem State.withFcw_moLow (s : State) (f : Fcw) : (s.withFcw f).moLow = s.moLow := rfl
@[simp] theorem State.withFcw_haltSample (s : State) (f : Fcw) : (s.withFcw f).haltSample = s.haltSample := rfl
@[simp] theorem State.withFcw_held (s : State) (f : Fcw) : (s.withFcw f).held = s.held := rfl
@[simp] theorem State.withFcw_resetting (s : State) (f : Fcw) : (s.withFcw f).resetting = s.resetting := rfl
@[simp] theorem State.withFcw_mem (s : State) (f : Fcw) : (s.withFcw f).mem = s.mem := rfl
@[simp] theorem State.withFcw_mmus (s : State) (f : Fcw) : (s.withFcw f).mmus = s.mmus := rfl
@[simp] theorem State.withFcw_pins (s : State) (f : Fcw) : (s.withFcw f).pins = s.pins := rfl
@[simp] theorem State.withFcw_schedule (s : State) (f : Fcw) : (s.withFcw f).schedule = s.schedule := rfl
@[simp] theorem State.withFcw_resetIn (s : State) (f : Fcw) : (s.withFcw f).resetIn = s.resetIn := rfl
@[simp] theorem State.withFcw_ioIn (s : State) (f : Fcw) : (s.withFcw f).ioIn = s.ioIn := rfl
@[simp] theorem State.withFcw_epuIn (s : State) (f : Fcw) : (s.withFcw f).epuIn = s.epuIn := rfl
@[simp] theorem State.withFcw_events (s : State) (f : Fcw) : (s.withFcw f).events = s.events := rfl
@[simp] theorem State.withFcw_instrPc (s : State) (f : Fcw) : (s.withFcw f).instrPc = s.instrPc := rfl
@[simp] theorem State.withFcw_ir (s : State) (f : Fcw) : (s.withFcw f).ir = s.ir := rfl
@[simp] theorem State.withFcw_freeCount (s : State) (f : Fcw) : (s.withFcw f).freeCount = s.freeCount := rfl

/-! `forceSystem` -/

@[simp] theorem State.forceSystem_cfg (s : State) : (s.forceSystem).cfg = s.cfg := rfl
@[simp] theorem State.forceSystem_regs (s : State) : (s.forceSystem).regs = s.regs := rfl
@[simp] theorem State.forceSystem_sysR14 (s : State) : (s.forceSystem).sysR14 = s.sysR14 := rfl
@[simp] theorem State.forceSystem_sysR15 (s : State) : (s.forceSystem).sysR15 = s.sysR15 := rfl
@[simp] theorem State.forceSystem_pcSeg (s : State) : (s.forceSystem).pcSeg = s.pcSeg := rfl
@[simp] theorem State.forceSystem_pcOff (s : State) : (s.forceSystem).pcOff = s.pcOff := rfl
@[simp] theorem State.forceSystem_psapSeg (s : State) : (s.forceSystem).psapSeg = s.psapSeg := rfl
@[simp] theorem State.forceSystem_psapOff (s : State) : (s.forceSystem).psapOff = s.psapOff := rfl
@[simp] theorem State.forceSystem_refresh (s : State) : (s.forceSystem).refresh = s.refresh := rfl
@[simp] theorem State.forceSystem_rowStepped (s : State) : (s.forceSystem).rowStepped = s.rowStepped := rfl
@[simp] theorem State.forceSystem_halted (s : State) : (s.forceSystem).halted = s.halted := rfl
@[simp] theorem State.forceSystem_nmiLatch (s : State) : (s.forceSystem).nmiLatch = s.nmiLatch := rfl
@[simp] theorem State.forceSystem_moLow (s : State) : (s.forceSystem).moLow = s.moLow := rfl
@[simp] theorem State.forceSystem_haltSample (s : State) : (s.forceSystem).haltSample = s.haltSample := rfl
@[simp] theorem State.forceSystem_held (s : State) : (s.forceSystem).held = s.held := rfl
@[simp] theorem State.forceSystem_resetting (s : State) : (s.forceSystem).resetting = s.resetting := rfl
@[simp] theorem State.forceSystem_mem (s : State) : (s.forceSystem).mem = s.mem := rfl
@[simp] theorem State.forceSystem_mmus (s : State) : (s.forceSystem).mmus = s.mmus := rfl
@[simp] theorem State.forceSystem_pins (s : State) : (s.forceSystem).pins = s.pins := rfl
@[simp] theorem State.forceSystem_schedule (s : State) : (s.forceSystem).schedule = s.schedule := rfl
@[simp] theorem State.forceSystem_resetIn (s : State) : (s.forceSystem).resetIn = s.resetIn := rfl
@[simp] theorem State.forceSystem_ioIn (s : State) : (s.forceSystem).ioIn = s.ioIn := rfl
@[simp] theorem State.forceSystem_epuIn (s : State) : (s.forceSystem).epuIn = s.epuIn := rfl
@[simp] theorem State.forceSystem_events (s : State) : (s.forceSystem).events = s.events := rfl
@[simp] theorem State.forceSystem_instrPc (s : State) : (s.forceSystem).instrPc = s.instrPc := rfl
@[simp] theorem State.forceSystem_ir (s : State) : (s.forceSystem).ir = s.ir := rfl
@[simp] theorem State.forceSystem_freeCount (s : State) : (s.forceSystem).freeCount = s.freeCount := rfl

/-! `endStep` -/

@[simp] theorem State.endStep_cfg (s : State) : (s.endStep).cfg = s.cfg := by
  unfold State.endStep; split <;> rfl
@[simp] theorem State.endStep_regs (s : State) : (s.endStep).regs = s.regs := by
  unfold State.endStep; split <;> rfl
@[simp] theorem State.endStep_sysR14 (s : State) : (s.endStep).sysR14 = s.sysR14 := by
  unfold State.endStep; split <;> rfl
@[simp] theorem State.endStep_sysR15 (s : State) : (s.endStep).sysR15 = s.sysR15 := by
  unfold State.endStep; split <;> rfl
@[simp] theorem State.endStep_pcSeg (s : State) : (s.endStep).pcSeg = s.pcSeg := by
  unfold State.endStep; split <;> rfl
@[simp] theorem State.endStep_pcOff (s : State) : (s.endStep).pcOff = s.pcOff := by
  unfold State.endStep; split <;> rfl
@[simp] theorem State.endStep_fcw (s : State) : (s.endStep).fcw = s.fcw := by
  unfold State.endStep; split <;> rfl
@[simp] theorem State.endStep_psapSeg (s : State) : (s.endStep).psapSeg = s.psapSeg := by
  unfold State.endStep; split <;> rfl
@[simp] theorem State.endStep_psapOff (s : State) : (s.endStep).psapOff = s.psapOff := by
  unfold State.endStep; split <;> rfl
@[simp] theorem State.endStep_refresh (s : State) : (s.endStep).refresh = s.refresh := by
  unfold State.endStep; split <;> rfl
@[simp] theorem State.endStep_rowStepped (s : State) : (s.endStep).rowStepped = s.rowStepped := by
  unfold State.endStep; split <;> rfl
@[simp] theorem State.endStep_halted (s : State) : (s.endStep).halted = s.halted := by
  unfold State.endStep; split <;> rfl
@[simp] theorem State.endStep_moLow (s : State) : (s.endStep).moLow = s.moLow := by
  unfold State.endStep; split <;> rfl
@[simp] theorem State.endStep_haltSample (s : State) : (s.endStep).haltSample = s.haltSample := by
  unfold State.endStep; split <;> rfl
@[simp] theorem State.endStep_held (s : State) : (s.endStep).held = s.held := by
  unfold State.endStep; split <;> rfl
@[simp] theorem State.endStep_resetting (s : State) : (s.endStep).resetting = s.resetting := by
  unfold State.endStep; split <;> rfl
@[simp] theorem State.endStep_mem (s : State) : (s.endStep).mem = s.mem := by
  unfold State.endStep; split <;> rfl
@[simp] theorem State.endStep_mmus (s : State) : (s.endStep).mmus = s.mmus := by
  unfold State.endStep; split <;> rfl
@[simp] theorem State.endStep_ioIn (s : State) : (s.endStep).ioIn = s.ioIn := by
  unfold State.endStep; split <;> rfl
@[simp] theorem State.endStep_epuIn (s : State) : (s.endStep).epuIn = s.epuIn := by
  unfold State.endStep; split <;> rfl
@[simp] theorem State.endStep_events (s : State) : (s.endStep).events = s.events := by
  unfold State.endStep; split <;> rfl
@[simp] theorem State.endStep_instrPc (s : State) : (s.endStep).instrPc = s.instrPc := by
  unfold State.endStep; split <;> rfl
@[simp] theorem State.endStep_ir (s : State) : (s.endStep).ir = s.ir := by
  unfold State.endStep; split <;> rfl
@[simp] theorem State.endStep_freeCount (s : State) : (s.endStep).freeCount = s.freeCount := by
  unfold State.endStep; split <;> rfl
@[simp] theorem State.endStep_isSeg (s : State) : (s.endStep).isSeg = s.isSeg := by simp [State.isSeg]

/-! Registers. -/

/-- One entry of the register file after one is set. -/
theorem regs_set (r : Vector Word 16) (n m : Reg) (v : Word) : (r.set n v)[m] = if m = n then v else r[m] := by
  by_cases h : m = n
  · subst h; simp
  · have : n.val ≠ m.val := fun e => h (Fin.ext e.symm)
    simp [h, this]

/-- What a word register reads as after a write: the write's value, or what it was (R21, R22). -/
theorem State.reg_setReg (s : State) (n m : Reg) (v : Word) :
    (s.setReg n v).reg m = if m = n then v else s.reg m := by
  by_cases A : n = 15 ∧ s.fcw.sn = true
  · have e : s.setReg n v = { s with sysR15 := v } := if_pos A
    rw [e]
    by_cases h : m = n
    · rw [if_pos h]
      exact if_pos ⟨h.trans A.1, A.2⟩
    · have hm : ¬(m = 15 ∧ s.fcw.sn = true) := fun B => h (B.1.trans A.1.symm)
      rw [if_neg h]
      unfold State.reg
      rw [if_neg hm, if_neg hm]
      rfl
  · by_cases B : n = 14 ∧ s.fcw.sn = true ∧ s.isSeg = true
    · have e : s.setReg n v = { s with sysR14 := v } := (if_neg A).trans (if_pos B)
      rw [e]
      by_cases h : m = n
      · rw [if_pos h]
        exact (if_neg (by rw [h]; exact A)).trans (if_pos ⟨h.trans B.1, B.2⟩)
      · have hm : ¬(m = 14 ∧ s.fcw.sn = true ∧ s.isSeg = true) := fun C => h (C.1.trans B.1.symm)
        rw [if_neg h]
        unfold State.reg
        by_cases C : m = 15 ∧ s.fcw.sn = true
        · rw [if_pos C, if_pos C]
        · rw [if_neg C, if_neg C, if_neg hm]
          exact if_neg hm
    · have e : s.setReg n v = { s with regs := s.regs.set n v } := (if_neg A).trans (if_neg B)
      rw [e]
      by_cases h : m = n
      · rw [if_pos h, h]
        exact (if_neg A).trans ((if_neg B).trans (by simp))
      · rw [if_neg h]
        unfold State.reg
        by_cases C : m = 15 ∧ s.fcw.sn = true
        · rw [if_pos C, if_pos C]
        · rw [if_neg C, if_neg C]
          by_cases D : m = 14 ∧ s.fcw.sn = true ∧ s.isSeg = true
          · rw [if_pos D]
            exact if_pos D
          · rw [if_neg D]
            exact (if_neg D).trans (by rw [regs_set, if_neg h])

@[simp] theorem State.reg_setReg_same (s : State) (n : Reg) (v : Word) : (s.setReg n v).reg n = v := by
  simp [State.reg_setReg]

theorem State.reg_setReg_other (s : State) (n m : Reg) (v : Word) (h : m ≠ n) :
    (s.setReg n v).reg m = s.reg m := by
  simp [State.reg_setReg, h]

/-- A register number and the next one differ. -/
theorem reg_ne_succ (n : Reg) : n ≠ n + 1 := by
  revert n; decide

/-- A long register reads as the long word written to it. -/
@[simp] theorem State.regL_setRegL (s : State) (n : Reg) (v : Long) : (s.setRegL n v).regL n = v := by
  unfold State.regL State.setRegL
  rw [State.reg_setReg_other _ _ _ _ (reg_ne_succ n), State.reg_setReg_same, State.reg_setReg_same]
  ext i hi
  rw [BitVec.getElem_append]
  split
  · simp [BitVec.getLsbD_eq_getElem hi]
  · have : 16 + (i - 16) = i := by omega
    simp [this, BitVec.getLsbD_eq_getElem hi]

/-- A pair leaves the registers outside it. -/
theorem State.reg_setRegL_other (s : State) (n m : Reg) (v : Long) (h : m ≠ n) (h' : m ≠ n + 1) :
    (s.setRegL n v).reg m = s.reg m := by
  unfold State.setRegL
  rw [State.reg_setReg_other _ _ _ _ h', State.reg_setReg_other _ _ _ _ h]

/-- A byte register leaves the other word registers. -/
theorem State.reg_setRegB_other (s : State) (n m : Reg) (v : Byte) (h : m ≠ n.wordOfByte) :
    (s.setRegB n v).reg m = s.reg m := by
  unfold State.setRegB
  split
  · rename_i hn
    have : n.wordOfByte = n := by simp [Reg.wordOfByte, hn]
    rw [State.reg_setReg_other _ _ _ _ (by rw [← this]; exact h)]
  · rw [State.reg_setReg_other _ _ _ _ h]

/-- A byte register reads as the byte written to it. -/
@[simp] theorem State.regB_setRegB (s : State) (n : Reg) (v : Byte) : (s.setRegB n v).regB n = v := by
  unfold State.regB State.setRegB
  by_cases hn : n.val < 8
  · simp only [hn, if_true, State.reg_setReg_same]
    exact BitVec.extractLsb'_append_eq_left
  · simp only [hn, if_false, State.reg_setReg_same]
    exact BitVec.extractLsb'_append_eq_right

/-- A register operand reads as what was written to it, at every width. -/
@[simp] theorem State.regAt_setRegAt (s : State) (wd : Width) (n : Reg) (v : BitVec wd.bits) :
    (s.setRegAt wd n v).regAt wd n = v := by
  cases wd <;> simp [State.regAt, State.setRegAt]

/-! Memory through the state. -/

@[simp] theorem State.key_setReg (s : State) (n : Reg) (v : Word) (l : Label) (a : Addr) :
    (s.setReg n v).key l a = s.key l a := by simp [State.key]

@[simp] theorem State.key_setRegAt (s : State) (wd : Width) (n : Reg) (v : BitVec wd.bits) (l : Label) (a : Addr) :
    (s.setRegAt wd n v).key l a = s.key l a := by simp [State.key]

@[simp] theorem State.key_stepPtr (s : State) (n : Reg) (k : Word) (l : Label) (a : Addr) :
    (s.stepPtr n k).key l a = s.key l a := by simp [State.key]

@[simp] theorem State.key_stored (s : State) (l l' : Label) (a a' : Addr) (wd : Width) (v : BitVec wd.bits) :
    (s.stored l a wd v).key l' a' = s.key l' a' := by simp [State.key]

@[simp] theorem State.key_pushed (s : State) (l l' : Label) (n : Reg) (a : Addr) (wd : Width) (v : BitVec wd.bits) :
    (s.pushed l n wd v).key l' a = s.key l' a := by simp [State.key]

/-! The MMUs on the bus (R4, R8). -/

@[simp] theorem State.setReg_units (s : State) (n : Reg) (v : Word) : (s.setReg n v).units = s.units := by
  simp [State.units]
@[simp] theorem State.setRegB_units (s : State) (n : Reg) (v : Byte) : (s.setRegB n v).units = s.units := by
  simp [State.units]
@[simp] theorem State.setRegL_units (s : State) (n : Reg) (v : Long) : (s.setRegL n v).units = s.units := by
  simp [State.units]
@[simp] theorem State.setRegQ_units (s : State) (n : Reg) (v : Quad) : (s.setRegQ n v).units = s.units := by
  simp [State.units]
@[simp] theorem State.setRegAt_units (s : State) (wd : Width) (n : Reg) (v : BitVec wd.bits) : (s.setRegAt wd n v).units = s.units := by
  simp [State.units]
@[simp] theorem State.stepPtr_units (s : State) (n : Reg) (k : Word) : (s.stepPtr n k).units = s.units := by
  simp [State.units]
@[simp] theorem State.storeByte_units (s : State) (l : Label) (a : Addr) (v : Byte) : (s.storeByte l a v).units = s.units := by
  simp [State.units]
@[simp] theorem State.storeWord_units (s : State) (l : Label) (a : Addr) (v : Word) : (s.storeWord l a v).units = s.units := by
  simp [State.units]
@[simp] theorem State.stored_units (s : State) (l : Label) (a : Addr) (wd : Width) (v : BitVec wd.bits) : (s.stored l a wd v).units = s.units := by
  simp [State.units]
@[simp] theorem State.pushed_units (s : State) (l : Label) (n : Reg) (wd : Width) (v : BitVec wd.bits) : (s.pushed l n wd v).units = s.units := by
  simp [State.units]
@[simp] theorem State.popped_units (s : State) (n : Reg) (wd : Width) : (s.popped n wd).units = s.units := by
  simp [State.units]
@[simp] theorem State.jump_units (s : State) (a : Addr) : (s.jump a).units = s.units := by
  simp [State.units]
@[simp] theorem State.withFcw_units (s : State) (f : Fcw) : (s.withFcw f).units = s.units := by
  simp [State.units]
@[simp] theorem State.forceSystem_units (s : State) : (s.forceSystem).units = s.units := by
  simp [State.units]
@[simp] theorem State.endStep_units (s : State) : (s.endStep).units = s.units := by
  simp [State.units]

theorem State.units_z8001 (s : State) (h : s.cfg.version = .z8001) : s.units = s.mmus := by simp [State.units, h]
theorem State.units_z8002 (s : State) (h : s.cfg.version = .z8002) : s.units = [] := by simp [State.units, h]

/-- All that changing the MMUs can do: nothing but the list of units changes. -/
theorem State.mapUnits_inv (f : Mmu → Mmu) (s : State) : ∃ ms, s.mapUnits f = { s with mmus := ms } := by
  unfold State.mapUnits
  split <;> exact ⟨_, rfl⟩

/-- Where no MMU is on the bus there is none to change. -/
theorem State.mapUnits_none (f : Mmu → Mmu) (s : State) (h : s.units = []) : s.mapUnits f = s := by
  unfold State.units at h
  unfold State.mapUnits
  split at h <;> rename_i hv
  · rw [h]; cases s; simp_all
  · rfl

/-- All that RESET low does (R700, R701, R120). -/
theorem State.underReset_inv (s : State) : ∃ ms k, s.underReset =
    { s with resetting := true, moLow := false, resetIn := none, mmus := ms, freeCount := k } := by
  unfold State.underReset State.resetUnits
  split <;> exact ⟨_, _, rfl⟩

end Sys2Proof.Machine
end

