-- ==== Sys2Proof/Laws/Ops.lean ====
section
/-! SUPPORT. What each shared operation does, said once: how operations compose, and each access and stack operation on
a machine of plain RAM without MMUs. Statements about instructions cite these and do not unfold the operations. -/

namespace Sys2Proof.Machine

open Sys2Proof

/-! Composition. -/

theorem M.bind_apply {α β : Type} (x : M α) (f : α → M β) (s : State) :
    (x >>= f) s = match x s with
      | .ok (a, s') => f a s'
      | .error e => .error e := by
  show (StateT.bind x f) s = _
  unfold StateT.bind
  show Except.bind (x s) _ = _
  cases x s <;> rfl

theorem M.bind_ok {α β : Type} {x : M α} {f : α → M β} {s s' : State} {a : α} (h : x s = .ok (a, s')) :
    (x >>= f) s = f a s' := by
  rw [M.bind_apply, h]

@[simp] theorem M.pure_apply {α : Type} (a : α) (s : State) : (pure a : M α) s = .ok (a, s) := rfl
@[simp] theorem M.get_apply (s : State) : (get : M State) s = .ok (s, s) := rfl
@[simp] theorem M.set_apply (s t : State) : (set t : M Unit) s = .ok ((), t) := rfl
@[simp] theorem M.modify_apply (f : State → State) (s : State) : (modify f : M Unit) s = .ok ((), f s) := rfl
@[simp] theorem M.free_apply (w : Nat) (s : State) :
    free w s = .ok (Config.freeBits w s.freeCount, { s with freeCount := s.freeCount + 1 }) := rfl
@[simp] theorem M.freeBool_apply (s : State) :
    freeBool s = .ok ((Config.freeBits 1 s.freeCount).getLsbD 0, { s with freeCount := s.freeCount + 1 }) := rfl
@[simp] theorem M.fault_apply {α : Type} (f : Fault) (s : State) : (M.fault f : M α) s = .error (.fault f) := rfl
@[simp] theorem M.refuse_apply {α : Type} (r : Refusal) (s : State) :
    (M.refuse r : M α) s = .error (.refused r) := rfl
@[simp] theorem readReg_apply (wd : Width) (n : Reg) (s : State) : readReg wd n s = .ok (s.regAt wd n, s) := rfl
@[simp] theorem writeReg_apply (wd : Width) (n : Reg) (v : BitVec wd.bits) (s : State) :
    writeReg wd n v s = .ok ((), s.setRegAt wd n v) := rfl
@[simp] theorem setFcw_apply (f : Fcw → Fcw) (s : State) : setFcw f s = .ok ((), s.withFcw (f s.fcw)) := rfl
@[simp] theorem logEvent_apply (e : BusEvent) (s : State) :
    logEvent e s = .ok ((), { s with events := e :: s.events }) := rfl

/-- What comes after an abandoned operation is not done. -/
theorem M.bind_abandoned {α β : Type} {x : M α} {f : α → M β} {s t : State} (h : x s = .error (.abandoned t)) :
    (x >>= f) s = .error (.abandoned t) := by
  rw [M.bind_apply, h]

/-- What comes after a fault is not done. -/
theorem M.bind_fault {α β : Type} {x : M α} {f : α → M β} {s : State} {e : Fault} (h : x s = .error (.fault e)) :
    (x >>= f) s = .error (.fault e) := by
  rw [M.bind_apply, h]

theorem M.run_ok {x : M Unit} {s s' : State} (h : x s = .ok ((), s')) : M.run x s = .next s' := by
  simp [M.run, h]

/-- An instruction answers a next state exactly when its operation ends in that state, or RESET abandons it there. -/
theorem M.run_next {x : M Unit} {s s' : State} :
    M.run x s = .next s' ↔ x s = .ok ((), s') ∨ x s = .error (.abandoned s') := by
  unfold M.run
  constructor
  · intro h
    split at h <;> simp_all
  · rintro (h | h) <;> simp [h]

theorem M.run_abandoned {x : M Unit} {s s' : State} (h : x s = .error (.abandoned s')) : M.run x s = .next s' := by
  simp [M.run, h]

theorem M.run_fault {x : M Unit} {s : State} {f : Fault} (h : x s = .error (.fault f)) : M.run x s = .fault f := by
  simp [M.run, h]

theorem M.run_refused {x : M Unit} {s : State} {r : Refusal} (h : x s = .error (.refused r)) :
    M.run x s = .refused r := by
  simp [M.run, h]

/-- The part of a composition that answers, and what it goes on to. -/
theorem M.bind_inv {α β : Type} {x : M α} {f : α → M β} {s t : State} {b : β} (h : (x >>= f) s = .ok (b, t)) :
    ∃ a u, x s = .ok (a, u) ∧ f a u = .ok (b, t) := by
  rw [M.bind_apply] at h
  cases hx : x s with
  | error e => simp [hx] at h
  | ok p => obtain ⟨a, u⟩ := p; exact ⟨a, u, rfl, by simpa [hx] using h⟩

/-! Addresses. -/

theorem Addr.even_off (a : Addr) (h : a.off.getLsbD 0 = false) : a.off &&& 0xFFFE = a.off := by
  ext i hi
  have hm : ∀ j : Fin 16, (0xFFFE : Word).getLsbD j = decide (j.val ≠ 0) := by decide +revert
  have hi' := hm ⟨i, hi⟩
  rw [BitVec.getElem_and, ← BitVec.getLsbD_eq_getElem, ← BitVec.getLsbD_eq_getElem, hi']
  by_cases h0 : i = 0
  · subst h0
    rw [h]
    rfl
  · simp [h0]

theorem Addr.aligned_b (a : Addr) : a.aligned .b = true := rfl

theorem Addr.aligned_w (a : Addr) : a.aligned .w = true ↔ a.off.getLsbD 0 = false := by
  simp [Addr.aligned]

theorem Addr.aligned_l (a : Addr) : a.aligned .l = true ↔ a.off.getLsbD 0 = false := by
  simp [Addr.aligned]

/-- The lowest bit of a sum with an even number. -/
theorem lsb_add_even (x k : Word) (hk : k.getLsbD 0 = false) : (x + k).getLsbD 0 = x.getLsbD 0 := by
  simp only [BitVec.getLsbD] at *
  simp only [Nat.testBit_zero, BitVec.toNat_add, decide_eq_false_iff_not, decide_eq_decide] at *
  omega

theorem Addr.add_even (a : Addr) (k : Word) (hk : k.getLsbD 0 = false) (h : a.off.getLsbD 0 = false) :
    (a.add k).off.getLsbD 0 = false := by
  simp only [Addr.add]
  rw [lsb_add_even _ _ hk, h]

/-! Accesses on a machine of plain RAM without MMUs (R78, R79). -/

/-- A place where RESET does not fall. -/
theorem resetPoint_none (s : State) (h : s.resetIn = none) : resetPoint s = .ok ((), s) := by
  simp [resetPoint, h]

/-- All that a place where RESET may fall can do (R702): it counts, or it abandons the instruction with the state as it is. -/
theorem resetPoint_inv (s : State) :
    (∃ k, resetPoint s = .ok ((), { s with resetIn := k })) ∨ resetPoint s = .error (.abandoned s) := by
  rcases h : s.resetIn with _ | n
  · exact .inl ⟨none, by rw [resetPoint_none s h, ← h]⟩
  · cases n with
    | zero => exact .inr (by simp [resetPoint, h])
    | succ n => exact .inl ⟨some n, by simp [resetPoint, h]⟩

/-- All that finding the place of an access can do: it changes the MMUs alone (R110, R112). -/
theorem route_inv (l : Label) (a : Addr) (w b : Bool) (s : State) :
    ∃ p ms, route l a w b s = .ok (p, { s with mmus := ms }) := by
  unfold route
  split
  · exact ⟨_, s.mmus, rfl⟩
  · simp only
    split <;> exact ⟨_, _, rfl⟩

theorem evenAddr_even (a : Addr) (s : State) (h : a.off.getLsbD 0 = false) : evenAddr a s = .ok (a, s) := by
  unfold evenAddr
  rw [M.bind_ok (M.get_apply s), h]
  rfl

theorem evenAddr_odd (a : Addr) (s : State) (h : a.off.getLsbD 0 = true) (hc : s.cfg.dropAddressBit0 = false) :
    evenAddr a s = .error (.fault .oddWordAddress) := by
  unfold evenAddr
  rw [M.bind_ok (M.get_apply s), h, hc]
  rfl

/-- All that forming a bus address can do (R80): it answers an address, or an odd word address stops the run. -/
theorem busAddr_inv (a : Addr) (b : Bool) (s : State) :
    (∃ a', busAddr a b s = .ok (a', s)) ∨ busAddr a b s = .error (.fault .oddWordAddress) := by
  cases b with
  | false => exact .inl ⟨a, rfl⟩
  | true =>
    show (∃ a', evenAddr a s = .ok (a', s)) ∨ evenAddr a s = _
    unfold evenAddr
    rw [M.bind_ok (M.get_apply s)]
    split
    · split
      · exact .inl ⟨_, rfl⟩
      · exact .inr rfl
    · exact .inl ⟨_, rfl⟩

/-- A transaction on the default platform reaches its own place, a word's address being even. -/
theorem translate_plain (l : Label) (a : Addr) (w b : Bool) (s : State) (h : s.plain)
    (ha : b = true → a.off.getLsbD 0 = false) : translate l a w b s = .ok (some (s.key l a), s) := by
  obtain ⟨hm, hr, hi⟩ := h
  have he : busAddr a b s = .ok (a, s) := by
    cases b with
    | false => rfl
    | true => exact evenAddr_even a s (ha rfl)
  unfold translate
  rw [M.bind_ok (resetPoint_none s hi), M.bind_ok he]
  unfold route
  rw [hm]
  simp [State.taking, admits, hr]

theorem readByte_plain (l : Label) (a : Addr) (s : State) (h : s.plain) :
    readByte l a s = .ok (s.byteAt l a, s) := by
  unfold readByte
  rw [M.bind_ok (translate_plain l a false false s h (by simp))]
  rfl

theorem writeByte_plain (l : Label) (a : Addr) (v : Byte) (s : State) (h : s.plain) :
    writeByte l a v s = .ok ((), s.storeByte l a v) := by
  unfold writeByte
  rw [M.bind_ok (translate_plain l a true false s h (by simp))]
  rfl

theorem readWord_plain (l : Label) (a : Addr) (s : State) (h : s.plain) (ha : a.off.getLsbD 0 = false) :
    readWord l a s = .ok (s.wordAt l a, s) := by
  unfold readWord
  rw [M.bind_ok (translate_plain l a false true s h fun _ => ha)]
  rfl

theorem writeWord_plain (l : Label) (a : Addr) (v : Word) (s : State) (h : s.plain) (ha : a.off.getLsbD 0 = false) :
    writeWord l a v s = .ok ((), s.storeWord l a v) := by
  unfold writeWord
  rw [M.bind_ok (translate_plain l a true true s h fun _ => ha)]
  rfl

/-- Reading an aligned operand answers its value and changes nothing. -/
theorem readMem_plain (l : Label) (a : Addr) (wd : Width) (s : State) (h : s.plain) (ha : a.aligned wd = true) :
    readMem l a wd s = .ok (s.value l a wd, s) := by
  cases wd with
  | b => exact readByte_plain l a s h
  | w => exact readWord_plain l a s h ((Addr.aligned_w a).1 ha)
  | l =>
    have he := (Addr.aligned_l a).1 ha
    show (do
      let h ← readWord l a
      let lo ← readWord l (a.add 2)
      pure (h ++ lo) : M Long) s = _
    rw [M.bind_ok (readWord_plain l a s h he),
      M.bind_ok (readWord_plain l (a.add 2) s h (Addr.add_even a 2 (by decide) he))]
    rfl

/-- Writing an aligned operand stores its value and changes nothing else. -/
theorem writeMem_plain (l : Label) (a : Addr) (wd : Width) (v : BitVec wd.bits) (s : State) (h : s.plain)
    (ha : a.aligned wd = true) : writeMem l a wd v s = .ok ((), s.stored l a wd v) := by
  cases wd with
  | b => exact writeByte_plain l a v s h
  | w => exact writeWord_plain l a v s h ((Addr.aligned_w a).1 ha)
  | l =>
    have he := (Addr.aligned_l a).1 ha
    show (do
      writeWord l a (BitVec.extractLsb' 16 16 v)
      writeWord l (a.add 2) (BitVec.extractLsb' 0 16 v) : M Unit) s = _
    rw [M.bind_ok (writeWord_plain l a _ s h he)]
    exact writeWord_plain l (a.add 2) _ _ (by simpa [State.plain] using h) (Addr.add_even a 2 (by decide) he)

/-! Operands. -/

theorem readM_plain (wd : Width) (m : Mem) (s : State) (h : s.plain) (ha : m.ready wd s = true) :
    readM wd m s = .ok (m.value wd s, s) := by
  unfold readM
  rw [M.bind_ok (M.get_apply s)]
  exact readMem_plain _ _ wd s h ha

theorem writeM_plain (wd : Width) (m : Mem) (v : BitVec wd.bits) (s : State) (h : s.plain)
    (ha : m.ready wd s = true) : writeM wd m v s = .ok ((), m.put wd s v) := by
  unfold writeM
  rw [M.bind_ok (M.get_apply s)]
  exact writeMem_plain _ _ wd v s h ha

theorem readBased_plain (wd : Width) (b : Based) (s : State) (h : s.plain) (ha : b.ready wd s = true) :
    readBased wd b s = .ok (b.value wd s, s) := by
  unfold readBased
  rw [M.bind_ok (M.get_apply s)]
  exact readMem_plain _ _ wd s h ha

theorem writeBased_plain (wd : Width) (b : Based) (v : BitVec wd.bits) (s : State) (h : s.plain)
    (ha : b.ready wd s = true) : writeBased wd b v s = .ok ((), b.put wd s v) := by
  unfold writeBased
  rw [M.bind_ok (M.get_apply s)]
  exact writeMem_plain _ _ wd v s h ha

theorem readDst_plain (wd : Width) (d : Dst) (s : State) (h : s.plain) (ha : d.ready wd s = true) :
    readDst wd d s = .ok (d.value wd s, s) := by
  cases d with
  | reg r => rfl
  | mem m => exact readM_plain wd m s h ha

theorem writeDst_plain (wd : Width) (d : Dst) (v : BitVec wd.bits) (s : State) (h : s.plain)
    (ha : d.ready wd s = true) : writeDst wd d v s = .ok ((), d.put wd s v) := by
  cases d with
  | reg r => rfl
  | mem m => exact writeM_plain wd m v s h ha

theorem readSrc_plain {wd : Width} (x : Src wd) (s : State) (h : s.plain) (ha : x.ready s = true) :
    readSrc x s = .ok (x.value s, s) := by
  cases x with
  | reg r => rfl
  | imm v => rfl
  | mem m => exact readM_plain wd m s h ha

/-- A register, or a register and an immediate: no memory is read, whatever the machine. -/
@[simp] theorem readDst_reg (wd : Width) (r : Reg) (s : State) : readDst wd (.reg r) s = .ok (s.regAt wd r, s) := rfl
@[simp] theorem writeDst_reg (wd : Width) (r : Reg) (v : BitVec wd.bits) (s : State) :
    writeDst wd (.reg r) v s = .ok ((), s.setRegAt wd r v) := rfl
@[simp] theorem readSrc_reg {wd : Width} (r : Reg) (s : State) :
    readSrc (.reg r : Src wd) s = .ok (s.regAt wd r, s) := rfl
@[simp] theorem readSrc_imm {wd : Width} (v : BitVec wd.bits) (s : State) : readSrc (.imm v) s = .ok (v, s) := rfl

/-- A read-modify-write instruction (R87). -/
theorem updateDst_plain (wd : Width) (d : Dst) (f : BitVec wd.bits → BitVec wd.bits)
    (g : BitVec wd.bits → Fcw → Fcw) (s : State) (h : s.plain) (ha : d.ready wd s = true) :
    updateDst wd d f g s =
      .ok ((), (d.put wd s (f (d.value wd s))).withFcw (g (d.value wd s) (d.put wd s (f (d.value wd s))).fcw)) := by
  unfold updateDst
  rw [M.bind_ok (readDst_plain wd d s h ha), M.bind_ok (writeDst_plain wd d _ s h ha)]
  rfl

/-! What a put leaves. -/

@[simp] theorem Dst.put_fcw (wd : Width) (s : State) (d : Dst) (v : BitVec wd.bits) : (d.put wd s v).fcw = s.fcw := by
  cases d <;> simp [Dst.put, Mem.put]

@[simp] theorem Dst.put_cfg (wd : Width) (s : State) (d : Dst) (v : BitVec wd.bits) : (d.put wd s v).cfg = s.cfg := by
  cases d <;> simp [Dst.put, Mem.put]

@[simp] theorem Dst.put_mmus (wd : Width) (s : State) (d : Dst) (v : BitVec wd.bits) : (d.put wd s v).mmus = s.mmus := by
  cases d <;> simp [Dst.put, Mem.put]

@[simp] theorem Dst.put_units (wd : Width) (s : State) (d : Dst) (v : BitVec wd.bits) : (d.put wd s v).units = s.units := by
  cases d <;> simp [Dst.put, Mem.put]

/-! The stack (R86). -/

/-- The address of an address register after a push moves it keeps its parity. -/
theorem State.addrOf_stepPtr_even (s : State) (n : Reg) (k : Word) (hk : k.getLsbD 0 = false)
    (h : (s.addrOf n).off.getLsbD 0 = false) : ((s.stepPtr n k).addrOf n).off.getLsbD 0 = false := by
  unfold State.addrOf at *
  simp only [State.stepPtr_isSeg]
  unfold State.stepPtr State.offReg
  by_cases hg : s.isSeg = true
  · simp only [hg, if_true] at *
    rw [State.reg_setReg_same, lsb_add_even _ _ hk, h]
  · simp only [hg] at *
    simp only [Bool.false_eq_true, if_false] at *
    rw [State.reg_setReg_same, lsb_add_even _ _ hk, h]

theorem pushAs_plain (l : Label) (n : Reg) (wd : Width) (v : BitVec wd.bits) (s : State) (h : s.plain)
    (ha : ((s.stepPtr n (-(BitVec.ofNat 16 wd.bytes))).addrOf n).aligned wd = true) :
    pushAs l n wd v s = .ok ((), s.pushed l n wd v) := by
  unfold pushAs
  rw [M.bind_ok (resetPoint_none s h.2.2), M.bind_ok (M.modify_apply _ s), M.bind_ok (M.get_apply _)]
  exact writeMem_plain _ _ wd v _ (by simpa [State.plain] using h) ha

theorem push_plain (n : Reg) (wd : Width) (v : BitVec wd.bits) (s : State) (h : s.plain)
    (ha : ((s.stepPtr n (-(BitVec.ofNat 16 wd.bytes))).addrOf n).aligned wd = true) :
    push n wd v s = .ok ((), s.pushed (s.labelOf n) n wd v) := by
  unfold push
  rw [M.bind_ok (M.get_apply s)]
  exact pushAs_plain _ n wd v s h ha

theorem pop_plain (n : Reg) (wd : Width) (s : State) (h : s.plain) (ha : (s.addrOf n).aligned wd = true) :
    pop n wd s = .ok (s.top n wd, s.popped n wd) := by
  unfold pop
  rw [M.bind_ok (M.get_apply s), M.bind_ok (readMem_plain _ _ wd s h ha), M.bind_ok (resetPoint_none s h.2.2),
    M.bind_ok (M.modify_apply _ s)]
  rfl

/-! Guards. -/

theorem privileged_system (x : M Unit) (s : State) (h : s.fcw.sn = true) : privileged x s = x s := by
  unfold privileged
  rw [M.bind_ok (M.get_apply s)]
  simp [h]

theorem privileged_normal (x : M Unit) (s : State) (h : s.fcw.sn = false) :
    privileged x s = trapOnFirstWord .privileged s := by
  unfold privileged
  rw [M.bind_ok (M.get_apply s)]
  simp [h]

theorem extended_present (x : M Unit) (s : State) (h : s.fcw.epa = true) : extended x s = x s := by
  unfold extended
  rw [M.bind_ok (M.get_apply s)]
  simp [h]

theorem extended_absent (x : M Unit) (s : State) (h : s.fcw.epa = false) :
    extended x s = trapOnFirstWord .extended s := by
  unfold extended
  rw [M.bind_ok (M.get_apply s)]
  simp [h]

/-! What an operation keeps. -/

/-- If the operation answers, or RESET abandons it, `Q` relates the state before to the state after. -/
def Keeps {α : Type} (Q : State → State → Prop) (x : M α) : Prop :=
  ∀ s, (∀ a t, x s = .ok (a, t) → Q s t) ∧ ∀ t, x s = .error (.abandoned t) → Q s t

theorem Keeps.bind {α β : Type} {Q : State → State → Prop} (tr : ∀ {a b c}, Q a b → Q b c → Q a c) {x : M α}
    {f : α → M β} (hx : Keeps Q x) (hf : ∀ a, Keeps Q (f a)) : Keeps Q (x >>= f) := by
  intro s
  constructor
  · intro b t h
    obtain ⟨a, u, h1, h2⟩ := M.bind_inv h
    exact tr ((hx s).1 a u h1) ((hf a u).1 b t h2)
  · intro t h
    rw [M.bind_apply] at h
    cases hs : x s with
    | error e =>
      rw [hs] at h
      have he : e = .abandoned t := by simpa using h
      exact (hx s).2 t (by rw [hs, he])
    | ok p =>
      rw [hs] at h
      exact tr ((hx s).1 p.1 p.2 hs) ((hf p.1 p.2).2 t h)

/-- An operation that always answers keeps `Q` if what it answers does. -/
theorem Keeps.of_ok {α : Type} {Q : State → State → Prop} {x : M α} {f : State → α × State}
    (e : ∀ s, x s = .ok (f s)) (h : ∀ s, Q s (f s).2) : Keeps Q x := by
  intro s
  constructor
  · intro a t h'
    rw [e s, Except.ok.injEq] at h'
    simpa [h'] using h s
  · intro t h'
    rw [e s] at h'
    cases h'

theorem Keeps.pure {α : Type} {Q : State → State → Prop} (rf : ∀ a, Q a a) (a : α) : Keeps Q (Pure.pure a : M α) :=
  Keeps.of_ok (f := fun s => (a, s)) (M.pure_apply a) rf

theorem Keeps.modify {Q : State → State → Prop} {f : State → State} (h : ∀ s, Q s (f s)) :
    Keeps Q (modify f : M Unit) := Keeps.of_ok (f := fun s => ((), f s)) (M.modify_apply f) h

theorem Keeps.get {Q : State → State → Prop} (rf : ∀ a, Q a a) : Keeps Q (get : M State) :=
  Keeps.of_ok (f := fun s => (s, s)) M.get_apply rf

theorem Keeps.free {Q : State → State → Prop} (w : Nat) (h : ∀ s, Q s { s with freeCount := s.freeCount + 1 }) :
    Keeps Q (free w) :=
  Keeps.of_ok (f := fun s => (Config.freeBits w s.freeCount, { s with freeCount := s.freeCount + 1 }))
    (M.free_apply w) h

theorem Keeps.fault {α : Type} {Q : State → State → Prop} (f : Fault) : Keeps Q (M.fault f : M α) := by
  intro s
  constructor <;> intros <;> simp_all

theorem Keeps.refuse {α : Type} {Q : State → State → Prop} (r : Refusal) : Keeps Q (M.refuse r : M α) := by
  intro s
  constructor <;> intros <;> simp_all

/-- An operation whose every end is a state `Q` allows keeps `Q`. -/
theorem Keeps.of_ends {α : Type} {Q : State → State → Prop} {x : M α}
    (h : ∀ s, (∃ a t, x s = .ok (a, t) ∧ Q s t) ∨ (∃ t, x s = .error (.abandoned t) ∧ Q s t) ∨
      ∃ f, x s = .error (.fault f)) : Keeps Q x := by
  intro s
  rcases h s with ⟨a, t, e, q⟩ | ⟨t, e, q⟩ | ⟨f, e⟩ <;> rw [e]
  · refine ⟨fun b u hu => ?_, fun u hu => ?_⟩
    · cases hu; exact q
    · cases hu
  · refine ⟨fun b u hu => ?_, fun u hu => ?_⟩
    · cases hu
    · cases hu; exact q
  · refine ⟨fun b u hu => ?_, fun u hu => ?_⟩ <;> cases hu

/-- A place where RESET may fall keeps `Q` if its count does not matter to `Q` (R702). -/
theorem Keeps.resetPoint {Q : State → State → Prop} (rf : ∀ a, Q a a) (h : ∀ s k, Q s { s with resetIn := k }) :
    Keeps Q resetPoint := by
  refine Keeps.of_ends fun s => ?_
  rcases resetPoint_inv s with ⟨k, e⟩ | e
  · exact .inl ⟨(), _, e, h s k⟩
  · exact .inr (.inl ⟨s, e, rf s⟩)

theorem Keeps.busAddr {Q : State → State → Prop} (rf : ∀ a, Q a a) (a : Addr) (b : Bool) : Keeps Q (busAddr a b) := by
  refine Keeps.of_ends fun s => ?_
  rcases busAddr_inv a b s with ⟨a', e⟩ | e
  · exact .inl ⟨a', s, e, rf s⟩
  · exact .inr (.inr ⟨_, e⟩)

/-- A transaction keeps `Q` if the count of `resetPoint` and the MMUs do not matter to `Q` (R110, R702). -/
theorem Keeps.translate {Q : State → State → Prop} (tr : ∀ {a b c}, Q a b → Q b c → Q a c) (rf : ∀ a, Q a a)
    (h1 : ∀ s k, Q s { s with resetIn := k }) (h2 : ∀ s ms, Q s { s with mmus := ms }) (l : Label) (a : Addr)
    (w b : Bool) : Keeps Q (translate l a w b) := by
  refine Keeps.bind (Q := Q) tr (Keeps.resetPoint rf h1) fun _ =>
    Keeps.bind (Q := Q) tr (Keeps.busAddr rf a b) fun a' => ?_
  refine Keeps.of_ends fun s => ?_
  obtain ⟨p, ms, e⟩ := route_inv l a' w b s
  exact .inl ⟨p, _, e, h2 s ms⟩

/-- What an instruction's next state has, from what its operation keeps. -/
theorem Keeps.run {Q : State → State → Prop} {x : M Unit} (h : Keeps Q x) {s t : State} (e : M.run x s = .next t) :
    Q s t := by
  rcases M.run_next.1 e with e | e
  · exact (h s).1 () t e
  · exact (h s).2 t e

/-! Loading an address (R215, R216). -/

/-- In nonsegmented mode the offset is loaded. -/
theorem loadAddress_nonseg (d : Reg) (a : Addr) (s : State) (h : s.isSeg = false) :
    loadAddress d a s = .ok ((), s.setReg d a.off) := by
  simp [loadAddress, M.bind_apply, h, State.setRegAt]

/-- In segmented mode a pair is loaded, with any value in its reserved bits (U12). -/
theorem loadAddress_seg (d : Reg) (a : Addr) (s : State) (h : s.isSeg = true) :
    ∃ (r31 : BitVec 1) (r16 : Byte) (n : Nat), loadAddress d a s =
      .ok ((), ({ s with freeCount := n }).setRegL d (r31 ++ a.seg ++ r16 ++ a.off)) :=
  ⟨_, _, _, by simp [loadAddress, M.bind_apply, h, State.setRegAt]; rfl⟩

end Sys2Proof.Machine
end

