-- ==== Sys2Proof/Laws/Block.lean ====
section
/-! SUPPORT. What the shared operations of the block, string and input/output instructions do, said once; and that every
memory operation keeps the canonical form of memory. -/

namespace Sys2Proof.Machine

open Sys2Proof

/-! Registers and the fields that do not matter to them. -/

theorem State.setReg_of_r15 (s : State) (n : Reg) (v : Word) (a : n = 15 ∧ s.fcw.sn = true) :
    s.setReg n v = { s with sysR15 := v } := by
  unfold State.setReg; rw [if_pos a]

theorem State.setReg_of_r14 (s : State) (n : Reg) (v : Word) (a : ¬(n = 15 ∧ s.fcw.sn = true))
    (b : n = 14 ∧ s.fcw.sn = true ∧ s.isSeg = true) : s.setReg n v = { s with sysR14 := v } := by
  unfold State.setReg; rw [if_neg a, if_pos b]

theorem State.setReg_of_other (s : State) (n : Reg) (v : Word) (a : ¬(n = 15 ∧ s.fcw.sn = true))
    (b : ¬(n = 14 ∧ s.fcw.sn = true ∧ s.isSeg = true)) : s.setReg n v = { s with regs := s.regs.set n v } := by
  unfold State.setReg; rw [if_neg a, if_neg b]

/-- A register write and a change of FCW that leaves the mode, of the free counter, of the events and of the device
values do not meet. -/
theorem State.setReg_with (s : State) (n : Reg) (v : Word) (f : Fcw) (k : Nat) (e : List BusEvent) (i : List Word)
    (h1 : f.sn = s.fcw.sn) (h2 : f.seg = s.fcw.seg) :
    ({ s with freeCount := k, fcw := f, events := e, ioIn := i } : State).setReg n v =
      { s.setReg n v with freeCount := k, fcw := f, events := e, ioIn := i } := by
  have hs : ({ s with freeCount := k, fcw := f, events := e, ioIn := i } : State).isSeg = s.isSeg := by
    simp only [State.isSeg, h2]
  by_cases a : n = 15 ∧ s.fcw.sn = true
  · rw [State.setReg_of_r15 s n v a, State.setReg_of_r15 _ n v (by simpa only [h1] using a)]
  · have a' : ¬(n = 15 ∧ f.sn = true) := by simpa only [h1] using a
    by_cases b : n = 14 ∧ s.fcw.sn = true ∧ s.isSeg = true
    · rw [State.setReg_of_r14 s n v a b, State.setReg_of_r14 _ n v a' (by simpa only [h1, hs] using b)]
    · rw [State.setReg_of_other s n v a b, State.setReg_of_other _ n v a' (by simpa only [h1, hs] using b)]

theorem State.setReg_resetIn_with (s : State) (n : Reg) (v : Word) (k : Option Nat) :
    ({ s with resetIn := k } : State).setReg n v = { s.setReg n v with resetIn := k } := by
  have hs : ({ s with resetIn := k } : State).isSeg = s.isSeg := rfl
  unfold State.setReg
  rw [hs]
  split
  · rfl
  · split <;> rfl

theorem State.setReg_self (s : State) (n : Reg) : s.setReg n (s.reg n) = s := by
  unfold State.setReg State.reg
  by_cases a : n = 15 ∧ s.fcw.sn = true
  · simp only [a, and_self, if_true]
  · by_cases b : n = 14 ∧ s.fcw.sn = true ∧ s.isSeg = true
    · rw [if_neg a, if_pos b, if_neg a, if_pos b]
    · rw [if_neg a, if_neg b, if_neg a, if_neg b]
      have : s.regs.set n s.regs[n] = s.regs := by simp
      rw [this]

theorem State.setReg_setReg (s : State) (n : Reg) (v w : Word) : (s.setReg n v).setReg n w = s.setReg n w := by
  by_cases a : n = 15 ∧ s.fcw.sn = true
  · simp only [State.setReg, if_pos a]
  · by_cases b : n = 14 ∧ s.fcw.sn = true ∧ s.isSeg = true
    · have b' : n = 14 ∧ s.fcw.sn = true ∧ ({ s with sysR14 := v } : State).isSeg = true := b
      simp only [State.setReg, if_neg a, if_pos b, if_pos b']
    · have b' : ¬(n = 14 ∧ s.fcw.sn = true ∧ ({ s with regs := s.regs.set n v } : State).isSeg = true) := b
      simp only [State.setReg, if_neg a, if_neg b, if_neg b', Vector.set_set]

theorem State.reg_with (s : State) (n : Reg) (f : Fcw) (k : Nat) (e : List BusEvent) (i : List Word)
    (h1 : f.sn = s.fcw.sn) (h2 : f.seg = s.fcw.seg) :
    ({ s with freeCount := k, fcw := f, events := e, ioIn := i } : State).reg n = s.reg n := by
  simp only [State.reg, State.isSeg, h1, h2]
  congr

theorem State.stepPtr_with (s : State) (n : Reg) (v : Word) (f : Fcw) (k : Nat) (e : List BusEvent) (i : List Word)
    (h1 : f.sn = s.fcw.sn) (h2 : f.seg = s.fcw.seg) :
    ({ s with freeCount := k, fcw := f, events := e, ioIn := i } : State).stepPtr n v =
      { s.stepPtr n v with freeCount := k, fcw := f, events := e, ioIn := i } := by
  have ho : ({ s with freeCount := k, fcw := f, events := e, ioIn := i } : State).offReg n = s.offReg n := by
    simp only [State.offReg, State.isSeg, h2]
    congr
  unfold State.stepPtr
  rw [ho, State.reg_with s _ f k e i h1 h2, State.setReg_with s _ _ f k e i h1 h2]

@[simp] theorem State.counted_reg (s : State) (r : Reg) : (s.counted r).reg r = s.reg r - 1 := by
  simp [State.counted]

@[simp] theorem State.counted_fcw (s : State) (r : Reg) : (s.counted r).fcw = s.fcw := by
  simp [State.counted]

@[simp] theorem State.counted_pcOff (s : State) (r : Reg) : (s.counted r).pcOff = s.pcOff := by
  simp [State.counted]

@[simp] theorem State.counted_instrPc (s : State) (r : Reg) : (s.counted r).instrPc = s.instrPc := by
  simp [State.counted]

/-! Elements (R370, R371). -/

theorem readPtr_plain (wd : Width) (p : Reg) (s : State) (h : s.plain) (ha : (s.addrOf p).aligned wd = true) :
    readPtr wd p s = .ok (s.elem wd p, s) := by
  unfold readPtr
  rw [M.bind_ok (M.get_apply s)]
  exact readMem_plain _ _ wd s h ha

theorem writePtr_plain (wd : Width) (p : Reg) (v : BitVec wd.bits) (s : State) (h : s.plain)
    (ha : (s.addrOf p).aligned wd = true) : writePtr wd p v s = .ok ((), s.elemPut wd p v) := by
  unfold writePtr
  rw [M.bind_ok (M.get_apply s)]
  exact writeMem_plain _ _ wd v s h ha

theorem stepElement_plain (wd : Width) (up : Bool) (p : Reg) (s : State) (h : s.resetIn = none) :
    stepElement wd up p s = .ok ((), s.stepPtr p (elementStep wd up)) := by
  unfold stepElement
  rw [M.bind_ok (resetPoint_none s h)]
  rfl

theorem countElement_plain (r : Reg) (s : State) (h : s.resetIn = none) :
    countElement r s = .ok (s.reg r - 1 == 0, (s.counted r).withFcw { s.fcw with pv := s.reg r - 1 == 0 }) := by
  simp only [countElement, M.bind_ok (resetPoint_none s h), M.bind_ok (M.get_apply s), M.bind_apply, State.counted]
  simp
  rfl

@[simp] theorem freeZ_apply (s : State) :
    freeZ s = .ok ((), ({ s with freeCount := s.freeCount + 1 }).withFcw
      { s.fcw with z := (Config.freeBits 1 s.freeCount).getLsbD 0 }) := rfl

theorem repeatUnless_apply (done : Bool) (s : State) :
    repeatUnless done s = .ok ((), if done then s else { s with pcOff := s.instrPc }) := by
  cases done <;> rfl

/-- A form without repetition goes on after its element. -/
theorem once_next {x : M Bool} {s t : State} {done : Bool} (h : x s = .ok (done, t)) :
    M.run (once x) s = .next t := by
  apply M.run_ok
  unfold once
  rw [M.bind_ok h]
  rfl

/-- A repeating form goes back to itself unless its element ended the repetition (R371). -/
theorem repeating_next {x : M Bool} {s t : State} {done : Bool} (h : x s = .ok (done, t)) :
    M.run (repeating x) s = .next (if done then t else { t with pcOff := t.instrPc }) := by
  apply M.run_ok
  unfold repeating
  rw [M.bind_ok h]
  exact repeatUnless_apply done t

/-! The loop of MREQ (R481). -/

/-- The loop turn by turn: RESET may fall before each decrement. -/
def delayTurns (d : Reg) : Nat → M Unit
  | 0 => pure ()
  | k + 1 => do
    resetPoint
    modify fun s => s.setReg d (s.reg d - 1)
    delayTurns d k

/-- `k` turns of the loop: the register is less by as many turns as RESET lets begin. -/
theorem delayTurns_apply (d : Reg) (k : Nat) (s : State) :
    delayTurns d k s = match s.resetIn with
      | none => .ok ((), s.setReg d (s.reg d - BitVec.ofNat 16 k))
      | some m =>
        if m < k then .error (.abandoned { s.setReg d (s.reg d - BitVec.ofNat 16 m) with resetIn := some 0 })
        else .ok ((), { s.setReg d (s.reg d - BitVec.ofNat 16 k) with resetIn := some (m - k) }) := by
  have sub : ∀ (x : Word) (j : Nat), x - 1 - BitVec.ofNat 16 j = x - BitVec.ofNat 16 (j + 1) := by
    intro x j
    rw [BitVec.ofNat_add]
    bv_omega
  induction k generalizing s with
  | zero =>
    cases h : s.resetIn with
    | none => simp [delayTurns, State.setReg_self]
    | some m => simp [delayTurns, State.setReg_self, ← h]
  | succ k ih =>
    unfold delayTurns
    cases h : s.resetIn with
    | none =>
      rw [M.bind_ok (resetPoint_none s h), M.bind_ok (M.modify_apply _ s), ih]
      simp only [State.setReg_resetIn, h, State.reg_setReg_same, State.setReg_setReg, sub]
    | some m =>
      cases m with
      | zero =>
        have e : resetPoint s = .error (.abandoned s) := by simp [resetPoint, h]
        rw [M.bind_abandoned e]
        simp [State.setReg_self, ← h]
      | succ m =>
        have e : resetPoint s = .ok ((), { s with resetIn := some m }) := by simp [resetPoint, h]
        rw [M.bind_ok e, M.bind_ok (M.modify_apply _ _), ih]
        have hr : ({ s with resetIn := some m } : State).reg d = s.reg d := rfl
        simp only [State.setReg_resetIn_with, hr]
        have hs : ∀ (t : State) (k : Option Nat) , ({ t with resetIn := k } : State).reg d = t.reg d := fun _ _ => rfl
        simp only [hs, State.reg_setReg_same, State.setReg_setReg, sub]
        simp

/-- `delayLoop` is the loop turn by turn, as often as the register says. -/
theorem delayLoop_turns (d : Reg) (s : State) : delayLoop d s = delayTurns d (delayCount (s.reg d)) s := by
  have z : ∀ x : Word, x - BitVec.ofNat 16 (delayCount x) = 0 := by
    intro x
    unfold delayCount
    bv_omega
  rw [delayTurns_apply]
  unfold delayLoop
  cases h : s.resetIn with
  | none => simp [z]
  | some m => simp [z]
/-! Several words at once (R220). -/

/-- A register write does not move a label's place in memory, nor what stands there. -/
theorem State.setReg_wordAt (s : State) (n : Reg) (v : Word) (l : Label) (a : Addr) :
    (s.setReg n v).wordAt l a = s.wordAt l a := by
  simp [State.wordAt, State.key]

/-- LDM into registers (R220): one register write after another, each from the words of memory as they stand. -/
theorem loadMultiple_plain (l : Label) (a : Addr) (r : Reg) (k i : Nat) (s : State) (h : s.plain)
    (ha : a.off.getLsbD 0 = false) :
    loadMultiple l a r i k s = .ok ((), (List.range' i k).foldl
      (fun t j => t.setReg (regAfter r j) (s.wordAt l (wordAfter a j))) s) := by
  induction k generalizing i s with
  | zero => rfl
  | succ k ih =>
    have he : (wordAfter a i).off.getLsbD 0 = false := Addr.add_even _ _ (by simp [BitVec.getLsbD]) ha
    unfold loadMultiple
    rw [M.bind_ok (readWord_plain l _ s h he), M.bind_ok (writeReg_apply .w _ _ s)]
    refine (ih (i + 1) (s.setRegAt .w (regAfter r i) (s.wordAt l (wordAfter a i))) ?_).trans ?_
    · simpa [State.plain, State.setRegAt] using h
    · simp [List.range'_succ, State.setRegAt, State.setReg_wordAt]

/-- A store changes no register. -/
theorem State.storeWord_reg (s : State) (l : Label) (a : Addr) (v : Word) (n : Reg) :
    (s.storeWord l a v).reg n = s.reg n := rfl

/-- LDM from registers (R220): one store after another, each of a register as it stands. -/
theorem storeMultiple_plain (l : Label) (a : Addr) (r : Reg) (k i : Nat) (s : State) (h : s.plain)
    (ha : a.off.getLsbD 0 = false) :
    storeMultiple l a r i k s = .ok ((), (List.range' i k).foldl
      (fun t j => t.storeWord l (wordAfter a j) (s.reg (regAfter r j))) s) := by
  induction k generalizing i s with
  | zero => rfl
  | succ k ih =>
    have he : (wordAfter a i).off.getLsbD 0 = false := Addr.add_even _ _ (by simp [BitVec.getLsbD]) ha
    unfold storeMultiple
    rw [M.bind_ok (readReg_apply .w _ s), M.bind_ok (writeWord_plain l _ _ s h he)]
    refine (ih (i + 1) (s.storeWord l (wordAfter a i) (s.regAt .w (regAfter r i))) ?_).trans ?_
    · simpa [State.plain] using h
    · simp [List.range'_succ, State.regAt, State.storeWord_reg]

/-! Input and output without MMUs (R76). -/

/-- The value a device supplies: the next of the environment, or a free one. -/
theorem deviceWord_inv (s : State) : ∃ (v : Word) (rest : List Word) (k : Nat),
    (s.ioIn = v :: rest ∨ (s.ioIn = [] ∧ rest = [])) ∧
    deviceWord s = .ok (v, { s with ioIn := rest, freeCount := k }) := by
  cases hi : s.ioIn with
  | nil =>
    refine ⟨Config.freeBits 16 s.freeCount, [], s.freeCount + 1, .inr ⟨rfl, rfl⟩, ?_⟩
    unfold deviceWord
    rw [M.bind_ok (M.get_apply s), hi]
    cases s
    simp_all
  | cons v rest =>
    refine ⟨v, rest, s.freeCount, .inl rfl, ?_⟩
    unfold deviceWord
    rw [M.bind_ok (M.get_apply s), hi]
    rfl

theorem ioWrite_plain (sp : IoSpace) (port : Word) (wd : Width) (v : Word) (s : State) (h : s.units = [])
    (hi : s.resetIn = none) : ioWrite sp port wd v s = .ok ((), { s with events := .ioWrite sp port wd.bytes v :: s.events }) := by
  unfold ioWrite
  rw [M.bind_ok (resetPoint_none s hi), M.bind_ok (M.modify_apply _ s), logEvent_apply, State.mapUnits_none _ s h]

/-! The canonical form of memory (R70). -/

/-- The operation keeps memory in canonical form. -/
abbrev KeepsWf {α : Type} (x : M α) : Prop := Keeps (fun s t : State => s.mem.wf = true → t.mem.wf = true) x

theorem reset_mem_wf : State.reset.mem.wf = true := rfl

theorem KeepsWf.bind {α β : Type} {x : M α} {f : α → M β} (hx : KeepsWf x) (hf : ∀ a, KeepsWf (f a)) :
    KeepsWf (x >>= f) := Keeps.bind (fun h1 h2 h => h2 (h1 h)) hx hf

theorem KeepsWf.pure {α : Type} (a : α) : KeepsWf (Pure.pure a : M α) := Keeps.pure (fun _ h => h) a

theorem free_wf (w : Nat) : KeepsWf (free w) := Keeps.free w fun _ h => h

theorem translate_wf (l : Label) (a : Addr) (w b : Bool) : KeepsWf (translate l a w b) :=
  Keeps.translate (fun h1 h2 h => h2 (h1 h)) (fun _ h => h) (fun _ _ h => h) (fun _ _ h => h) l a w b

theorem readByte_wf (l : Label) (a : Addr) : KeepsWf (readByte l a) := by
  refine KeepsWf.bind (translate_wf l a false false) fun k => ?_
  cases k with
  | none => exact free_wf 8
  | some k => exact KeepsWf.bind (Keeps.get fun _ h => h) fun s => KeepsWf.pure _

theorem readWord_wf (l : Label) (a : Addr) : KeepsWf (readWord l a) := by
  refine KeepsWf.bind (translate_wf l a false true) fun k => ?_
  cases k with
  | none => exact free_wf 16
  | some k => exact KeepsWf.bind (Keeps.get fun _ h => h) fun s => KeepsWf.pure _

theorem writeByte_wf (l : Label) (a : Addr) (v : Byte) : KeepsWf (writeByte l a v) := by
  refine KeepsWf.bind (translate_wf l a true false) fun k => ?_
  cases k with
  | none => exact KeepsWf.pure _
  | some k => exact Keeps.modify fun s h => Memory.write_wf _ _ _ h

theorem writeWord_wf (l : Label) (a : Addr) (v : Word) : KeepsWf (writeWord l a v) := by
  refine KeepsWf.bind (translate_wf l a true true) fun k => ?_
  cases k with
  | none => exact KeepsWf.pure _
  | some k => exact Keeps.modify fun s h => Memory.writeWord_wf _ _ _ h

/-- Every read of memory keeps the canonical form. -/
theorem readMem_wf (l : Label) (a : Addr) (wd : Width) : KeepsWf (readMem l a wd) := by
  cases wd with
  | b => exact readByte_wf l a
  | w => exact readWord_wf l a
  | l => exact KeepsWf.bind (readWord_wf l a) fun _ => KeepsWf.bind (readWord_wf l _) fun _ => KeepsWf.pure _

/-- Every write of memory keeps the canonical form. -/
theorem writeMem_wf (l : Label) (a : Addr) (wd : Width) (v : BitVec wd.bits) : KeepsWf (writeMem l a wd v) := by
  cases wd with
  | b => exact writeByte_wf l a v
  | w => exact writeWord_wf l a v
  | l => exact KeepsWf.bind (writeWord_wf l a _) fun _ => writeWord_wf l _ _

end Sys2Proof.Machine
end

