-- ==== Sys2Proof/Laws/Decode.lean ====
section
/-! SUPPORT. What the pieces of the decoder read from the words the encoder writes, and that a decoder which needs all
of some words reports every shorter beginning of them as truncated. -/

namespace Sys2Proof

/-! Composition. -/

theorem D.bind_apply {α β : Type} (x : D α) (f : α → D β) (ws : List Word) :
    (x >>= f) ws = match x ws with
      | .ok (a, r) => f a r
      | .error e => .error e := by
  show (StateT.bind x f) ws = _
  unfold StateT.bind
  show Except.bind (x ws) _ = _
  cases x ws <;> rfl

theorem D.bind_ok {α β : Type} {x : D α} {f : α → D β} {ws r : List Word} {a : α} (h : x ws = .ok (a, r)) :
    (x >>= f) ws = f a r := by
  rw [D.bind_apply, h]

@[simp] theorem D.pure_apply {α : Type} (a : α) (ws : List Word) : (pure a : D α) ws = .ok (a, ws) := rfl
@[simp] theorem D.word_cons (w : Word) (ws : List Word) : D.word (w :: ws) = .ok (w, ws) := rfl

/-! Fields of a word put together from fields. -/

theorem mkW_toNat (op : Nat) (a b : Fin 16) (h : op < 256) : (mkW op a b).toNat = op * 256 + a.val * 16 + b.val := by
  unfold mkW
  rw [BitVec.toNat_ofNat, Nat.mod_eq_of_lt]
  omega

theorem mkW_op (op : Nat) (a b : Fin 16) (h : op < 256) : (mkW op a b).op = op := by
  unfold Word.op
  rw [mkW_toNat op a b h]
  omega

theorem mkW_n1 (op : Nat) (a b : Fin 16) (h : op < 256) : (mkW op a b).n1 = a := by
  apply Fin.ext
  show (mkW op a b).toNat / 16 % 16 = _
  rw [mkW_toNat op a b h]
  omega

theorem mkW_n0 (op : Nat) (a b : Fin 16) (h : op < 256) : (mkW op a b).n0 = b := by
  apply Fin.ext
  show (mkW op a b).toNat % 16 = _
  rw [mkW_toNat op a b h]
  omega

/-- The second words `0000 xxxx yyyy zzzz`. -/
theorem mkW_n3 (x a b : Fin 16) : (mkW x.val a b).n3 = 0 := by
  apply Fin.ext
  show (mkW x.val a b).toNat / 4096 % 16 = _
  rw [mkW_toNat x.val a b (by omega)]
  simp only [Fin.val_zero]
  omega

theorem mkW_n2 (x a b : Fin 16) : (mkW x.val a b).n2 = x := by
  apply Fin.ext
  show (mkW x.val a b).toNat / 256 % 16 = _
  rw [mkW_toNat x.val a b (by omega)]
  omega

theorem mkB_toNat (op v : Nat) (h : op < 256) (hv : v < 256) : (mkB op v).toNat = op * 256 + v := by
  unfold mkB
  rw [BitVec.toNat_ofNat, Nat.mod_eq_of_lt]
  omega

theorem mkB_op (op v : Nat) (h : op < 256) (hv : v < 256) : (mkB op v).op = op := by
  unfold Word.op
  rw [mkB_toNat op v h hv]
  omega

/-! Operands: what the decoder reads from the encoder's words. -/

/-- An address. -/
theorem D.iaddr_words (seg : Bool) (a : IAddr) (rest : List Word) (h : a.wf seg = true) :
    D.iaddr seg (a.words ++ rest) = .ok (a, rest) := by
  cases a with
  | ns a =>
    cases seg with
    | true => simp [IAddr.wf] at h
    | false => rfl
  | short sg off =>
    cases seg with
    | false => simp [IAddr.wf] at h
    | true =>
      have hm : (0#1 ++ sg ++ off : Word).msb = false := by
        rw [BitVec.msb_eq_getLsbD_last]
        simp only [BitVec.getLsbD_append]
        rfl
      have h1 : (0#1 ++ sg ++ off : Word).extractLsb' 8 7 = sg := by
        ext i hi
        rw [BitVec.getElem_extractLsb']
        simp only [BitVec.getLsbD_append]
        have : ¬ (8 + i < 8) := by omega
        have e : 8 + i - 8 = i := by omega
        simp [this, e, hi]
      have h2 : Word.lo (0#1 ++ sg ++ off : Word) = off := by
        ext i hi
        unfold Word.lo
        rw [BitVec.getElem_extractLsb']
        simp only [BitVec.getLsbD_append]
        simp [hi]
      show D.iaddr true ((0#1 ++ sg ++ off) :: rest) = _
      unfold D.iaddr
      rw [D.bind_ok (D.word_cons _ _)]
      simp only [if_true]
      rw [hm, h1, h2]
      rfl
  | long sg off =>
    cases seg with
    | false => simp [IAddr.wf] at h
    | true =>
      have hm : (1#1 ++ sg ++ 0#8 : Word).msb = true := by
        rw [BitVec.msb_eq_getLsbD_last]
        simp only [BitVec.getLsbD_append]
        rfl
      have h1 : (1#1 ++ sg ++ 0#8 : Word).extractLsb' 8 7 = sg := by
        ext i hi
        rw [BitVec.getElem_extractLsb']
        simp only [BitVec.getLsbD_append]
        have : ¬ (8 + i < 8) := by omega
        have e : 8 + i - 8 = i := by omega
        simp [this, e, hi]
      show D.iaddr true ((1#1 ++ sg ++ 0#8) :: off :: rest) = _
      unfold D.iaddr
      rw [D.bind_ok (D.word_cons _ _)]
      simp only [if_true]
      rw [hm, if_pos rfl, D.bind_ok (D.word_cons _ _), h1]
      rfl

/-- An IR, DA or X operand. -/
theorem D.mem_enc (seg : Bool) (m : Mem) (rest : List Word) (h : m.wf seg = true) :
    D.mem seg m.enc.mode m.enc.field (m.enc.words ++ rest) = .ok (m, rest) := by
  cases m with
  | ir r =>
    have : r ≠ 0 := by
      intro e
      simp [Mem.wf, Reg.isPtr, e] at h
    show (if r = 0 then D.reserved else pure (Mem.ir r) : D Mem) rest = _
    rw [if_neg this]
    rfl
  | da a =>
    show (do let x ← D.iaddr seg; pure (if (0 : Reg) = 0 then Mem.da x else Mem.x x 0) : D Mem) (a.words ++ rest) = _
    rw [D.bind_ok (D.iaddr_words seg a rest h)]
    rfl
  | x a i =>
    have hw : a.wf seg = true ∧ i ≠ 0 := by
      simp [Mem.wf] at h
      exact ⟨h.1, h.2⟩
    show (do let x ← D.iaddr seg; pure (if i = 0 then Mem.da x else Mem.x x i) : D Mem) (a.words ++ rest) = _
    rw [D.bind_ok (D.iaddr_words seg a rest hw.1)]
    simp [hw.2]

/-- The modes of a memory operand. -/
theorem Mem.enc_mode (m : Mem) : m.enc.mode = 0 ∨ m.enc.mode = 1 := by
  cases m <;> simp [Mem.enc]

/-- An operand of mode 0 has a register field that is not 0: no other encoding is meant. -/
theorem Mem.enc_field (seg : Bool) (m : Mem) (h : m.wf seg = true) (hm : m.enc.mode = 0) : m.enc.field ≠ 0 := by
  cases m with
  | ir r =>
    intro e
    have e' : r = 0 := e
    simp [Mem.wf, Reg.isPtr, e'] at h
  | da a => simp [Mem.enc] at hm
  | x a i => simp [Mem.enc] at hm

/-- An R, IR, DA or X operand. -/
theorem D.dst_enc (seg : Bool) (wd : Width) (d : Dst) (rest : List Word) (h : d.wf seg wd = true) :
    D.dst seg d.enc.mode d.enc.field (d.enc.words ++ rest) = .ok (d, rest) := by
  cases d with
  | reg r => rfl
  | mem m =>
    have hm : m.enc.mode ≠ 2 := by rcases m.enc_mode with e | e <;> omega
    show D.dst seg m.enc.mode m.enc.field (m.enc.words ++ rest) = _
    unfold D.dst
    rw [if_neg hm, D.bind_ok (D.mem_enc seg m rest h)]
    rfl

/-- An immediate. -/
theorem D.imm_words (wd : Width) (v : BitVec wd.bits) (rest : List Word) :
    D.imm wd (immWords wd v ++ rest) = .ok (v, rest) := by
  cases wd with
  | b =>
    show Except.ok (Word.lo (v ++ v), rest) = _
    unfold Word.lo
    rw [show BitVec.extractLsb' 0 8 (v ++ v) = v from BitVec.extractLsb'_append_eq_right]
  | w => rfl
  | l =>
    show Except.ok ((BitVec.extractLsb' 16 16 v ++ BitVec.extractLsb' 0 16 v : Long), rest) = _
    congr 2
    ext i hi
    have hi : i < 32 := hi
    rw [BitVec.getElem_append]
    split
    · simp [BitVec.getLsbD_eq_getElem hi]
    · have : 16 + (i - 16) = i := by omega
      simp [this, BitVec.getLsbD_eq_getElem hi]

/-- An R, IM, IR, DA or X operand. -/
theorem D.src_enc (seg : Bool) {wd : Width} (x : Src wd) (rest : List Word) (h : x.wf seg = true) :
    D.src seg wd x.enc.mode x.enc.field (x.enc.words ++ rest) = .ok (x, rest) := by
  cases x with
  | reg r => rfl
  | imm v =>
    show (do let v ← D.imm wd; pure (Src.imm v) : D (Src wd)) (immWords wd v ++ rest) = _
    rw [D.bind_ok (D.imm_words wd v rest)]
    rfl
  | mem m =>
    have h2 : m.enc.mode ≠ 2 := by rcases m.enc_mode with e | e <;> omega
    have h0 : ¬(m.enc.mode = 0 ∧ m.enc.field = 0) := fun e => m.enc_field seg h e.1 e.2
    show D.src seg wd m.enc.mode m.enc.field (m.enc.words ++ rest) = _
    unfold D.src
    rw [if_neg h2, if_neg h0, D.bind_ok (D.mem_enc seg m rest h)]
    rfl

/-- The mode of an operand is at most 2. -/
theorem Dst.enc_mode (d : Dst) : d.enc.mode ≤ 2 := by
  cases d with
  | reg r => exact Nat.le_refl 2
  | mem m => rcases m.enc_mode with e | e <;> simp [Dst.enc, e]

theorem Src.enc_mode {wd : Width} (x : Src wd) : x.enc.mode ≤ 2 := by
  cases x with
  | reg r => exact Nat.le_refl 2
  | imm v => exact Nat.zero_le 2
  | mem m => rcases m.enc_mode with e | e <;> simp [Src.enc, e]

/-! A beginning of an instruction's words is truncated (R159). -/

/-- A decoder reads its words in order: where it succeeds it consumes a beginning of the words and does the same before
any others, and on a shorter beginning it reports that the words end too soon. -/
structure D.Ordered {α : Type} (x : D α) : Prop where
  consumes : ∀ ws a r, x ws = .ok (a, r) → ∃ p, ws = p ++ r ∧ ∀ r', x (p ++ r') = .ok (a, r')
  truncated : ∀ ws a r p q, x ws = .ok (a, r) → ws = p ++ q ++ r → q ≠ [] → x p = .error .truncated

theorem D.Ordered.pure {α : Type} (a : α) : D.Ordered (pure a : D α) := by
  constructor
  · intro ws b r h
    simp at h
    exact ⟨[], by simp [h.2], fun r' => by simp [h.1]⟩
  · intro ws b r p q h e hq
    simp at h
    rw [h.2] at e
    have := congrArg List.length e
    have hl : 0 < q.length := List.length_pos_iff.2 hq
    simp at this
    omega

theorem D.Ordered.reserved {α : Type} : D.Ordered (D.reserved : D α) := by
  constructor <;> intro ws a r <;> intros <;> simp_all [D.reserved]

theorem D.Ordered.word : D.Ordered D.word := by
  constructor
  · intro ws a r h
    cases ws with
    | nil => simp [D.word] at h
    | cons w ws =>
      simp at h
      exact ⟨[w], by simp [h.2], fun r' => by simp [h.1]⟩
  · intro ws a r p q h e hq
    cases ws with
    | nil => simp [D.word] at h
    | cons w ws =>
      simp at h
      cases p with
      | nil => rfl
      | cons x p =>
        exfalso
        rw [h.2] at e
        have := congrArg List.length e
        have hl : 0 < q.length := List.length_pos_iff.2 hq
        simp at this
        omega

theorem D.Ordered.bind {α β : Type} {x : D α} {f : α → D β} (hx : D.Ordered x) (hf : ∀ a, D.Ordered (f a)) :
    D.Ordered (x >>= f) := by
  constructor
  · intro ws b r h
    rw [D.bind_apply] at h
    cases hw : x ws with
    | error e => simp [hw] at h
    | ok v =>
      obtain ⟨a, u⟩ := v
      simp only [hw] at h
      obtain ⟨p, hp, hp'⟩ := hx.consumes ws a u hw
      obtain ⟨p2, hp2, hp2'⟩ := (hf a).consumes u b r h
      refine ⟨p ++ p2, by rw [hp, hp2, List.append_assoc], fun r' => ?_⟩
      rw [List.append_assoc, D.bind_ok (hp' _)]
      exact hp2' r'
  · intro ws b r p q h e hq
    rw [D.bind_apply] at h
    cases hw : x ws with
    | error e => simp [hw] at h
    | ok v =>
      obtain ⟨a, u⟩ := v
      simp only [hw] at h
      obtain ⟨p1, hp1, hp1'⟩ := hx.consumes ws a u hw
      obtain ⟨p2, hp2, hp2'⟩ := (hf a).consumes u b r h
      have e2 : p1 ++ p2 = p ++ q := by
        rw [hp1, hp2, ← List.append_assoc] at e
        exact List.append_cancel_right e
      by_cases hle : p1.length ≤ p.length
      · obtain ⟨c, hc⟩ : ∃ c, p = p1 ++ c := by
          refine ⟨p.drop p1.length, ?_⟩
          have := congrArg (List.take p1.length) e2
          rw [List.take_left, List.take_append_of_le_length hle] at this
          rw [this]
          exact (List.take_append_drop _ _).symm.trans (by rw [List.length_take, Nat.min_eq_left hle])
        rw [hc, D.bind_ok (hp1' c)]
        refine (hf a).truncated u b r c q h ?_ hq
        rw [hp2]
        rw [hc, List.append_assoc] at e2
        rw [List.append_cancel_left e2]
      · obtain ⟨c, hc⟩ : ∃ c, p1 = p ++ c := by
          refine ⟨p1.drop p.length, ?_⟩
          have := congrArg (List.take p.length) e2
          rw [List.take_left, List.take_append_of_le_length (by omega)] at this
          rw [← this]
          exact (List.take_append_drop _ _).symm.trans (by rw [List.length_take, Nat.min_eq_left (by omega)])
        have hcn : c ≠ [] := by
          intro hn
          rw [hn, List.append_nil] at hc
          rw [hc] at hle
          exact hle (Nat.le_refl _)
        have := hx.truncated ws a u p c hw (by rw [hp1, hc]) hcn
        rw [D.bind_apply, this]

theorem D.Ordered.ite {α : Type} {c : Prop} [Decidable c] {x y : D α} (hx : D.Ordered x) (hy : D.Ordered y) :
    D.Ordered (if c then x else y) := by
  split
  · exact hx
  · exact hy

/-! Every piece of the decoder is ordered. -/

theorem D.Ordered.iaddr (seg : Bool) : D.Ordered (D.iaddr seg) := by
  unfold D.iaddr
  repeat' first
    | exact D.Ordered.pure _ | exact D.Ordered.reserved | exact D.Ordered.word
    | refine D.Ordered.bind ?_ (fun _ => ?_) | split

theorem D.Ordered.imm (wd : Width) : D.Ordered (D.imm wd) := by
  unfold D.imm
  repeat' first
    | exact D.Ordered.pure _ | exact D.Ordered.reserved | exact D.Ordered.word
    | refine D.Ordered.bind ?_ (fun _ => ?_) | split

theorem D.Ordered.mem (seg : Bool) (m : Nat) (f : Reg) : D.Ordered (D.mem seg m f) := by
  unfold D.mem
  repeat' first
    | exact D.Ordered.pure _ | exact D.Ordered.reserved | exact D.Ordered.word
    | exact D.Ordered.iaddr _
    | refine D.Ordered.bind ?_ (fun _ => ?_) | split

theorem D.Ordered.dst (seg : Bool) (m : Nat) (f : Reg) : D.Ordered (D.dst seg m f) := by
  unfold D.dst
  repeat' first
    | exact D.Ordered.pure _ | exact D.Ordered.reserved | exact D.Ordered.word
    | exact D.Ordered.mem _ _ _
    | refine D.Ordered.bind ?_ (fun _ => ?_) | split

theorem D.Ordered.src (seg : Bool) (wd : Width) (m : Nat) (f : Reg) : D.Ordered (D.src seg wd m f) := by
  unfold D.src
  repeat' first
    | exact D.Ordered.pure _ | exact D.Ordered.reserved | exact D.Ordered.word
    | exact D.Ordered.mem _ _ _ | exact D.Ordered.imm _
    | refine D.Ordered.bind ?_ (fun _ => ?_) | split

theorem D.Ordered.oneReg : D.Ordered (D.oneReg) := by
  unfold D.oneReg
  repeat' first
    | exact D.Ordered.pure _ | exact D.Ordered.reserved | exact D.Ordered.word
    | refine D.Ordered.bind ?_ (fun _ => ?_) | split

theorem D.Ordered.block : D.Ordered (D.block) := by
  unfold D.block
  repeat' first
    | exact D.Ordered.pure _ | exact D.Ordered.reserved | exact D.Ordered.word
    | refine D.Ordered.bind ?_ (fun _ => ?_) | split

theorem D.Ordered.ldm : D.Ordered (D.ldm) := by
  unfold D.ldm
  repeat' first
    | exact D.Ordered.pure _ | exact D.Ordered.reserved | exact D.Ordered.word
    | refine D.Ordered.bind ?_ (fun _ => ?_) | split

theorem D.Ordered.count (wd : Width) : D.Ordered (D.count wd) := by
  unfold D.count
  repeat' first
    | exact D.Ordered.pure _ | exact D.Ordered.reserved | exact D.Ordered.word
    | refine D.Ordered.bind ?_ (fun _ => ?_) | split | dsimp only

theorem D.Ordered.table1Byte (seg : Bool) (m : Nat) (a b : Fin 16) : D.Ordered (D.table1Byte seg m a b) := by
  unfold D.table1Byte
  repeat' first
    | exact D.Ordered.pure _ | exact D.Ordered.reserved | exact D.Ordered.word
    | exact D.Ordered.mem _ _ _ | exact D.Ordered.dst _ _ _ | exact D.Ordered.src _ _ _ _ | exact D.Ordered.imm _
    | exact D.Ordered.oneReg | exact D.Ordered.block | exact D.Ordered.ldm | exact D.Ordered.count _
    | refine D.Ordered.bind ?_ (fun _ => ?_) | split

theorem D.Ordered.table1Word (seg : Bool) (m : Nat) (a b : Fin 16) : D.Ordered (D.table1Word seg m a b) := by
  unfold D.table1Word
  repeat' first
    | exact D.Ordered.pure _ | exact D.Ordered.reserved | exact D.Ordered.word
    | exact D.Ordered.mem _ _ _ | exact D.Ordered.dst _ _ _ | exact D.Ordered.src _ _ _ _ | exact D.Ordered.imm _
    | exact D.Ordered.oneReg | exact D.Ordered.block | exact D.Ordered.ldm | exact D.Ordered.count _
    | refine D.Ordered.bind ?_ (fun _ => ?_) | split

theorem D.Ordered.table2 (seg : Bool) (m : Nat) (a b : Fin 16) : D.Ordered (D.table2 seg m a b) := by
  unfold D.table2
  repeat' first
    | exact D.Ordered.pure _ | exact D.Ordered.reserved | exact D.Ordered.word
    | exact D.Ordered.mem _ _ _ | exact D.Ordered.dst _ _ _ | exact D.Ordered.src _ _ _ _ | exact D.Ordered.imm _
    | exact D.Ordered.oneReg | exact D.Ordered.block | exact D.Ordered.ldm | exact D.Ordered.count _
    | refine D.Ordered.bind ?_ (fun _ => ?_) | split

theorem D.Ordered.epuEven (m : Nat) (a b : Fin 16) : D.Ordered (D.epuEven m a b) := by
  unfold D.epuEven
  repeat' first
    | exact D.Ordered.pure _ | exact D.Ordered.reserved | exact D.Ordered.word
    | exact D.Ordered.mem _ _ _ | exact D.Ordered.dst _ _ _ | exact D.Ordered.src _ _ _ _ | exact D.Ordered.imm _
    | exact D.Ordered.oneReg | exact D.Ordered.block | exact D.Ordered.ldm | exact D.Ordered.count _
    | refine D.Ordered.bind ?_ (fun _ => ?_) | split

theorem D.Ordered.epuOdd (seg : Bool) (m : Nat) (a b : Fin 16) : D.Ordered (D.epuOdd seg m a b) := by
  unfold D.epuOdd
  repeat' first
    | exact D.Ordered.pure _ | exact D.Ordered.reserved | exact D.Ordered.word
    | exact D.Ordered.mem _ _ _ | exact D.Ordered.dst _ _ _ | exact D.Ordered.src _ _ _ _ | exact D.Ordered.imm _
    | exact D.Ordered.oneReg | exact D.Ordered.block | exact D.Ordered.ldm | exact D.Ordered.count _
    | refine D.Ordered.bind ?_ (fun _ => ?_) | split

theorem D.Ordered.table3 (word : Bool) (a b : Fin 16) : D.Ordered (D.table3 word a b) := by
  unfold D.table3
  repeat' first
    | exact D.Ordered.pure _ | exact D.Ordered.reserved | exact D.Ordered.word
    | exact D.Ordered.mem _ _ _ | exact D.Ordered.dst _ _ _ | exact D.Ordered.src _ _ _ _ | exact D.Ordered.imm _
    | exact D.Ordered.oneReg | exact D.Ordered.block | exact D.Ordered.ldm | exact D.Ordered.count _
    | refine D.Ordered.bind ?_ (fun _ => ?_) | split

theorem D.Ordered.table4Byte (a b : Fin 16) : D.Ordered (D.table4Byte a b) := by
  unfold D.table4Byte
  repeat' first
    | exact D.Ordered.pure _ | exact D.Ordered.reserved | exact D.Ordered.word
    | exact D.Ordered.mem _ _ _ | exact D.Ordered.dst _ _ _ | exact D.Ordered.src _ _ _ _ | exact D.Ordered.imm _
    | exact D.Ordered.oneReg | exact D.Ordered.block | exact D.Ordered.ldm | exact D.Ordered.count _
    | refine D.Ordered.bind ?_ (fun _ => ?_) | split

theorem D.Ordered.table4Word (a b : Fin 16) : D.Ordered (D.table4Word a b) := by
  unfold D.table4Word
  repeat' first
    | exact D.Ordered.pure _ | exact D.Ordered.reserved | exact D.Ordered.word
    | exact D.Ordered.mem _ _ _ | exact D.Ordered.dst _ _ _ | exact D.Ordered.src _ _ _ _ | exact D.Ordered.imm _
    | exact D.Ordered.oneReg | exact D.Ordered.block | exact D.Ordered.ldm | exact D.Ordered.count _
    | refine D.Ordered.bind ?_ (fun _ => ?_) | split

theorem D.Ordered.table5 (a b : Fin 16) : D.Ordered (D.table5 a b) := by
  unfold D.table5
  repeat' first
    | exact D.Ordered.pure _ | exact D.Ordered.reserved | exact D.Ordered.word
    | exact D.Ordered.mem _ _ _ | exact D.Ordered.dst _ _ _ | exact D.Ordered.src _ _ _ _ | exact D.Ordered.imm _
    | exact D.Ordered.oneReg | exact D.Ordered.block | exact D.Ordered.ldm | exact D.Ordered.count _
    | refine D.Ordered.bind ?_ (fun _ => ?_) | split

theorem D.Ordered.table6 (word : Bool) (a b : Fin 16) : D.Ordered (D.table6 word a b) := by
  unfold D.table6
  repeat' first
    | exact D.Ordered.pure _ | exact D.Ordered.reserved | exact D.Ordered.word
    | exact D.Ordered.mem _ _ _ | exact D.Ordered.dst _ _ _ | exact D.Ordered.src _ _ _ _ | exact D.Ordered.imm _
    | exact D.Ordered.oneReg | exact D.Ordered.block | exact D.Ordered.ldm | exact D.Ordered.count _
    | refine D.Ordered.bind ?_ (fun _ => ?_) | split

theorem D.Ordered.general (seg : Bool) (m low6 : Nat) (a b : Fin 16) : D.Ordered (D.general seg m low6 a b) := by
  unfold D.general
  repeat' first
    | exact D.Ordered.pure _ | exact D.Ordered.reserved | exact D.Ordered.word
    | exact D.Ordered.mem _ _ _ | exact D.Ordered.dst _ _ _ | exact D.Ordered.src _ _ _ _ | exact D.Ordered.imm _
    | exact D.Ordered.oneReg | exact D.Ordered.block | exact D.Ordered.ldm | exact D.Ordered.count _
    | exact D.Ordered.table1Byte _ _ _ _ | exact D.Ordered.table1Word _ _ _ _ | exact D.Ordered.table2 _ _ _ _
    | exact D.Ordered.epuEven _ _ _ | exact D.Ordered.epuOdd _ _ _ _
    | refine D.Ordered.bind ?_ (fun _ => ?_) | split

theorem D.Ordered.special (seg : Bool) (op : Nat) (a b : Fin 16) : D.Ordered (D.special seg op a b) := by
  unfold D.special
  repeat' first
    | exact D.Ordered.pure _ | exact D.Ordered.reserved | exact D.Ordered.word
    | exact D.Ordered.mem _ _ _ | exact D.Ordered.dst _ _ _ | exact D.Ordered.src _ _ _ _ | exact D.Ordered.imm _
    | exact D.Ordered.oneReg | exact D.Ordered.block | exact D.Ordered.ldm | exact D.Ordered.count _
    | exact D.Ordered.table3 _ _ _ | exact D.Ordered.table4Byte _ _ | exact D.Ordered.table4Word _ _
    | exact D.Ordered.table5 _ _ | exact D.Ordered.table6 _ _ _
    | refine D.Ordered.bind ?_ (fun _ => ?_) | split

theorem D.Ordered.compact (w : Word) : D.Ordered (D.compact w) := by
  unfold D.compact
  repeat' first
    | exact D.Ordered.pure _ | exact D.Ordered.reserved | exact D.Ordered.word
    | refine D.Ordered.bind ?_ (fun _ => ?_) | split

theorem D.Ordered.instr (seg : Bool) : D.Ordered (D.instr seg) := by
  unfold D.instr
  repeat' first
    | exact D.Ordered.pure _ | exact D.Ordered.reserved | exact D.Ordered.word
    | exact D.Ordered.general _ _ _ _ _ | exact D.Ordered.special _ _ _ _ | exact D.Ordered.compact _
    | refine D.Ordered.bind ?_ (fun _ => ?_) | split

/-- A shorter beginning of an instruction's words is truncated. -/
theorem decode_truncated (seg : Bool) (i : Instr) (r p q : List Word)
    (h : decode seg (p ++ q ++ r) = .ok (i, r)) (hq : q ≠ []) : decode seg p = .error .truncated := by
  unfold decode at h ⊢
  cases hd : D.instr seg (p ++ q ++ r) with
  | error e =>
    rw [hd] at h
    cases h
  | ok v =>
    obtain ⟨j, u⟩ := v
    simp only [hd] at h
    split at h
    · simp at h
      rw [(D.Ordered.instr seg).truncated _ j r p q (by rw [hd, h.2]) rfl hq]
    · simp at h

/-- Words that decode to an instruction do so before any other words. -/
theorem decode_next (seg : Bool) (ws r : List Word) (i : Instr) (h : decode seg ws = .ok (i, r)) :
    ∃ p, ws = p ++ r ∧ ∀ r', decode seg (p ++ r') = .ok (i, r') := by
  unfold decode at h
  cases hd : D.instr seg ws with
  | error e => simp [hd] at h
  | ok v =>
    obtain ⟨j, u⟩ := v
    simp only [hd] at h
    split at h
    · rename_i hw
      simp at h
      obtain ⟨rfl, rfl⟩ := h
      obtain ⟨p, hp, hp'⟩ := (D.Ordered.instr seg).consumes ws j u hd
      refine ⟨p, hp, fun r' => ?_⟩
      unfold decode
      rw [hp' r']
      simp [hw]
    · simp at h

end Sys2Proof
end

