-- ==== Sys2Proof/Laws/Entry.lean ====
section
/-! SUPPORT. What taking an exception does on a machine of plain RAM without MMUs, said once (R620): the state
`State.entered`; what can follow an instruction; and the reset sequence. -/

namespace Sys2Proof.Machine

open Sys2Proof

/-- One push of an entry: it ends in `pushed`, and the next push finds an even stack pointer again. -/
theorem pushAs_entry (l : Label) (n : Reg) (v : Word) (s : State) (h : s.plain)
    (ha : (s.addrOf n).off.getLsbD 0 = false) :
    pushAs l n .w v s = .ok ((), s.pushed l n .w v) ∧ (s.pushed l n .w v).plain ∧
      ((s.pushed l n .w v).addrOf n).off.getLsbD 0 = false := by
  have he := State.addrOf_stepPtr_even s n (-(BitVec.ofNat 16 (Width.bytes .w))) (by decide) ha
  refine ⟨pushAs_plain l n .w v s h ((Addr.aligned_w _).2 he), by simpa [State.plain] using h, ?_⟩
  exact he

theorem forceSystem_plain (s : State) (h : s.plain) : s.forceSystem.plain := h

/-- A word of the Program Status Area is at an even address (R615). -/
theorem psa_even (s : State) (v : Version) (k : Exc) (n : Word) (hn : n.getLsbD 0 = false) :
    ((s.psa.add (k.block v)).add n).off.getLsbD 0 = false := by
  refine Addr.add_even _ n hn (Addr.add_even _ _ ?_ ?_)
  · cases v <;> cases k <;> decide
  · show (s.psapOff ++ 0#8 : Word).getLsbD 0 = false
    rw [BitVec.getLsbD_append]
    rfl

/-- Twice the vector is even (R616). -/
theorem vector_even (k : Exc) (id : Word) : (k.vector id).getLsbD 0 = false := by
  unfold Exc.vector
  split
  · simp only [BitVec.getLsbD, BitVec.toNat_mul, Nat.testBit_zero, decide_eq_false_iff_not]
    have : BitVec.toNat (2 : Word) = 2 := rfl
    rw [this]
    omega
  · rfl

theorem add_vector_even (c : Word) (hc : c.getLsbD 0 = false) (k : Exc) (id : Word) :
    (c + k.vector id).getLsbD 0 = false := by
  rw [lsb_add_even _ _ (vector_even k id), hc]

/-- The words of an exception's block, read after the pushes on a Z8002. -/
theorem enter_tail_z8002 (k : Exc) (id : Word) (s u : State) (hu : u.plain) (hp : u.psa = s.psa) (hc : u.cfg = s.cfg)
    (hn : u.nmiLatch = s.nmiLatch) (hv : s.cfg.version = .z8002) :
    (do
      let f ← readWord .code (s.psa.add (k.block .z8002))
      let p ← readWord .code ((s.psa.add (k.block .z8002)).add (2 + k.vector id))
      modify fun s => { s with fcw := loadFcw s.cfg f, pcOff := p }
      modify fun s => { s with halted := false, nmiLatch := s.nmiLatch && k != Exc.nmi } : M Unit) u =
    .ok ((), { u with
      fcw := loadFcw s.cfg (u.blockWord k 0), pcOff := u.blockWord k (2 + k.vector id), halted := false
      nmiLatch := s.nmiLatch && k != Exc.nmi }) := by
  have e0 := psa_even s .z8002 k 0 (by decide)
  have h0 : (s.psa.add (k.block .z8002)).add 0 = s.psa.add (k.block .z8002) := by simp [Addr.add]
  rw [h0] at e0
  rw [M.bind_ok (readWord_plain .code _ u hu e0),
    M.bind_ok (readWord_plain .code _ u hu (psa_even s .z8002 k _ (add_vector_even 2 (by decide) k id)))]
  simp only [M.bind_apply, M.modify_apply, State.blockWord, hp, hc, hn, hv, h0]

/-- The words of an exception's block, read after the pushes on a Z8001. -/
theorem enter_tail_z8001 (k : Exc) (id : Word) (s u : State) (hu : u.plain) (hp : u.psa = s.psa) (hc : u.cfg = s.cfg)
    (hn : u.nmiLatch = s.nmiLatch) (hv : s.cfg.version = .z8001) :
    (do
      let f ← readWord .code ((s.psa.add (k.block .z8001)).add 2)
      let g ← readWord .code ((s.psa.add (k.block .z8001)).add (4 + k.vector id))
      let p ← readWord .code ((s.psa.add (k.block .z8001)).add (6 + k.vector id))
      modify fun s => { s with fcw := loadFcw s.cfg f, pcSeg := g.extractLsb' 8 7, pcOff := p }
      modify fun s => { s with halted := false, nmiLatch := s.nmiLatch && k != Exc.nmi } : M Unit) u =
    .ok ((), { u with
      fcw := loadFcw s.cfg (u.blockWord k 2), pcSeg := (u.blockWord k (4 + k.vector id)).extractLsb' 8 7
      pcOff := u.blockWord k (6 + k.vector id), halted := false, nmiLatch := s.nmiLatch && k != Exc.nmi }) := by
  rw [M.bind_ok (readWord_plain .code _ u hu (psa_even s .z8001 k 2 (by decide))),
    M.bind_ok (readWord_plain .code _ u hu (psa_even s .z8001 k _ (add_vector_even 4 (by decide) k id))),
    M.bind_ok (readWord_plain .code _ u hu (psa_even s .z8001 k _ (add_vector_even 6 (by decide) k id)))]
  simp only [M.bind_apply, M.modify_apply, State.blockWord, hp, hc, hn, hv]

/-- A push leaves the place of the Program Status Area. -/
theorem State.pushed_psa (s : State) (l : Label) (n : Reg) (wd : Width) (v : BitVec wd.bits) :
    (s.pushed l n wd v).psa = s.psa := by
  simp [State.psa]

/-- TAKING AN EXCEPTION (R620): every kind ends in `State.entered`. -/
theorem enter_plain (k : Exc) (id : Word) (pcs : Addr) (s : State) (h : s.plain) (hs : s.systemStackReady = true) :
    enter k id pcs s = .ok ((), s.entered k id pcs) := by
  have hodd : s.sysR15.getLsbD 0 = false := by simpa [State.systemStackReady] using hs
  unfold enter
  rw [M.bind_ok (M.get_apply s), M.bind_ok (M.modify_apply _ s)]
  cases hv : s.cfg.version with
  | z8002 =>
    have h0 : (s.forceSystem.addrOf 15).off.getLsbD 0 = false := by
      simpa [State.addrOf, State.isSeg, State.forceSystem, hv, State.reg] using hodd
    obtain ⟨e1, p1, a1⟩ := pushAs_entry k.pushLabel 15 pcs.off _ (forceSystem_plain s h) h0
    obtain ⟨e2, p2, a2⟩ := pushAs_entry k.pushLabel 15 s.fcw.toWord _ p1 a1
    obtain ⟨e3, p3, -⟩ := pushAs_entry k.pushLabel 15 id _ p2 a2
    have t := enter_tail_z8002 k id s _ p3 (by simp only [State.pushed_psa]; rfl) (by simp) (by simp) hv
    rw [State.entered, hv]
    simp only [State.entryFrame, hv]
    rw [M.bind_ok e1, M.bind_ok e2, M.bind_ok e3]
    exact t
  | z8001 =>
    have h0 : (s.forceSystem.addrOf 14).off.getLsbD 0 = false := by
      simpa [State.addrOf, State.isSeg, State.forceSystem, hv, State.reg] using hodd
    obtain ⟨e1, p1, a1⟩ := pushAs_entry k.pushLabel 14 pcs.off _ (forceSystem_plain s h) h0
    obtain ⟨e2, p2, a2⟩ := pushAs_entry k.pushLabel 14 pcs.segWord _ p1 a1
    obtain ⟨e3, p3, a3⟩ := pushAs_entry k.pushLabel 14 s.fcw.toWord _ p2 a2
    obtain ⟨e4, p4, -⟩ := pushAs_entry k.pushLabel 14 id _ p3 a3
    have t := enter_tail_z8001 k id s _ p4 (by simp only [State.pushed_psa]; rfl) (by simp) (by simp) hv
    rw [State.entered, hv]
    simp only [State.entryFrame, hv]
    rw [M.bind_ok e1, M.bind_ok e2, M.bind_ok e3, M.bind_ok e4]
    exact t

/-- All that can follow an instruction (R93, R702): the reset sequence where RESET fell inside it, the refusal of U13, or
the state as it is. -/
theorem lookAhead_next {s t u : State} (h : lookAhead s t = .next u) :
    (t.resetFell = true ∧ u = t.underReset) ∨ (t.resetFell = false ∧ u = t) := by
  unfold lookAhead at h
  by_cases hr : t.resetFell = true
  · simp only [hr, if_true] at h
    exact .inl ⟨hr, by simpa using h.symm⟩
  · refine .inr ⟨by simpa using hr, ?_⟩
    simp only [hr] at h
    by_cases hc : t.endStep.fetchesNext && s.mem.readWord (t.fetchKey t.pcOff) != t.mem.readWord (t.fetchKey t.pcOff)
    · simp [hc] at h
    · simpa [hc] using h.symm

/-! Reset (R700). -/

/-- The words the reset sequence reads are at even addresses of segment 0. -/
theorem readWord_reset (s : State) (h : s.plain) (k : Word) (hk : k.getLsbD 0 = false) :
    readWord .code { seg := 0, off := k } s.forceSystem =
      .ok (s.forceSystem.wordAt .code { seg := 0, off := k }, s.forceSystem) :=
  readWord_plain _ _ _ (forceSystem_plain s h) hk

/-- What the reset sequence does on a machine of plain RAM without MMUs: FCW and PC are read, the rest is cleared. -/
theorem resetSequence_plain (s : State) (h : s.plain) :
    let w := fun k : Word => s.forceSystem.wordAt .code { seg := 0, off := k }
    resetSequence s = .ok ((), { s with
      fcw := loadFcw s.cfg (w 2)
      pcSeg := match s.cfg.version with
        | .z8001 => (w 4).extractLsb' 8 7
        | .z8002 => s.pcSeg
      pcOff := match s.cfg.version with
        | .z8001 => w 6
        | .z8002 => w 4
      refresh := { s.refresh with re := false }
      rowStepped := s.rowStepped || s.refresh.re
      moLow := false, halted := false, nmiLatch := false, haltSample := Requests.quiet, held := none
      resetting := false }) := by
  intro w
  have hv : s.forceSystem.cfg.version = s.cfg.version := rfl
  unfold resetSequence
  rw [M.bind_ok (M.modify_apply _ s), M.bind_ok (M.get_apply _), hv]
  cases s.cfg.version with
  | z8002 =>
    simp only
    rw [M.bind_ok (readWord_reset s h 2 (by decide)), M.bind_ok (readWord_reset s h 4 (by decide))]
    rfl
  | z8001 =>
    simp only
    rw [M.bind_ok (readWord_reset s h 2 (by decide)), M.bind_ok (readWord_reset s h 4 (by decide)),
      M.bind_ok (readWord_reset s h 6 (by decide))]
    rfl

end Sys2Proof.Machine
end

