-- ==== Sys2Proof/Laws/PerInstr.lean ====
section
/-! SUPPORT. What is said of every instruction as a term of `Instr`, one lemma for each constructor: its encoding is
one to four words long (R130). -/

namespace Sys2Proof.Laws

theorem IAddr.words_length (a : IAddr) : 1 ≤ a.words.length ∧ a.words.length ≤ 2 := by
  cases a <;> simp [IAddr.words]

theorem Mem.enc_length (m : Mem) : m.enc.words.length ≤ 2 := by
  cases m with
  | ir r => simp [Mem.enc]
  | da a => exact (IAddr.words_length a).2
  | x a i => exact (IAddr.words_length a).2

theorem Dst.enc_length (d : Dst) : d.enc.words.length ≤ 2 := by
  cases d with
  | reg r => simp [Dst.enc]
  | mem m => exact Mem.enc_length m

theorem immWords_length (wd : Width) (v : BitVec wd.bits) : (immWords wd v).length ≤ 2 := by
  cases wd <;> simp [immWords]

theorem Src.enc_length {wd : Width} (s : Src wd) : s.enc.words.length ≤ 2 := by
  cases s with
  | reg r => simp [Src.enc]
  | imm v => exact immWords_length wd v
  | mem m => exact Mem.enc_length m

theorem Based.encode_length (ba bx : Nat) (b : Reg) (x : Based) : (x.encode ba bx b).length = 2 := by
  cases x <;> rfl

namespace Length

/-- The encoding of an instruction has one to four words (R130). -/
def Statement (i : Instr) : Prop := 1 ≤ (encode i).length ∧ (encode i).length ≤ maxWords

theorem of_one {i : Instr} {w : Word} (h : encode i = [w]) : Statement i := by
  simp [Statement, h, maxWords]

theorem of_two {i : Instr} {w x : Word} (h : encode i = [w, x]) : Statement i := by
  simp [Statement, h, maxWords]

theorem of_based {i : Instr} (ba bx : Nat) (b : Reg) (x : Based) (h : encode i = x.encode ba bx b) : Statement i := by
  simp [Statement, h, maxWords, Based.encode_length]

/-- One word and an operand's words. -/
theorem of_operand {i : Instr} {w : Word} {ws : List Word} (hw : ws.length ≤ 2) (h : encode i = w :: ws) :
    Statement i := by
  simp only [Statement, h, maxWords, List.length_cons]
  omega

/-- Two words and an operand's words. -/
theorem of_operand_word {i : Instr} {w x : Word} {ws : List Word} (hw : ws.length ≤ 2) (h : encode i = w :: x :: ws) :
    Statement i := by
  simp only [Statement, h, maxWords, List.length_cons]
  omega

/-- One word, an operand's words and an immediate word. -/
theorem of_mem_imm {i : Instr} {w x : Word} (m : Mem) (h : encode i = w :: (m.enc.words ++ [x])) : Statement i := by
  have := Mem.enc_length m
  simp only [Statement, h, maxWords, List.length_cons, List.length_append, List.length_nil]
  omega

theorem clr (d : Dst) : Statement (.clr d) := of_operand (Dst.enc_length d) rfl
theorem clrb (d : Dst) : Statement (.clrb d) := of_operand (Dst.enc_length d) rfl
theorem ex (d : Reg) (s : Dst) : Statement (.ex d s) := of_operand (Dst.enc_length s) rfl
theorem exb (d : Reg) (s : Dst) : Statement (.exb d s) := of_operand (Dst.enc_length s) rfl
theorem ld (d : Reg) (s : Src .w) : Statement (.ld d s) := of_operand (Src.enc_length s) rfl
theorem ldb (d : Reg) (s : Src .b) : Statement (.ldb d s) := of_operand (Src.enc_length s) rfl
theorem ldl (d : Reg) (s : Src .l) : Statement (.ldl d s) := of_operand (Src.enc_length s) rfl
theorem ldBased (d : Reg) (s : Based) : Statement (.ldBased d s) := of_based _ _ _ s rfl
theorem ldbBased (d : Reg) (s : Based) : Statement (.ldbBased d s) := of_based _ _ _ s rfl
theorem ldlBased (d : Reg) (s : Based) : Statement (.ldlBased d s) := of_based _ _ _ s rfl
theorem ldStore (d : Mem) (s : Reg) : Statement (.ldStore d s) := of_operand (Mem.enc_length d) rfl
theorem ldbStore (d : Mem) (s : Reg) : Statement (.ldbStore d s) := of_operand (Mem.enc_length d) rfl
theorem ldlStore (d : Mem) (s : Reg) : Statement (.ldlStore d s) := of_operand (Mem.enc_length d) rfl
theorem ldStoreBased (d : Based) (s : Reg) : Statement (.ldStoreBased d s) := of_based _ _ _ d rfl
theorem ldbStoreBased (d : Based) (s : Reg) : Statement (.ldbStoreBased d s) := of_based _ _ _ d rfl
theorem ldlStoreBased (d : Based) (s : Reg) : Statement (.ldlStoreBased d s) := of_based _ _ _ d rfl
theorem ldImm (d : Mem) (v : Word) : Statement (.ldImm d v) := of_mem_imm d rfl
theorem ldbImm (d : Mem) (v : Byte) : Statement (.ldbImm d v) := of_mem_imm d rfl
theorem ldbShort (d : Reg) (v : Byte) : Statement (.ldbShort d v) := of_one rfl
theorem lda (d : Reg) (s : Mem) : Statement (.lda d s) := of_operand (Mem.enc_length s) rfl
theorem ldaBased (d : Reg) (s : Based) : Statement (.ldaBased d s) := of_based _ _ _ s rfl
theorem ldar (d : Reg) (disp : Word) : Statement (.ldar d disp) := of_two rfl
theorem ldk (d : Reg) (n : Fin 16) : Statement (.ldk d n) := of_one rfl
theorem ldmLoad (d : Reg) (s : Mem) (n : Fin 16) : Statement (.ldmLoad d s n) := of_operand_word (Mem.enc_length s) rfl
theorem ldmStore (d : Mem) (s : Reg) (n : Fin 16) : Statement (.ldmStore d s n) :=
  of_operand_word (Mem.enc_length d) rfl
theorem ldr (d : Reg) (disp : Word) : Statement (.ldr d disp) := of_two rfl
theorem ldrb (d : Reg) (disp : Word) : Statement (.ldrb d disp) := of_two rfl
theorem ldrl (d : Reg) (disp : Word) : Statement (.ldrl d disp) := of_two rfl
theorem ldrStore (disp : Word) (s : Reg) : Statement (.ldrStore disp s) := of_two rfl
theorem ldrbStore (disp : Word) (s : Reg) : Statement (.ldrbStore disp s) := of_two rfl
theorem ldrlStore (disp : Word) (s : Reg) : Statement (.ldrlStore disp s) := of_two rfl
theorem pop (d : Dst) (sp : Reg) : Statement (.pop d sp) := of_operand (Dst.enc_length d) rfl
theorem popl (d : Dst) (sp : Reg) : Statement (.popl d sp) := of_operand (Dst.enc_length d) rfl
theorem push (sp : Reg) (s : Dst) : Statement (.push sp s) := of_operand (Dst.enc_length s) rfl
theorem pushl (sp : Reg) (s : Dst) : Statement (.pushl sp s) := of_operand (Dst.enc_length s) rfl
theorem pushImm (sp : Reg) (v : Word) : Statement (.pushImm sp v) := of_two rfl
theorem adc (d : Reg) (s : Reg) : Statement (.adc d s) := of_one rfl
theorem adcb (d : Reg) (s : Reg) : Statement (.adcb d s) := of_one rfl
theorem add (d : Reg) (s : Src .w) : Statement (.add d s) := of_operand (Src.enc_length s) rfl
theorem addb (d : Reg) (s : Src .b) : Statement (.addb d s) := of_operand (Src.enc_length s) rfl
theorem addl (d : Reg) (s : Src .l) : Statement (.addl d s) := of_operand (Src.enc_length s) rfl
theorem cp (d : Reg) (s : Src .w) : Statement (.cp d s) := of_operand (Src.enc_length s) rfl
theorem cpb (d : Reg) (s : Src .b) : Statement (.cpb d s) := of_operand (Src.enc_length s) rfl
theorem cpl (d : Reg) (s : Src .l) : Statement (.cpl d s) := of_operand (Src.enc_length s) rfl
theorem cpImm (d : Mem) (v : Word) : Statement (.cpImm d v) := of_mem_imm d rfl
theorem cpbImm (d : Mem) (v : Byte) : Statement (.cpbImm d v) := of_mem_imm d rfl
theorem dab (d : Reg) : Statement (.dab d) := of_one rfl
theorem dec (d : Dst) (n : Fin 16) : Statement (.dec d n) := of_operand (Dst.enc_length d) rfl
theorem decb (d : Dst) (n : Fin 16) : Statement (.decb d n) := of_operand (Dst.enc_length d) rfl
theorem inc (d : Dst) (n : Fin 16) : Statement (.inc d n) := of_operand (Dst.enc_length d) rfl
theorem incb (d : Dst) (n : Fin 16) : Statement (.incb d n) := of_operand (Dst.enc_length d) rfl
theorem extsb (d : Reg) : Statement (.extsb d) := of_one rfl
theorem exts (d : Reg) : Statement (.exts d) := of_one rfl
theorem extsl (d : Reg) : Statement (.extsl d) := of_one rfl
theorem neg (d : Dst) : Statement (.neg d) := of_operand (Dst.enc_length d) rfl
theorem negb (d : Dst) : Statement (.negb d) := of_operand (Dst.enc_length d) rfl
theorem mult (d : Reg) (s : Src .w) : Statement (.mult d s) := of_operand (Src.enc_length s) rfl
theorem multl (d : Reg) (s : Src .l) : Statement (.multl d s) := of_operand (Src.enc_length s) rfl
theorem div (d : Reg) (s : Src .w) : Statement (.div d s) := of_operand (Src.enc_length s) rfl
theorem divl (d : Reg) (s : Src .l) : Statement (.divl d s) := of_operand (Src.enc_length s) rfl
theorem sbc (d : Reg) (s : Reg) : Statement (.sbc d s) := of_one rfl
theorem sbcb (d : Reg) (s : Reg) : Statement (.sbcb d s) := of_one rfl
theorem sub (d : Reg) (s : Src .w) : Statement (.sub d s) := of_operand (Src.enc_length s) rfl
theorem subb (d : Reg) (s : Src .b) : Statement (.subb d s) := of_operand (Src.enc_length s) rfl
theorem subl (d : Reg) (s : Src .l) : Statement (.subl d s) := of_operand (Src.enc_length s) rfl
theorem and (d : Reg) (s : Src .w) : Statement (.and d s) := of_operand (Src.enc_length s) rfl
theorem andb (d : Reg) (s : Src .b) : Statement (.andb d s) := of_operand (Src.enc_length s) rfl
theorem com (d : Dst) : Statement (.com d) := of_operand (Dst.enc_length d) rfl
theorem comb (d : Dst) : Statement (.comb d) := of_operand (Dst.enc_length d) rfl
theorem or (d : Reg) (s : Src .w) : Statement (.or d s) := of_operand (Src.enc_length s) rfl
theorem orb (d : Reg) (s : Src .b) : Statement (.orb d s) := of_operand (Src.enc_length s) rfl
theorem xor (d : Reg) (s : Src .w) : Statement (.xor d s) := of_operand (Src.enc_length s) rfl
theorem xorb (d : Reg) (s : Src .b) : Statement (.xorb d s) := of_operand (Src.enc_length s) rfl
theorem test (d : Dst) : Statement (.test d) := of_operand (Dst.enc_length d) rfl
theorem testb (d : Dst) : Statement (.testb d) := of_operand (Dst.enc_length d) rfl
theorem testl (d : Dst) : Statement (.testl d) := of_operand (Dst.enc_length d) rfl
theorem tcc (cc : CC) (d : Reg) : Statement (.tcc cc d) := of_one rfl
theorem tccb (cc : CC) (d : Reg) : Statement (.tccb cc d) := of_one rfl
theorem call (t : Mem) : Statement (.call t) := of_operand (Mem.enc_length t) rfl
theorem calr (disp : BitVec 12) : Statement (.calr disp) := of_one rfl
theorem djnz (r : Reg) (disp : BitVec 7) : Statement (.djnz r disp) := of_one rfl
theorem dbjnz (r : Reg) (disp : BitVec 7) : Statement (.dbjnz r disp) := of_one rfl
theorem jp (cc : CC) (t : Mem) : Statement (.jp cc t) := of_operand (Mem.enc_length t) rfl
theorem jr (cc : CC) (disp : BitVec 8) : Statement (.jr cc disp) := of_one rfl
theorem ret (cc : CC) : Statement (.ret cc) := of_one rfl
theorem iret : Statement .iret := of_one rfl
theorem sc (n : Byte) : Statement (.sc n) := of_one rfl
theorem bit (d : Dst) (k : Fin 16) : Statement (.bit d k) := of_operand (Dst.enc_length d) rfl
theorem bitDyn (d : Reg) (s : Reg) : Statement (.bitDyn d s) := of_two rfl
theorem bitb (d : Dst) (k : Fin 16) : Statement (.bitb d k) := of_operand (Dst.enc_length d) rfl
theorem bitbDyn (d : Reg) (s : Reg) : Statement (.bitbDyn d s) := of_two rfl
theorem res (d : Dst) (k : Fin 16) : Statement (.res d k) := of_operand (Dst.enc_length d) rfl
theorem resDyn (d : Reg) (s : Reg) : Statement (.resDyn d s) := of_two rfl
theorem resb (d : Dst) (k : Fin 16) : Statement (.resb d k) := of_operand (Dst.enc_length d) rfl
theorem resbDyn (d : Reg) (s : Reg) : Statement (.resbDyn d s) := of_two rfl
theorem set (d : Dst) (k : Fin 16) : Statement (.set d k) := of_operand (Dst.enc_length d) rfl
theorem setDyn (d : Reg) (s : Reg) : Statement (.setDyn d s) := of_two rfl
theorem setb (d : Dst) (k : Fin 16) : Statement (.setb d k) := of_operand (Dst.enc_length d) rfl
theorem setbDyn (d : Reg) (s : Reg) : Statement (.setbDyn d s) := of_two rfl
theorem tset (d : Dst) : Statement (.tset d) := of_operand (Dst.enc_length d) rfl
theorem tsetb (d : Dst) : Statement (.tsetb d) := of_operand (Dst.enc_length d) rfl
theorem rl (d : Reg) (twice : Bool) : Statement (.rl d twice) := of_one rfl
theorem rlb (d : Reg) (twice : Bool) : Statement (.rlb d twice) := of_one rfl
theorem rlc (d : Reg) (twice : Bool) : Statement (.rlc d twice) := of_one rfl
theorem rlcb (d : Reg) (twice : Bool) : Statement (.rlcb d twice) := of_one rfl
theorem rr (d : Reg) (twice : Bool) : Statement (.rr d twice) := of_one rfl
theorem rrb (d : Reg) (twice : Bool) : Statement (.rrb d twice) := of_one rfl
theorem rrc (d : Reg) (twice : Bool) : Statement (.rrc d twice) := of_one rfl
theorem rrcb (d : Reg) (twice : Bool) : Statement (.rrcb d twice) := of_one rfl
theorem rldb (link : Reg) (s : Reg) : Statement (.rldb link s) := of_one rfl
theorem rrdb (link : Reg) (s : Reg) : Statement (.rrdb link s) := of_one rfl
theorem sla (d : Reg) (n : Nat) : Statement (.sla d n) := of_two rfl
theorem slab (d : Reg) (n : Nat) : Statement (.slab d n) := of_two rfl
theorem slal (d : Reg) (n : Nat) : Statement (.slal d n) := of_two rfl
theorem sll (d : Reg) (n : Nat) : Statement (.sll d n) := of_two rfl
theorem sllb (d : Reg) (n : Nat) : Statement (.sllb d n) := of_two rfl
theorem slll (d : Reg) (n : Nat) : Statement (.slll d n) := of_two rfl
theorem sra (d : Reg) (n : Nat) : Statement (.sra d n) := of_two rfl
theorem srab (d : Reg) (n : Nat) : Statement (.srab d n) := of_two rfl
theorem sral (d : Reg) (n : Nat) : Statement (.sral d n) := of_two rfl
theorem srl (d : Reg) (n : Nat) : Statement (.srl d n) := of_two rfl
theorem srlb (d : Reg) (n : Nat) : Statement (.srlb d n) := of_two rfl
theorem srll (d : Reg) (n : Nat) : Statement (.srll d n) := of_two rfl
theorem sda (d : Reg) (s : Reg) : Statement (.sda d s) := of_two rfl
theorem sdab (d : Reg) (s : Reg) : Statement (.sdab d s) := of_two rfl
theorem sdal (d : Reg) (s : Reg) : Statement (.sdal d s) := of_two rfl
theorem sdl (d : Reg) (s : Reg) : Statement (.sdl d s) := of_two rfl
theorem sdlb (d : Reg) (s : Reg) : Statement (.sdlb d s) := of_two rfl
theorem sdll (d : Reg) (s : Reg) : Statement (.sdll d s) := of_two rfl
theorem cpi (d : Reg) (s : Reg) (r : Reg) (cc : CC) : Statement (.cpi d s r cc) := of_two rfl
theorem cpib (d : Reg) (s : Reg) (r : Reg) (cc : CC) : Statement (.cpib d s r cc) := of_two rfl
theorem cpir (d : Reg) (s : Reg) (r : Reg) (cc : CC) : Statement (.cpir d s r cc) := of_two rfl
theorem cpirb (d : Reg) (s : Reg) (r : Reg) (cc : CC) : Statement (.cpirb d s r cc) := of_two rfl
theorem cpd (d : Reg) (s : Reg) (r : Reg) (cc : CC) : Statement (.cpd d s r cc) := of_two rfl
theorem cpdb (d : Reg) (s : Reg) (r : Reg) (cc : CC) : Statement (.cpdb d s r cc) := of_two rfl
theorem cpdr (d : Reg) (s : Reg) (r : Reg) (cc : CC) : Statement (.cpdr d s r cc) := of_two rfl
theorem cpdrb (d : Reg) (s : Reg) (r : Reg) (cc : CC) : Statement (.cpdrb d s r cc) := of_two rfl
theorem cpsi (d : Reg) (s : Reg) (r : Reg) (cc : CC) : Statement (.cpsi d s r cc) := of_two rfl
theorem cpsib (d : Reg) (s : Reg) (r : Reg) (cc : CC) : Statement (.cpsib d s r cc) := of_two rfl
theorem cpsir (d : Reg) (s : Reg) (r : Reg) (cc : CC) : Statement (.cpsir d s r cc) := of_two rfl
theorem cpsirb (d : Reg) (s : Reg) (r : Reg) (cc : CC) : Statement (.cpsirb d s r cc) := of_two rfl
theorem cpsd (d : Reg) (s : Reg) (r : Reg) (cc : CC) : Statement (.cpsd d s r cc) := of_two rfl
theorem cpsdb (d : Reg) (s : Reg) (r : Reg) (cc : CC) : Statement (.cpsdb d s r cc) := of_two rfl
theorem cpsdr (d : Reg) (s : Reg) (r : Reg) (cc : CC) : Statement (.cpsdr d s r cc) := of_two rfl
theorem cpsdrb (d : Reg) (s : Reg) (r : Reg) (cc : CC) : Statement (.cpsdrb d s r cc) := of_two rfl
theorem ldi (d : Reg) (s : Reg) (r : Reg) : Statement (.ldi d s r) := of_two rfl
theorem ldib (d : Reg) (s : Reg) (r : Reg) : Statement (.ldib d s r) := of_two rfl
theorem ldir (d : Reg) (s : Reg) (r : Reg) : Statement (.ldir d s r) := of_two rfl
theorem ldirb (d : Reg) (s : Reg) (r : Reg) : Statement (.ldirb d s r) := of_two rfl
theorem ldd (d : Reg) (s : Reg) (r : Reg) : Statement (.ldd d s r) := of_two rfl
theorem lddb (d : Reg) (s : Reg) (r : Reg) : Statement (.lddb d s r) := of_two rfl
theorem lddr (d : Reg) (s : Reg) (r : Reg) : Statement (.lddr d s r) := of_two rfl
theorem lddrb (d : Reg) (s : Reg) (r : Reg) : Statement (.lddrb d s r) := of_two rfl
theorem trib (d : Reg) (s : Reg) (r : Reg) : Statement (.trib d s r) := of_two rfl
theorem trirb (d : Reg) (s : Reg) (r : Reg) : Statement (.trirb d s r) := of_two rfl
theorem trdb (d : Reg) (s : Reg) (r : Reg) : Statement (.trdb d s r) := of_two rfl
theorem trdrb (d : Reg) (s : Reg) (r : Reg) : Statement (.trdrb d s r) := of_two rfl
theorem trtib (d : Reg) (s : Reg) (r : Reg) : Statement (.trtib d s r) := of_two rfl
theorem trtirb (d : Reg) (s : Reg) (r : Reg) : Statement (.trtirb d s r) := of_two rfl
theorem trtdb (d : Reg) (s : Reg) (r : Reg) : Statement (.trtdb d s r) := of_two rfl
theorem trtdrb (d : Reg) (s : Reg) (r : Reg) : Statement (.trtdrb d s r) := of_two rfl
theorem inIr (d : Reg) (s : Reg) : Statement (.inIr d s) := of_one rfl
theorem inDa (d : Reg) (port : Word) : Statement (.inDa d port) := of_two rfl
theorem inbIr (d : Reg) (s : Reg) : Statement (.inbIr d s) := of_one rfl
theorem inbDa (d : Reg) (port : Word) : Statement (.inbDa d port) := of_two rfl
theorem outIr (d : Reg) (s : Reg) : Statement (.outIr d s) := of_one rfl
theorem outDa (port : Word) (s : Reg) : Statement (.outDa port s) := of_two rfl
theorem outbIr (d : Reg) (s : Reg) : Statement (.outbIr d s) := of_one rfl
theorem outbDa (port : Word) (s : Reg) : Statement (.outbDa port s) := of_two rfl
theorem sin (d : Reg) (port : Word) : Statement (.sin d port) := of_two rfl
theorem sinb (d : Reg) (port : Word) : Statement (.sinb d port) := of_two rfl
theorem sout (port : Word) (s : Reg) : Statement (.sout port s) := of_two rfl
theorem soutb (port : Word) (s : Reg) : Statement (.soutb port s) := of_two rfl
theorem ini (d : Reg) (s : Reg) (r : Reg) : Statement (.ini d s r) := of_two rfl
theorem inib (d : Reg) (s : Reg) (r : Reg) : Statement (.inib d s r) := of_two rfl
theorem inir (d : Reg) (s : Reg) (r : Reg) : Statement (.inir d s r) := of_two rfl
theorem inirb (d : Reg) (s : Reg) (r : Reg) : Statement (.inirb d s r) := of_two rfl
theorem ind (d : Reg) (s : Reg) (r : Reg) : Statement (.ind d s r) := of_two rfl
theorem indb (d : Reg) (s : Reg) (r : Reg) : Statement (.indb d s r) := of_two rfl
theorem indr (d : Reg) (s : Reg) (r : Reg) : Statement (.indr d s r) := of_two rfl
theorem indrb (d : Reg) (s : Reg) (r : Reg) : Statement (.indrb d s r) := of_two rfl
theorem outi (d : Reg) (s : Reg) (r : Reg) : Statement (.outi d s r) := of_two rfl
theorem outib (d : Reg) (s : Reg) (r : Reg) : Statement (.outib d s r) := of_two rfl
theorem otir (d : Reg) (s : Reg) (r : Reg) : Statement (.otir d s r) := of_two rfl
theorem otirb (d : Reg) (s : Reg) (r : Reg) : Statement (.otirb d s r) := of_two rfl
theorem outd (d : Reg) (s : Reg) (r : Reg) : Statement (.outd d s r) := of_two rfl
theorem outdb (d : Reg) (s : Reg) (r : Reg) : Statement (.outdb d s r) := of_two rfl
theorem otdr (d : Reg) (s : Reg) (r : Reg) : Statement (.otdr d s r) := of_two rfl
theorem otdrb (d : Reg) (s : Reg) (r : Reg) : Statement (.otdrb d s r) := of_two rfl
theorem sini (d : Reg) (s : Reg) (r : Reg) : Statement (.sini d s r) := of_two rfl
theorem sinib (d : Reg) (s : Reg) (r : Reg) : Statement (.sinib d s r) := of_two rfl
theorem sinir (d : Reg) (s : Reg) (r : Reg) : Statement (.sinir d s r) := of_two rfl
theorem sinirb (d : Reg) (s : Reg) (r : Reg) : Statement (.sinirb d s r) := of_two rfl
theorem sind (d : Reg) (s : Reg) (r : Reg) : Statement (.sind d s r) := of_two rfl
theorem sindb (d : Reg) (s : Reg) (r : Reg) : Statement (.sindb d s r) := of_two rfl
theorem sindr (d : Reg) (s : Reg) (r : Reg) : Statement (.sindr d s r) := of_two rfl
theorem sindrb (d : Reg) (s : Reg) (r : Reg) : Statement (.sindrb d s r) := of_two rfl
theorem souti (d : Reg) (s : Reg) (r : Reg) : Statement (.souti d s r) := of_two rfl
theorem soutib (d : Reg) (s : Reg) (r : Reg) : Statement (.soutib d s r) := of_two rfl
theorem sotir (d : Reg) (s : Reg) (r : Reg) : Statement (.sotir d s r) := of_two rfl
theorem sotirb (d : Reg) (s : Reg) (r : Reg) : Statement (.sotirb d s r) := of_two rfl
theorem soutd (d : Reg) (s : Reg) (r : Reg) : Statement (.soutd d s r) := of_two rfl
theorem soutdb (d : Reg) (s : Reg) (r : Reg) : Statement (.soutdb d s r) := of_two rfl
theorem sotdr (d : Reg) (s : Reg) (r : Reg) : Statement (.sotdr d s r) := of_two rfl
theorem sotdrb (d : Reg) (s : Reg) (r : Reg) : Statement (.sotdrb d s r) := of_two rfl
theorem comflg (c : Bool) (z : Bool) (s : Bool) (p : Bool) : Statement (.comflg c z s p) := of_one rfl
theorem resflg (c : Bool) (z : Bool) (s : Bool) (p : Bool) : Statement (.resflg c z s p) := of_one rfl
theorem setflg (c : Bool) (z : Bool) (s : Bool) (p : Bool) : Statement (.setflg c z s p) := of_one rfl
theorem di (vi : Bool) (nvi : Bool) : Statement (.di vi nvi) := of_one rfl
theorem ei (vi : Bool) (nvi : Bool) : Statement (.ei vi nvi) := of_one rfl
theorem halt : Statement .halt := of_one rfl
theorem ldctlWrite (c : CtlReg) (s : Reg) : Statement (.ldctlWrite c s) := of_one rfl
theorem ldctlRead (d : Reg) (c : CtlReg) : Statement (.ldctlRead d c) := of_one rfl
theorem ldctlbWrite (s : Reg) : Statement (.ldctlbWrite s) := of_one rfl
theorem ldctlbRead (d : Reg) : Statement (.ldctlbRead d) := of_one rfl
theorem ldps (s : Mem) : Statement (.ldps s) := of_operand (Mem.enc_length s) rfl
theorem mbit : Statement .mbit := of_one rfl
theorem mreq (d : Reg) : Statement (.mreq d) := of_one rfl
theorem mres : Statement .mres := of_one rfl
theorem mset : Statement .mset := of_one rfl
theorem nop : Statement .nop := of_one rfl
theorem epuLdmFrom (d : Mem) (ii : Fin 4) (w2 : Word) : Statement (.epuLdmFrom d ii w2) :=
  of_operand_word (Mem.enc_length d) rfl
theorem epuLdmTo (s : Mem) (ii : Fin 4) (w2 : Word) : Statement (.epuLdmTo s ii w2) :=
  of_operand_word (Mem.enc_length s) rfl
theorem epuLdrFrom (x : Fin 8) (ii : Fin 4) (w2 : Word) : Statement (.epuLdrFrom x ii w2) := of_two rfl
theorem epuLdrTo (x : Fin 8) (ii : Fin 4) (w2 : Word) : Statement (.epuLdrTo x ii w2) := of_two rfl
theorem epuLdfFrom (x : Fin 16) (ii : Fin 4) (w2 : Word) : Statement (.epuLdfFrom x ii w2) := of_two rfl
theorem epuLdfTo (x : Fin 16) (ii : Fin 4) (w2 : Word) : Statement (.epuLdfTo x ii w2) := of_two rfl
theorem epuOp (x : Fin 16) (ii : Fin 4) (w2 : Word) : Statement (.epuOp x ii w2) := of_two rfl

end Length

end Sys2Proof.Laws
end

