-- ==== Sys2Proof/Tests/Slice0.lean ====
section
/-! SUPPORT. Tests: ill-formed terms that the checks refuse, every constructor's decoding from words written out from
the encoding lines of spec/40 to spec/49, single steps with the values of spec/95, and a witness for the hypotheses of
every statement. -/

namespace Sys2Proof.Tests

open Sys2Proof Machine

/-! Well-formedness: for each check an ill-formed term (nonsegmented, then segmented), and the same term mended. -/

theorem test_wf_no_pair : (Instr.ldl 3 (.reg 2)).wf false = false ∧ (Instr.ldl 2 (.reg 3)).wf false = false ∧
    (Instr.ldl 2 (.reg 4)).wf false = true := by decide

theorem test_wf_no_quad : (Instr.extsl 2).wf false = false ∧ (Instr.extsl 4).wf false = true := by decide

theorem test_wf_register_zero : (Instr.clr (.mem (.ir 0))).wf false = false ∧
    (Instr.clr (.mem (.x (.ns 4) 0))).wf false = false ∧ (Instr.ldBased 1 (.ba 0 4)).wf false = false ∧
    (Instr.ldBased 1 (.bx 2 0)).wf false = false ∧ (Instr.inIr 1 0).wf false = false ∧
    (Instr.clr (.mem (.ir 1))).wf false = true := by decide

theorem test_wf_segmented_pointer : (Instr.clr (.mem (.ir 3))).wf true = false ∧
    (Instr.clr (.mem (.ir 2))).wf true = true ∧ (Instr.ldar 3 0).wf true = false := by decide

theorem test_wf_address_form : (Instr.clr (.mem (.da (.ns 4)))).wf true = false ∧
    (Instr.clr (.mem (.da (.short 1 4)))).wf false = false ∧ (Instr.clr (.mem (.da (.long 1 4)))).wf true = true := by
  decide

theorem test_wf_address_load : (Instr.lda 1 (.ir 2)).wf false = false ∧ (Instr.lda 1 (.da (.ns 2))).wf false = true := by
  decide

theorem test_wf_long_stack : (Instr.popl (.reg 4) 4).wf false = false ∧ (Instr.popl (.reg 4) 5).wf false = false ∧
    (Instr.pushl 4 (.mem (.ir 4))).wf false = false ∧ (Instr.pushl 4 (.mem (.x (.ns 2) 4))).wf false = false ∧
    (Instr.popl (.reg 4) 6).wf false = true := by decide

theorem test_wf_bit_number : (Instr.bitb (.reg 1) 8).wf false = false ∧ (Instr.bitb (.reg 1) 7).wf false = true := by
  decide

theorem test_wf_counts : (Instr.sla 1 17).wf false = false ∧ (Instr.sra 1 0).wf false = false ∧
    (Instr.srab 1 9).wf false = false ∧ (Instr.slal 2 32).wf false = true := by decide

theorem test_wf_digits : (Instr.rldb 1 1).wf false = false ∧ (Instr.rrdb 1 9).wf false = true := by decide

theorem test_wf_block : (Instr.ldi 1 1 3).wf false = false ∧ (Instr.ldi 1 2 2).wf false = false ∧
    (Instr.ldi 2 4 3).wf true = false ∧ (Instr.cpi 3 3 4 0).wf false = false ∧ (Instr.cpi 3 2 3 0).wf false = false ∧
    (Instr.trib 1 2 3).wf false = false ∧ (Instr.trib 2 1 3).wf false = false ∧ (Instr.trib 2 3 1).wf false = false ∧
    (Instr.ini 1 0 3).wf false = false ∧ (Instr.ini 1 2 1).wf false = false ∧ (Instr.ldi 1 2 3).wf false = true := by
  decide

/-! Decoding: words written out from the encoding lines of the spec (R165 and the entries; spec/95 for those marked
there), and the instruction they stand for. -/

/-- The words decode to the instruction, and none is left. -/
def decodes (seg : Bool) (ws : List Word) (i : Instr) : Bool :=
  match decode seg ws with
  | .ok (j, []) => j == i
  | _ => false

/-- Every row decodes, in nonsegmented mode. -/
def allDecode (rows : List (List Word × Instr)) : Bool := rows.all fun r => decodes false r.1 r.2

theorem test_decode_load_1 : allDecode [
    ([0x4D08, 0xABBA], .clr (.mem (.da (.ns 0xABBA)))), ([0x8D58], .clr (.reg 5)), ([0x8C98], .clrb (.reg 9)),
    ([0xAD50], .ex 0 (.reg 5)), ([0x2C3A], .exb 10 (.mem (.ir 3))), ([0xA132], .ld 2 (.reg 3)),
    ([0x6134, 0x231A], .ld 4 (.mem (.x (.ns 0x231A) 3))), ([0x6002, 0x5E23], .ldb 2 (.mem (.da (.ns 0x5E23)))),
    ([0x1402, 0x1234, 0x5678], .ldl 2 (.imm 0x12345678)), ([0x7152, 0x0300], .ldBased 2 (.bx 5 3)),
    ([0x3142, 0x0018], .ldBased 2 (.ba 4 0x0018)), ([0x3059, 0x0010], .ldbBased 9 (.ba 5 0x0010)),
    ([0x7554, 0x0300], .ldlBased 4 (.bx 5 3)), ([0x2F35], .ldStore (.ir 3) 5),
    ([0x6E0C, 0x1002], .ldbStore (.da (.ns 0x1002)) 12), ([0x5D34, 0x0008], .ldlStore (.x (.ns 8) 3) 4),
    ([0x3315, 0x0020], .ldStoreBased (.ba 1 0x0020) 5), ([0x7219, 0x0600], .ldbStoreBased (.bx 1 6) 9),
    ([0x3752, 0x0018], .ldlStoreBased (.ba 5 0x0018) 2), ([0x0D35, 0xBEEF], .ldImm (.ir 3) 0xBEEF),
    ([0x4C05, 0x1001, 0x5555], .ldbImm (.da (.ns 0x1001)) 0x55), ([0xC255], .ldbShort 2 0x55),
    ([0x7604, 0x1234], .lda 4 (.da (.ns 0x1234))), ([0x3442, 0x0008], .ldaBased 2 (.ba 4 8))] = true := by decide

theorem test_decode_load_2 : allDecode [
    ([0x3403, 0xFFFE], .ldar 3 0xFFFE), ([0xBD39], .ldk 3 9),
    ([0x5C01, 0x0A0F, 0x2000], .ldmLoad 10 (.da (.ns 0x2000)) 15), ([0x1C69, 0x0502], .ldmStore (.ir 6) 5 2)] = true := by decide

theorem test_decode_relative_and_stack : allDecode [
    ([0x3102, 0x0002], .ldr 2 2), ([0x300A, 0xFFF0], .ldrb 10 0xFFF0), ([0x3506, 0x0004], .ldrl 6 4),
    ([0x3307, 0x0100], .ldrStore 0x0100 7), ([0x3209, 0x0003], .ldrbStore 3 9), ([0x3704, 0x0006], .ldrlStore 6 4),
    ([0x97C3], .pop (.reg 3) 12), ([0x15F4], .popl (.mem (.ir 4)) 15),
    ([0x53F0, 0x2000], .push 15 (.mem (.da (.ns 0x2000)))), ([0x91C6], .pushl 12 (.reg 6)),
    ([0x0DF9, 0x00AA], .pushImm 15 0x00AA)] = true := by decide

theorem test_decode_arithmetic_1 : allDecode [
    ([0xB520], .adc 0 2), ([0xB4A9], .adcb 9 10), ([0x8132], .add 2 (.reg 3)),
    ([0x0102, 0x1234], .add 2 (.imm 0x1234)), ([0x0132], .add 2 (.mem (.ir 3))),
    ([0x4102, 0x0012], .add 2 (.mem (.da (.ns 0x0012)))), ([0x4142, 0x0012], .add 2 (.mem (.x (.ns 0x0012) 4))),
    ([0x0002, 0x1212], .addb 2 (.imm 0x12)), ([0x1602, 0x1234, 0x5678], .addl 2 (.imm 0x12345678)),
    ([0x8B21], .cp 1 (.reg 2)), ([0x0A08, 0x4141], .cpb 8 (.imm 0x41)), ([0x1042], .cpl 2 (.mem (.ir 4))),
    ([0x4D01, 0x4000, 0x1234], .cpImm (.da (.ns 0x4000)) 0x1234), ([0x0C51, 0x0303], .cpbImm (.ir 5) 3),
    ([0xB090], .dab 9), ([0xABA0], .dec (.reg 10) 0), ([0xAA9F], .decb (.reg 9) 15),
    ([0x6901, 0x4000], .inc (.mem (.da (.ns 0x4000))) 1), ([0xA825], .incb (.reg 2) 5), ([0xB150], .extsb 5),
    ([0xB12A], .exts 2), ([0xB147], .extsl 4), ([0x8D82], .neg (.reg 8)), ([0x8C82], .negb (.reg 8))] = true := by decide

theorem test_decode_arithmetic_2 : allDecode [
    ([0x9920], .mult 0 (.reg 2)), ([0x1800, 0x0000, 0x000A], .multl 0 (.imm 10)), ([0x9B30], .div 0 (.reg 3)),
    ([0x9A40], .divl 0 (.reg 4)), ([0xB720], .sbc 0 2), ([0xB6A9], .sbcb 9 10),
    ([0x0300, 0x00AA], .sub 0 (.imm 0x00AA)), ([0x82A9], .subb 9 (.reg 10)), ([0x9242], .subl 2 (.reg 4))] = true := by decide

theorem test_decode_logical_and_control : allDecode [
    ([0x8721], .and 1 (.reg 2)), ([0x060B, 0x7B7B], .andb 11 (.imm 0x7B)), ([0x8521], .or 1 (.reg 2)),
    ([0x84A9], .orb 9 (.reg 10)), ([0x8921], .xor 1 (.reg 2)), ([0x080B, 0x7B7B], .xorb 11 (.imm 0x7B)),
    ([0x8D10], .com (.reg 1)), ([0x8C80], .comb (.reg 8)), ([0x8D54], .test (.reg 5)), ([0x8C84], .testb (.reg 8)),
    ([0x9C28], .testl (.reg 2)), ([0xAF16], .tcc 6 1), ([0xAE8E], .tccb 14 8),
    ([0x5F00, 0x2520], .call (.da (.ns 0x2520))), ([0xDFFB], .calr 0xFFB), ([0xF385], .djnz 3 5),
    ([0xF006], .dbjnz 0 6), ([0x5E07, 0x1520], .jp 7 (.da (.ns 0x1520))), ([0x1E3E], .jp 14 (.ir 3)),
    ([0xE6F2], .jr 6 0xF2), ([0x9E0E], .ret 14), ([0x7B00], .iret), ([0x7F03], .sc 3)] = true := by decide

theorem test_decode_bit_and_shift_1 : allDecode [
    ([0xA75F], .bit (.reg 5) 15), ([0x2701, 0x0500], .bitDyn 5 1), ([0xA620], .bitb (.reg 2) 0),
    ([0x2601, 0x0800], .bitbDyn 8 1), ([0x6307, 0x1000], .res (.mem (.da (.ns 0x1000))) 7),
    ([0x2300, 0x0700], .resDyn 7 0), ([0xA2B1], .resb (.reg 11) 1), ([0x2200, 0x0B00], .resbDyn 11 0),
    ([0x2540], .set (.mem (.ir 4)) 0), ([0x2502, 0x0300], .setDyn 3 2),
    ([0x6407, 0x4001], .setb (.mem (.da (.ns 0x4001))) 7), ([0x2402, 0x0B00], .setbDyn 11 2),
    ([0x8D36], .tset (.reg 3)), ([0x0C26], .tsetb (.mem (.ir 2))), ([0xB310], .rl 1 false), ([0xB312], .rl 1 true),
    ([0xB250], .rlb 5 false), ([0xB30A], .rlc 0 true), ([0xB298], .rlcb 9 false), ([0xB314], .rr 1 false),
    ([0xB2E4], .rrb 14 false), ([0xB30E], .rrc 0 true), ([0xB29C], .rrcb 9 false), ([0xBE91], .rldb 1 9)] = true := by decide

theorem test_decode_bit_and_shift_2 : allDecode [
    ([0xBC91], .rrdb 1 9), ([0xB319, 0x0010], .sla 1 16), ([0xB299, 0x0008], .slab 9 8),
    ([0xB32D, 0x0008], .slal 2 8), ([0xB331, 0x0001], .sll 3 1), ([0xB291, 0x0003], .sllb 9 3),
    ([0xB325, 0x0020], .slll 2 32), ([0xB319, 0xFFF1], .sra 1 15), ([0xB269, 0x00FE], .srab 6 2),
    ([0xB32D, 0xFFE0], .sral 2 32), ([0xB301, 0xFFFA], .srl 0 6), ([0xB291, 0x00F8], .srlb 9 8),
    ([0xB325, 0xFFE1], .srll 2 31), ([0xB35B, 0x0100], .sda 5 1), ([0xB2DB, 0x0100], .sdab 13 1),
    ([0xB32F, 0x0100], .sdal 2 1), ([0xB353, 0x0100], .sdl 5 1), ([0xB2D3, 0x0100], .sdlb 13 1),
    ([0xB327, 0x0100], .sdll 2 1)] = true := by decide

theorem test_decode_block_1 : allDecode [
    ([0xBB10, 0x0380], .cpi 8 1 3 0), ([0xBA10, 0x0387], .cpib 8 1 3 7), ([0xBB14, 0x0286], .cpir 8 1 2 6),
    ([0xBA14, 0x0286], .cpirb 8 1 2 6), ([0xBB18, 0x0306], .cpd 0 1 3 6), ([0xBA18, 0x0306], .cpdb 0 1 3 6),
    ([0xBB2C, 0x083A], .cpdr 3 2 8 10), ([0xBA2C, 0x083A], .cpdrb 3 2 8 10), ([0xBB32, 0x042F], .cpsi 2 3 4 15),
    ([0xBA32, 0x042F], .cpsib 2 3 4 15), ([0xBB26, 0x031E], .cpsir 1 2 3 14), ([0xBA26, 0x031E], .cpsirb 1 2 3 14),
    ([0xBB3A, 0x042F], .cpsd 2 3 4 15), ([0xBA3A, 0x042F], .cpsdb 2 3 4 15), ([0xBBEE, 0x00D6], .cpsdr 13 14 0 6),
    ([0xBAEE, 0x00D6], .cpsdrb 13 14 0 6), ([0xBB21, 0x0318], .ldi 1 2 3), ([0xBA21, 0x0318], .ldib 1 2 3),
    ([0xBB21, 0x0310], .ldir 1 2 3), ([0xBA21, 0x0310], .ldirb 1 2 3), ([0xBB29, 0x0318], .ldd 1 2 3),
    ([0xBA29, 0x0318], .lddb 1 2 3), ([0xBB29, 0x0310], .lddr 1 2 3), ([0xBA29, 0x0310], .lddrb 1 2 3)] = true := by decide

theorem test_decode_block_2 : allDecode [
    ([0xB840, 0x0350], .trib 4 5 3), ([0xB844, 0x0350], .trirb 4 5 3), ([0xB868, 0x0C90], .trdb 6 9 12),
    ([0xB86C, 0x0C90], .trdrb 6 9 12), ([0xB842, 0x0350], .trtib 4 5 3), ([0xB846, 0x065E], .trtirb 4 5 6),
    ([0xB86A, 0x0C90], .trtdb 6 9 12), ([0xB86E, 0x0C9E], .trtdrb 6 9 12)] = true := by decide

theorem test_decode_input_output_1 : allDecode [
    ([0x3D21], .inIr 1 2), ([0x3B14, 0x0020], .inDa 1 0x0020), ([0x3C62], .inbIr 2 6),
    ([0x3AB4, 0xFF21], .inbDa 11 0xFF21), ([0x3F16], .outIr 1 6), ([0x3B66, 0x1120], .outDa 0x1120 6),
    ([0x3E18], .outbIr 1 8), ([0x3A46, 0xFF13], .outbDa 0xFF13 4), ([0x3B15, 0x0100], .sin 1 0x0100),
    ([0x3A85, 0x0100], .sinb 8 0x0100), ([0x3B17, 0x0100], .sout 0x0100 1), ([0x3A87, 0x0100], .soutb 0x0100 8),
    ([0x3B60, 0x0048], .ini 4 6 0), ([0x3A60, 0x0048], .inib 4 6 0), ([0x3B20, 0x0310], .inir 1 2 3),
    ([0x3A20, 0x0310], .inirb 1 2 3), ([0x3B68, 0x0048], .ind 4 6 0), ([0x3A68, 0x0048], .indb 4 6 0),
    ([0x3B28, 0x0310], .indr 1 2 3), ([0x3A28, 0x0310], .indrb 1 2 3), ([0x3B22, 0x0318], .outi 1 2 3),
    ([0x3A22, 0x0318], .outib 1 2 3), ([0x3B12, 0x0230], .otir 3 1 2), ([0x3A12, 0x0230], .otirb 3 1 2)] = true := by decide

theorem test_decode_input_output_2 : allDecode [
    ([0x3B6A, 0x0828], .outd 2 6 8), ([0x3A6A, 0x0828], .outdb 2 6 8), ([0x3BCA, 0x0DB0], .otdr 11 12 13),
    ([0x3ACA, 0x0DB0], .otdrb 11 12 13), ([0x3B61, 0x0048], .sini 4 6 0), ([0x3A61, 0x0048], .sinib 4 6 0),
    ([0x3B21, 0x0310], .sinir 1 2 3), ([0x3A21, 0x0310], .sinirb 1 2 3), ([0x3B69, 0x0048], .sind 4 6 0),
    ([0x3A69, 0x0048], .sindb 4 6 0), ([0x3B29, 0x0310], .sindr 1 2 3), ([0x3A29, 0x0310], .sindrb 1 2 3),
    ([0x3B23, 0x0318], .souti 1 2 3), ([0x3A23, 0x0318], .soutib 1 2 3), ([0x3B13, 0x0230], .sotir 3 1 2),
    ([0x3A13, 0x0230], .sotirb 3 1 2), ([0x3B6B, 0x0828], .soutd 2 6 8), ([0x3A6B, 0x0828], .soutdb 2 6 8),
    ([0x3BCB, 0x0DB0], .sotdr 11 12 13), ([0x3ACB, 0x0DB0], .sotdrb 11 12 13)] = true := by decide

theorem test_decode_cpu_control_1 : allDecode [
    ([0x8DF5], .comflg true true true true), ([0x8D93], .resflg true false false true),
    ([0x8D81], .setflg true false false false), ([0x7C01], .di true false), ([0x7C04], .ei true true),
    ([0x7A00], .halt), ([0x7D7A], .ldctlWrite .fcw 7), ([0x7D0B], .ldctlWrite .refresh 0),
    ([0x7DCC], .ldctlWrite .psapseg 12), ([0x7D1D], .ldctlWrite .psapoff 1), ([0x7D26], .ldctlRead 2 .nspseg),
    ([0x7D37], .ldctlRead 3 .nspoff), ([0x8CA9], .ldctlbWrite 10), ([0x8C01], .ldctlbRead 0),
    ([0x3930], .ldps (.ir 3)), ([0x7900, 0x5000], .ldps (.da (.ns 0x5000))), ([0x7B0A], .mbit), ([0x7B0D], .mreq 0),
    ([0x7B09], .mres), ([0x7B08], .mset), ([0x8D07], .nop),
    ([0x4F0C, 0x0001, 0x5000], .epuLdmFrom (.da (.ns 0x5000)) 0 1), ([0x0F36, 0x0003], .epuLdmTo (.ir 3) 2 3),
    ([0x8F00, 0x0F01], .epuLdrFrom 0 0 0x0F01)] = true := by decide

theorem test_decode_cpu_control_2 : allDecode [
    ([0x8F39, 0x0203], .epuLdrTo 3 1 0x0203), ([0x8E00, 0x0000], .epuLdfFrom 0 0 0),
    ([0x8E1B, 0x0000], .epuLdfTo 1 3 0), ([0x8E05, 0x1234], .epuOp 0 1 0x1234)] = true := by decide

/-! Single steps: an instruction's words at 1000 on a Z8002 in system mode; the values before and after are those of
spec/95 (the rows named above each group). -/

/-- A Z8002 in system mode with the PC at 1000, these registers, and these words in memory: the start of spec/95. -/
def start (regs : List (Reg × Word)) (mem : List (Nat × Word)) : State :=
  { State.reset with
    fcw := { State.reset.fcw with sn := true }
    pcOff := 0x1000
    regs := regs.foldl (fun v r => v.set r.1 r.2) (Vector.replicate 16 0)
    sysR15 := ((regs.find? fun r => r.1 == 15).map Prod.snd).getD 0
    mem := mem.foldl (fun m x => m.writeWord x.1 x.2) [] }

/-- The step that runs these words ends in a state that meets the check. -/
def runs (ws : List Word) (s : State) (p : State → Bool) : Bool :=
  match step (s.placeBytes s.pcOff (bytesOf ws)) with
  | .next t => p t
  | _ => false

/-- The word at an offset, with one memory for all labels. -/
def word (t : State) (a : Nat) : Word := t.mem.readWord a

/-- C, Z, S, P/V. -/
def czsv (t : State) : Bool × Bool × Bool × Bool := (t.fcw.c, t.fcw.z, t.fcw.s, t.fcw.pv)

/-- The same state with C set. -/
def withC (s : State) : State := { s with fcw := { s.fcw with c := true } }

/-- The same state with these values coming from devices. -/
def withInput (s : State) (vs : List Word) : State := { s with ioIn := vs }

/-! Load and exchange: S1 to S17. -/

theorem test_step_ld_index : runs [0x6134, 0x231A] (start [(3, 0x01FE)] [(0x2518, 0x3D0E)])
    (fun t => t.reg 4 == 0x3D0E && t.pcOff == 0x1004) = true := by decide

theorem test_step_ld_based_index : runs [0x7152, 0x0300] (start [(5, 0x1502), (3, 0xFFFE)] [(0x1500, 0xB0DE)])
    (fun t => t.reg 2 == 0xB0DE) = true := by decide

theorem test_step_ldb_direct : runs [0x6002, 0x5E23] (start [(2, 0x6789)] [(0x5E22, 0x0106)])
    (fun t => t.reg 2 == 0x0689) = true := by decide

theorem test_step_ldb_short : runs [0xC255] (start [(2, 0x6789)] []) (fun t => t.reg 2 == 0x5589) = true := by decide

theorem test_step_ldl_store_based : runs [0x3752, 0x0018] (start [(5, 0x20AA), (2, 0x0A00), (3, 0x1500)] [])
    (fun t => word t 0x20C2 == 0x0A00 && word t 0x20C4 == 0x1500) = true := by decide

theorem test_step_ldr : runs [0x3102, 0x0002] (start [] [(0x1006, 0xFFFE)])
    (fun t => t.reg 2 == 0xFFFE && t.pcOff == 0x1004) = true := by decide

theorem test_step_clr : runs [0x4D08, 0xABBA] (start [] [(0xABBA, 0x000D)])
    (fun t => word t 0xABBA == 0) = true := by decide

theorem test_step_ex : runs [0xAD50] (start [(0, 0x0008), (5, 0x0009)] [])
    (fun t => t.reg 0 == 9 && t.reg 5 == 8) = true := by decide

theorem test_step_ldar : runs [0x3403, 0xFFFE] (start [] []) (fun t => t.reg 3 == 0x1002) = true := by decide

theorem test_step_lda_based : runs [0x3442, 0x0008] (start [(4, 0x0020)] [])
    (fun t => t.reg 2 == 0x0028) = true := by decide

theorem test_step_ldk : runs [0xBD39] (start [(3, 0xFFFF)] []) (fun t => t.reg 3 == 9) = true := by decide

theorem test_step_ldm_store : runs [0x1C69, 0x0502] (start [(5, 0x0005), (6, 0x0100), (7, 0x0007)] [])
    (fun t => word t 0x100 == 5 && word t 0x102 == 0x100 && word t 0x104 == 7 && t.reg 6 == 0x100) = true := by decide

theorem test_step_ldm_load : runs [0x1C61, 0x0F01] (start [(6, 0x0100)] [(0x0100, 0x1111), (0x0102, 0x2222)])
    (fun t => t.sysR15 == 0x1111 && t.reg 0 == 0x2222) = true := by decide

theorem test_step_pop : runs [0x97C3] (start [(12, 0x1000), (3, 0x0022)] [(0x1000, 0x97C3)])
    (fun t => t.reg 3 == 0x97C3 && t.reg 12 == 0x1002) = true := by decide

theorem test_step_push : runs [0x93C3] (start [(12, 0x2002), (3, 0x0022)] [(0x2000, 0x0055)])
    (fun t => word t 0x2000 == 0x0022 && t.reg 12 == 0x2000) = true := by decide

theorem test_step_pushl : runs [0x91C6] (start [(12, 0x2004), (6, 0x1234), (7, 0x5678)] [])
    (fun t => word t 0x2000 == 0x1234 && word t 0x2002 == 0x5678 && t.reg 12 == 0x2000) = true := by decide

/-! Arithmetic: S20 to S32 and A10 to A98. -/

theorem test_step_add : runs [0x8131] (start [(1, 0xFFFF), (3, 0x0001)] [])
    (fun t => t.reg 1 == 0 && czsv t == (true, true, false, false)) = true := by decide

theorem test_step_adc : runs [0xB520] (withC (start [(0, 0x0000), (2, 0x4320)] []))
    (fun t => t.reg 0 == 0x4321 && czsv t == (false, false, false, false)) = true := by decide

theorem test_step_adcb : runs [0xB4A9] (withC (start [(1, 0x000F), (2, 0x0000)] []))
    (fun t => t.reg 1 == 0x0010 && !t.fcw.d && t.fcw.h) = true := by decide

theorem test_step_sub : runs [0x8331] (start [(1, 0x7FFF), (3, 0xFFFF)] [])
    (fun t => t.reg 1 == 0x8000 && czsv t == (true, false, true, true)) = true := by decide

theorem test_step_subb : runs [0x82A9] (start [(1, 0x0080), (2, 0x0001)] [])
    (fun t => t.reg 1 == 0x007F && czsv t == (false, false, false, true) && t.fcw.d && t.fcw.h) = true := by decide

theorem test_step_sbc : runs [0xB720] (withC (start [(0, 0x8000), (2, 0x7FFF)] []))
    (fun t => t.reg 0 == 0 && czsv t == (false, true, false, true)) = true := by decide

theorem test_step_subl : runs [0x9242] (start [(2, 0x8000), (3, 0x0000), (4, 0x0000), (5, 0x0001)] [])
    (fun t => t.regL 2 == 0x7FFFFFFF && czsv t == (false, false, false, true)) = true := by decide

theorem test_step_cp_immediate : runs [0x4D01, 0x4000, 0x1234] (start [] [(0x4000, 0x1234)])
    (fun t => czsv t == (false, true, false, false) && t.pcOff == 0x1006) = true := by decide

theorem test_step_cpb_immediate : runs [0x0C51, 0x0303] (start [(5, 0x0400)] [(0x0400, 0x0200)])
    (fun t => czsv t == (true, false, true, false) && word t 0x400 == 0x0200) = true := by decide

theorem test_step_inc : runs [0xA91F] (withC (start [(1, 0xFFF0)] []))
    (fun t => t.reg 1 == 0 && czsv t == (true, true, false, false)) = true := by decide

theorem test_step_incb : runs [0xA890] (start [(1, 0x007F)] [])
    (fun t => t.reg 1 == 0x0080 && czsv t == (false, false, true, true)) = true := by decide

theorem test_step_dec : runs [0xABA0] (start [(10, 0x002A)] []) (fun t => t.reg 10 == 0x0029) = true := by decide

theorem test_step_dab : runs [0xB090] (start [(1, 0x009E)] [])
    (fun t => t.reg 1 == 0x0004 && t.fcw.c && !t.fcw.z) = true := by decide

theorem test_step_exts : runs [0xB12A] (start [(2, 0x1234), (3, 0x8000)] [])
    (fun t => t.reg 2 == 0xFFFF && t.reg 3 == 0x8000) = true := by decide

theorem test_step_extsl : runs [0xB147] (start [(6, 0x8000), (7, 0x0000)] [])
    (fun t => t.regL 4 == 0xFFFFFFFF) = true := by decide

theorem test_step_neg : runs [0x8D82] (start [(8, 0x8000)] [])
    (fun t => t.reg 8 == 0x8000 && czsv t == (true, false, true, true)) = true := by decide

theorem test_step_mult : runs [0x9920] (start [(1, 0xFFFF), (2, 0x0002)] [])
    (fun t => t.regL 0 == 0xFFFFFFFE && czsv t == (false, false, true, false)) = true := by decide

theorem test_step_mult_large : runs [0x9920] (start [(1, 0x4000), (2, 0x0002)] [])
    (fun t => t.regL 0 == 0x00008000 && czsv t == (true, false, false, false)) = true := by decide

theorem test_step_multl : runs [0x1800, 0x0000, 0x000A] (start [(0, 0x2222), (1, 0x2222), (2, 0x0000), (3, 0x0031)] [])
    (fun t => t.regQ 0 == 0x1EA && czsv t == (false, false, false, false)) = true := by decide

theorem test_step_div : runs [0x9B30] (start [(0, 0xFFFF), (1, 0xFFF9), (3, 0x0002)] [])
    (fun t => t.regL 0 == 0xFFFFFFFD && czsv t == (false, false, true, false)) = true := by decide

theorem test_step_div_one_bit_over : runs [0x9B30] (start [(0, 0xFFFF), (1, 0x0000), (3, 0x0001)] [])
    (fun t => t.regL 0 == 0 && czsv t == (true, false, true, true)) = true := by decide

theorem test_step_divl : runs [0x9A40] (start [(0, 0xFFFF), (1, 0xFFFF), (2, 0xFFFF), (3, 0xFF9C), (5, 0x0007)] [])
    (fun t => t.regQ 0 == 0xFFFFFFFEFFFFFFF2 && czsv t == (false, false, true, false)) = true := by decide

/-! Logical: S40 to S46 and G1 to G16. -/

theorem test_step_andb : runs [0x060B, 0xCECE] (start [(3, 0x00E7)] [])
    (fun t => t.reg 3 == 0x00C6 && czsv t == (false, false, true, true)) = true := by decide

theorem test_step_orb : runs [0x040B, 0x7B7B] (start [(3, 0x00C3)] [])
    (fun t => t.reg 3 == 0x00FB && czsv t == (false, false, true, false)) = true := by decide

theorem test_step_xor : runs [0x8921] (start [(1, 0xFFFF), (2, 0xFFFF)] [])
    (fun t => t.reg 1 == 0 && czsv t == (false, true, false, false)) = true := by decide

theorem test_step_com : runs [0x8D10] (start [(1, 0x2552)] [])
    (fun t => t.reg 1 == 0xDAAD && czsv t == (false, false, true, false)) = true := by decide

theorem test_step_testb : runs [0x8C84] (start [(0, 0x00B2)] [])
    (fun t => czsv t == (false, false, true, true)) = true := by decide

theorem test_step_tcc_not_met : runs [0xAF16] (start [(1, 0x1234)] [])
    (fun t => t.reg 1 == 0x1234) = true := by decide

/-! Program control: S50 to S59 and J1 to J22. -/

theorem test_step_call : runs [0x5F10, 0x2000] (start [(1, 0x0004), (15, 0x3002)] [])
    (fun t => t.sysR15 == 0x3000 && word t 0x3000 == 0x1004 && t.pcOff == 0x2004) = true := by decide

theorem test_step_calr : runs [0xD800] (start [(15, 0x3002)] [])
    (fun t => t.pcOff == 0x2002 && word t 0x3000 == 0x1002) = true := by decide

theorem test_step_djnz : runs [0xF385] (start [(3, 0x0002)] [])
    (fun t => t.reg 3 == 1 && t.pcOff == 0x0FF8) = true := by decide

theorem test_step_djnz_last : runs [0xF385] (start [(3, 0x0001)] [])
    (fun t => t.reg 3 == 0 && t.pcOff == 0x1002) = true := by decide

theorem test_step_dbjnz : runs [0xFA01] (start [(2, 0x0003)] [])
    (fun t => t.reg 2 == 2 && t.pcOff == 0x1000) = true := by decide

theorem test_step_jp_not_met : runs [0x1E36] (start [(3, 0x2000)] []) (fun t => t.pcOff == 0x1002) = true := by decide

theorem test_step_jr : runs [0xE880] (start [] []) (fun t => t.pcOff == 0x0F02) = true := by decide

theorem test_step_ret : runs [0x9E0E] (start [(15, 0x3000)] [(0x3000, 0x1004)])
    (fun t => t.sysR15 == 0x3002 && t.pcOff == 0x1004) = true := by decide

theorem test_step_iret : runs [0x7B00] (start [(15, 0x3000)] [(0x3000, 0x7F03), (0x3002, 0x1880), (0x3004, 0x1004)])
    (fun t => t.sysR15 == 0x3006 && t.fcw.toWord == 0x1880 && t.pcOff == 0x1004) = true := by decide

theorem test_step_sc : runs [0x7F03] (start [(15, 0x3006)] [(0x000C, 0x4080), (0x000E, 0x2000)])
    (fun t => t.sysR15 == 0x3000 && word t 0x3000 == 0x7F03 && word t 0x3002 == 0x4000 &&
      word t 0x3004 == 0x1002 && t.pcOff == 0x2000 && t.fcw.toWord == 0x4080) = true := by decide

/-! Bits: S60 to S63 and B1 to B12. -/

theorem test_step_bitb : runs [0xA620] (start [(2, 0xB200)] [])
    (fun t => t.fcw.z && t.reg 2 == 0xB200) = true := by decide

theorem test_step_bit_dynamic : runs [0x2701, 0x0500] (start [(1, 0x0013), (5, 0x0008)] [])
    (fun t => !t.fcw.z) = true := by decide

theorem test_step_res_dynamic : runs [0x2300, 0x0700] (start [(0, 0xFFF3), (7, 0xFFFF)] [])
    (fun t => t.reg 7 == 0xFFF7) = true := by decide

theorem test_step_setb_dynamic : runs [0x2402, 0x0B00] (start [(2, 0x0006), (3, 0x00B2)] [])
    (fun t => t.reg 3 == 0x00F2) = true := by decide

theorem test_step_setb : runs [0x6407, 0x4001] (start [] []) (fun t => word t 0x4000 == 0x0080) = true := by decide

theorem test_step_resb : runs [0xA2B1] (start [(3, 0x00B2)] []) (fun t => t.reg 3 == 0x00B0) = true := by decide

theorem test_step_tset : runs [0x8D36] (start [(3, 0x7FFF)] [])
    (fun t => !t.fcw.s && t.reg 3 == 0xFFFF) = true := by decide

theorem test_step_tsetb : runs [0x0C26] (start [(2, 0x4001)] [(0x4000, 0x1200)])
    (fun t => !t.fcw.s && word t 0x4000 == 0x12FF) = true := by decide

/-! Rotates and shifts: S70 to S81 and Q1 to Q48. -/

theorem test_step_rlb : runs [0xB250] (start [(5, 0x8800)] [])
    (fun t => t.reg 5 == 0x1100 && czsv t == (true, false, false, true)) = true := by decide

theorem test_step_rl_twice : runs [0xB312] (start [(1, 0x4000)] [])
    (fun t => t.reg 1 == 0x0001 && czsv t == (true, false, false, false)) = true := by decide

theorem test_step_rlc : runs [0xB30A] (start [(0, 0x800F)] [])
    (fun t => t.reg 0 == 0x003D && czsv t == (false, false, false, true)) = true := by decide

theorem test_step_rrb : runs [0xB2E4] (start [(6, 0x0031)] [])
    (fun t => t.reg 6 == 0x0098 && czsv t == (true, false, true, true)) = true := by decide

theorem test_step_rrc : runs [0xB30E] (start [(0, 0x00DD)] [])
    (fun t => t.reg 0 == 0x8037 && czsv t == (false, false, true, true)) = true := by decide

theorem test_step_rldb : runs [0xBE91] (start [(1, 0x0423)] [])
    (fun t => t.reg 1 == 0x0234 && !t.fcw.z) = true := by decide

theorem test_step_rrdb : runs [0xBC91] (start [(1, 0x3050)] [])
    (fun t => t.reg 1 == 0x3005 && !t.fcw.z) = true := by decide

theorem test_step_sla : runs [0xB319, 0x0002] (start [(1, 0x4000)] [])
    (fun t => t.reg 1 == 0 && czsv t == (true, true, false, false)) = true := by decide

theorem test_step_slal : runs [0xB32D, 0x0008] (start [(2, 0x1234), (3, 0xABCD)] [])
    (fun t => t.regL 2 == 0x34ABCD00 && czsv t == (false, false, false, false)) = true := by decide

theorem test_step_sll : runs [0xB331, 0x0001] (start [(3, 0x4321)] [])
    (fun t => t.reg 3 == 0x8642 && !t.fcw.c && !t.fcw.z && t.fcw.s) = true := by decide

theorem test_step_sra : runs [0xB319, 0xFFFF] (start [(1, 0xFFFF)] [])
    (fun t => t.reg 1 == 0xFFFF && czsv t == (true, false, true, false)) = true := by decide

theorem test_step_srab : runs [0xB269, 0x00FE] (start [(6, 0x3B00)] [])
    (fun t => t.reg 6 == 0x0E00 && czsv t == (true, false, false, false)) = true := by decide

theorem test_step_srlb : runs [0xB291, 0x00F8] (start [(1, 0x00FF)] [])
    (fun t => t.reg 1 == 0 && t.fcw.c && t.fcw.z) = true := by decide

theorem test_step_sda : runs [0xB35B, 0x0100] (start [(5, 0xC705), (1, 0xFFFE)] [])
    (fun t => t.reg 5 == 0xF1C1 && czsv t == (false, false, true, false)) = true := by decide

theorem test_step_sdlb : runs [0xB2D3, 0x0100] (start [(5, 0x00B3), (1, 0x0004)] [])
    (fun t => t.reg 5 == 0x0030 && t.fcw.c) = true := by decide

/-! Blocks: S90 to S98 and K1 to K15. -/

theorem test_step_cpdb : runs [0xBA18, 0x0306] (start [(0, 0xFF00), (1, 0x4001), (3, 0x0005)] [])
    (fun t => !t.fcw.z && !t.fcw.pv && t.reg 1 == 0x4000 && t.reg 3 == 4) = true := by decide

theorem test_step_cpib : runs [0xBA10, 0x0387] (start [(0, 0x3900), (1, 0x5000), (3, 0x0002)] [(0x5000, 0x4100)])
    (fun t => t.fcw.z && !t.fcw.pv && t.reg 1 == 0x5001 && t.reg 3 == 1) = true := by decide

theorem test_step_cpirb_goes_on : runs [0xBA14, 0x0286] (start [(0, 0x000D), (1, 0x5000), (2, 0x0005)]
    [(0x5000, 0x4142)])
    (fun t => !t.fcw.z && t.reg 1 == 0x5001 && t.reg 2 == 4 && t.pcOff == 0x1000) = true := by decide

theorem test_step_cpsdb : runs [0xBA3A, 0x042F] (start [(2, 0x2000), (3, 0x3000), (4, 0x0001)] [(0x2000, 0xFF00)])
    (fun t => czsv t == (false, true, true, true) && t.reg 2 == 0x1FFF && t.reg 3 == 0x2FFF &&
      t.reg 4 == 0) = true := by decide

theorem test_step_ldd : runs [0xBB29, 0x0318] (start [(1, 0x202A), (2, 0x404A), (3, 0x0005)] [(0x404A, 0xFFFF)])
    (fun t => word t 0x202A == 0xFFFF && t.reg 1 == 0x2028 && t.reg 2 == 0x4048 && t.reg 3 == 4 &&
      !t.fcw.pv) = true := by decide

theorem test_step_ldirb_first : runs [0xBA21, 0x0310] (start [(1, 0x4001), (2, 0x4000), (3, 0x0004)]
    [(0x4000, 0xAA00)])
    (fun t => word t 0x4000 == 0xAAAA && t.reg 3 == 3 && t.pcOff == 0x1000 && !t.fcw.pv) = true := by decide

theorem test_step_ldirb_last : runs [0xBA21, 0x0310] (start [(1, 0x4001), (2, 0x4000), (3, 0x0001)]
    [(0x4000, 0xAA00)])
    (fun t => t.reg 3 == 0 && t.pcOff == 0x1004 && t.fcw.pv) = true := by decide

theorem test_step_ldib_counter_zero : runs [0xBA21, 0x0318] (start [(1, 0x4001), (2, 0x4000)] [])
    (fun t => t.reg 3 == 0xFFFF && !t.fcw.pv) = true := by decide

theorem test_step_trib : runs [0xB840, 0x0350] (start [(4, 0x4000), (5, 0x2000), (3, 0x0002)]
    [(0x4000, 0x0500), (0x2004, 0x0020)])
    (fun t => word t 0x4000 == 0x2000 && t.reg 4 == 0x4001 && t.reg 3 == 1 && t.reg 5 == 0x2000 &&
      !t.fcw.pv) = true := by decide

theorem test_step_trtdb : runs [0xB86A, 0x0C90] (start [(6, 0x4001), (9, 0x2000), (12, 0x0002)]
    [(0x4000, 0x0003), (0x2002, 0x00AA)])
    (fun t => t.regB 1 == 0xAA && t.reg 6 == 0x4000 && t.reg 12 == 1 && word t 0x4000 == 3 &&
      !t.fcw.z) = true := by decide

theorem test_step_trtirb_goes_on : runs [0xB846, 0x065E] (start [(4, 0x4000), (5, 0x2000), (6, 0x0003)]
    [(0x4000, 0x4120)])
    (fun t => t.fcw.z && t.reg 4 == 0x4001 && t.reg 6 == 2 && t.pcOff == 0x1000) = true := by decide

/-! Input and output: S9, S110 to S117 and I1 to I9. -/

theorem test_step_outb : runs [0x3E18] (start [(0, 0x0A23), (1, 0x0011)] [])
    (fun t => t.events == [.ioWrite .standard 0x0011 1 0x23]) = true := by decide

theorem test_step_out : runs [0x3B66, 0x1120] (start [(6, 0x5252)] [])
    (fun t => t.events == [.ioWrite .standard 0x1120 2 0x5252]) = true := by decide

theorem test_step_soutb : runs [0x3A87, 0x0100] (start [(0, 0x0005)] [])
    (fun t => t.events == [.ioWrite .special 0x0100 1 0x05]) = true := by decide

theorem test_step_inb : runs [0x3C62] (withInput (start [(6, 0x0123)] []) [0x00FF])
    (fun t => t.regB 2 == 0xFF && t.events == [.ioRead .standard 0x0123 1 0xFF]) = true := by decide

theorem test_step_inib : runs [0x3A60, 0x0048] (withInput (start [(4, 0x4000), (6, 0x0228), (0, 0x0016)] []) [0x00B9])
    (fun t => word t 0x4000 == 0xB900 && t.reg 4 == 0x4001 && t.reg 0 == 0x15 && t.reg 6 == 0x228 &&
      !t.fcw.pv) = true := by decide

theorem test_step_indrb_counter_zero : runs [0x3A28, 0x0310] (withInput (start [(1, 0x4000), (2, 0x0050)] []) [0x0001])
    (fun t => t.reg 1 == 0x3FFF && t.reg 3 == 0xFFFF && t.pcOff == 0x1000 && !t.fcw.pv) = true := by decide

theorem test_step_outib : runs [0x3A22, 0x0318] (start [(1, 0x0010), (2, 0x4000), (3, 0x0001)] [(0x4000, 0x9900)])
    (fun t => t.events == [.ioWrite .standard 0x0010 1 0x99] && t.reg 2 == 0x4001 && t.reg 3 == 0 &&
      t.fcw.pv) = true := by decide

/-! CPU control: S120 to S130 and X1 to X25. -/

theorem test_step_di : runs [0x7C01] (start [] []) (fun t => t.fcw.toWord == 0x4000) = true := by decide

theorem test_step_ei : runs [0x7C05] (start [] []) (fun t => t.fcw.vie && !t.fcw.nvie) = true := by decide

theorem test_step_comflg : runs [0x8DF5] (start [] [])
    (fun t => czsv t == (true, true, true, true)) = true := by decide

theorem test_step_ldctl_fcw : runs [0x7D7A] (start [(7, 0xD8FC)] [])
    (fun t => t.fcw.toWord == 0x58FC) = true := by decide

theorem test_step_ldctl_refresh : runs [0x7D0B] (start [(0, 0x8600)] [])
    (fun t => t.refresh == { re := true, rate := 3, row := 0 }) = true := by decide

theorem test_step_ldctl_psap : runs [0x7D1D] (start [(1, 0x44FF)] []) (fun t => t.psapOff == 0x44) = true := by decide

theorem test_step_ldctl_nsp : runs [0x7D2F] (start [(2, 0x8000), (15, 0x3000)] [])
    (fun t => t.regs[15] == 0x8000 && t.sysR15 == 0x3000) = true := by decide

theorem test_step_ldctlb : runs [0x8CA9] (start [(2, 0x00FF)] [])
    (fun t => t.fcw.toWord == 0x40FC) = true := by decide

theorem test_step_ldps : runs [0x3930] (start [(3, 0x5000)] [(0x5000, 0x1800), (0x5002, 0xA000)])
    (fun t => t.fcw.toWord == 0x1800 && t.pcOff == 0xA000) = true := by decide

theorem test_step_mbit : runs [0x7B0A] (start [] []) (fun t => t.fcw.s) = true := by decide

theorem test_step_mreq : runs [0x7B0D] (start [(0, 0x0032)] [])
    (fun t => t.reg 0 == 0 && !t.fcw.s && t.fcw.z && !t.moLow) = true := by decide

theorem test_step_mset : runs [0x7B08] (start [] []) (fun t => t.moLow) = true := by decide

theorem test_step_nop : runs [0x8D07] (start [] [])
    (fun t => t.pcOff == 0x1002 && t.fcw.toWord == 0x4000) = true := by decide

theorem test_step_halt : runs [0x7A00] (start [] []) (fun t => t.halted && t.pcOff == 0x1002) = true := by decide

/-! The extended instruction trap with FCW.EPA = 0: E1. -/

theorem test_step_epu_trap : runs [0x8E05, 0x1234] (start [(15, 0x3006)] [(0x0004, 0x4000), (0x0006, 0x0800)])
    (fun t => t.sysR15 == 0x3000 && word t 0x3000 == 0x8E05 && word t 0x3002 == 0x4000 &&
      word t 0x3004 == 0x1002 && t.pcOff == 0x0800) = true := by decide

/-! Segmented mode, exceptions and reset. -/

/-- A Z8001 in segmented system mode, PC <<0>>1000. -/
def startSeg (regs : List (Reg × Word)) (mem : List (Nat × Word)) : State :=
  let s := start regs mem
  { s with
    cfg := { s.cfg with version := .z8001 }
    fcw := { s.fcw with seg := true }
    sysR14 := ((regs.find? fun r => r.1 == 14).map Prod.snd).getD 0 }

/-- The outcome of a step that runs no new words meets a check. -/
def stepsTo (s : State) (p : State → Bool) : Bool :=
  match step s with
  | .next t => p t
  | _ => false

/-- Why a step stops. -/
def stopOf (s : State) : Option (Sum Fault Refusal) :=
  match step s with
  | .next _ => none
  | .fault f => some (.inl f)
  | .refused r => some (.inr r)

/-- Segmented address forms of R165: short offset, long offset, indexed. -/
theorem test_decode_segmented :
    (decodes true [0x4102, 0x0312] (.add 2 (.mem (.da (.short 3 0x12)))) &&
     decodes true [0x4102, 0x8300, 0x0012] (.add 2 (.mem (.da (.long 3 0x0012)))) &&
     decodes true [0x4142, 0x8300, 0x0012] (.add 2 (.mem (.x (.long 3 0x0012) 4)))) = true := by decide

/-- A register pair as a stack pointer, and the PC pushed as a long word: J3 of spec/95. -/
theorem test_step_call_segmented :
    runs [0x5F00, 0x8600, 0x2000] (startSeg [(14, 0x0400), (15, 0x0098)] [])
      (fun t => t.sysR15 == 0x0094 && t.sysR14 == 0x0400 && word t 0x40094 == 0 && word t 0x40096 == 0x1006 &&
        t.pcSeg == 6 && t.pcOff == 0x2000) = true := by decide

/-- RET pops a long word: J19 of spec/95. -/
theorem test_step_ret_segmented :
    runs [0x9E08] (startSeg [(14, 0x0400), (15, 0x0094)] [(0x40094, 0x0600), (0x40096, 0x0108)])
      (fun t => t.sysR15 == 0x0098 && t.pcSeg == 6 && t.pcOff == 0x0108) = true := by decide

/-- A pointer wraps inside its segment: K15 of spec/95. -/
theorem test_step_ldirb_wraps :
    runs [0xBA41, 0x0120] (startSeg [(2, 0x0100), (3, 0xFFFF), (4, 0x0200), (1, 0x0002)] [(0x20000, 0xAB00)])
      (fun t => t.reg 2 == 0x0100 && t.reg 3 == 0 && word t 0x1FFFE == 0x00AB && t.reg 1 == 1) = true := by decide

/-- LDPS in segmented mode: X26 of spec/95. -/
theorem test_step_ldps_segmented :
    runs [0x3920] (startSeg [(2, 0x0100), (3, 0x5000)] [(0x15002, 0x5800), (0x15004, 0x0600), (0x15006, 0x2000)])
      (fun t => t.fcw.toWord == 0x5800 && t.pcSeg == 6 && t.pcOff == 0x2000) = true := by decide

/-- A privileged instruction in normal mode: T2 of spec/95. -/
theorem test_step_privileged_trap :
    runs [0x7C05] { start [(15, 0x1111)] [(0x4408, 0x4000), (0x440A, 0x0900)] with
        psapOff := 0x44, sysR15 := 0x3006, fcw := Fcw.ofWord 0x1880 }
      (fun t => t.sysR15 == 0x3000 && word t 0x3000 == 0x7C05 && word t 0x3002 == 0x1880 && word t 0x3004 == 0x1002 &&
        t.fcw.toWord == 0x4000 && t.pcOff == 0x0900) = true := by decide

/-- A vectored interrupt with vector 6: T7 of spec/95. -/
theorem test_step_vectored_interrupt :
    stepsTo { start [] [(0x441C, 0x4000), (0x442A, 0x0D0C)] with
        psapOff := 0x44, sysR15 := 0x3006, fcw := Fcw.ofWord 0x5880, pcOff := 0x1004
        pins := { Pins.idle with vi := true, ackWord := 0x5506 } }
      (fun t => t.sysR15 == 0x3000 && word t 0x3000 == 0x5506 && word t 0x3002 == 0x5880 && word t 0x3004 == 0x1004 &&
        t.fcw.toWord == 0x4000 && t.pcOff == 0x0D0C) = true := by decide

/-- The stack after an interrupt on a Z8001: S140 of spec/95. -/
theorem test_step_entry_z8001 :
    stepsTo { startSeg [(14, 0x0400), (15, 0x0094)] [] with
        pcSeg := 6, pcOff := 0x2006, fcw := Fcw.ofWord 0xD880
        pins := { Pins.idle with vi := true, ackWord := 0x0005 } }
      (fun t => t.sysR14 == 0x0400 && t.sysR15 == 0x008C && word t 0x4008C == 0x0005 && word t 0x4008E == 0xD880 &&
        word t 0x40090 == 0x0600 && word t 0x40092 == 0x2006) = true := by decide

/-- Reset of a Z8002: S143 of spec/95. While RESET is low nothing is read; the sequence follows its release and clears the
latch of an NMI edge at the release (R700). -/
theorem test_step_reset :
    stepsTo { start [(3, 7)] [(0x0002, 0x4000), (0x0004, 0x0010)] with
        pins := { Pins.idle with reset := true }, schedule := [{ Pins.idle with nmi := true }] }
      (fun t => t.resetting && t.nmiLatch && t.pcOff == 0x1000 &&
        stepsTo t (fun u => u.fcw.toWord == 0x4000 && u.pcOff == 0x0010 && u.reg 3 == 7 && !u.nmiLatch &&
          u.activity == .execute)) = true := by decide

/-- Registers from an EPU wrap from R15 to R0: E5 of spec/95. -/
theorem test_step_epu_registers :
    runs [0x8F00, 0x0F01] { start [] [] with fcw := Fcw.ofWord 0x6000, epuIn := [0xAAAA, 0xBBBB] }
      (fun t => t.reg 15 == 0xAAAA && t.reg 0 == 0xBBBB && t.epuIn == []) = true := by decide

/-- Words from memory to an EPU: E4 of spec/95; the lines are those of R510(b). -/
theorem test_step_epu_memory :
    let b : BusLines := { status := 0b1010, read := true, word := true, system := true }
    runs [0x4F04, 0x0001, 0x5000] { start [] [(0x5000, 0x1111), (0x5002, 0x2222)] with fcw := Fcw.ofWord 0x6000 }
      (fun t => t.events == [.epuTake b 1 0x2222, .epuTake b 0 0x1111, .epuNote 0x4F04 0x0001] && t.pcOff == 0x1006)
      = true := by decide

/-- A word from an EPU to a register in normal mode: the lines of R510(c). -/
theorem test_step_epu_give :
    let b : BusLines := { status := 0b1110, read := true, word := true, system := false }
    runs [0x8F00, 0x0300] { start [] [] with fcw := Fcw.ofWord 0x2000, epuIn := [0xAAAA] }
      (fun t => t.events == [.epuGive b 0 0xAAAA, .epuNote 0x8F00 0x0300] && t.reg 3 == 0xAAAA) = true := by decide

/-- The lines of a word I/O read and of a segment trap acknowledge (R72). -/
theorem test_bus_lines :
    (BusEvent.ioRead .special 1 2 0).lines = some { status := 0b0011, read := true, word := true, system := true } ∧
    (BusEvent.acknowledge .segment 0).lines = some { status := 0b0100, read := true, word := true, system := true } := by
  decide

/-- An odd PC, a reserved word, and a change of the next instruction's first word stop the run. -/
theorem test_step_stops :
    stopOf { start [] [] with pcOff := 0x1001 } = some (.inl .oddWordAddress) ∧
    stopOf (start [] [(0x1000, 0x3600)]) = some (.inr .reservedEncoding) ∧
    stopOf (start [(1, 0x1002), (2, 0x8D17)] [(0x1000, 0x2F12)]) = some (.inr .storeIntoNextInstruction) := by decide

/-- The same store is seen by the later fetch where an accepted request comes first (R93, R618). -/
theorem test_step_store_before_request :
    stepsTo { start [(1, 0x1002), (2, 0x8D17)] [(0x1000, 0x2F12)] with
        schedule := [{ Pins.idle with nmi := true }] }
      (fun t => word t 0x1002 == 0x8D17 && t.accepted == some .nmi) = true := by decide

/-- RESET falls inside LDL @R1,RR2 before its second store (the places: fetch, start, two stores): the first word is
stored, the second is not, and the machine goes on as after reset (R702). -/
theorem test_step_reset_inside :
    stepsTo { start [(1, 0x3000), (2, 0x1111), (3, 0x2222)] [(0x1000, 0x1D12), (0x0002, 0x4000), (0x0004, 0x0010)] with
        resetIn := some 3 }
      (fun t => word t 0x3000 == 0x1111 && word t 0x3002 == 0 && stepsTo t (fun u => u.pcOff == 0x0010)) = true := by decide

/-- RESET falls after one word of EPU_LDR_FROM, and in the third turn of the loop of MREQ (R702). -/
theorem test_step_reset_inside_others :
    (match exec (.epuLdrFrom 0 0 0x0101) { start [(1, 7), (2, 8)] [] with
        fcw := Fcw.ofWord 0x6000, epuIn := [0xAAAA, 0xBBBB], resetIn := some 1 } with
      | .next t => t.reg 1 == 0xAAAA && t.reg 2 == 8 && t.resetFell
      | _ => false) = true ∧
    stepsTo { start [(1, 0x0100)] [(0x1000, 0x7B1D)] with resetIn := some 4 }
      (fun t => t.regs[1] == 0x00FE && !t.moLow) = true := by decide

/-- RESET that has fallen is seen before words that are no instruction are refused (R702). -/
theorem test_step_reset_before_reserved :
    stepsTo { start [] [(0x1000, 0x3600)] with resetIn := some 1 } (fun t => t.activity == .restart) = true := by decide

/-- RESET that has fallen is seen before an odd address is (R702). -/
theorem test_step_reset_before_odd :
    stepsTo { start [] [] with pcOff := 0x1001, resetIn := some 0 } (fun t => t.activity == .restart) = true := by decide

/-- RESET that falls between two reads of the reset sequence has it made again (R700, R702). -/
theorem test_step_reset_inside_reset :
    stepsTo { start [] [(0x0004, 0x0010)] with resetting := true, resetIn := some 1 }
      (fun t => t.pcOff == 0x1000 && stepsTo t (fun u => u.pcOff == 0x0010)) = true := by decide

/-- A halted machine takes no sample in Bus-Disconnect (R707): the samples before and after it are consecutive. -/
theorem test_step_halt_disconnected :
    stepsTo { start [] [] with
        halted := true, nmiLatch := true, haltSample := { Requests.quiet with nmi := true }
        pins := { Pins.idle with busreq := true }, schedule := [Pins.idle] }
      (fun t => t.held == none && t.halted && t.activity == .take .nmi) = true := by decide

/-- STOP holds a fetch up: a request that arrives meanwhile is not taken before it (R706). -/
theorem test_step_stop_holds_fetch :
    stepsTo { start [] [] with
        pins := { Pins.idle with stop := true }, schedule := [{ Pins.idle with nmi := true }] }
      (fun t => t.nmiLatch && t.activity == .execute && t.rowStepped) = true := by decide

/-- STOP is sampled again before the second word of an extended instruction with FCW.EPA = 1, and only there (R510). -/
theorem test_step_stop_second :
    let s := fun w => { start [] [] with fcw := Fcw.ofWord w, pins := { Pins.idle with stopSecond := true } }
    runs [0x8E05, 0x1234] (s 0x6000) (fun t => t.rowStepped && t.pcOff == 0x1004) = true ∧
    runs [0x8D07] (s 0x6000) (fun t => !t.rowStepped) = true := by decide

/-- A disabled MMU does nothing; an enabled one follows the first-word fetches (R102, R104). -/
theorem test_mmu_track :
    let m : Mmu := { select := 0xFC, csAtReset := true, mode := 0x80, sar := 0, dsc := 0, vtr := 0x20, vsn := 0, voff := 0
                     bcs := 0, isn := 0, ioff := 0, descs := Vector.replicate 64 { base := 0, limit := 0, attr := 0 }
                     suppress := false, segt := false }
    let a : Access := { addr := ⟨5, 0x1234⟩, label := .ifetch, sys := true, write := false, word := true }
    (m.track a).isn = 5 ∧ (m.track a).ioff = 0x12 ∧ ({ m with mode := 0 }.track a).isn = 0 ∧
    ({ m with vtr := 0x01 }.track a).isn = 0 := by decide

/-- A Z8002 system has no MMU (R4, R8): a unit in the list that inhibits every access takes no part there. -/
theorem test_mmu_z8001_only :
    let m : Mmu := { select := 0xFC, csAtReset := true, mode := 0xC0, sar := 0, dsc := 0, vtr := 0, vsn := 0, voff := 0
                     bcs := 0, isn := 0, ioff := 0, descs := Vector.replicate 64 { base := 0x10, limit := 0xFF, attr := 4 }
                     suppress := false, segt := false }
    let f := fun s : State => match writeWord .data ⟨0, 0x2000⟩ 7 { s with mmus := [m] } with
      | .ok (_, t) => some (word t 0x2000, t.mmus.map (·.segt))
      | .error _ => none
    f (start [] []) = some (7, [false]) ∧ f (startSeg [] []) = some (0, [true]) := by decide

/-! Witnesses: states and operands that meet the hypotheses of each statement together, clause by clause. -/

/-- The outcome is a next state. -/
def goesOn : Out → Bool
  | .next _ => true
  | _ => false

theorem next_of_goesOn {o : Out} (h : goesOn o = true) : ∃ t, o = .next t := by
  cases o with
  | next t => exact ⟨t, rfl⟩
  | fault f => simp [goesOn] at h
  | refused r => simp [goesOn] at h

theorem decode_of_decodes {seg : Bool} {ws : List Word} {i : Instr} (h : decodes seg ws i = true) :
    decode seg ws = .ok (i, []) := by
  unfold decodes at h
  split at h
  · rename_i j hj
    rw [hj, eq_of_beq h]
  · simp at h

/-- System mode, the pointers R2 = FFFE (even), R3 = FFFF (odd), R4 = 2000, R6 = 3000, the system stack at 4000. -/
def sample : State := start [(2, 0xFFFE), (3, 0xFFFF), (4, 0x2000), (6, 0x3000), (15, 0x4000)] []

/-- The same registers on a Z8001 in segmented mode. -/
def sampleSeg : State := startSeg [(2, 0xFFFE), (3, 0xFFFE), (4, 0x2000), (6, 0x3000), (15, 0x4000)] []

/-- The same registers in normal mode. -/
def sampleNormal : State := { sample with fcw := { sample.fcw with sn := false } }

theorem witness_StepKeepsInvariant : State.reset.Inv ∧ ∃ t, step State.reset = .next t :=
  ⟨⟨by decide, by decide, by decide⟩, next_of_goesOn (by decide)⟩

theorem witness_DecodeEncode : (Instr.add 2 (.reg 3)).wf false = true ∧
    (Instr.cpImm (.da (.long 127 0xFFFF)) 0xFFFF).wf true = true := by decide

theorem witness_DecodeWellFormed : decode false [0x8132] = .ok (.add 2 (.reg 3), []) ∧
    decode true [0x4D01, 0xFF00, 0xFFFF, 0xFFFF] = .ok (.cpImm (.da (.long 127 0xFFFF)) 0xFFFF, []) :=
  ⟨decode_of_decodes (by decide), decode_of_decodes (by decide)⟩

theorem witness_StepRunsDecoded :
    (let s := start [] [(0x1000, 0x8132)]
     s.plain ∧ s.activity = .execute ∧ s.pc.aligned .w = true ∧ decode s.isSeg (s.codeWords 1) = .ok (.add 2 (.reg 3), []) ∧
     firstWordTrap s.fcw (s.wordAt .code s.pc) = none) ∧
    (let s := startSeg [] [(0x1000, 0x4D01), (0x1002, 0xFF00), (0x1004, 0xFFFF), (0x1006, 0xFFFF)]
     s.plain ∧ s.activity = .execute ∧ s.pc.aligned .w = true ∧
     decode s.isSeg (s.codeWords maxWords) = .ok (.cpImm (.da (.long 127 0xFFFF)) 0xFFFF, []) ∧
     firstWordTrap s.fcw (s.wordAt .code s.pc) = none) :=
  ⟨⟨by decide, by decide, by decide, decode_of_decodes (by decide), by decide⟩,
   ⟨by decide, by decide, by decide, decode_of_decodes (by decide), by decide⟩⟩

theorem witness_FirstWordTraps :
    (let s := { start [] [(0x1000, 0x8E05)] with sysR15 := 0x4000 }
     s.plain ∧ s.activity = .execute ∧ s.pc.aligned .w = true ∧ s.systemStackReady = true ∧
     firstWordTrap s.fcw (s.wordAt .code s.pc) = some .extended) ∧
    (let s := { start [] [(0x1000, 0x7C05)] with fcw := State.reset.fcw }
     s.plain ∧ s.activity = .execute ∧ s.pc.aligned .w = true ∧ s.systemStackReady = true ∧
     firstWordTrap s.fcw (s.wordAt .code s.pc) = some .privileged) := by decide

theorem witness_ReservedRefused :
    (let s := start [] [(0x1000, 0x3600)]
     s.plain ∧ s.activity = .execute ∧ s.pc.aligned .w = true ∧ firstWordTrap s.fcw (s.wordAt .code s.pc) = none ∧
     decode s.isSeg (s.codeWords 1) = .error .reserved) ∧
    (let s := start [] [(0x1000, 0xBB21), (0x1002, 0x0320)]
     s.plain ∧ s.activity = .execute ∧ s.pc.aligned .w = true ∧ firstWordTrap s.fcw (s.wordAt .code s.pc) = none ∧
     decode s.isSeg (s.codeWords maxWords) = .error .illFormed) :=
  ⟨⟨by decide, by decide, by decide, by decide, rfl⟩, ⟨by decide, by decide, by decide, by decide, rfl⟩⟩

theorem witness_StoreReadsBack : sample.mem.wf = true ∧ Addr.aligned .b ⟨0, 0xFFFF⟩ = true ∧
    Addr.aligned .w ⟨127, 0xFFFE⟩ = true ∧ Addr.aligned .l ⟨127, 0xFFFE⟩ = true := by decide

theorem witness_StackPointerCopies : (sampleSeg.fcw.sn = true ∧ sampleSeg.isSeg = true) ∧
    (sample.fcw.sn = true ∧ sample.isSeg = false) ∧ sampleNormal.fcw.sn = false ∧
    sample.cfg.version = .z8002 := by decide

/-- Odd offsets at the ends of the range, for every kind of operand, on both versions. -/
theorem witness_OddAddressStops :
    (sample.cfg.dropAddressBit0 = false ∧ sample.resetIn = none ∧ Addr.aligned .w ⟨0, 0x0001⟩ = false ∧ Addr.aligned .l ⟨127, 0xFFFF⟩ = false ∧
      Mem.ready .w sample (.ir 3) = false ∧ Based.ready .w sample (.ba 3 0) = false ∧ sample.fcw.sn = true ∧
      (sample.relative 1).aligned .w = false ∧ (sample.addrOf 3).aligned .w = false ∧ sample.plain ∧
      (sample.addrOf 2).aligned .w = true ∧ Dst.ready .w sample (.reg 4) = true) ∧
    (let s := { sample with fcw := { sample.fcw with epa := true } }
     s.cfg.dropAddressBit0 = false ∧ s.resetIn = none ∧ s.fcw.epa = true ∧ Mem.ready .w s (.ir 3) = false) ∧
    (let s := { sampleSeg with sysR15 := 0x0001 }
     s.cfg.dropAddressBit0 = false ∧ s.resetIn = none ∧ s.stackReady = false ∧ s.fcw.cond 8 = true ∧ s.fcw.sn = true ∧ s.isSeg = true ∧
     s.systemStackReady = false) ∧
    (let s := { sample with sysR15 := 0xFFFF, pins := { Pins.idle with nvi := true }
                            fcw := { sample.fcw with nvie := true } }
     s.cfg.dropAddressBit0 = false ∧ s.resetIn = none ∧ s.stackReady = false ∧ s.cfg.version = .z8002 ∧ s.systemStackReady = false ∧
     s.activity = .take .nvi ∧ Instr.isExtended (.epuOp 0 0 0) = true ∧ s.fcw.epa = false) ∧
    (let s := { sampleNormal with sysR15 := 0xFFFF }
     s.cfg.dropAddressBit0 = false ∧ s.resetIn = none ∧ s.systemStackReady = false ∧ Instr.isPrivileged .halt = true ∧
     s.fcw.sn = false) ∧
    (let s := { sample with pcOff := 0xFFFF }
     s.cfg.dropAddressBit0 = false ∧ s.resetIn = none ∧ s.activity = .execute ∧ s.pc.aligned .w = false) := by decide

theorem witness_LoadRegister : sample.plain ∧ Src.ready sample (.mem (.ir 2) : Src .w) = true ∧
    Src.ready sample (.mem (.ir 3) : Src .b) = true ∧ Src.ready sample (.mem (.ir 2) : Src .l) = true ∧
    Based.ready .w sample (.ba 2 0xFFFE) = true ∧ Based.ready .b sample (.bx 2 3) = true ∧
    Based.ready .l sample (.ba 4 2) = true := by decide

theorem witness_StoreMemory : sample.plain ∧ Mem.ready .w sample (.ir 2) = true ∧ Mem.ready .b sample (.ir 3) = true ∧
    Mem.ready .l sample (.ir 2) = true ∧ Based.ready .w sample (.ba 2 0xFFFE) = true ∧
    Based.ready .b sample (.bx 2 3) = true ∧ Based.ready .l sample (.ba 4 2) = true ∧
    Dst.ready .w sample (.mem (.ir 2)) = true ∧ Dst.ready .b sample (.reg 15) = true := by decide

theorem witness_Exchange : sample.plain ∧ Dst.ready .w sample (.mem (.ir 2)) = true ∧
    Dst.ready .b sample (.mem (.ir 3)) = true := by decide

/-- LDAR with its reserved bits cleared and, under U12, free. -/
theorem witness_LoadAddress : sample.isSeg = false ∧ sampleSeg.isSeg = true ∧ sampleSeg.cfg.ldarReservedFree = false ∧
    (let s := { sampleSeg with cfg := { sampleSeg.cfg with ldarReservedFree := true } }
     s.isSeg = true ∧ s.cfg.ldarReservedFree = true) := by decide

theorem witness_LoadRelative : sample.plain ∧ (sample.relative 0xEFFE).aligned .w = true := by decide

theorem witness_LoadMultiple : (sample.plain ∧ sample.mem.wf = true ∧ Mem.ready .w sample (.ir 2) = true) ∧
    (sampleSeg.plain ∧ sampleSeg.mem.wf = true ∧ Mem.ready .w sampleSeg (.ir 2) = true) ∧
    (0 : Reg) ∉ runOfRegs 1 15 ∧ (14 : Reg) ∉ runOfRegs 15 1 ∧
    ∀ x ∈ Instr.stores sample (.ldmStore (.ir 2) 14 3), 0x0006 ∉ x.bytes sample := by decide

theorem witness_StackResult : sample.plain ∧ (sample.addrOf 15).aligned .w = true ∧ (sample.addrOf 2).aligned .w = true ∧
    Dst.ready .w sample (.mem (.ir 4)) = true ∧ Dst.ready .l sample (.reg 6) = true := by decide

theorem witness_AddSubtract : sample.plain ∧ Src.ready sample (.mem (.ir 2) : Src .w) = true ∧
    Src.ready sample (.mem (.ir 3) : Src .b) = true ∧ Src.ready sample (.mem (.ir 2) : Src .l) = true := by decide

theorem witness_CompareResult : sample.plain ∧ Src.ready sample (.mem (.ir 2) : Src .w) = true ∧
    Src.ready sample (.mem (.ir 3) : Src .b) = true ∧ Src.ready sample (.mem (.ir 2) : Src .l) = true ∧
    Mem.ready .w sample (.ir 2) = true ∧ Mem.ready .b sample (.ir 3) = true := by decide

theorem witness_IncrementDecrement : sample.plain ∧ Dst.ready .w sample (.mem (.ir 2)) = true ∧
    Dst.ready .b sample (.mem (.ir 3)) = true := by decide

/-- 99 + 99 + 1 and 0 - 99 - 1, the ends of the ranges. -/
theorem witness_DecimalAdjust :
    (let s := { start [(0, 0x3300)] [] with fcw := { State.reset.fcw with c := true, h := true } }
     let a := addWith 0x99#8 0x99#8 true
     s.fcw.d = false ∧ s.fcw.c = a.c ∧ s.fcw.h = a.h ∧ s.regB 0 = a.r) ∧
    (let s := { start [(0, 0x6600)] [] with fcw := { State.reset.fcw with c := true, h := true, d := true } }
     let a := subWith 0x00#8 0x99#8 true
     s.fcw.d = true ∧ s.fcw.c = a.c ∧ s.fcw.h = a.h ∧ s.regB 0 = a.r) := by decide

theorem witness_ExtendNegate : sample.plain ∧ Dst.ready .w sample (.mem (.ir 2)) = true ∧
    Dst.ready .b sample (.mem (.ir 3)) = true := by decide

theorem witness_Multiply : sample.plain ∧ Src.ready sample (.imm 0x8000 : Src .w) = true ∧
    Src.ready sample (.mem (.ir 2) : Src .l) = true := by decide

/-- One dividend for each case of a word division by 1, at the ends of its range. -/
theorem witness_Divide : sample.plain ∧ Src.ready sample (.imm 0 : Src .w) = true ∧
    (let q := fun hi lo : Word => ((start [(0, hi), (1, lo)] []).regL 0).toInt.tdiv (1#16).toInt
     q 0xFFFF 0x8000 = -2 ^ 15 ∧ q 0 0x7FFF = 2 ^ 15 - 1 ∧ q 0 0x8000 = 2 ^ 15 ∧ q 0xFFFF 0x7FFF = -2 ^ 15 - 1 ∧
     q 0 0xFFFF = 2 ^ 16 - 1 ∧ q 0xFFFF 0 = -2 ^ 16 ∧ q 1 0 = 2 ^ 16 ∧ q 0xFFFE 0xFFFF = -2 ^ 16 - 1) := by decide

/-- The same for a long division by 1. -/
theorem witness_Divide_long : Src.ready sample (.imm 1 : Src .l) = true ∧
    (let q := fun hi lo : Long => ((start [(0, hi.extractLsb' 16 16), (1, hi.extractLsb' 0 16),
        (2, lo.extractLsb' 16 16), (3, lo.extractLsb' 0 16)] []).regQ 0).toInt.tdiv (1#32).toInt
     q 0xFFFFFFFF 0x80000000 = -2 ^ 31 ∧ q 0 0x7FFFFFFF = 2 ^ 31 - 1 ∧ q 0 0x80000000 = 2 ^ 31 ∧
     q 0xFFFFFFFF 0 = -2 ^ 32 ∧ q 0 0xFFFFFFFF = 2 ^ 32 - 1 ∧ q 1 0 = 2 ^ 32) := by decide

theorem witness_LogicalResult : sample.plain ∧ Src.ready sample (.mem (.ir 2) : Src .w) = true ∧
    Src.ready sample (.mem (.ir 3) : Src .b) = true ∧ Dst.ready .w sample (.mem (.ir 2)) = true ∧
    Dst.ready .b sample (.mem (.ir 3)) = true := by decide

theorem witness_TestResult : sample.plain ∧ Dst.ready .w sample (.mem (.ir 2)) = true ∧
    Dst.ready .b sample (.mem (.ir 3)) = true ∧ Dst.ready .l sample (.mem (.ir 2)) = true := by decide

theorem witness_CallResult : (sample.plain ∧ sample.stackReady = true) ∧
    (sampleSeg.plain ∧ sampleSeg.stackReady = true) := by decide

theorem witness_ReturnResult : sample.fcw.cond 0 = false ∧
    (sample.fcw.cond 8 = true ∧ sample.plain ∧ sample.stackReady = true ∧ sample.isSeg = false) ∧
    (sampleSeg.fcw.cond 8 = true ∧ sampleSeg.plain ∧ sampleSeg.stackReady = true ∧ sampleSeg.isSeg = true) := by decide

theorem witness_CallThenReturn : (sample.plain ∧ sample.mem.wf = true ∧ sample.stackReady = true) ∧
    (sampleSeg.plain ∧ sampleSeg.mem.wf = true ∧ sampleSeg.stackReady = true) := by decide

theorem witness_BitResult : sample.plain ∧ Dst.ready .w sample (.mem (.ir 2)) = true ∧
    Dst.ready .b sample (.mem (.ir 3)) = true ∧ (7 : Fin 16).val < 8 := by decide

theorem witness_RotateResult : sample.cfg.shiftVAnyStep = false := by decide

/-- The ends of the count ranges of a byte, a word and a long word. -/
theorem witness_StaticShift : (0 ≤ Width.bits .b ∧ 8 ≤ Width.bits .b ∧ 16 ≤ Width.bits .w ∧ 32 ≤ Width.bits .l ∧
    1 ≤ Width.bits .l) ∧ sample.cfg.shiftVAnyStep = false := by decide

/-- Counts at the ends of each range for words: 0, 16, -1, -16, 17, -17. -/
theorem witness_DynamicShift :
    let n := fun v : Word => ((start [(1, v)] []).reg 1).toInt
    n 0 = 0 ∧ n 16 = 16 ∧ n 0xFFFF = -1 ∧ n 0xFFF0 = -16 ∧ n 17 = 17 ∧ n 0xFFEF = -17 := by decide

theorem witness_BlockCompare : sample.plain ∧ (sample.addrOf 2).aligned .w = true := by decide

theorem witness_StringCompare : sample.plain ∧ (sample.addrOf 2).aligned .w = true ∧
    (sample.addrOf 4).aligned .w = true := by decide

theorem witness_BlockMove : sample.plain ∧ (sample.addrOf 2).aligned .w = true ∧
    (sample.addrOf 4).aligned .w = true := by decide

theorem witness_Translate : sample.plain ∧ sampleSeg.plain := by decide

theorem witness_InputOutput : sample.units = [] ∧ sample.resetIn = none ∧ sample.fcw.sn = true := by decide

theorem witness_BlockInputOutput : sample.plain ∧ sample.fcw.sn = true ∧ (sample.addrOf 2).aligned .w = true := by decide

theorem witness_ControlInstructions : sample.fcw.sn = true ∧ sample.resetIn = none ∧
    (let s := { sample with halted := true }
     s.halted = true ∧ s.pins.reset = false ∧ s.resetting = false ∧ s.pins.busreq = false ∧ s.pins.stop = false ∧
     s.accepted = none) := by decide

theorem witness_ControlRegisters : (sample.fcw.sn = true ∧ sample.isSeg = false) ∧
    (sampleSeg.fcw.sn = true ∧ sampleSeg.isSeg = true) ∧ sample.refresh.re = false ∧
    sample.rowStepped = false := by decide

theorem witness_LoadProgramStatus :
    (sample.plain ∧ sample.fcw.sn = true ∧ Mem.ready .w sample (.ir 2) = true ∧ sample.isSeg = false) ∧
    (sampleSeg.plain ∧ sampleSeg.fcw.sn = true ∧ Mem.ready .w sampleSeg (.ir 2) = true ∧ sampleSeg.isSeg = true) := by
  decide

theorem witness_ExtendedTransfers :
    let s := { sample with fcw := { sample.fcw with epa := true }, epuIn := List.replicate 16 0x1234 }
    s.plain ∧ s.mem.wf = true ∧ s.fcw.epa = true ∧ Mem.ready .w s (.ir 2) = true ∧
    epuCount 0xFFFF ≤ s.epuIn.length := by decide

theorem witness_InternalTraps :
    (sampleNormal.plain ∧ sampleNormal.systemStackReady = true ∧ Instr.isPrivileged .halt = true ∧
      sampleNormal.fcw.sn = false) ∧
    (sample.plain ∧ sample.systemStackReady = true ∧ Instr.isExtended (.epuOp 0 0 0) = true ∧ sample.fcw.epa = false) := by
  decide

theorem witness_EntrySaves :
    (sample.mem.wf = true ∧ sample.systemStackReady = true ∧ sample.cfg.version = .z8002 ∧ sample.fcw.seg = false) ∧
    (sampleSeg.mem.wf = true ∧ sampleSeg.systemStackReady = true ∧ sampleSeg.cfg.version = .z8001) := by decide

theorem witness_InterruptReturn :
    (sample.fcw.sn = true ∧ sample.plain ∧ sample.cfg.version = .z8002 ∧ sample.stackReady = true) ∧
    (sampleSeg.fcw.sn = true ∧ sampleSeg.plain ∧ sampleSeg.isSeg = true ∧ sampleSeg.stackReady = true) ∧
    (let s := { sampleSeg with fcw := sample.fcw }
     s.fcw.sn = true ∧ s.cfg.version = .z8001 ∧ s.isSeg = false) := by decide

/-- A system call on each version, with the Program Status Area at 0. -/
theorem witness_EntryThenReturn :
    (let s := { sample with mem := Memory.writeWord [] 0x000C 0x4000 }
     let u := s.entered .systemCall 0x7F00 s.pc
     s.plain ∧ s.Inv ∧ s.systemStackReady = true ∧ u.fcw.sn = true ∧ s.cfg.version = .z8002 ∧ s.pc.seg = s.pcSeg) ∧
    (let s := { sampleSeg with mem := Memory.writeWord [] 0x001A 0xC000 }
     let u := s.entered .systemCall 0x7F00 s.pc
     s.plain ∧ s.Inv ∧ s.systemStackReady = true ∧ u.fcw.sn = true ∧ s.cfg.version = .z8001 ∧ u.fcw.seg = true) :=
  ⟨⟨by decide, ⟨by decide, by decide, by decide⟩, by decide, by decide, by decide, by decide⟩,
   ⟨by decide, ⟨by decide, by decide, by decide⟩, by decide, by decide, by decide, by decide⟩⟩

/-- A running machine, a halted one with each request on two samples or on one, a quiet one, and a held fetch. -/
theorem witness_ExternalRequests :
    (let s := { sample with pins := { Pins.idle with vi := true }, fcw := { sample.fcw with vie := true } }
     s.pins.reset = false ∧ s.resetting = false ∧ s.pins.busreq = false ∧ s.pins.stop = false ∧ s.held = none ∧ s.halted = false ∧
     s.accepted = some .vi ∧ s.plain ∧ s.systemStackReady = true) ∧
    (let h := fun r : Requests =>
       { sampleSeg with halted := true, haltSample := r, nmiLatch := r.nmi
                        fcw := { sampleSeg.fcw with vie := true, nvie := true }
                        pins := { Pins.idle with segt := r.segt, vi := r.vi, nvi := r.nvi } }
     let q := Requests.quiet
     (h { q with nmi := true }).accepted = some .nmi ∧ (h { q with segt := true }).accepted = some .segment ∧
     (h { q with vi := true }).accepted = some .vi ∧ (h { q with nvi := true }).accepted = some .nvi ∧
     (h q).accepted = none ∧ (h q).halted = true ∧ (h q).held = none ∧ (h q).haltSample = Requests.quiet ∧
     (h q).pins.reset = false ∧ (h q).resetting = false ∧ (h q).pins.busreq = false ∧ (h q).pins.stop = false ∧
     ({ h { q with vi := true } with haltSample := q }).accepted = none) ∧
    (let s := { sample with held := some (some .nvi) }
     s.held = some (some .nvi) ∧ s.pins.reset = false ∧ s.resetting = false ∧ s.pins.busreq = false ∧ s.pins.stop = false) := by decide

theorem witness_ResetSequence :
    { Pins.idle with reset := true }.reset = true ∧
    (let s := { sample with resetting := true }
     s.plain ∧ s.pins.reset = false ∧ s.resetting = true ∧ s.cfg.version = .z8002) ∧
    (let s := { sampleSeg with resetting := true }
     s.plain ∧ s.pins.reset = false ∧ s.resetting = true ∧ s.cfg.version = .z8001) := by decide

/-- An MMU that translates segments 0 to 63, all with these attributes. -/
def mmu (attr : Byte) : Mmu :=
  { select := 0xFC, csAtReset := true, mode := 0xC0, sar := 0, dsc := 0, vtr := 0, vsn := 0, voff := 0, bcs := 0
    isn := 0, ioff := 0, descs := Vector.replicate 64 { base := 0x0100, limit := 0xFF, attr := attr }
    suppress := false, segt := false }

/-- A write that violates nothing, one that violates RD with no flag set and with one set, and one that warns: limit FF
in a segment that grows down, offset FF00. -/
theorem witness_MmuProtection :
    let s := fun (a v : Byte) => { sampleSeg with mmus := [{ mmu a with vtr := v }] }
    ((s 0 0).cfg.version = .z8001 ∧ (s 0 0).mmus = [mmu 0] ∧ (s 0 0).cfg.memMap = [] ∧ (s 0 0).resetIn = none ∧ (mmu 0).msen = true ∧
      (mmu 0).urs = (5#7).getLsbD 6 ∧ ((mmu 0).mst = true → (mmu 0).nms = !(s 0 0).fcw.sn) ∧ (mmu 0).trns = true ∧
      (mmu 0).suppress = false ∧ Label.data ≠ .trapStack ∧ Addr.aligned .w ⟨5, 0xFF00⟩ = true) ∧
    (∃ t, writeWord .data ⟨5, 0xFF00⟩ 7 (s 0x01 0) = .ok ((), t) ∧ t.mmus.map (·.vtr) = [0x01]) ∧
    (∃ t, writeWord .data ⟨5, 0xFF00⟩ 7 (s 0x01 0x20) = .ok ((), t) ∧ t.mmus.map (·.vtr) = [0xA1]) ∧
    ∃ t, writeByte .data ⟨5, 0xFF00⟩ 7 (s 0x20 0) = .ok ((), t) ∧ t.mmus.map (·.vtr) = [0x20] := by
  refine ⟨by decide, ⟨_, rfl, by decide⟩, ⟨_, rfl, by decide⟩, ⟨_, rfl, by decide⟩⟩

theorem witness_FrameRegisters : Instr.runs sample (.push 15 (.reg 4)) = true ∧
    (∃ t, exec (.push 15 (.reg 4)) sample = .next t) ∧ (15 : Reg) ∉ Instr.targets sample.isSeg (.ldir 2 4 6) ∧
    (14 : Reg) ∉ Instr.targets sample.isSeg (.push 15 (.reg 4)) :=
  ⟨by decide, next_of_goesOn (by decide), by decide, by decide⟩

theorem witness_FrameMemory : sample.plain ∧ Instr.runs sample (.ldStore (.ir 2) 4) = true ∧
    (∃ t, exec (.ldStore (.ir 2) 4) sample = .next t) ∧
    ∀ x ∈ Instr.stores sample (.ldStore (.ir 2) 4), 0x2000 ∉ x.bytes sample :=
  ⟨by decide, by decide, next_of_goesOn (by decide), by decide⟩

theorem witness_FrameSpecials : Instr.runs sample (.add 2 (.reg 3)) = true ∧
    ∃ t, exec (.add 2 (.reg 3)) sample = .next t := ⟨by decide, next_of_goesOn (by decide)⟩

theorem witness_NormalModeConfined : sampleNormal.fcw.sn = false ∧
    (∃ t, exec (.add 2 (.reg 3)) sampleNormal = .next t) ∧ ∃ t, exec .halt sampleNormal = .next t :=
  ⟨by decide, next_of_goesOn (by decide), next_of_goesOn (by decide)⟩

end Sys2Proof.Tests
end

section
/-! PROOF. What the shared operations may change, said once for each (R20 to R22, R31 to R36): the relation `Effect`
between the state before and the state after, and a lemma for every operation the instruction meanings are made of. -/

namespace Sys2Proof.Machine

open Sys2Proof

/-! One operation from one state. -/

/-- `Keeps` at one state: what `x` does from `s`, where it answers or RESET abandons it, is allowed by `Q`. -/
def KeepsAt {α : Type} (Q : State → State → Prop) (x : M α) (s : State) : Prop :=
  (∀ a t, x s = .ok (a, t) → Q s t) ∧ ∀ t, x s = .error (.abandoned t) → Q s t

/-- Two operations in a row, the second one looked at only from where the first one ends. -/
theorem KeepsAt.bind {α β : Type} {Q R S : State → State → Prop} {x : M α} {f : α → M β} {s : State}
    (hx : KeepsAt Q x s) (hf : ∀ a u, Q s u → KeepsAt R (f a) u) (first : ∀ u, Q s u → S s u)
    (both : ∀ u t, Q s u → R u t → S s t) : KeepsAt S (x >>= f) s := by
  constructor
  · intro b t h
    obtain ⟨a, u, h1, h2⟩ := M.bind_inv h
    have q := hx.1 a u h1
    exact both u t q ((hf a u q).1 b t h2)
  · intro t h
    rw [M.bind_apply] at h
    cases hs : x s with
    | error e =>
      rw [hs] at h
      have he : e = .abandoned t := by simpa using h
      exact first t (hx.2 t (by rw [hs, he]))
    | ok p =>
      rw [hs] at h
      have q := hx.1 p.1 p.2 hs
      exact both p.2 t q ((hf p.1 p.2 q).2 t h)

/-- What comes after a look at the state sees the state it is done in. -/
theorem KeepsAt.get_bind {β : Type} {Q : State → State → Prop} {f : State → M β} {s : State}
    (h : KeepsAt Q (f s) s) : KeepsAt Q (get >>= f) s := by
  unfold KeepsAt at *
  rwa [M.bind_ok (M.get_apply s)]

theorem KeepsAt.modify {Q : State → State → Prop} {f : State → State} {s : State} (h : Q s (f s)) :
    KeepsAt Q (modify f : M Unit) s := by
  constructor <;> intros <;> simp_all

theorem KeepsAt.set {Q : State → State → Prop} {s t : State} (h : Q s t) : KeepsAt Q (set t : M Unit) s := by
  constructor <;> intros <;> simp_all

/-- What an instruction's next state has, from what its operation keeps. -/
theorem KeepsAt.run {Q : State → State → Prop} {x : M Unit} {s t : State} (h : KeepsAt Q x s)
    (e : M.run x s = .next t) : Q s t := by
  rcases M.run_next.1 e with e | e
  · exact h.1 () t e
  · exact h.2 t e

/-- A privileged instruction in system mode is its body (R470). -/
theorem KeepsAt.runPrivileged {Q : State → State → Prop} {x : M Unit} {s t : State} (hx : KeepsAt Q x s)
    (hs : s.fcw.sn = true) (h : M.run (privileged x) s = .next t) : Q s t := by
  refine KeepsAt.run ?_ h
  unfold KeepsAt
  rwa [privileged_system x s hs]

/-- An extended instruction with FCW.EPA = 1 is its body (R501). -/
theorem KeepsAt.runExtended {Q : State → State → Prop} {x : M Unit} {s t : State} (hx : KeepsAt Q x s)
    (hs : s.fcw.epa = true) (h : M.run (extended x) s = .next t) : Q s t := by
  refine KeepsAt.run ?_ h
  unfold KeepsAt
  rwa [extended_present x s hs]

theorem Keeps.runPrivileged {Q : State → State → Prop} {x : M Unit} {s t : State} (hx : Keeps Q x)
    (hs : s.fcw.sn = true) (h : M.run (privileged x) s = .next t) : Q s t := KeepsAt.runPrivileged (hx s) hs h

theorem Keeps.runExtended {Q : State → State → Prop} {x : M Unit} {s t : State} (hx : Keeps Q x)
    (hs : s.fcw.epa = true) (h : M.run (extended x) s = .next t) : Q s t := KeepsAt.runExtended (hx s) hs h

/-! The relation. -/

/-- The bits of FCW that are the machine's mode (R32 to R34). -/
def Fcw.mode (f : Fcw) : Bool × Bool × Bool := (f.seg, f.sn, f.epa)

/-- The bits of FCW that enable interrupts (R35). -/
def Fcw.enables (f : Fcw) : Bool × Bool := (f.vie, f.nvie)

/-- A change of FCW that leaves its control bits: flags alone change (R37 to R42). -/
def FlagsOnly (g : Fcw → Fcw) : Prop := ∀ f, (g f).mode = f.mode ∧ (g f).enables = f.enables

/-- What only some instructions write, beside the mode bits of FCW (R35, R45, R46, R474, R486), and the input and output
transactions (R76). -/
inductive Special where
  | psapSeg | psapOff | refresh | mo | halt | enables | io

/-- What an effect may change at most: the word registers `W` names for the mode it began in, the special state in `P`,
the mode bits of FCW if `load`; flags, memory, PC, MMUs, EPU transactions and the model's own counters in any case. The
invariant is kept. In normal mode the system copies of R14 and R15 are out of reach (R22). A field that `simp` can prove
need not be given. -/
structure Effect (load : Bool) (P : List Special) (W : Bool → List Reg) (s t : State) : Prop where
  cfg : t.cfg = s.cfg := by simp
  inv : s.Inv → t.Inv
  nmiLatch : t.nmiLatch = s.nmiLatch := by simp
  pins : t.pins = s.pins := by simp
  schedule : t.schedule = s.schedule := by simp
  psapSeg : .psapSeg ∉ P → t.psapSeg = s.psapSeg := by simp
  psapOff : .psapOff ∉ P → t.psapOff = s.psapOff := by simp
  refresh : .refresh ∉ P → t.refresh = s.refresh ∧ t.rowStepped = s.rowStepped := by simp
  moLow : .mo ∉ P → t.moLow = s.moLow := by simp
  halted : .halt ∉ P → t.halted = s.halted := by simp
  mode : load = false → t.fcw.mode = s.fcw.mode := by simp
  enables : load = false → .enables ∉ P → t.fcw.enables = s.fcw.enables := by simp
  events : ∃ new, t.events = new ++ s.events ∧ (.io ∉ P → ∀ e ∈ new, e.isEpu = true) := by
    exact ⟨[], by simp⟩
  regs : ∀ r : Reg, r ∉ W s.isSeg → t.regs[r] = s.regs[r] := by simp
  sysR14 : 14 ∉ W s.isSeg ∨ s.fcw.sn = false → t.sysR14 = s.sysR14 := by simp
  sysR15 : 15 ∉ W s.isSeg ∨ s.fcw.sn = false → t.sysR15 = s.sysR15 := by simp

theorem Fcw.seg_of_mode {f g : Fcw} (h : f.mode = g.mode) : f.seg = g.seg := congrArg Prod.fst h
theorem Fcw.sn_of_mode {f g : Fcw} (h : f.mode = g.mode) : f.sn = g.sn := congrArg (fun x => x.2.1) h
theorem Fcw.epa_of_mode {f g : Fcw} (h : f.mode = g.mode) : f.epa = g.epa := congrArg (fun x => x.2.2) h

theorem State.isSeg_of_mode {s t : State} (hc : t.cfg = s.cfg) (h : t.fcw.mode = s.fcw.mode) : t.isSeg = s.isSeg := by
  simp [State.isSeg, hc, Fcw.seg_of_mode h]

theorem State.version_of_isSeg {s : State} (h : s.isSeg = true) : s.cfg.version = .z8001 := by
  simp_all [State.isSeg]

theorem State.isSeg_z8002 {s : State} (h : s.cfg.version = .z8002) : s.isSeg = false := by
  simp [State.isSeg, h]

/-- The invariant follows the few fields it speaks of. -/
theorem State.Inv.of_same {s t : State} (h : s.Inv) (hc : t.cfg = s.cfg) (hm : t.mem.wf = true)
    (hf : t.fcw.mode = s.fcw.mode) (hp : t.isSeg = false → t.pcSeg = s.pcSeg)
    (ha : t.isSeg = false → t.psapSeg = s.psapSeg) : t.Inv where
  mem := hm
  nonseg v := by
    rw [hc] at v
    have ht : t.isSeg = false := by simp [State.isSeg, hc, v]
    rw [Fcw.seg_of_mode hf, hp ht, ha ht]
    exact h.nonseg v
  epa v := by
    rw [Fcw.epa_of_mode hf]
    exact h.epa (hc ▸ v)

/-- A loaded FCW has no bit the machine lacks (R307). -/
theorem State.Inv.loaded {s : State} (h : s.Inv) (w off : Word) :
    ({ s with fcw := loadFcw s.cfg w, pcOff := off } : State).Inv where
  mem := h.mem
  nonseg v := ⟨by simp [loadFcw, show s.cfg.version = .z8002 from v], (h.nonseg v).2⟩
  epa v := by simp [loadFcw, show s.cfg.epaImplemented = false from v]

/-- On a Z8001 a loaded PC may have any segment number (R25). -/
theorem State.Inv.loadedSeg {s : State} (h : s.Inv) (hv : s.cfg.version = .z8001) (w off : Word) (seg : BitVec 7) :
    ({ s with fcw := loadFcw s.cfg w, pcSeg := seg, pcOff := off } : State).Inv where
  mem := h.mem
  nonseg v := by rw [show s.cfg.version = .z8002 from v] at hv; cases hv
  epa v := by simp [loadFcw, show s.cfg.epaImplemented = false from v]

section
variable {load : Bool} {P : List Special} {W : Bool → List Reg}

/-- A change of memory, PC offset, MMUs, the input queues and the model's own counters is within every effect. -/
theorem Effect.minor (s : State) (m : Memory) (pc : Word) (ms : List Mmu) (r : Option Nat) (io ep : List Word) (k : Nat)
    (hm : s.mem.wf = true → m.wf = true) : Effect load P W s
      { s with mem := m, pcOff := pc, mmus := ms, resetIn := r, ioIn := io, epuIn := ep, freeCount := k } where
  inv h := h.of_same rfl (hm h.mem) rfl (fun _ => rfl) fun _ => rfl

theorem Effect.refl (s : State) : Effect load P W s s :=
  Effect.minor s s.mem s.pcOff s.mmus s.resetIn s.ioIn s.epuIn s.freeCount id

theorem Effect.isSeg {s t : State} (h : Effect false P W s t) : t.isSeg = s.isSeg :=
  State.isSeg_of_mode h.cfg (h.mode rfl)

/-- An effect that leaves the mode, and then another one. -/
theorem Effect.trans {s u t : State} (h : Effect false P W s u) (h' : Effect load P W u t) : Effect load P W s t where
  cfg := h'.cfg.trans h.cfg
  inv i := h'.inv (h.inv i)
  nmiLatch := h'.nmiLatch.trans h.nmiLatch
  pins := h'.pins.trans h.pins
  schedule := h'.schedule.trans h.schedule
  psapSeg p := (h'.psapSeg p).trans (h.psapSeg p)
  psapOff p := (h'.psapOff p).trans (h.psapOff p)
  refresh p := ⟨(h'.refresh p).1.trans (h.refresh p).1, (h'.refresh p).2.trans (h.refresh p).2⟩
  moLow p := (h'.moLow p).trans (h.moLow p)
  halted p := (h'.halted p).trans (h.halted p)
  mode l := (h'.mode l).trans (h.mode rfl)
  enables l p := (h'.enables l p).trans (h.enables rfl p)
  events := by
    obtain ⟨new, e, p⟩ := h.events
    obtain ⟨new', e', p'⟩ := h'.events
    refine ⟨new' ++ new, by rw [e', e, List.append_assoc], fun io x hx => ?_⟩
    rcases List.mem_append.1 hx with hx | hx
    · exact p' io x hx
    · exact p io x hx
  regs r hr := (h'.regs r (h.isSeg ▸ hr)).trans (h.regs r hr)
  sysR14 n := (h'.sysR14 (by rwa [h.isSeg, Fcw.sn_of_mode (h.mode rfl)])).trans (h.sysR14 n)
  sysR15 n := (h'.sysR15 (by rwa [h.isSeg, Fcw.sn_of_mode (h.mode rfl)])).trans (h.sysR15 n)

/-- An effect that leaves the mode is one that may load it. -/
theorem Effect.orLoad {s t : State} (h : Effect false P W s t) : Effect load P W s t := h.trans (Effect.refl t)

/-- A register write (R21, R22). -/
theorem Effect.setReg (s : State) (n : Reg) (v : Word) (hn : n ∈ W s.isSeg) : Effect load P W s (s.setReg n v) where
  inv h := h.of_same (by simp) (by simpa using h.mem) (by simp) (by simp) (by simp)
  regs r hr := by
    have hne : r ≠ n := fun e => hr (e ▸ hn)
    unfold State.setReg
    split
    · rfl
    · split
      · rfl
      · show (s.regs.set n v)[r] = _
        rw [regs_set, if_neg hne]
  sysR14 h := by
    unfold State.setReg
    split
    · rfl
    · split
      · rename_i h14
        rcases h with h | h
        · exact absurd (h14.1 ▸ hn) h
        · simp [h14.2.1] at h
      · rfl
  sysR15 h := by
    unfold State.setReg
    split
    · rename_i h15
      rcases h with h | h
      · exact absurd (h15.1 ▸ hn) h
      · simp [h15.2] at h
    · split <;> rfl

/-- A change of PSAP, REFRESH, MO or the halt flag, each where `P` has it (R45, R46, R474, R486). -/
theorem Effect.special (s : State) (ps : BitVec 7) (po : Byte) (rf : Refresh) (rs mo ha : Bool) (rq : Requests)
    (hps : .psapSeg ∉ P → ps = s.psapSeg) (hseg : s.isSeg = false → ps = s.psapSeg)
    (hpo : .psapOff ∉ P → po = s.psapOff) (hrf : .refresh ∉ P → rf = s.refresh ∧ rs = s.rowStepped)
    (hmo : .mo ∉ P → mo = s.moLow) (hha : .halt ∉ P → ha = s.halted) : Effect load P W s
      { s with psapSeg := ps, psapOff := po, refresh := rf, rowStepped := rs, moLow := mo, halted := ha,
               haltSample := rq } where
  inv h := h.of_same rfl h.mem rfl (fun _ => rfl) hseg
  psapSeg := hps
  psapOff := hpo
  refresh := hrf
  moLow := hmo
  halted := hha

/-- A change of flags, or of the interrupt enables where `P` has them (R35). -/
theorem Effect.withFcw (s : State) (f : Fcw) (hm : f.mode = s.fcw.mode)
    (he : .enables ∉ P → f.enables = s.fcw.enables) : Effect load P W s (s.withFcw f) where
  inv h := h.of_same rfl h.mem hm (fun _ => rfl) fun _ => rfl
  mode _ := hm
  enables _ := he

/-- The load of a program status in nonsegmented mode: FCW as a whole and the PC's offset (R307, R478). -/
theorem Effect.loadStatus (s : State) (w off : Word) :
    Effect true P W s { s with fcw := loadFcw s.cfg w, pcOff := off } where
  inv h := h.loaded w off

/-- The load of a program status in segmented mode, which a Z8001 alone has (R307, R478). -/
theorem Effect.loadStatusSeg (s : State) (w off : Word) (seg : BitVec 7) (h : s.isSeg = true) :
    Effect true P W s { s with fcw := loadFcw s.cfg w, pcSeg := seg, pcOff := off } where
  inv i := i.loadedSeg (State.version_of_isSeg h) w off seg

/-- The write of a normal copy, whatever the mode (R47, R476). -/
theorem Effect.setNormal (s : State) (n : Reg) (v : Word) (hn : n ∈ W s.isSeg) :
    Effect load P W s { s with regs := s.regs.set n v } where
  inv h := h.of_same rfl h.mem rfl (fun _ => rfl) fun _ => rfl
  regs r hr := by
    have hne : r ≠ n := fun e => hr (e ▸ hn)
    show (s.regs.set n v)[r] = _
    rw [regs_set, if_neg hne]

/-- A transaction in the log: with an EPU, or where input and output are within the effect. -/
theorem Effect.event (s : State) (e : BusEvent) (h : .io ∈ P ∨ e.isEpu = true) :
    Effect load P W s { s with events := e :: s.events } where
  inv h := h.of_same rfl h.mem rfl (fun _ => rfl) fun _ => rfl
  events := by
    refine ⟨[e], rfl, fun io x hx => ?_⟩
    rw [List.mem_singleton.1 hx]
    exact h.resolve_left io

/-- A jump changes the PC, its segment in segmented mode alone (R300(b)). -/
theorem Effect.jump (s : State) (a : Addr) : Effect load P W s (s.jump a) where
  inv h := h.of_same (by simp) (by simpa using h.mem) (by simp)
    (fun g => by simp only [State.jump_isSeg] at g; simp [State.jump, g]) (by simp)

theorem Effect.setRegB (s : State) (n : Reg) (v : Byte) (hn : n.wordOfByte ∈ W s.isSeg) :
    Effect load P W s (s.setRegB n v) := by
  unfold State.setRegB
  split
  · rename_i h
    have : n.wordOfByte = n := by simp [Reg.wordOfByte, h]
    exact Effect.setReg s n _ (this ▸ hn)
  · exact Effect.setReg s _ _ hn

theorem Effect.setRegL (s : State) (n : Reg) (v : Long) (hn : n ∈ W s.isSeg) (hn' : n + 1 ∈ W s.isSeg) :
    Effect load P W s (s.setRegL n v) :=
  (Effect.setReg s n _ hn).trans (Effect.setReg _ (n + 1) _ (by simpa using hn'))

theorem reg_two_one (n : Reg) : n + 2 + 1 = n + 3 := by
  revert n; decide

theorem Effect.setRegQ (s : State) (n : Reg) (v : Quad) (hn : ∀ r ∈ quadRegs n, r ∈ W s.isSeg) :
    Effect load P W s (s.setRegQ n v) := by
  unfold State.setRegQ
  refine (Effect.setRegL s n _ (hn _ (by simp [quadRegs])) (hn _ (by simp [quadRegs]))).trans
    (Effect.setRegL _ (n + 2) _ ?_ ?_) <;> rw [State.setRegL_isSeg]
  · exact hn _ (by simp [quadRegs])
  · rw [reg_two_one]
    exact hn _ (by simp [quadRegs])

theorem Effect.setRegAt (s : State) (wd : Width) (n : Reg) (v : BitVec wd.bits)
    (hn : ∀ r ∈ regsOf wd n, r ∈ W s.isSeg) : Effect load P W s (s.setRegAt wd n v) := by
  cases wd with
  | b => exact Effect.setRegB s n v (hn _ (by simp [regsOf]))
  | w => exact Effect.setReg s n v (hn _ (by simp [regsOf]))
  | l => exact Effect.setRegL s n v (hn _ (by simp [regsOf])) (hn _ (by simp [regsOf]))

/-- A step of a pointer writes its offset register (R84, R86). -/
theorem Effect.stepPtr (s : State) (n : Reg) (k : Word) (hn : ptrOff s.isSeg n ∈ W s.isSeg) :
    Effect load P W s (s.stepPtr n k) := Effect.setReg s _ _ hn

end

end Sys2Proof.Machine
end

section
/-! PROOF. Every operation the instruction meanings are made of stays within an effect: memory accesses, operands, the
stack, flags, elements of the block instructions, input and output, EPU transfers. -/

namespace Sys2Proof.Machine

open Sys2Proof

/-- The operation leaves the mode bits of FCW and stays within the special state `P` and the registers `W`. -/
abbrev Within {α : Type} (P : List Special) (W : Bool → List Reg) (x : M α) : Prop := Keeps (Effect false P W) x

namespace Within

variable {P : List Special} {W : Bool → List Reg}

/-! Composition. -/

theorem bind {α β : Type} {x : M α} {f : α → M β} (hx : Within P W x) (hf : ∀ a, Within P W (f a)) :
    Within P W (x >>= f) := Keeps.bind (Q := Effect false P W) Effect.trans hx hf

theorem of_pure {α : Type} (a : α) : Within P W (Pure.pure a : M α) := Keeps.pure Effect.refl a

theorem of_get : Within P W (get : M State) := Keeps.get Effect.refl

theorem refuse {α : Type} (r : Refusal) : Within P W (M.refuse r : M α) := Keeps.refuse r

theorem of_modify {f : State → State} (h : ∀ s, Effect false P W s (f s)) : Within P W (modify f : M Unit) :=
  Keeps.modify h

/-- The same from one state, the second operation from where the first one ends; it may load the mode. -/
theorem bindAt {load : Bool} {α β : Type} {x : M α} {f : α → M β} {s : State} (hx : KeepsAt (Effect false P W) x s)
    (hf : ∀ a u, Effect false P W s u → KeepsAt (Effect load P W) (f a) u) :
    KeepsAt (Effect load P W) (x >>= f) s :=
  hx.bind hf (fun _ h => h.orLoad) fun _ _ h h' => h.trans h'

/-- A look at the state, and then what is done in that state. -/
theorem getBind {β : Type} {f : State → M β} (h : ∀ s, KeepsAt (Effect false P W) (f s) s) :
    Within P W (get >>= f) := fun s => (h s).get_bind

theorem free (w : Nat) : Within P W (Machine.free w) :=
  Keeps.free w fun s => Effect.minor s s.mem s.pcOff s.mmus s.resetIn s.ioIn s.epuIn _ id

theorem freeBool : Within P W Machine.freeBool := (free 1).bind fun _ => of_pure _

theorem resetPoint : Within P W Machine.resetPoint :=
  Keeps.resetPoint Effect.refl fun s k => Effect.minor s s.mem s.pcOff s.mmus k s.ioIn s.epuIn s.freeCount id

theorem setFcw {g : Fcw → Fcw} (h : FlagsOnly g := by exact fun _ => ⟨rfl, rfl⟩) : Within P W (Machine.setFcw g) :=
  of_modify fun s => Effect.withFcw s _ (h s.fcw).1 fun _ => (h s.fcw).2

theorem logEvent (e : BusEvent) (h : .io ∈ P ∨ e.isEpu = true) : Within P W (Machine.logEvent e) :=
  of_modify fun s => Effect.event s e h

theorem mapUnits (f : Mmu → Mmu) (s : State) : Effect false P W s (s.mapUnits f) := by
  obtain ⟨ms, e⟩ := State.mapUnits_inv f s
  rw [e]
  exact Effect.minor s s.mem s.pcOff ms s.resetIn s.ioIn s.epuIn s.freeCount id

/-! Registers. -/

theorem readReg (wd : Width) (n : Reg) : Within P W (Machine.readReg wd n) := of_get.bind fun _ => of_pure _

theorem writeReg {wd : Width} {n : Reg} {v : BitVec wd.bits} (h : ∀ g, regsOf wd n ⊆ W g) :
    Within P W (Machine.writeReg wd n v) := of_modify fun s => Effect.setRegAt s wd n v fun _ hr => h _ hr

/-! Memory. -/

theorem translate (l : Label) (a : Addr) (w b : Bool) : Within P W (Machine.translate l a w b) :=
  Keeps.translate (Q := Effect false P W) Effect.trans Effect.refl
    (fun s k => Effect.minor s s.mem s.pcOff s.mmus k s.ioIn s.epuIn s.freeCount id)
    (fun s ms => Effect.minor s s.mem s.pcOff ms s.resetIn s.ioIn s.epuIn s.freeCount id) l a w b

theorem readByte (l : Label) (a : Addr) : Within P W (Machine.readByte l a) := by
  refine (translate l a false false).bind fun k => ?_
  cases k with
  | none => exact free 8
  | some k => exact of_get.bind fun _ => of_pure _

theorem readWord (l : Label) (a : Addr) : Within P W (Machine.readWord l a) := by
  refine (translate l a false true).bind fun k => ?_
  cases k with
  | none => exact free 16
  | some k => exact of_get.bind fun _ => of_pure _

theorem writeByte (l : Label) (a : Addr) (v : Byte) : Within P W (Machine.writeByte l a v) := by
  refine (translate l a true false).bind fun k => ?_
  cases k with
  | none => exact of_pure _
  | some k => exact of_modify fun s =>
      Effect.minor s _ s.pcOff s.mmus s.resetIn s.ioIn s.epuIn s.freeCount fun h => Memory.write_wf _ _ _ h

theorem writeWord (l : Label) (a : Addr) (v : Word) : Within P W (Machine.writeWord l a v) := by
  refine (translate l a true true).bind fun k => ?_
  cases k with
  | none => exact of_pure _
  | some k => exact of_modify fun s =>
      Effect.minor s _ s.pcOff s.mmus s.resetIn s.ioIn s.epuIn s.freeCount fun h => Memory.writeWord_wf _ _ _ h

theorem readMem (l : Label) (a : Addr) (wd : Width) : Within P W (Machine.readMem l a wd) := by
  cases wd with
  | b => exact readByte l a
  | w => exact readWord l a
  | l => exact (readWord l a).bind fun _ => (readWord l _).bind fun _ => of_pure _

theorem writeMem (l : Label) (a : Addr) (wd : Width) (v : BitVec wd.bits) : Within P W (Machine.writeMem l a wd v) := by
  cases wd with
  | b => exact writeByte l a v
  | w => exact writeWord l a v
  | l => exact (writeWord l a _).bind fun _ => writeWord l _ _

/-! Operands. -/

theorem readM (wd : Width) (m : Mem) : Within P W (Machine.readM wd m) := of_get.bind fun _ => readMem _ _ wd

theorem writeM (wd : Width) (m : Mem) (v : BitVec wd.bits) : Within P W (Machine.writeM wd m v) :=
  of_get.bind fun _ => writeMem _ _ wd v

theorem readBased (wd : Width) (b : Based) : Within P W (Machine.readBased wd b) := of_get.bind fun _ => readMem _ _ wd

theorem writeBased (wd : Width) (b : Based) (v : BitVec wd.bits) : Within P W (Machine.writeBased wd b v) :=
  of_get.bind fun _ => writeMem _ _ wd v

theorem readDst (wd : Width) (d : Dst) : Within P W (Machine.readDst wd d) := by
  cases d with
  | reg r => exact readReg wd r
  | mem m => exact readM wd m

theorem writeDst {wd : Width} {d : Dst} {v : BitVec wd.bits} (h : ∀ g, d.regs wd ⊆ W g) :
    Within P W (Machine.writeDst wd d v) := by
  cases d with
  | reg r => exact writeReg h
  | mem m => exact writeM wd m v

theorem readSrc {wd : Width} (x : Src wd) : Within P W (Machine.readSrc x) := by
  cases x with
  | reg r => exact readReg wd r
  | imm v => exact of_pure v
  | mem m => exact readM wd m

theorem updateDst {wd : Width} {d : Dst} {f : BitVec wd.bits → BitVec wd.bits} {g : BitVec wd.bits → Fcw → Fcw}
    (h : ∀ g, d.regs wd ⊆ W g) (hf : ∀ v, FlagsOnly (g v) := by exact fun _ _ => ⟨rfl, rfl⟩) :
    Within P W (Machine.updateDst wd d f g) :=
  (readDst wd d).bind fun v => (writeDst h).bind fun _ => setFcw (hf v)

/-! The stack (R86). -/

theorem stepPtr {s : State} {n : Reg} {k : Word} (h : ptrOff s.isSeg n ∈ W s.isSeg) :
    KeepsAt (Effect false P W) (modify fun s => s.stepPtr n k : M Unit) s :=
  KeepsAt.modify (Effect.stepPtr s n k h)

theorem pushAsAt {l : Label} {n : Reg} {wd : Width} {v : BitVec wd.bits} {s : State}
    (h : ptrOff s.isSeg n ∈ W s.isSeg) : KeepsAt (Effect false P W) (pushAs l n wd v) s :=
  bindAt (resetPoint s) fun _ _ hu => bindAt (stepPtr (hu.isSeg.symm ▸ h)) fun _ _ _ =>
    (of_get.bind fun _ => writeMem _ _ wd v : Within P W _) _

theorem pushAt {n : Reg} {wd : Width} {v : BitVec wd.bits} {s : State} (h : ptrOff s.isSeg n ∈ W s.isSeg) :
    KeepsAt (Effect false P W) (Machine.push n wd v) s := (pushAsAt h).get_bind

theorem popAt {n : Reg} {wd : Width} {s : State} (h : ptrOff s.isSeg n ∈ W s.isSeg) :
    KeepsAt (Effect false P W) (Machine.pop n wd) s :=
  KeepsAt.get_bind <| bindAt (readMem _ _ wd s) fun _ u hu => bindAt (resetPoint u) fun _ _ hw =>
    bindAt (stepPtr ((hw.isSeg.trans hu.isSeg).symm ▸ h)) fun _ _ _ => of_pure _ _

theorem push {n : Reg} {wd : Width} {v : BitVec wd.bits} (h : ∀ g, ptrOff g n ∈ W g) :
    Within P W (Machine.push n wd v) := fun _ => pushAt (h _)

/-- The PC is pushed through the stack pointer of the mode: R15 moves (R300(e)). -/
theorem pushPc (h : ∀ g, 15 ∈ W g) : Within P W Machine.pushPc := by
  refine getBind fun s => ?_
  split
  · rename_i g
    exact pushAt (by rw [g]; exact h _)
  · rename_i g
    exact pushAt (by rw [Bool.eq_false_iff.2 g]; exact h _)

/-- The PC is popped through the stack pointer of the mode: R15 moves (R306). -/
theorem popPc (h : ∀ g, 15 ∈ W g) : Within P W Machine.popPc := by
  refine getBind fun s => ?_
  split
  · rename_i g
    exact bindAt (popAt (by rw [g]; exact h _)) fun _ u _ => KeepsAt.modify (Effect.jump u _)
  · rename_i g
    exact bindAt (popAt (by rw [Bool.eq_false_iff.2 g]; exact h _)) fun _ u _ => KeepsAt.modify
      (Effect.minor u u.mem _ u.mmus u.resetIn u.ioIn u.epuIn u.freeCount id)

/-! The PC. -/

theorem jump (a : Addr) : Within P W (modify (fun s => s.jump a) : M Unit) := of_modify fun s => Effect.jump s a

theorem setPc (f : State → Word) : Within P W (modify (fun s => { s with pcOff := f s }) : M Unit) :=
  of_modify fun s => Effect.minor s s.mem _ s.mmus s.resetIn s.ioIn s.epuIn s.freeCount id

theorem moveBy (k : Word) : Within P W (Machine.moveBy k) := setPc _

theorem jumpIf (c : Bool) (a : Addr) : Within P W (if c then modify (fun s => s.jump a) else Pure.pure () : M Unit) := by
  split
  · exact jump a
  · exact of_pure ()

theorem moveByIf (c : Bool) (k : Word) : Within P W (if c then Machine.moveBy k else Pure.pure () : M Unit) := by
  split
  · exact moveBy k
  · exact of_pure ()

theorem popPcIf (c : Bool) (h : ∀ g, 15 ∈ W g) : Within P W (if c then Machine.popPc else Pure.pure () : M Unit) := by
  split
  · exact popPc h
  · exact of_pure ()

/-! Load and exchange. -/

section
variable {wd : Width} {d : Reg}

theorem load (s : Src wd) (h : ∀ g, regsOf wd d ⊆ W g) : Within P W (Machine.load wd d s) :=
  (readSrc s).bind fun _ => writeReg h

theorem loadBased (s : Based) (h : ∀ g, regsOf wd d ⊆ W g) : Within P W (Machine.loadBased wd d s) :=
  (readBased wd s).bind fun _ => writeReg h

theorem loadRelative (disp : Word) (h : ∀ g, regsOf wd d ⊆ W g) : Within P W (Machine.loadRelative wd d disp) :=
  of_get.bind fun _ => (readMem _ _ wd).bind fun _ => writeReg h

theorem store (m : Mem) (s : Reg) : Within P W (Machine.store wd m s) :=
  (readReg wd s).bind fun _ => writeM wd m _

theorem storeBased (b : Based) (s : Reg) : Within P W (Machine.storeBased wd b s) :=
  (readReg wd s).bind fun _ => writeBased wd b _

theorem storeRelative (disp : Word) (s : Reg) : Within P W (Machine.storeRelative wd disp s) :=
  of_get.bind fun _ => writeMem _ _ wd _

theorem exchange {s : Dst} (h : ∀ g, regsOf wd d ⊆ W g) (hs : ∀ g, s.regs wd ⊆ W g) :
    Within P W (Machine.exchange wd d s) :=
  (readDst wd s).bind fun _ => (readReg wd d).bind fun _ => (writeDst hs).bind fun _ =>
    resetPoint.bind fun _ => writeReg h

end

/-- LDA writes a pair in segmented mode, a word register in nonsegmented mode (R215). -/
theorem loadAddress {d : Reg} (a : Addr) (h : ∀ g, (if g then [d, d + 1] else [d]) ⊆ W g) :
    Within P W (Machine.loadAddress d a) := by
  refine getBind fun s => ?_
  have hs := h s.isSeg
  split
  · rename_i g
    rw [if_pos g] at hs
    exact bindAt (free 1 s) fun _ u hu => bindAt (free 8 u) fun _ _ hw =>
      KeepsAt.modify (Effect.setRegAt _ .l d _ fun _ hr => (hw.isSeg.trans hu.isSeg).symm ▸ hs hr)
  · rename_i g
    rw [if_neg g] at hs
    exact KeepsAt.modify (Effect.setRegAt s .w d _ fun _ hr => hs hr)

theorem loadMultiple (l : Label) (a : Addr) (r : Reg) (i k : Nat) (h : ∀ g, ∀ j < i + k, regAfter r j ∈ W g) :
    Within P W (Machine.loadMultiple l a r i k) := by
  induction k generalizing i with
  | zero => exact of_pure ()
  | succ k ih =>
    refine (readWord l _).bind fun _ => (writeReg ?_).bind fun _ => ih (i + 1) fun g j hj => h g j (by omega)
    intro g
    simpa [regsOf] using h g i (by omega)

theorem storeMultiple (l : Label) (a : Addr) (r : Reg) (i k : Nat) : Within P W (Machine.storeMultiple l a r i k) := by
  induction k generalizing i with
  | zero => exact of_pure ()
  | succ k ih => exact (readReg .w _).bind fun _ => (writeWord l _ _).bind fun _ => ih (i + 1)

theorem stepPtrAll {n : Reg} {k : Word} (h : ∀ g, ptrOff g n ∈ W g) :
    Within P W (modify (fun s => s.stepPtr n k) : M Unit) := fun s => stepPtr (h s.isSeg)

theorem popTo {wd : Width} {d : Dst} {sp : Reg} (hd : ∀ g, d.regs wd ⊆ W g) (h : ∀ g, ptrOff g sp ∈ W g) :
    Within P W (Machine.popTo wd d sp) :=
  of_get.bind fun _ => (readMem _ _ wd).bind fun _ => (writeDst hd).bind fun _ => resetPoint.bind fun _ => stepPtrAll h

theorem pushFrom {wd : Width} {sp : Reg} (s : Dst) (h : ∀ g, ptrOff g sp ∈ W g) :
    Within P W (Machine.pushFrom wd sp s) := (readDst wd s).bind fun _ => push h

/-! Arithmetic and logic. -/

section
variable {wd : Width} {d : Reg}

theorem arithInto {op : BitVec wd.bits → BitVec wd.bits → Bool → Arith wd.bits} {c : Bool}
    {fl : Fcw → Arith wd.bits → Fcw} (s : Src wd) (h : ∀ g, regsOf wd d ⊆ W g)
    (hf : ∀ x, FlagsOnly (fl · x) := by exact fun _ _ => ⟨rfl, rfl⟩) :
    Within P W (Machine.arithInto wd d s op c fl) :=
  (readSrc s).bind fun _ => (readReg wd d).bind fun _ => of_get.bind fun _ => (writeReg h).bind fun _ => setFcw (hf _)

theorem compareReg (s : Src wd) : Within P W (Machine.compareReg wd d s) :=
  (readSrc s).bind fun _ => (readReg wd d).bind fun _ => setFcw

theorem compareImm (m : Mem) (v : BitVec wd.bits) : Within P W (Machine.compareImm wd m v) :=
  (readM wd m).bind fun _ => setFcw

theorem logicInto {op : BitVec wd.bits → BitVec wd.bits → BitVec wd.bits} {fl : Fcw → BitVec wd.bits → Fcw}
    (s : Src wd) (h : ∀ g, regsOf wd d ⊆ W g)
    (hf : ∀ x, FlagsOnly (fl · x) := by exact fun _ _ => ⟨rfl, rfl⟩) :
    Within P W (Machine.logicInto wd d s op fl) :=
  (readSrc s).bind fun _ => (readReg wd d).bind fun _ => (writeReg h).bind fun _ => setFcw (hf _)

theorem testOperand {fl : Fcw → BitVec wd.bits → Fcw} (x : Dst)
    (hf : ∀ x, FlagsOnly (fl · x) := by exact fun _ _ => ⟨rfl, rfl⟩) :
    Within P W (Machine.testOperand wd x fl) := (readDst wd x).bind fun _ => setFcw (hf _)

theorem testCondition (cc : CC) (h : ∀ g, regsOf wd d ⊆ W g) : Within P W (Machine.testCondition wd cc d) := by
  refine of_get.bind fun s => ?_
  split
  · exact writeReg h
  · exact of_pure ()

end

theorem testLong (d : Dst) : Within P W (Machine.testLong d) :=
  (readDst .l d).bind fun _ => freeBool.bind fun _ => setFcw

theorem decimalAdjust {d : Reg} (h : ∀ g, regsOf .b d ⊆ W g) : Within P W (Machine.decimalAdjust d) := by
  refine of_get.bind fun s => ?_
  dsimp only
  split
  · exact (writeReg h).bind fun _ => setFcw
  · exact (free 8).bind fun _ => freeBool.bind fun _ => freeBool.bind fun _ => freeBool.bind fun _ =>
      (writeReg h).bind fun _ => setFcw

theorem writeQuadAs {d : Reg} (f : State → Quad) (h : ∀ g, quadRegs d ⊆ W g) :
    Within P W (modify (fun s => s.setRegQ d (f s)) : M Unit) :=
  of_modify fun s => Effect.setRegQ s d _ fun _ hr => h _ hr

theorem multiply {d : Reg} (s : Src .w) (h : ∀ g, regsOf .l d ⊆ W g) : Within P W (Machine.multiply d s) :=
  (readSrc s).bind fun _ => (readReg .w _).bind fun _ => (writeReg h).bind fun _ => setFcw

theorem multiplyLong {d : Reg} (s : Src .l) (h : ∀ g, quadRegs d ⊆ W g) : Within P W (Machine.multiplyLong d s) :=
  (readSrc s).bind fun _ => (readReg .l _).bind fun _ => (writeQuadAs _ h).bind fun _ => setFcw

theorem finishDivide {n : Nat} {wr : BitVec n → BitVec n → M Unit} (h : ∀ m q, Within P W (wr m q)) (x : Quotient n) :
    Within P W (Machine.finishDivide wr x) := by
  cases x with
  | fits q m zero neg => exact (h m q).bind fun _ => setFcw
  | byZero =>
    unfold Machine.finishDivide
    exact setFcw
  | tooLarge =>
    exact (free n).bind fun _ => (free n).bind fun _ => freeBool.bind fun _ => freeBool.bind fun _ =>
      (h _ _).bind fun _ => setFcw
  | oneBitOver q m neg => exact (h m q).bind fun _ => setFcw

theorem divideWord {d : Reg} (s : Src .w) (h : ∀ g, regsOf .l d ⊆ W g) : Within P W (Machine.divideWord d s) :=
  (readSrc s).bind fun _ => (readReg .l d).bind fun _ => finishDivide (fun _ _ => writeReg h) _

theorem divideLong {d : Reg} (s : Src .l) (h : ∀ g, quadRegs d ⊆ W g) : Within P W (Machine.divideLong d s) :=
  (readSrc s).bind fun _ => of_get.bind fun _ => finishDivide (fun _ _ => writeQuadAs _ h) _

/-! Bits, rotates and shifts. -/

section
variable {wd : Width}

theorem testBit (d : Dst) (k : Nat) : Within P W (Machine.testBit wd d k) :=
  (readDst wd d).bind fun _ => setFcw

theorem clearBit {d : Dst} (k : Nat) (h : ∀ g, d.regs wd ⊆ W g) : Within P W (Machine.clearBit wd d k) :=
  (readDst wd d).bind fun _ => writeDst h

theorem setBit {d : Dst} (k : Nat) (h : ∀ g, d.regs wd ⊆ W g) : Within P W (Machine.setBit wd d k) :=
  (readDst wd d).bind fun _ => writeDst h

theorem testAndSet {d : Dst} (h : ∀ g, d.regs wd ⊆ W g) : Within P W (Machine.testAndSet wd d) :=
  (readDst wd d).bind fun _ => (setFcw).bind fun _ => writeDst h

variable {d : Reg} (h : ∀ g, regsOf wd d ⊆ W g)
include h

theorem rotate (step : ShiftStep wd.bits) (twice : Bool) : Within P W (Machine.rotate wd step d twice) :=
  of_get.bind fun _ => (writeReg h).bind fun _ => setFcw

theorem shiftLeftArith (n : Nat) : Within P W (Machine.shiftLeftArith wd d n) := by
  refine of_get.bind fun s => ?_
  dsimp only
  split
  · exact freeBool.bind fun _ => (writeReg h).bind fun _ => setFcw
  · exact (of_pure _).bind fun _ => (writeReg h).bind fun _ => setFcw

theorem shiftLeftLogical (n : Nat) : Within P W (Machine.shiftLeftLogical wd d n) := by
  refine of_get.bind fun s => ?_
  dsimp only
  split
  · exact freeBool.bind fun _ => freeBool.bind fun _ => (writeReg h).bind fun _ => setFcw
  · exact (of_pure _).bind fun _ => freeBool.bind fun _ => (writeReg h).bind fun _ => setFcw

theorem shiftRightArith (n : Nat) : Within P W (Machine.shiftRightArith wd d n) :=
  of_get.bind fun _ => (writeReg h).bind fun _ => setFcw

theorem shiftRightLogical (n : Nat) : Within P W (Machine.shiftRightLogical wd d n) :=
  of_get.bind fun _ => freeBool.bind fun _ => (writeReg h).bind fun _ => setFcw

theorem shiftUndefined : Within P W (Machine.shiftUndefined wd d) :=
  (free _).bind fun _ => freeBool.bind fun _ => freeBool.bind fun _ => freeBool.bind fun _ => freeBool.bind fun _ =>
    (writeReg h).bind fun _ => setFcw

theorem shiftDynamic {left right : Reg → Nat → M Unit} (s : Reg) (hl : ∀ n, Within P W (left d n))
    (hr : ∀ n, Within P W (right d n)) : Within P W (Machine.shiftDynamic wd left right d s) := by
  refine of_get.bind fun st => ?_
  dsimp only
  split
  · exact shiftUndefined h
  · split
    · exact hl _
    · exact hr _

theorem countDown (disp : BitVec 7) : Within P W (Machine.countDown wd d disp) := by
  refine of_get.bind fun s => (writeReg h).bind fun _ => ?_
  split
  · exact of_pure ()
  · exact moveBy _

end

theorem rotateDigit {link s : Reg} (move : Byte → Byte → Byte × Byte) (hl : ∀ g, regsOf .b link ⊆ W g)
    (hs : ∀ g, regsOf .b s ⊆ W g) : Within P W (Machine.rotateDigit move link s) :=
  of_get.bind fun _ => (writeReg hl).bind fun _ => (writeReg hs).bind fun _ => freeBool.bind fun _ =>
    setFcw

/-! Elements of the block instructions (R370 to R390). -/

theorem readPtr (wd : Width) (p : Reg) : Within P W (Machine.readPtr wd p) := of_get.bind fun _ => readMem _ _ wd

theorem writePtr (wd : Width) (p : Reg) (v : BitVec wd.bits) : Within P W (Machine.writePtr wd p v) :=
  of_get.bind fun _ => writeMem _ _ wd v

theorem stepElement {wd : Width} {up : Bool} {p : Reg} (h : ∀ g, ptrOff g p ∈ W g) :
    Within P W (Machine.stepElement wd up p) := resetPoint.bind fun _ => stepPtrAll h

theorem countElement {r : Reg} (h : ∀ g, r ∈ W g) : Within P W (Machine.countElement r) :=
  resetPoint.bind fun _ => of_get.bind fun _ => (writeReg fun g => by simpa [regsOf] using h g).bind fun _ =>
    (setFcw).bind fun _ => of_pure _

theorem freeZ : Within P W Machine.freeZ := freeBool.bind fun _ => setFcw

theorem readTable (t : Reg) (b : Byte) : Within P W (Machine.readTable t b) := of_get.bind fun _ => readByte _ _

theorem once {x : M Bool} (h : Within P W x) : Within P W (Machine.once x) := h.bind fun _ => of_pure ()

theorem repeating {x : M Bool} (h : Within P W x) : Within P W (Machine.repeating x) := by
  refine h.bind fun done => ?_
  cases done with
  | true => exact of_pure ()
  | false => exact setPc _

section
variable {wd : Width} {up : Bool} {d s r : Reg}

theorem compareElement (cc : CC) (hs : ∀ g, ptrOff g s ∈ W g) (hr : ∀ g, r ∈ W g) :
    Within P W (Machine.compareElement wd up d s r cc) :=
  (readPtr wd s).bind fun _ => (readReg wd d).bind fun _ => freeBool.bind fun _ => freeBool.bind fun _ =>
    (setFcw).bind fun _ => (stepElement hs).bind fun _ => (countElement hr).bind fun _ => of_pure _

theorem compareStrings (cc : CC) (hd : ∀ g, ptrOff g d ∈ W g) (hs : ∀ g, ptrOff g s ∈ W g) (hr : ∀ g, r ∈ W g) :
    Within P W (Machine.compareStrings wd up d s r cc) :=
  (readPtr wd s).bind fun _ => (readPtr wd d).bind fun _ => (setFcw).bind fun _ =>
    (stepElement hd).bind fun _ => (stepElement hs).bind fun _ => (countElement hr).bind fun _ => of_pure _

theorem moveElement (hd : ∀ g, ptrOff g d ∈ W g) (hs : ∀ g, ptrOff g s ∈ W g) (hr : ∀ g, r ∈ W g) :
    Within P W (Machine.moveElement wd up d s r) :=
  (readPtr wd s).bind fun _ => (writePtr wd d _).bind fun _ => (stepElement hd).bind fun _ =>
    (stepElement hs).bind fun _ => freeZ.bind fun _ => countElement hr

theorem translateElement (hd : ∀ g, ptrOff g d ∈ W g) (hr : ∀ g, r ∈ W g) (h1 : ∀ g, 1 ∈ W g) :
    Within P W (Machine.translateElement up d s r) :=
  (readPtr .b d).bind fun _ => (readTable s _).bind fun _ => (writePtr .b d _).bind fun _ =>
    (stepElement hd).bind fun _ => freeZ.bind fun _ => (countElement hr).bind fun _ => resetPoint.bind fun _ =>
    (free 8).bind fun _ => (writeReg fun g => by simpa [regsOf, Reg.wordOfByte] using h1 g).bind fun _ => of_pure _

theorem translateTest (hd : ∀ g, ptrOff g d ∈ W g) (hr : ∀ g, r ∈ W g) (h1 : ∀ g, 1 ∈ W g) :
    Within P W (Machine.translateTest up d s r) :=
  (readPtr .b d).bind fun _ => (readTable s _).bind fun _ =>
    (writeReg fun g => by simpa [regsOf, Reg.wordOfByte] using h1 g).bind fun _ =>
    (setFcw).bind fun _ => (stepElement hd).bind fun _ => (countElement hr).bind fun _ => of_pure _

/-! Input and output (R76, R420, R428): the transactions are among the special state. -/

theorem deviceWord : Within P W Machine.deviceWord := by
  refine Keeps.of_ends fun s => ?_
  obtain ⟨v, rest, k, -, e⟩ := deviceWord_inv s
  exact .inl ⟨v, _, e, Effect.minor s s.mem s.pcOff s.mmus s.resetIn rest s.epuIn k id⟩

theorem ioRead (sp : IoSpace) (port : Word) (wd : Width) (io : .io ∈ P) : Within P W (Machine.ioRead sp port wd) := by
  refine resetPoint.bind fun _ => getBind fun s => ?_
  dsimp only
  split
  · refine bindAt (KeepsAt.set (mapUnits _ s)) fun _ u _ => ?_
    split
    · exact ((of_pure _).bind fun _ => (logEvent _ (.inl io)).bind fun _ => of_pure _ : Within P W _) u
    · exact (deviceWord.bind fun _ => (logEvent _ (.inl io)).bind fun _ => of_pure _ : Within P W _) u
  · exact (deviceWord.bind fun _ => (logEvent _ (.inl io)).bind fun _ => of_pure _ : Within P W _) s

theorem ioWrite (sp : IoSpace) (port : Word) (wd : Width) (v : Word) (io : .io ∈ P) :
    Within P W (Machine.ioWrite sp port wd v) :=
  resetPoint.bind fun _ => (of_modify fun s => mapUnits _ s).bind fun _ => logEvent _ (.inl io)

theorem inputTo (sp : IoSpace) (port : Word) (io : .io ∈ P) (h : ∀ g, regsOf wd d ⊆ W g) :
    Within P W (Machine.inputTo sp wd d port) :=
  (ioRead sp port wd io).bind fun _ => resetPoint.bind fun _ => writeReg h

theorem outputFrom (sp : IoSpace) (port : Word) (io : .io ∈ P) : Within P W (Machine.outputFrom sp wd port s) :=
  of_get.bind fun _ => ioWrite sp port wd _ io

theorem finishElement (hd : ∀ g, ptrOff g d ∈ W g) (hr : ∀ g, r ∈ W g) :
    Within P W (Machine.finishElement wd up d r) :=
  (stepElement hd).bind fun _ => freeZ.bind fun _ => countElement hr

theorem inputElement (sp : IoSpace) (io : .io ∈ P) (hd : ∀ g, ptrOff g d ∈ W g) (hr : ∀ g, r ∈ W g) :
    Within P W (Machine.inputElement sp wd up d s r) :=
  of_get.bind fun _ => (ioRead sp _ wd io).bind fun _ => (writePtr wd d _).bind fun _ => finishElement hd hr

theorem outputElement (sp : IoSpace) (io : .io ∈ P) (hd : ∀ g, ptrOff g d ∈ W g) (hr : ∀ g, r ∈ W g) :
    Within P W (Machine.outputElement sp wd up d s r) :=
  (readPtr wd d).bind fun _ => of_get.bind fun _ => (ioWrite sp _ wd _ io).bind fun _ => finishElement hd hr

end

/-! EPU transfers (R500 to R508). -/

theorem epuGive : Within P W Machine.epuGive := by
  refine getBind fun s => ?_
  split
  · rename_i v rest _
    exact bindAt (KeepsAt.set (Effect.minor s s.mem s.pcOff s.mmus s.resetIn s.ioIn rest s.freeCount id))
      fun _ u _ => of_pure _ u
  · exact free 16 s

theorem epuToMemory (l : Label) (a : Addr) (i k : Nat) : Within P W (Machine.epuToMemory l a i k) := by
  induction k generalizing i with
  | zero => exact of_pure ()
  | succ k ih =>
    exact resetPoint.bind fun _ => epuGive.bind fun _ => (writeWord l _ _).bind fun _ => of_get.bind fun _ =>
      (logEvent _ (.inr rfl)).bind fun _ => ih (i + 1)

theorem memoryToEpu (l : Label) (a : Addr) (i k : Nat) : Within P W (Machine.memoryToEpu l a i k) := by
  induction k generalizing i with
  | zero => exact of_pure ()
  | succ k ih =>
    exact (readWord l _).bind fun _ => of_get.bind fun _ => (logEvent _ (.inr rfl)).bind fun _ => ih (i + 1)

theorem epuToRegs (r : Reg) (i k : Nat) (h : ∀ g, ∀ j < i + k, regAfter r j ∈ W g) :
    Within P W (Machine.epuToRegs r i k) := by
  induction k generalizing i with
  | zero => exact of_pure ()
  | succ k ih =>
    refine resetPoint.bind fun _ => epuGive.bind fun _ => of_get.bind fun _ => (logEvent _ (.inr rfl)).bind fun _ =>
      (writeReg ?_).bind fun _ => ih (i + 1) fun g j hj => h g j (by omega)
    intro g
    simpa [regsOf] using h g i (by omega)

theorem regsToEpu (r : Reg) (i k : Nat) : Within P W (Machine.regsToEpu r i k) := by
  induction k generalizing i with
  | zero => exact of_pure ()
  | succ k ih =>
    exact resetPoint.bind fun _ => (readReg .w _).bind fun _ => of_get.bind fun _ =>
      (logEvent _ (.inr rfl)).bind fun _ => ih (i + 1)

theorem epuNote (i : Instr) : Within P W (Machine.epuNote i) := by
  unfold Machine.epuNote
  split
  · exact logEvent _ (.inr rfl)
  · exact of_pure ()

theorem epuFlags (h : ∀ g, 0 ∈ W g) : Within P W Machine.epuFlags :=
  resetPoint.bind fun _ => epuGive.bind fun _ => of_get.bind fun _ => (logEvent _ (.inr rfl)).bind fun _ =>
    (setFcw).bind fun _ => resetPoint.bind fun _ => (free 16).bind fun _ =>
    writeReg (wd := .w) (n := 0) fun g => by simpa [regsOf] using h g

/-! Control registers (R476, R481). -/

theorem readRefresh : Within P W Machine.readRefresh := by
  refine of_get.bind fun s => ?_
  dsimp only
  split
  · exact (free 8).bind fun _ => (free 7).bind fun _ => of_pure _
  · exact (of_pure _).bind fun _ => (free 7).bind fun _ => of_pure _

theorem readControl (c : CtlReg) : Within P W (Machine.readControl c) := by
  refine of_get.bind fun s => ?_
  cases c with
  | fcw | psapoff | nspoff => exact of_pure _
  | refresh => exact readRefresh
  | psapseg | nspseg =>
    dsimp only
    split
    · exact of_pure _
    · exact refuse _

/-- LDCTL into a control register (R476). NSPSEG and NSPOFF are the normal copies of R14 and R15. -/
theorem writeControl (c : CtlReg) (v : Word) (s : State) (hps : c = .psapseg → .psapSeg ∈ P)
    (hpo : c = .psapoff → .psapOff ∈ P) (hrf : c = .refresh → .refresh ∈ P) (h14 : c = .nspseg → 14 ∈ W s.isSeg)
    (h15 : c = .nspoff → 15 ∈ W s.isSeg) : KeepsAt (Effect (c == .fcw) P W) (Machine.writeControl c v) s := by
  refine KeepsAt.get_bind ?_
  cases c with
  | fcw => exact KeepsAt.modify (Effect.loadStatus s v s.pcOff)
  | refresh =>
    refine KeepsAt.set (Effect.special s s.psapSeg s.psapOff _ false s.moLow s.halted s.haltSample ?_ ?_ ?_ ?_ ?_ ?_)
    all_goals simp [hrf]
  | psapoff =>
    refine KeepsAt.set (Effect.special s s.psapSeg _ s.refresh s.rowStepped s.moLow s.halted s.haltSample ?_ ?_ ?_ ?_ ?_
      ?_)
    all_goals simp [hpo]
  | psapseg =>
    dsimp only
    split
    · rename_i g
      refine KeepsAt.set (Effect.special s _ s.psapOff s.refresh s.rowStepped s.moLow s.halted s.haltSample ?_ ?_ ?_ ?_
        ?_ ?_)
      all_goals simp [hps, g]
    · exact refuse _ s
  | nspseg =>
    dsimp only
    split
    · exact KeepsAt.set (Effect.setNormal s 14 v (h14 rfl))
    · exact refuse _ s
  | nspoff => exact KeepsAt.set (Effect.setNormal s 15 v (h15 rfl))

theorem setMo (f : State → Bool) (h : .mo ∈ P) : Within P W (modify (fun s => { s with moLow := f s }) : M Unit) := by
  refine of_modify fun s => ?_
  refine Effect.special s s.psapSeg s.psapOff s.refresh s.rowStepped _ s.halted s.haltSample ?_ ?_ ?_ ?_ ?_ ?_
  all_goals simp [h]

theorem delayLoop {d : Reg} (h : ∀ g, d ∈ W g) : Within P W (Machine.delayLoop d) := by
  have turn : ∀ (s : State) (v : Word) (k : Option Nat), Effect false P W s { s.setReg d v with resetIn := k } :=
    fun s v k => (Effect.setReg s d v (h _)).trans (Effect.minor _ _ _ _ k _ _ _ id)
  refine Keeps.of_ends fun s => ?_
  unfold Machine.delayLoop
  cases s.resetIn with
  | none => exact .inl ⟨(), _, rfl, Effect.setReg s d 0 (h _)⟩
  | some k =>
    dsimp only
    split
    · exact .inr (.inl ⟨_, rfl, turn s _ _⟩)
    · exact .inl ⟨(), _, rfl, turn s _ _⟩

theorem multiMicroRequest {d : Reg} (hm : .mo ∈ P) (h : ∀ g, d ∈ W g) : Within P W (Machine.multiMicroRequest d) := by
  refine of_get.bind fun s => ?_
  split
  · exact (setFcw).bind fun _ => setMo _ hm
  · exact (setFcw).bind fun _ => (setMo _ hm).bind fun _ => (Within.delayLoop h).bind fun _ => (setFcw).bind fun _ =>
      setMo _ hm

/-- DI and EI change the interrupt enables alone (R471, R472). -/
theorem setEnables {g : Fcw → Fcw} (h : .enables ∈ P) (hg : ∀ f, (g f).mode = f.mode := by exact fun _ => rfl) :
    Within P W (Machine.setFcw g) := of_modify fun s => Effect.withFcw s _ (hg s.fcw) fun hn => absurd h hn

theorem halt (h : .halt ∈ P) :
    Within P W (modify (fun s => { s with halted := true, haltSample := Requests.quiet }) : M Unit) := by
  refine of_modify fun s => ?_
  refine Effect.special s s.psapSeg s.psapOff s.refresh s.rowStepped s.moLow true Requests.quiet ?_ ?_ ?_ ?_ ?_ ?_
  all_goals simp [h]

/-- LDPS reads a program status and loads it (R478). -/
theorem loadProgramStatus (l : Label) (a : Addr) (s : State) :
    KeepsAt (Effect true P W) (Machine.loadProgramStatus l a) s := by
  refine KeepsAt.get_bind ?_
  split
  · rename_i g
    exact bindAt (readWord l _ s) fun _ u hu => bindAt (readWord l _ u) fun _ w hw => bindAt (readWord l _ w)
      fun _ x hx => KeepsAt.modify (Effect.loadStatusSeg x _ _ _ (by rw [hx.isSeg, hw.isSeg, hu.isSeg, g]))
  · exact bindAt (readWord l _ s) fun _ u _ => bindAt (readWord l _ u) fun _ x _ =>
      KeepsAt.modify (Effect.loadStatus x _ _)

/-- IRET pops a program status through the stack pointer of the mode: R15 moves (R307). -/
theorem returnSeg (s : State) (g : s.isSeg = true) (h : 15 ∈ W true) :
    KeepsAt (Effect true P W) Machine.returnSeg s := by
  have sp : ∀ u : State, u.isSeg = true → ptrOff u.isSeg 14 ∈ W u.isSeg := fun u hu => by rw [hu]; exact h
  exact bindAt (popAt (sp s g)) fun _ u hu =>
    have gu := hu.isSeg.trans g
    bindAt (popAt (sp u gu)) fun _ w hw =>
    have gw := hw.isSeg.trans gu
    bindAt (popAt (sp w gw)) fun _ x hx => KeepsAt.modify (Effect.loadStatusSeg x _ _ _ (hx.isSeg.trans gw))

theorem returnNonseg (s : State) (g : s.isSeg = false) (h : 15 ∈ W false) :
    KeepsAt (Effect true P W) Machine.returnNonseg s := by
  have sp : ∀ u : State, u.isSeg = false → ptrOff u.isSeg 15 ∈ W u.isSeg := fun u hu => by rw [hu]; exact h
  exact bindAt (popAt (sp s g)) fun _ u hu =>
    have gu := hu.isSeg.trans g
    bindAt (popAt (sp u gu)) fun _ w hw => bindAt (popAt (sp w (hw.isSeg.trans gu))) fun _ x _ =>
      KeepsAt.modify (Effect.loadStatus x _ _)

end Within

end Sys2Proof.Machine
end

section
/-! PROOF. All that an instruction can do, said once over the whole instruction set: its own effect, bounded by
`Instr.targets`, `Instr.specials` and `Instr.loadsMode`, or the entry of an internal trap (R309, R470, R501). -/

namespace Sys2Proof

/-- The instructions that load FCW as a whole, its mode bits with it (R307, R476, R478). -/
def Instr.loadsMode : Instr → Bool
  | .iret | .ldps _ | .ldctlWrite .fcw _ => true
  | _ => false

/-- The special state an instruction's own effect may change at most; every privileged instruction that is not named is
taken for one of input and output. -/
def Instr.specials : Instr → List Machine.Special
  | .ldctlWrite .psapseg _ => [.psapSeg]
  | .ldctlWrite .psapoff _ => [.psapOff]
  | .ldctlWrite .refresh _ => [.refresh]
  | .mreq _ | .mres | .mset => [.mo]
  | .halt => [.halt]
  | .ei .. | .di .. => [.enables]
  | i => if i.isPrivileged then [.io] else []

end Sys2Proof

namespace Sys2Proof.Machine

open Sys2Proof

/-! Members of the lists of targets. -/

theorem single_subset {α : Type} {a : α} {l : List α} (h : a ∈ l) : [a] ⊆ l := by simpa using h

theorem mem_second {α : Type} {a b : α} {l : List α} : b ∈ a :: b :: l := by simp

theorem mem_third {α : Type} {a b c : α} {l : List α} : c ∈ a :: b :: c :: l := by simp

theorem regAfter_mem_runOfRegs (r : Reg) (n j : Nat) (h : j < 0 + n) : regAfter r j ∈ runOfRegs r n :=
  List.mem_map.2 ⟨j, by simpa using h, rfl⟩

/-- An instruction's own effect; see `exec_cases`. -/
abbrev Instr.Own (i : Instr) (s t : State) : Prop := Effect i.loadsMode i.specials (fun g => i.targets g) s t

/-- LDAR writes as LDA does, its reserved bits zero or free (R216). -/
theorem execLdar_effect {P : List Special} {W : Bool → List Reg} (d : Reg) (disp : Word) (s t : State)
    (hW : ∀ g, (if g then [d, d + 1] else [d]) ⊆ W g) (h : execLdar d disp s = .next t) : Effect false P W s t := by
  unfold execLdar at h
  by_cases g : (s.isSeg && !s.cfg.ldarReservedFree) = true
  · rw [if_pos g] at h
    have hs := hW s.isSeg
    rw [if_pos (Bool.and_eq_true_iff.1 g).1] at hs
    exact (KeepsAt.modify (Effect.setRegAt s .l d _ fun _ hr => hs hr)).run h
  · rw [if_neg g] at h
    exact (Within.loadAddress _ hW).run h

/-- IRET in system mode (R307): refused, or the return of the mode. -/
theorem execIret_effect {P : List Special} {W : Bool → List Reg} (s t : State) (hs : s.fcw.sn = true)
    (hW : ∀ g, 15 ∈ W g) (h : execIret s = .next t) : Effect true P W s t := by
  refine KeepsAt.runPrivileged (KeepsAt.get_bind ?_) hs h
  split
  · rename_i g
    exact Within.returnSeg s g (hW _)
  · split
    · rename_i g _
      exact Within.returnNonseg s (Bool.eq_false_iff.2 g) (hW _)
    · exact Keeps.refuse _ s

theorem execLdctlWrite_effect (c : CtlReg) (r : Reg) (s t : State) (hs : s.fcw.sn = true)
    (h : execLdctlWrite c r s = .next t) : Instr.Own (.ldctlWrite c r) s t := by
  have e := KeepsAt.runPrivileged (Within.writeControl (P := (Instr.ldctlWrite c r).specials)
    (W := fun g => (Instr.ldctlWrite c r).targets g) c (s.reg r) s ?_ ?_ ?_ ?_ ?_) hs h
  · cases c <;> exact e
  all_goals
    rintro rfl
    exact List.mem_cons_self

/-- In system mode if it is privileged, and with FCW.EPA = 1 if it is extended, an instruction has its own effect and no
other (R470, R501). -/
theorem exec_own (i : Instr) (s t : State) (hr : i.runs s = true) (h : exec i s = .next t) :
    Instr.Own i s t := by
  have sys : i.isPrivileged = true → s.fcw.sn = true := fun p => by simp_all [Instr.runs]
  have epu : i.isExtended = true → s.fcw.epa = true := fun p => by simp_all [Instr.runs]
  cases i with
  | clr d | clrb d => exact (Within.writeDst fun _ _ h => h).run h
  | ex d x | exb d x =>
    exact (Within.exchange (fun _ => single_subset List.mem_cons_self) fun _ => List.subset_cons_self _ _).run h
  | ld d x | ldb d x | ldl d x => exact (Within.load x fun _ _ h => h).run h
  | ldBased d x | ldbBased d x | ldlBased d x => exact (Within.loadBased x fun _ _ h => h).run h
  | ldStore d x | ldbStore d x | ldlStore d x => exact (Within.store d x).run h
  | ldStoreBased d x | ldbStoreBased d x | ldlStoreBased d x => exact (Within.storeBased d x).run h
  | ldImm d v | ldbImm d v => exact (Within.writeM _ d _).run h
  | ldbShort d v => exact (Within.writeReg fun _ _ h => h).run h
  | ldk d n => exact (Within.writeReg fun _ _ h => h).run h
  | lda d x => exact (Within.loadAddress _ fun _ _ h => h).run h
  | ldaBased d x => exact (Within.loadAddress _ fun _ _ h => h).run h
  | ldmLoad d x n =>
    exact (Within.loadMultiple _ _ d 0 _ fun _ j hj => regAfter_mem_runOfRegs d _ j hj).run h
  | ldmStore d x n => exact (Within.storeMultiple _ _ x 0 _).run h
  | ldr d x | ldrb d x | ldrl d x => exact (Within.loadRelative x fun _ _ h => h).run h
  | ldrStore x r | ldrbStore x r | ldrlStore x r => exact (Within.storeRelative x r).run h
  | ldar d x => exact execLdar_effect d x s t (fun _ _ h => h) h
  | pop d sp | popl d sp =>
    exact (Within.popTo (fun _ => List.subset_cons_self _ _) fun _ => List.mem_cons_self).run h
  | push sp x | pushl sp x => exact (Within.pushFrom x fun _ => List.mem_cons_self).run h
  | pushImm sp v => exact (Within.push fun _ => List.mem_cons_self).run h
  | adc d r => exact (Within.arithInto (wd := .w) (fl := Fcw.arith) (.reg r) fun _ _ h => h).run h
  | sbc d r => exact (Within.arithInto (wd := .w) (fl := Fcw.arith) (.reg r) fun _ _ h => h).run h
  | adcb d r => exact (Within.arithInto (wd := .b) (fl := fun f x => f.arithB false x) (.reg r) fun _ _ h => h).run h
  | sbcb d r => exact (Within.arithInto (wd := .b) (fl := fun f x => f.arithB true x) (.reg r) fun _ _ h => h).run h
  | add d x | addb d x | addl d x | sub d x | subb d x | subl d x =>
    exact (Within.arithInto _ fun _ _ h => h).run h
  | cp d x | cpb d x | cpl d x => exact (Within.compareReg x).run h
  | cpImm d v | cpbImm d v => exact (Within.compareImm d _).run h
  | dab d => exact (Within.decimalAdjust fun _ _ h => h).run h
  | inc d n | incb d n | dec d n | decb d n | neg d | negb d | com d | comb d =>
    exact (Within.updateDst fun _ _ h => h).run h
  | extsb d | exts d => exact (Within.writeReg fun _ _ h => h).run h
  | extsl d => exact (Within.writeQuadAs (d := d) (fun s => (s.regL (d + 2)).signExtend 64) fun _ _ h => h).run h
  | mult d x => exact (Within.multiply x fun _ _ h => h).run h
  | multl d x => exact (Within.multiplyLong x fun _ _ h => h).run h
  | div d x => exact (Within.divideWord x fun _ _ h => h).run h
  | divl d x => exact (Within.divideLong x fun _ _ h => h).run h
  | and d x | andb d x | or d x | orb d x | xor d x | xorb d x =>
    exact (Within.logicInto x fun _ _ h => h).run h
  | test d | testb d => exact (Within.testOperand d).run h
  | testl d => exact (Within.testLong d).run h
  | tcc cc d | tccb cc d => exact (Within.testCondition cc fun _ _ h => h).run h
  | call x =>
    exact ((Within.pushPc fun _ => List.mem_cons_self).bind fun _ => Within.jump _).run h
  | calr disp => exact ((Within.pushPc fun _ => List.mem_cons_self).bind fun _ => Within.moveBy _).run h
  | djnz r disp | dbjnz r disp => exact (Within.countDown (fun _ _ h => h) disp).run h
  | jp cc x => exact (Within.jumpIf _ _).run h
  | jr cc disp => exact (Within.moveByIf _ _).run h
  | ret cc => exact (Within.popPcIf _ fun _ => List.mem_cons_self).run h
  | iret => exact execIret_effect s t (sys rfl) (fun _ => List.mem_cons_self) h
  | sc n => simp [Instr.runs] at hr
  | bit d k | bitb d k => exact (Within.testBit d _).run h
  | bitDyn d r | bitbDyn d r => exact (Within.testBit (.reg d) _).run h
  | res d k | resb d k => exact (Within.clearBit _ fun _ _ h => h).run h
  | resDyn d r => exact (Within.clearBit (wd := .w) (d := .reg d) _ fun _ _ h => h).run h
  | resbDyn d r => exact (Within.clearBit (wd := .b) (d := .reg d) _ fun _ _ h => h).run h
  | set d k | setb d k => exact (Within.setBit _ fun _ _ h => h).run h
  | setDyn d r => exact (Within.setBit (wd := .w) (d := .reg d) _ fun _ _ h => h).run h
  | setbDyn d r => exact (Within.setBit (wd := .b) (d := .reg d) _ fun _ _ h => h).run h
  | tset d | tsetb d => exact (Within.testAndSet fun _ _ h => h).run h
  | rl d n | rlb d n | rlc d n | rlcb d n | rr d n | rrb d n | rrc d n | rrcb d n =>
    exact (Within.rotate (fun _ _ h => h) _ n).run h
  | rldb d r | rrdb d r =>
    exact (Within.rotateDigit _ (fun _ => single_subset List.mem_cons_self) fun _ => single_subset mem_second).run h
  | sla d n | slab d n | slal d n => exact (Within.shiftLeftArith (fun _ _ h => h) n).run h
  | sll d n | sllb d n | slll d n => exact (Within.shiftLeftLogical (fun _ _ h => h) n).run h
  | sra d n | srab d n | sral d n => exact (Within.shiftRightArith (fun _ _ h => h) n).run h
  | srl d n | srlb d n | srll d n => exact (Within.shiftRightLogical (fun _ _ h => h) n).run h
  | sda d r | sdab d r | sdal d r =>
    exact (Within.shiftDynamic (fun _ _ h => h) r (fun _ => Within.shiftLeftArith (fun _ _ h => h) _)
      fun _ => Within.shiftRightArith (fun _ _ h => h) _).run h
  | sdl d r | sdlb d r | sdll d r =>
    exact (Within.shiftDynamic (fun _ _ h => h) r (fun _ => Within.shiftLeftLogical (fun _ _ h => h) _)
      fun _ => Within.shiftRightLogical (fun _ _ h => h) _).run h
  | cpi d p r cc | cpib d p r cc | cpd d p r cc | cpdb d p r cc =>
    exact (Within.compareElement cc (fun _ => List.mem_cons_self) fun _ => mem_second).once.run h
  | cpir d p r cc | cpirb d p r cc | cpdr d p r cc | cpdrb d p r cc =>
    exact (Within.compareElement cc (fun _ => List.mem_cons_self) fun _ => mem_second).repeating.run h
  | cpsi d p r cc | cpsib d p r cc | cpsd d p r cc | cpsdb d p r cc =>
    exact (Within.compareStrings cc (fun _ => List.mem_cons_self) (fun _ => mem_second) fun _ => mem_third).once.run h
  | cpsir d p r cc | cpsirb d p r cc | cpsdr d p r cc | cpsdrb d p r cc =>
    exact (Within.compareStrings cc (fun _ => List.mem_cons_self) (fun _ => mem_second)
      fun _ => mem_third).repeating.run h
  | ldi d p r | ldib d p r | ldd d p r | lddb d p r =>
    exact (Within.moveElement (fun _ => List.mem_cons_self) (fun _ => mem_second) fun _ => mem_third).once.run h
  | ldir d p r | ldirb d p r | lddr d p r | lddrb d p r =>
    exact (Within.moveElement (fun _ => List.mem_cons_self) (fun _ => mem_second) fun _ => mem_third).repeating.run h
  | trib d p r | trdb d p r =>
    exact (Within.translateElement (fun _ => List.mem_cons_self) (fun _ => mem_second) fun _ => mem_third).once.run h
  | trirb d p r | trdrb d p r =>
    exact (Within.translateElement (fun _ => List.mem_cons_self) (fun _ => mem_second)
      fun _ => mem_third).repeating.run h
  | trtib d p r | trtdb d p r =>
    exact (Within.translateTest (fun _ => List.mem_cons_self) (fun _ => mem_second) fun _ => mem_third).once.run h
  | trtirb d p r | trtdrb d p r =>
    exact (Within.translateTest (fun _ => List.mem_cons_self) (fun _ => mem_second) fun _ => mem_third).repeating.run h
  | inIr d r | inbIr d r | inDa d r | inbDa d r | sin d r | sinb d r =>
    exact (Within.inputTo _ _ List.mem_cons_self (fun _ _ h => h)).runPrivileged (sys rfl) h
  | outIr d r | outbIr d r | outDa d r | outbDa d r | sout d r | soutb d r =>
    exact (Within.outputFrom _ _ List.mem_cons_self).runPrivileged (sys rfl) h
  | ini d p r | inib d p r | ind d p r | indb d p r | sini d p r | sinib d p r | sind d p r | sindb d p r =>
    exact ((Within.inputElement _ List.mem_cons_self (fun _ => List.mem_cons_self) fun _ => mem_second).once).runPrivileged (sys rfl) h
  | inir d p r | inirb d p r | indr d p r | indrb d p r | sinir d p r | sinirb d p r | sindr d p r | sindrb d p r =>
    exact ((Within.inputElement _ List.mem_cons_self (fun _ => List.mem_cons_self) fun _ => mem_second).repeating).runPrivileged (sys rfl) h
  | outi d p r | outib d p r | outd d p r | outdb d p r | souti d p r | soutib d p r | soutd d p r | soutdb d p r =>
    exact ((Within.outputElement _ List.mem_cons_self (fun _ => List.mem_cons_self) fun _ => mem_second).once).runPrivileged (sys rfl) h
  | otir d p r | otirb d p r | otdr d p r | otdrb d p r | sotir d p r | sotirb d p r | sotdr d p r | sotdrb d p r =>
    exact ((Within.outputElement _ List.mem_cons_self (fun _ => List.mem_cons_self) fun _ => mem_second).repeating).runPrivileged (sys rfl) h
  | comflg c z g p =>
    change execComflg c z g p s = .next t at h
    unfold execComflg at h
    exact (Within.setFcw).run h
  | resflg c z g p =>
    change execResflg c z g p s = .next t at h
    unfold execResflg at h
    exact (Within.setFcw).run h
  | setflg c z g p =>
    change execSetflg c z g p s = .next t at h
    unfold execSetflg at h
    exact (Within.setFcw).run h
  | ldctlbWrite r =>
    change execLdctlbWrite r s = .next t at h
    unfold execLdctlbWrite at h
    exact (Within.setFcw).run h
  | ei a b | di a b =>
    exact (Within.setEnables List.mem_cons_self).runPrivileged (sys rfl) h
  | halt => exact (Within.halt List.mem_cons_self).runPrivileged (sys rfl) h
  | ldctlWrite c r => exact execLdctlWrite_effect c r s t (sys rfl) h
  | ldctlRead d c =>
    exact ((Within.readControl c).bind (fun _ => Within.writeReg fun _ _ h => h)).runPrivileged (sys rfl) h
  | ldctlbRead d => exact (Within.writeReg fun _ _ h => h).run h
  | ldps x => exact (Within.loadProgramStatus _ _ s).runPrivileged (sys rfl) h
  | mbit => exact (Within.freeBool.bind (fun _ => Within.setFcw)).runPrivileged (sys rfl) h
  | mreq d =>
    exact (Within.multiMicroRequest List.mem_cons_self (fun _ => List.mem_cons_self)).runPrivileged (sys rfl) h
  | mres | mset => exact (Within.setMo _ List.mem_cons_self).runPrivileged (sys rfl) h
  | nop => exact (Within.of_pure ()).run h
  | epuLdmFrom x ii w2 =>
    exact ((Within.epuNote _).bind (fun _ => Within.epuToMemory _ _ 0 _)).runExtended (epu rfl) h
  | epuLdmTo x ii w2 =>
    exact ((Within.epuNote _).bind (fun _ => Within.memoryToEpu _ _ 0 _)).runExtended (epu rfl) h
  | epuLdrFrom x ii w2 =>
    exact ((Within.epuNote _).bind (fun _ => Within.epuToRegs _ 0 _ fun _ j hj => regAfter_mem_runOfRegs _ _ j hj)).runExtended (epu rfl) h
  | epuLdrTo x ii w2 =>
    exact ((Within.epuNote _).bind (fun _ => Within.regsToEpu _ 0 _)).runExtended (epu rfl) h
  | epuLdfFrom x ii w2 =>
    exact ((Within.epuNote _).bind (fun _ => Within.epuFlags fun _ => List.mem_cons_self)).runExtended (epu rfl) h
  | epuLdfTo x ii w2 =>
    exact ((Within.epuNote _).bind (fun _ => Within.resetPoint.bind fun _ => Within.logEvent _ (.inr rfl))).runExtended (epu rfl) h
  | epuOp x ii w2 => exact (Within.epuNote _).runExtended (epu rfl) h

/-! Internal traps. -/

theorem run_privileged_normal (x : M Unit) {s : State} (hs : s.fcw.sn = false) :
    M.run (privileged x) s = M.run (trapOnFirstWord .privileged) s := by
  unfold M.run
  rw [privileged_normal x s hs]

theorem run_extended_absent (x : M Unit) {s : State} (hs : s.fcw.epa = false) :
    M.run (extended x) s = M.run (trapOnFirstWord .extended) s := by
  unfold M.run
  rw [extended_absent x s hs]

/-- A privileged instruction in normal mode is its trap (R470, R604). -/
theorem exec_privileged_normal (i : Instr) {s : State} (hp : i.isPrivileged = true) (hs : s.fcw.sn = false) :
    exec i s = M.run (trapOnFirstWord .privileged) s := by
  cases i with
  | inIr | inbIr | inDa | inbDa | sin | sinb | outIr | outbIr | outDa | outbDa | sout | soutb =>
    exact run_privileged_normal _ hs
  | ini | inib | inir | inirb | ind | indb | indr | indrb | sini | sinib | sinir | sinirb | sind | sindb | sindr
  | sindrb => exact run_privileged_normal _ hs
  | outi | outib | otir | otirb | outd | outdb | otdr | otdrb | souti | soutib | sotir | sotirb | soutd | soutdb | sotdr
  | sotdrb => exact run_privileged_normal _ hs
  | di | ei | halt | ldctlWrite | ldctlRead | ldps | mbit | mreq | mres | mset | iret =>
    exact run_privileged_normal _ hs
  | _ => exact absurd hp Bool.false_ne_true

/-- An extended instruction with FCW.EPA = 0 is its trap (R501, R603). -/
theorem exec_extended_absent (i : Instr) {s : State} (hp : i.isExtended = true) (hs : s.fcw.epa = false) :
    exec i s = M.run (trapOnFirstWord .extended) s := by
  cases i with
  | epuLdmFrom | epuLdmTo | epuLdrFrom | epuLdrTo | epuLdfFrom | epuLdfTo | epuOp => exact run_extended_absent _ hs
  | _ => exact absurd hp Bool.false_ne_true

theorem run_trapOnFirstWord (k : Exc) (s : State) :
    M.run (trapOnFirstWord k) s = M.run (enter k s.ir s.secondWord) s := by
  unfold M.run trapOnFirstWord
  rw [M.bind_ok (M.get_apply s)]

/-- An instruction that does not run: a system call, or one that its first word's trap comes before. -/
theorem not_runs {i : Instr} {s : State} (h : i.runs s = false) :
    (i.isPrivileged = true ∧ s.fcw.sn = false) ∨ (i.isExtended = true ∧ s.fcw.epa = false) ∨ ∃ n, i = .sc n := by
  unfold Instr.runs at h
  split at h
  · exact .inr (.inr ⟨_, rfl⟩)
  · by_cases hs : i.isPrivileged = true ∧ s.fcw.sn = false
    · exact .inl hs
    · exact .inr (.inl (by cases hp : i.isPrivileged <;> simp_all))

/-- ALL THAT AN INSTRUCTION CAN DO: its own effect, or the entry of an internal trap (R309, R470, R501). -/
theorem exec_cases {i : Instr} {s t : State} (h : exec i s = .next t) :
    (i.runs s = true ∧ Instr.Own i s t) ∨
    ∃ k id pcs, (k = .privileged ∨ k = .extended ∨ k = .systemCall) ∧ M.run (enter k id pcs) s = .next t := by
  cases hr : i.runs s with
  | true => exact .inl ⟨rfl, exec_own i s t hr h⟩
  | false =>
    right
    rcases not_runs hr with ⟨hp, hs⟩ | ⟨hx, he⟩ | ⟨n, rfl⟩
    · rw [exec_privileged_normal i hp hs, run_trapOnFirstWord] at h
      exact ⟨_, _, _, .inl rfl, h⟩
    · rw [exec_extended_absent i hx he, run_trapOnFirstWord] at h
      exact ⟨_, _, _, .inr (.inl rfl), h⟩
    · exact ⟨_, _, _, .inr (.inr rfl), h⟩

end Sys2Proof.Machine
end

section
/-! PROOF. What taking an exception leaves, what a whole step keeps, and the frames over the whole instruction set
(R20 to R36, R70, R604, R620). -/

namespace Sys2Proof.Machine

open Sys2Proof

/-! Two relations wider than `Effect`. -/

/-- The parameters of the machine stay, and the invariant is kept. -/
structure Sound (s t : State) : Prop where
  cfg : t.cfg = s.cfg
  inv : s.Inv → t.Inv

/-- What the entry of an exception leaves (R620): PSAP, REFRESH and MO; the machine is not halted after it unless it was;
no input or output transaction is made. -/
structure Enters (s t : State) : Prop extends Sound s t where
  psapSeg : t.psapSeg = s.psapSeg
  psapOff : t.psapOff = s.psapOff
  refresh : t.refresh = s.refresh
  moLow : t.moLow = s.moLow
  halted : t.halted = true → s.halted = true
  events : ∃ new, t.events = new ++ s.events ∧ ∀ e ∈ new, e.isEpu = true

theorem Effect.sound {load : Bool} {P : List Special} {W : Bool → List Reg} {s t : State} (h : Effect load P W s t) :
    Sound s t := ⟨h.cfg, h.inv⟩

theorem Effect.enters {load : Bool} {W : Bool → List Reg} {s t : State} (h : Effect load [] W s t) : Enters s t where
  cfg := h.cfg
  inv := h.inv
  psapSeg := h.psapSeg List.not_mem_nil
  psapOff := h.psapOff List.not_mem_nil
  refresh := (h.refresh List.not_mem_nil).1
  moLow := h.moLow List.not_mem_nil
  halted i := (h.halted List.not_mem_nil).symm.trans i
  events := by
    obtain ⟨new, e, p⟩ := h.events
    exact ⟨new, e, p List.not_mem_nil⟩

theorem Sound.refl (s : State) : Sound s s := ⟨rfl, id⟩

theorem Sound.trans {s u t : State} (h : Sound s u) (h' : Sound u t) : Sound s t :=
  ⟨h'.cfg.trans h.cfg, fun i => h'.inv (h.inv i)⟩

theorem Enters.trans {s u t : State} (h : Enters s u) (h' : Enters u t) : Enters s t where
  toSound := h.toSound.trans h'.toSound
  psapSeg := h'.psapSeg.trans h.psapSeg
  psapOff := h'.psapOff.trans h.psapOff
  refresh := h'.refresh.trans h.refresh
  moLow := h'.moLow.trans h.moLow
  halted i := h.halted (h'.halted i)
  events := by
    obtain ⟨new, e, p⟩ := h.events
    obtain ⟨new', e', p'⟩ := h'.events
    refine ⟨new' ++ new, by rw [e', e, List.append_assoc], fun x hx => ?_⟩
    rcases List.mem_append.1 hx with hx | hx
    · exact p' x hx
    · exact p x hx

theorem Enters.bind {α β : Type} {x : M α} {f : α → M β} {s : State} (hx : KeepsAt Enters x s)
    (hf : ∀ a u, Enters s u → KeepsAt Enters (f a) u) : KeepsAt Enters (x >>= f) s :=
  hx.bind hf (fun _ h => h) fun _ _ h h' => h.trans h'

theorem Sound.bind {α β : Type} {x : M α} {f : α → M β} {s : State} (hx : KeepsAt Sound x s)
    (hf : ∀ a u, Sound s u → KeepsAt Sound (f a) u) : KeepsAt Sound (x >>= f) s :=
  hx.bind hf (fun _ h => h) fun _ _ h h' => h.trans h'

theorem KeepsAt.mono {α : Type} {Q R : State → State → Prop} {x : M α} {s : State} (h : KeepsAt Q x s)
    (hq : ∀ t, Q s t → R s t) : KeepsAt R x s :=
  ⟨fun a t e => hq t (h.1 a t e), fun t e => hq t (h.2 t e)⟩

theorem Within.enters {α : Type} {W : Bool → List Reg} {x : M α} (h : Within [] W x) (s : State) :
    KeepsAt Enters x s := KeepsAt.mono (h s) fun _ => Effect.enters

theorem Within.sound {α : Type} {P : List Special} {W : Bool → List Reg} {x : M α} (h : Within P W x) (s : State) :
    KeepsAt Sound x s := KeepsAt.mono (h s) fun _ => Effect.sound

/-! Taking an exception (R620). -/

/-- System mode is forced; on a Z8002 nothing but S/N changes (R620(a)). -/
theorem forceSystem_enters (s : State) : Enters s s.forceSystem where
  cfg := rfl
  inv h := {
    mem := h.mem
    nonseg := fun v => by
      have hv : s.cfg.version = .z8002 := v
      simpa [State.forceSystem, hv] using h.nonseg hv
    epa := h.epa }
  psapSeg := rfl
  psapOff := rfl
  refresh := rfl
  moLow := rfl
  halted := id
  events := ⟨[], rfl, by simp⟩

theorem endEntry_enters (k : Exc) (s : State) :
    Enters s { s with halted := false, nmiLatch := s.nmiLatch && k != Exc.nmi } where
  cfg := rfl
  inv h := h.of_same rfl h.mem rfl (fun _ => rfl) fun _ => rfl
  psapSeg := rfl
  psapOff := rfl
  refresh := rfl
  moLow := rfl
  halted h := by cases h
  events := ⟨[], rfl, by simp⟩

theorem loadStatus_enters (s : State) (w off : Word) : Enters s { s with fcw := loadFcw s.cfg w, pcOff := off } :=
  (Effect.loadStatus (P := []) (W := fun _ => []) s w off).enters

theorem loadStatusSeg_enters (s : State) (w off : Word) (seg : BitVec 7) (hv : s.cfg.version = .z8001) :
    Enters s { s with fcw := loadFcw s.cfg w, pcSeg := seg, pcOff := off } where
  toSound := ⟨rfl, fun h => h.loadedSeg hv w off seg⟩
  psapSeg := rfl
  psapOff := rfl
  refresh := rfl
  moLow := rfl
  halted := id
  events := ⟨[], rfl, by simp⟩

theorem pushAs_enters (l : Label) (n : Reg) (wd : Width) (v : BitVec wd.bits) (s : State) :
    KeepsAt Enters (pushAs l n wd v) s :=
  KeepsAt.mono (Within.pushAsAt (P := []) (W := fun g => [ptrOff g n]) List.mem_cons_self) fun _ => Effect.enters

theorem readWord_enters (l : Label) (a : Addr) (s : State) : KeepsAt Enters (readWord l a) s :=
  (Within.readWord (W := fun _ => []) l a).enters s

/-- Taking an exception, whatever the machine. -/
theorem enter_enters (k : Exc) (id : Word) (pcs : Addr) (s : State) : KeepsAt Enters (enter k id pcs) s := by
  refine KeepsAt.get_bind (Enters.bind (KeepsAt.modify (forceSystem_enters s)) fun _ u hu => ?_)
  dsimp only
  split
  · exact Enters.bind (pushAs_enters _ 15 .w _ u) fun _ a _ => Enters.bind (pushAs_enters _ 15 .w _ a) fun _ b _ =>
      Enters.bind (pushAs_enters _ 15 .w _ b) fun _ c _ => Enters.bind (readWord_enters _ _ c) fun _ d _ =>
      Enters.bind (readWord_enters _ _ d) fun _ e _ => Enters.bind (KeepsAt.modify (loadStatus_enters e _ _))
        fun _ f _ => KeepsAt.modify (endEntry_enters k f)
  · rename_i hv
    exact Enters.bind (pushAs_enters _ 14 .w _ u) fun _ a ha => Enters.bind (pushAs_enters _ 14 .w _ a) fun _ b hb =>
      Enters.bind (pushAs_enters _ 14 .w _ b) fun _ c hc => Enters.bind (pushAs_enters _ 14 .w _ c) fun _ d hd =>
      Enters.bind (readWord_enters _ _ d) fun _ e he => Enters.bind (readWord_enters _ _ e) fun _ f hf =>
      Enters.bind (readWord_enters _ _ f) fun _ g hg =>
      have hx := hu.trans <| ha.trans <| hb.trans <| hc.trans <| hd.trans <| he.trans <| hf.trans hg
      Enters.bind (KeepsAt.modify (loadStatusSeg_enters g _ _ _ (by rw [hx.cfg, hv]))) fun _ h _ =>
        KeepsAt.modify (endEntry_enters k h)

/-- Whatever an instruction does, the parameters and the invariant are kept. -/
theorem exec_sound {i : Instr} {s t : State} (h : exec i s = .next t) : Sound s t := by
  rcases exec_cases h with ⟨-, e⟩ | ⟨k, id, pcs, -, e⟩
  · exact e.sound
  · exact ((enter_enters k id pcs s).run e).toSound

/-! Fetching an instruction (R26, R159). -/

theorem releaseSuppress_within {P : List Special} {W : Bool → List Reg} : Within P W releaseSuppress :=
  Within.of_modify fun s => Within.mapUnits _ s

theorem fetchWord_within {P : List Special} {W : Bool → List Reg} (l : Label) : Within P W (fetchWord l) :=
  Within.of_get.bind fun _ => (Within.readWord l _).bind fun _ => (Within.setPc _).bind fun _ => Within.of_pure _

theorem fetchMore_within {P : List Special} {W : Bool → List Reg} (ws : List Word) (n : Nat) :
    Within P W (fetchMore ws n) := by
  induction n generalizing ws with
  | zero =>
    refine Within.of_get.bind fun s => ?_
    split <;> exact Within.of_pure _
  | succ n ih =>
    refine Within.of_get.bind fun s => ?_
    split
    · exact Within.of_pure _
    · exact (fetchWord_within .code).bind fun w => ih (ws ++ [w])
    · exact Within.of_pure _

/-- The model's own marks of the current instruction, and a fetch no longer held up (R371, R603, R706). -/
theorem Effect.marks {load : Bool} {P : List Special} {W : Bool → List Reg} (s : State) (pc w : Word)
    (hd : Option (Option Exc)) : Effect load P W s { s with instrPc := pc, ir := w, held := hd } where
  inv h := h.of_same rfl h.mem rfl (fun _ => rfl) fun _ => rfl

theorem Effect.rowStepped {load : Bool} {W : Bool → List Reg} (s : State) (b : Bool) :
    Effect load [.refresh] W s { s with rowStepped := b } where
  inv h := h.of_same rfl h.mem rfl (fun _ => rfl) fun _ => rfl
  refresh h := absurd List.mem_cons_self h

/-- A fetch changes no register and of the special state REFRESH alone, whose ROW may have been stepped (R510(e)). -/
theorem fetchInstr_within : Within [.refresh] (fun _ => []) fetchInstr := by
  refine releaseSuppress_within.bind fun _ => (Within.of_modify fun s => Effect.marks s _ s.ir _).bind fun _ =>
    (fetchWord_within .ifetch).bind fun w => (Within.of_modify fun s => Effect.marks s s.instrPc _ s.held).bind fun _ =>
    Within.of_get.bind fun s => ?_
  split
  · exact Within.of_pure _
  · refine (Within.of_modify fun s => Effect.rowStepped s _).bind fun _ => (fetchMore_within _ _).bind fun i =>
      Within.resetPoint.bind fun _ => ?_
    split
    · exact Within.of_pure _
    · exact Within.refuse _

theorem runInstr_sound {s t : State} (h : runInstr s = .next t) : Sound s t := by
  have hf := fetchInstr_within.sound s
  unfold runInstr at h
  split at h
  · cases h
  · cases h
  · rename_i s' e
    cases h
    exact hf.2 _ e
  · rename_i k s' e
    rw [run_trapOnFirstWord] at h
    exact (hf.1 _ _ e).trans ((enter_enters _ _ _ s').run h).toSound
  · rename_i i s' e
    exact (hf.1 _ _ e).trans (exec_sound h)

/-! The other activities of a step (R474, R606, R700 to R707). -/

theorem acknowledge_within (k : Exc) : Within [.io] (fun _ => []) (acknowledge k) := by
  refine Within.of_get.bind fun s => ?_
  dsimp only
  split
  · exact (Within.of_modify fun s => Within.mapUnits _ s).bind fun _ => (Within.logEvent _ (.inl List.mem_cons_self)).bind
      fun _ => Within.of_pure _
  · exact (Within.logEvent _ (.inl List.mem_cons_self)).bind fun _ => Within.of_pure _

theorem takeAtBoundary_sound (k : Exc) (s : State) : KeepsAt Sound (takeAtBoundary k) s := by
  have log (e : BusEvent) : Within [.io] (fun _ => []) (logEvent e) := Within.logEvent e (.inl List.mem_cons_self)
  refine Sound.bind (releaseSuppress_within (P := []) (W := fun _ => []) |>.sound s) fun _ u _ => ?_
  refine Sound.bind (KeepsAt.modify (Effect.marks (load := false) (P := []) (W := fun _ => []) u u.instrPc u.ir
    none).sound) fun _ u _ => ?_
  refine Sound.bind (Within.resetPoint (P := []) (W := fun _ => []) |>.sound u) fun _ u _ => KeepsAt.get_bind ?_
  refine Sound.bind ((log _).sound u) fun _ u _ => ?_
  refine Sound.bind (Within.resetPoint (P := []) (W := fun _ => []) |>.sound u) fun _ u _ => ?_
  exact Sound.bind ((acknowledge_within k).sound u) fun _ u _ =>
    KeepsAt.mono (enter_enters _ _ _ u) fun _ => Enters.toSound

/-- A change of nothing the invariant speaks of. -/
theorem Sound.of_same {s t : State} (hc : t.cfg = s.cfg) (hm : t.mem = s.mem) (hf : t.fcw = s.fcw)
    (hp : t.pcSeg = s.pcSeg) (ha : t.psapSeg = s.psapSeg) : Sound s t :=
  ⟨hc, fun h => h.of_same hc (hm ▸ h.mem) (hf ▸ rfl) (fun _ => hp) fun _ => ha⟩

theorem resetSequence_sound (s : State) : KeepsAt Sound resetSequence s := by
  have read (a : Addr) : Within [] (fun _ => []) (readWord .code a) := Within.readWord .code a
  refine Sound.bind (KeepsAt.modify (forceSystem_enters s).toSound) fun _ u _ => KeepsAt.get_bind ?_
  split
  · exact Sound.bind ((read _).sound u) fun _ a _ => Sound.bind ((read _).sound a) fun _ b _ =>
      Sound.bind (KeepsAt.modify (loadStatus_enters b _ _).toSound) fun _ c _ =>
      KeepsAt.modify (Sound.of_same rfl rfl rfl rfl rfl)
  · rename_i hv
    exact Sound.bind ((read _).sound u) fun _ a ha => Sound.bind ((read _).sound a) fun _ b hb =>
      Sound.bind ((read _).sound b) fun _ c hc =>
      Sound.bind (KeepsAt.modify (loadStatusSeg_enters c _ _ _ (by rw [hc.cfg, hb.cfg, ha.cfg, hv])).toSound)
        fun _ d _ => KeepsAt.modify (Sound.of_same rfl rfl rfl rfl rfl)

theorem underReset_sound (s : State) : Sound s s.underReset := by
  obtain ⟨ms, k, e⟩ := State.underReset_inv s
  rw [e]
  exact Sound.of_same rfl rfl rfl rfl rfl

theorem orReset_sound (s : State) : Sound s s.orReset := by
  unfold State.orReset
  split
  · exact underReset_sound s
  · exact Sound.refl s

theorem hold_sound (s : State) : Sound s s.hold := by
  unfold State.hold
  split
  · exact Sound.refl s
  · exact Sound.of_same rfl rfl rfl rfl rfl

theorem endStep_sound (s : State) : Sound s s.endStep := Sound.of_same (by simp) (by simp) (by simp) (by simp) (by simp)

/-- The state an outcome goes on to, before a function of it. -/
theorem Out.map_next {f : State → State} {x : Out} {t : State} (h : Out.map f x = .next t) :
    ∃ u, x = .next u ∧ t = f u := by
  cases x <;> simp_all [Out.map]

theorem Out.bind_next {f : State → Out} {x : Out} {t : State} (h : Out.bind x f = .next t) :
    ∃ u, x = .next u ∧ f u = .next t := by
  cases x <;> simp_all [Out.bind]

/-- Whatever a step is, before the pins take their next levels. -/
theorem act_sound {s t : State} (h : act s = .next t) : Sound s t := by
  unfold act at h
  split at h
  case h_1 => cases h; exact underReset_sound s
  case h_2 =>
    obtain ⟨u, hu, rfl⟩ := Out.map_next h
    exact ((resetSequence_sound s).run hu).trans (orReset_sound u)
  case h_3 => exact KeepsAt.run (KeepsAt.modify (hold_sound s)) h
  case h_4 =>
    exact KeepsAt.run (KeepsAt.modify (f := fun s => { s.hold with rowStepped := true })
      ((hold_sound s).trans (Sound.of_same rfl rfl rfl rfl rfl))) h
  case h_5 k _ =>
    obtain ⟨u, hu, rfl⟩ := Out.map_next h
    exact ((takeAtBoundary_sound k s).run hu).trans (orReset_sound u)
  case h_6 => exact KeepsAt.run (KeepsAt.modify (Sound.of_same rfl rfl rfl rfl rfl)) h
  case h_7 =>
    obtain ⟨u, hu, hl⟩ := Out.bind_next h
    rcases lookAhead_next hl with ⟨-, rfl⟩ | ⟨-, rfl⟩
    · exact (runInstr_sound hu).trans (underReset_sound u)
    · exact runInstr_sound hu

/-- Settles O2: by the activities of a step, an instruction by `exec_cases`. -/
theorem stepKeepsInvariant : Obligations.StepKeepsInvariant := by
  intro s t hs h
  obtain ⟨u, hu, rfl⟩ := Out.map_next h
  have hsound := (act_sound hu).trans (endStep_sound u)
  exact ⟨hsound.inv hs, hsound.cfg⟩

/-! The frames over the whole instruction set. -/

/-- Settles O57: the registers an effect leaves. -/
theorem frameRegisters : Obligations.FrameRegisters := by
  intro s t i hr h
  have e := exec_own i s t hr h
  exact ⟨e.regs, fun n => e.sysR15 (.inl n), fun n => e.sysR14 (.inl n)⟩

theorem loadsMode_eq_false {i : Instr} (hi : i ≠ .iret) (hf : ∀ r, i ≠ .ldctlWrite .fcw r) (hl : ∀ m, i ≠ .ldps m) :
    i.loadsMode = false := by
  unfold Instr.loadsMode
  split
  · exact absurd rfl hi
  · exact absurd rfl (hl _)
  · exact absurd rfl (hf _)
  · rfl

/-- The instructions that write a piece of special state. -/
def Special.Writer (i : Instr) : Special → Prop
  | .psapSeg => ∃ r, i = .ldctlWrite .psapseg r
  | .psapOff => ∃ r, i = .ldctlWrite .psapoff r
  | .refresh => ∃ r, i = .ldctlWrite .refresh r
  | .mo => i = .mset ∨ i = .mres ∨ ∃ r, i = .mreq r
  | .halt => i = .halt
  | .enables => (∃ a b, i = .ei a b) ∨ ∃ a b, i = .di a b
  | .io => i.isPrivileged = true

theorem mem_specials {i : Instr} {p : Special} (h : p ∈ i.specials) : p.Writer i := by
  unfold Instr.specials at h
  split at h
  case h_10 =>
    split at h
    · rename_i hp
      obtain rfl := List.mem_singleton.1 h
      exact hp
    · exact absurd h List.not_mem_nil
  all_goals
    obtain rfl := List.mem_singleton.1 h
    simp [Special.Writer]

/-- Settles O59: the special state an effect leaves, by `mem_specials`. -/
theorem frameSpecials : Obligations.FrameSpecials := by
  intro s t i hr h
  have e := exec_own i s t hr h
  refine ⟨fun n => e.psapSeg fun m => ?_, fun n => e.psapOff fun m => ?_, fun n => e.refresh fun m => ?_,
    fun n1 n2 n3 => e.moLow fun m => ?_, fun n => e.halted fun m => n (mem_specials m), fun n1 n2 n3 => ?_,
    e.cfg, e.nmiLatch, e.pins, e.schedule⟩
  · obtain ⟨r, hi⟩ := mem_specials m
    exact n r hi
  · obtain ⟨r, hi⟩ := mem_specials m
    exact n r hi
  · obtain ⟨r, hi⟩ := mem_specials m
    exact n r hi
  · rcases mem_specials m with hi | hi | ⟨r, hi⟩
    · exact n1 hi
    · exact n2 hi
    · exact n3 r hi
  · have hl := loadsMode_eq_false n1 n2 n3
    have hm := e.mode hl
    refine ⟨Fcw.seg_of_mode hm, Fcw.sn_of_mode hm, Fcw.epa_of_mode hm, fun n4 n5 => ?_⟩
    have he := e.enables hl fun m => by
      rcases mem_specials m with ⟨a, b, hi⟩ | ⟨a, b, hi⟩
      · exact n4 a b hi
      · exact n5 a b hi
    exact ⟨congrArg Prod.fst he, congrArg Prod.snd he⟩

/-- An instruction that is not privileged writes no special state (R470). -/
theorem specials_of_unprivileged {i : Instr} (h : i.isPrivileged = false) : i.specials = [] := by
  unfold Instr.specials
  split
  case h_10 => simp [h]
  all_goals cases h

theorem loadsMode_of_unprivileged {i : Instr} (h : i.isPrivileged = false) : i.loadsMode = false := by
  refine loadsMode_eq_false ?_ ?_ ?_ <;> intros <;> rintro rfl <;> cases h

/-- Settles O60: in normal mode an instruction that has its own effect is not privileged; the rest is what an entry
leaves. -/
theorem normalModeConfined : Obligations.NormalModeConfined := by
  intro s t i hs h
  rcases exec_cases h with ⟨hr, e⟩ | ⟨k, id, pcs, hk, e⟩
  · have hp : i.isPrivileged = false := by
      by_contra hp
      simp [Instr.runs, hp, hs] at hr
    unfold Instr.Own at e
    rw [specials_of_unprivileged hp, loadsMode_of_unprivileged hp] at e
    have g := e.enters
    have hm := e.mode rfl
    have he := e.enables rfl List.not_mem_nil
    exact ⟨g.psapSeg, g.psapOff, g.refresh, g.moLow, g.halted, g.events, .inl ⟨Fcw.seg_of_mode hm,
      (Fcw.sn_of_mode hm).trans hs, Fcw.epa_of_mode hm, congrArg Prod.fst he, congrArg Prod.snd he,
      e.sysR14 (.inr hs), e.sysR15 (.inr hs)⟩⟩
  · have g := (enter_enters k id pcs s).run e
    exact ⟨g.psapSeg, g.psapOff, g.refresh, g.moLow, g.halted, g.events, .inr ⟨k, id, pcs, hk, e⟩⟩

end Sys2Proof.Machine
end

section
/-! PROOF. Reset, the word form of FCW, the copies of R14 and R15, and the instructions whose whole next state is an
equation (R22, R31, R36, R43, R240 to R256, R476 to R478, R700). -/

namespace Sys2Proof.Machine

open Sys2Proof

/-- Settles O1, field by field. -/
theorem resetMeetsInvariant : Obligations.ResetMeetsInvariant where
  mem := reset_mem_wf
  nonseg _ := ⟨rfl, rfl, rfl⟩
  epa _ := rfl

/-! FCW as a word (R31, R36). -/

/-- The bits of FCW from bit 0 up, the reserved ones zero (R31). -/
def Fcw.bits (f : Fcw) : List Bool :=
  [false, false, f.h, f.d, f.pv, f.s, f.z, f.c, false, false, false, f.nvie, f.vie, f.epa, f.sn, f.seg]

theorem Fcw.toWord_getLsbD (f : Fcw) (i : Nat) (hi : i < 16) : f.toWord.getLsbD i = f.bits.getD i false := by
  change BitVec.getLsbD (w := 1 + 1 + 1 + 1 + 1 + 3 + 1 + 1 + 1 + 1 + 1 + 1 + 2) _ i = _
  unfold Fcw.toWord
  simp only [BitVec.getLsbD_append, BitVec.getLsbD_ofBool, BitVec.getLsbD_zero]
  interval_cases i <;> simp [Fcw.bits]

theorem Fcw.ofWord_toWord (f : Fcw) : Fcw.ofWord f.toWord = f := by
  have bit (i : Nat) (hi : i < 16) : f.toWord[i] = f.bits.getD i false := f.toWord_getLsbD i hi
  simp [Fcw.ofWord, bit, Fcw.bits]

/-- A loaded word keeps its defined bits (R36, D7). -/
theorem Fcw.toWord_ofWord (w : Word) : (Fcw.ofWord w).toWord = w &&& 0xF8FC := by
  refine BitVec.eq_of_getLsbD_eq fun i hi => ?_
  rw [Fcw.toWord_getLsbD _ i hi, BitVec.getLsbD_and]
  interval_cases i <;> simp [Fcw.bits, Fcw.ofWord]

/-- Loading a word masks SEG where there is no segmented mode, and EPA where it is not implemented (R307). -/
theorem loadFcw_toWord (cfg : Config) (w : Word) : (loadFcw cfg w).toWord = w &&& 0xF8FC &&&
    (if cfg.version = .z8001 then 0xFFFF else 0x7FFF) &&& (if cfg.epaImplemented then 0xFFFF else 0xDFFF) := by
  refine BitVec.eq_of_getLsbD_eq fun i hi => ?_
  rw [Fcw.toWord_getLsbD _ i hi, BitVec.getLsbD_and, BitVec.getLsbD_and, BitVec.getLsbD_and]
  cases hv : cfg.version <;> cases he : cfg.epaImplemented <;> interval_cases i <;>
    simp [Fcw.bits, loadFcw, Fcw.ofWord, hv, he]

/-- Settles O47, bit by bit. -/
theorem fcwWord : Obligations.FcwWord := ⟨Fcw.ofWord_toWord, Fcw.toWord_ofWord, loadFcw_toWord⟩

/-- The flags byte, bit by bit (R31). -/
theorem Fcw.flags_eq (f : Fcw) : f.flags = BitVec.ofBool f.c ++ BitVec.ofBool f.z ++ BitVec.ofBool f.s ++
    BitVec.ofBool f.pv ++ BitVec.ofBool f.d ++ BitVec.ofBool f.h ++ 0#2 := by
  refine BitVec.eq_of_getLsbD_eq fun i hi => ?_
  have bit : f.flags.getLsbD i = f.bits.getD i false := by
    simp [Fcw.flags, hi, Fcw.toWord_getLsbD f i (by omega)]
  rw [bit]
  simp only [BitVec.getLsbD_append, BitVec.getLsbD_ofBool, BitVec.getLsbD_zero]
  interval_cases i <;> simp [Fcw.bits]

/-- Settles O44: each form changes FCW, or writes FLAGS to a byte register. -/
theorem flagInstructions : Obligations.FlagInstructions := by
  intro s c z g p r f
  refine ⟨rfl, rfl, rfl, rfl, ?_, rfl⟩
  rw [← Fcw.flags_eq]
  rfl

/-! Addition and subtraction (R241, R242). -/

/-- Adding or subtracting a source: the register receives the result and FCW its flags, computed from the carry before. -/
theorem run_arithInto (wd : Width) (d : Reg) (x : Src wd) (op : BitVec wd.bits → BitVec wd.bits → Bool → Arith wd.bits)
    (withCarry : Bool) (fl : Fcw → Arith wd.bits → Fcw) (s : State) (hp : s.plain) (hx : x.ready s = true) :
    let y := op (s.regAt wd d) (x.value s) (withCarry && s.fcw.c)
    M.run (arithInto wd d x op withCarry fl) s = .next ((s.setRegAt wd d y.r).withFcw (fl s.fcw y)) := by
  apply M.run_ok
  unfold arithInto
  rw [M.bind_ok (readSrc_plain x s hp hx), M.bind_ok (readReg_apply wd d s), M.bind_ok (M.get_apply s),
    M.bind_ok (writeReg_apply wd d _ s), setFcw_apply, State.setRegAt_fcw]

/-- Settles O19: every form is `arithInto` with its own operation and flags. -/
theorem addSubtract : Obligations.AddSubtract := by
  intro s d r hp
  refine ⟨fun x hx => ⟨?_, ?_⟩, fun x hx => ⟨?_, ?_⟩, fun x hx => ⟨?_, ?_⟩, ?_, ?_, ?_, ?_⟩
  · exact run_arithInto .w d x addWith false Fcw.arith s hp hx
  · exact run_arithInto .w d x subWith false Fcw.arith s hp hx
  · exact run_arithInto .b d x addWith false (Fcw.arithB · false) s hp hx
  · exact run_arithInto .b d x subWith false (Fcw.arithB · true) s hp hx
  · exact run_arithInto .l d x addWith false Fcw.arith s hp hx
  · exact run_arithInto .l d x subWith false Fcw.arith s hp hx
  · exact run_arithInto .w d (.reg r) addWith true Fcw.arith s hp rfl
  · exact run_arithInto .w d (.reg r) subWith true Fcw.arith s hp rfl
  · exact run_arithInto .b d (.reg r) addWith true (Fcw.arithB · false) s hp rfl
  · exact run_arithInto .b d (.reg r) subWith true (Fcw.arithB · true) s hp rfl

/-! Control registers and LDPS (R476, R478). -/

theorem run_privileged_ok {x : M Unit} {s t : State} (hs : s.fcw.sn = true) (h : x s = .ok ((), t)) :
    M.run (privileged x) s = .next t :=
  M.run_ok (by rw [privileged_system x s hs, h])

theorem run_privileged_refused {x : M Unit} {s : State} {r : Refusal} (hs : s.fcw.sn = true)
    (h : x s = .error (.refused r)) : M.run (privileged x) s = .refused r :=
  M.run_refused (by rw [privileged_system x s hs, h])

/-- Reading REFRESH: seven free bits, ROW unless refresh transactions may have stepped it, and a zero (U4, D10). -/
theorem readRefresh_apply (s : State) : ∃ (h : BitVec 7) (row : Byte) (n : Nat),
    (s.refresh.re = false → s.rowStepped = false → row = s.refresh.row) ∧
    readRefresh s = .ok (h ++ row ++ 0#1, { s with freeCount := n }) := by
  unfold readRefresh
  rw [M.bind_ok (M.get_apply s)]
  by_cases hr : (s.refresh.re || s.rowStepped) = true
  · rw [if_pos hr, M.bind_ok (M.free_apply 8 s)]
    refine ⟨_, _, _, fun he hs => ?_, rfl⟩
    simp [he, hs] at hr
  · rw [if_neg hr, M.bind_ok (M.pure_apply _ s)]
    exact ⟨_, _, _, fun _ _ => rfl, rfl⟩

/-- LDCTL to a register, where the control register exists. -/
theorem exec_ldctlRead {c : CtlReg} {v : Word} {s t : State} (d : Reg) (hs : s.fcw.sn = true)
    (h : readControl c s = .ok (v, t)) : exec (.ldctlRead d c) s = .next (t.setReg d v) :=
  run_privileged_ok hs (by rw [M.bind_ok h, writeReg_apply]; rfl)

theorem exec_ldctlRead_refused {c : CtlReg} {s : State} {r : Refusal} (d : Reg) (hs : s.fcw.sn = true)
    (h : readControl c s = .error (.refused r)) : exec (.ldctlRead d c) s = .refused r :=
  run_privileged_refused hs (by rw [M.bind_apply, h])

/-- Settles O46, register by register. -/
theorem controlRegisters : Obligations.ControlRegisters := by
  intro s r hs v
  refine ⟨run_privileged_ok hs rfl, run_privileged_ok hs rfl, run_privileged_ok hs rfl, run_privileged_ok hs rfl,
    exec_ldctlRead r hs rfl, exec_ldctlRead r hs rfl, exec_ldctlRead r hs rfl, ?refresh, fun hg => ?segmented,
    fun hg => ?nonsegmented⟩
  case refresh =>
    obtain ⟨h, row, n, hrow, e⟩ := readRefresh_apply s
    exact ⟨h, row, n, hrow, exec_ldctlRead r hs e⟩
  case segmented =>
    have present {α : Type} (x y : M α) : (if s.isSeg = true then x else y) = x := if_pos hg
    exact ⟨run_privileged_ok hs (congrFun (present _ _) s), run_privileged_ok hs (congrFun (present _ _) s),
      exec_ldctlRead r hs (congrFun (present _ _) s), exec_ldctlRead r hs (congrFun (present _ _) s)⟩
  case nonsegmented =>
    have absent {α : Type} (x y : M α) : (if s.isSeg = true then x else y) = y := if_neg (by simp [hg])
    exact ⟨run_privileged_refused hs (congrFun (absent _ _) s), run_privileged_refused hs (congrFun (absent _ _) s),
      exec_ldctlRead_refused r hs (congrFun (absent _ _) s), exec_ldctlRead_refused r hs (congrFun (absent _ _) s)⟩

theorem Addr.add_zero (a : Addr) : a.add 0 = a := by simp [Addr.add]

/-- A program status in memory: two words, or the last three of four in segmented mode (R478, D24). -/
theorem loadProgramStatus_plain (l : Label) (a : Addr) (s : State) (hp : s.plain) (ha : a.off.getLsbD 0 = false) :
    loadProgramStatus l a s = .ok ((), if s.isSeg then
      { s with fcw := loadFcw s.cfg (s.wordAt l (a.add 2)), pcSeg := (s.wordAt l (a.add 4)).extractLsb' 8 7
               pcOff := s.wordAt l (a.add 6) }
      else { s with fcw := loadFcw s.cfg (s.wordAt l (a.add 0)), pcOff := s.wordAt l (a.add 2) }) := by
  have word (k : Word) (hk : k.getLsbD 0 = false) : readWord l (a.add k) s = .ok (s.wordAt l (a.add k), s) :=
    readWord_plain l _ s hp (Addr.add_even a k hk ha)
  have first : readWord l a s = .ok (s.wordAt l (a.add 0), s) := by
    rw [Addr.add_zero, readWord_plain l a s hp ha]
  unfold loadProgramStatus
  rw [M.bind_ok (M.get_apply s)]
  split
  · rw [M.bind_ok (word 2 (by decide)), M.bind_ok (word 4 (by decide)), M.bind_ok (word 6 (by decide))]
    rfl
  · rw [M.bind_ok first, M.bind_ok (word 2 (by decide))]
    rfl

/-- Settles O48, by `loadProgramStatus_plain`. -/
theorem ldpsLoadsProgramStatus : Obligations.LoadProgramStatus := by
  intro s m hp hs hm w
  have run := run_privileged_ok hs (loadProgramStatus_plain (Mem.label s m) (Mem.ea s m) s hp ((Addr.aligned_w _).1 hm))
  exact ⟨fun hg => by rwa [if_neg (by simp [hg])] at run, fun hg => by rwa [if_pos hg] at run⟩

end Sys2Proof.Machine
end

section
/-! PROOF. What the activities of a step are: the reset sequence, the external requests, and the copies of R14 and R15 a
reference reaches (R22, R606 to R613, R700). -/

namespace Sys2Proof.Machine

open Sys2Proof

/-! Which activity a step is. -/

theorem State.activity_restart {s : State} (hr : s.pins.reset = false) (hg : s.resetting = true) :
    s.activity = .restart := by
  simp [State.activity, hr, hg]

/-- The CPU runs: no pin stops it, and no reset goes on. -/
structure State.Running (s : State) : Prop where
  reset : s.pins.reset = false
  resetting : s.resetting = false
  busreq : s.pins.busreq = false
  stop : s.pins.stop = false

/-- A running CPU takes the accepted request. -/
theorem State.Running.activity_take {s : State} (h : s.Running) {k : Exc} (ha : s.accepted = some k) :
    s.activity = .take k := by
  simp [State.activity, h.reset, h.resetting, h.busreq, h.stop, ha]

/-- A halted CPU with no accepted request waits. -/
theorem State.Running.activity_waiting {s : State} (h : s.Running) (ha : s.accepted = none) (hl : s.halted = true) :
    s.activity = .waiting := by
  simp [State.activity, h.reset, h.resetting, h.busreq, h.stop, ha, hl]

/-! RESET and the reset sequence. -/

theorem State.orReset_none {s : State} (h : s.resetIn = none) : s.orReset = s := by
  simp [State.orReset, State.resetFell, h]

/-- Settles O55: `State.underReset_inv` and `resetSequence_plain`. -/
theorem resetSequenceFollowsRelease : Obligations.ResetSequence := by
  intro s
  refine ⟨fun hr => ?low, fun hp hr hg => ?released⟩
  case low =>
    have ha : act s = .next s.underReset := by simp [act, State.activity, hr]
    obtain ⟨ms, k, e⟩ := State.underReset_inv s
    exact ⟨_, ha, by rw [e]⟩
  case released =>
    have ha : act s = Out.map State.orReset (M.run resetSequence s) := by
      simp only [act, State.activity_restart hr hg]
    rw [ha, M.run_ok (resetSequence_plain s hp)]
    refine ⟨_, congrArg Host.Outcome.next (State.orReset_none hp.2.2), rfl, rfl, rfl, rfl, rfl, rfl, rfl, rfl, rfl, rfl,
      rfl, rfl, fun hv => ?_, fun hv => ?_⟩ <;> simp [hv]

/-! External requests. -/

/-- SEGT shows a segment trap request on a Z8001, from the pin or from an MMU (R606). -/
theorem State.requests_segt (s : State) :
    s.requests.segt = (s.cfg.version == .z8001 && (s.pins.segt || s.mmus.any fun m => m.segt)) := by
  unfold State.requests State.units
  cases s.cfg.version <;> rfl

theorem Requests.accept_quiet (r : Requests) (f : Fcw) : (r.both Requests.quiet).accept f = none := by
  simp [Requests.both, Requests.quiet, Requests.accept]

/-- The acknowledge transaction where no MMU is on the bus: the identifier is the word on it (R619). -/
theorem acknowledge_plain (k : Exc) (s : State) (h : s.units = []) : acknowledge k s =
    .ok (s.pins.ackWord, { s with events := .acknowledge k s.pins.ackWord :: s.events }) := by
  unfold acknowledge
  rw [M.bind_ok (M.get_apply s)]
  simp only [h, ne_eq, not_true_eq_false, and_false, if_false]
  split
  · rw [M.bind_ok (show (modify _ : M Unit) s = .ok ((), s) by rw [M.modify_apply, State.mapUnits_none _ s h])]
    rfl
  · rfl

/-- The aborted fetch, the acknowledge and the entry (R606, R618). -/
theorem takeExternal_plain (k : Exc) (s : State) (hp : s.plain) (hs : s.systemStackReady = true) :
    takeExternal k s = .ok ((), ({ s with
      events := .acknowledge k s.pins.ackWord :: .abortedFetch s.pc s.fcw.sn :: s.events }).entered
        k s.pins.ackWord s.pc) := by
  have logged : State.plain { s with events := .abortedFetch s.pc s.fcw.sn :: s.events } := hp
  unfold takeExternal
  rw [M.bind_ok (resetPoint_none s hp.2.2), M.bind_ok (M.get_apply s), M.bind_ok (logEvent_apply _ s),
    M.bind_ok (resetPoint_none _ logged.2.2), M.bind_ok (acknowledge_plain k _ logged.1)]
  exact enter_plain k _ _ _ hp hs

theorem takeAtBoundary_plain (k : Exc) (s : State) (hp : s.plain) (hs : s.systemStackReady = true) :
    takeAtBoundary k s = .ok ((), ({ s with
        held := none
        events := .acknowledge k s.pins.ackWord :: .abortedFetch s.pc s.fcw.sn :: s.events }).entered
      k s.pins.ackWord s.pc) := by
  unfold takeAtBoundary releaseSuppress
  rw [M.bind_ok (show (modify _ : M Unit) s = .ok ((), s) by rw [M.modify_apply, State.mapUnits_none _ s hp.1]),
    M.bind_ok (M.modify_apply _ s)]
  exact takeExternal_plain k _ hp hs

/-- An entry leaves no place where RESET falls. -/
theorem State.entered_resetIn (s : State) (k : Exc) (id : Word) (pcs : Addr) :
    (s.entered k id pcs).resetIn = s.resetIn := by
  unfold State.entered State.entryFrame
  cases s.cfg.version <;> simp

/-- Settles O54: `Requests.accept` on the requests of the boundary, and `takeAtBoundary_plain` for the one accepted. -/
theorem externalRequests : Obligations.ExternalRequests := by
  intro s hr hg hb hs h segt
  have running : s.Running := ⟨hr, hg, hb, hs⟩
  have hsegt : s.requests.segt = segt := s.requests_segt
  refine ⟨fun hh hl => ?running, fun hh hl => ?halted, fun hl ha => ?waiting, fun hh hl hq => ?quiet,
    fun d hd => ?held, fun k ha hp hst => ?taken⟩
  case running =>
    simp only [State.accepted, hh, hl, Bool.false_eq_true, if_false]
    rw [Requests.accept, hsegt]
    simp [State.requests]
  case halted =>
    simp only [State.accepted, hh, hl, if_true]
    simp only [Requests.accept, Requests.both, hsegt]
    simp [State.requests, h, and_assoc]
  case waiting =>
    have e : step s = .next ({ s with haltSample := s.requests } : State).endStep := by
      have hact : act s = M.run idleWaiting s := by
        simp only [act, running.activity_waiting ha hl]
      rw [step, hact]
      rfl
    refine ⟨_, e, ?_⟩
    rw [State.endStep_haltSample, ← hsegt]
    rfl
  case quiet =>
    simp only [State.accepted, hh, hl, if_true]
    rw [show s.haltSample = Requests.quiet from hq, Requests.accept_quiet]
  case held => simp only [State.accepted, hd]
  case taken =>
    simp only [step, act, running.activity_take ha]
    rw [M.run_ok (takeAtBoundary_plain k s hp hst)]
    exact congrArg (fun t => Host.Outcome.next (State.endStep t))
      (State.orReset_none ((State.entered_resetIn _ _ _ _).trans hp.2.2))

/-! The copies of R14 and R15 (R22). -/

/-- The system copy of R15 is used exactly in system mode. -/
theorem State.reg_r15 (s : State) : s.reg 15 = if s.fcw.sn then s.sysR15 else s.regs[15] := by
  unfold State.reg
  by_cases h : s.fcw.sn = true <;> simp [h]

/-- The system copy of R14 is used exactly in segmented system mode. -/
theorem State.reg_r14 (s : State) : s.reg 14 = if s.fcw.sn && s.isSeg then s.sysR14 else s.regs[14] := by
  unfold State.reg
  by_cases h : s.fcw.sn = true <;> by_cases g : s.isSeg = true <;> simp [h, g]

/-- No rule of copies concerns R0 to R13. -/
theorem not_r15_of_low {n : Reg} (s : State) (hn : n.val < 14) : ¬(n = 15 ∧ s.fcw.sn = true) := by
  rintro ⟨rfl, -⟩
  simp at hn

theorem not_r14_of_low {n : Reg} (s : State) (hn : n.val < 14) : ¬(n = 14 ∧ s.fcw.sn = true ∧ s.isSeg = true) := by
  rintro ⟨rfl, -⟩
  simp at hn

theorem State.setReg_low (s : State) (n : Reg) (v : Word) (hn : n.val < 14) :
    s.setReg n v = { s with regs := s.regs.set n v } :=
  State.setReg_of_other s n v (not_r15_of_low s hn) (not_r14_of_low s hn)

theorem State.setReg_r15_system (s : State) (hs : s.fcw.sn = true) (v : Word) :
    s.setReg 15 v = { s with sysR15 := v } := State.setReg_of_r15 s 15 v ⟨rfl, hs⟩

theorem State.setReg_r15_normal (s : State) (hs : s.fcw.sn = false) (v : Word) :
    s.setReg 15 v = { s with regs := s.regs.set 15 v } :=
  State.setReg_of_other s 15 v (by simp [hs]) (by simp)

theorem State.setReg_r14_segmented (s : State) (hs : s.fcw.sn = true) (hg : s.isSeg = true) (v : Word) :
    s.setReg 14 v = { s with sysR14 := v } := State.setReg_of_r14 s 14 v (by simp) ⟨rfl, hs, hg⟩

theorem State.setReg_r14_other (s : State) (h : (s.fcw.sn && s.isSeg) = false) (v : Word) :
    s.setReg 14 v = { s with regs := s.regs.set 14 v } :=
  State.setReg_of_other s 14 v (by simp) (by simpa using h)

/-- RR14 is written as R14 and then R15. -/
theorem State.setRegL_rr14 (s : State) (w : Long) :
    s.setRegL 14 w = (s.setReg 14 (w.extractLsb' 16 16)).setReg 15 (w.extractLsb' 0 16) := rfl

/-- RQ12 is written as R12, R13, R14 and R15. -/
theorem State.setRegQ_rq12 (s : State) (q : Quad) : s.setRegQ 12 q =
    (({ s with regs := (s.regs.set 12 (q.extractLsb' 48 16)).set 13 (q.extractLsb' 32 16) }.setReg 14
      (q.extractLsb' 16 16)).setReg 15 (q.extractLsb' 0 16)) := by
  have part (i j n m : Nat) (h : i + n ≤ m) : (q.extractLsb' j m).extractLsb' i n = q.extractLsb' (j + i) n := by
    refine BitVec.eq_of_getLsbD_eq fun k hk => ?_
    simp [hk, show i + k < m by omega, Nat.add_assoc]
  have high : s.setRegL 12 (q.extractLsb' 32 32) =
      { s with regs := (s.regs.set 12 (q.extractLsb' 48 16)).set 13 (q.extractLsb' 32 16) } := by
    rw [State.setRegL, part _ _ _ _ (by decide), part _ _ _ _ (by decide), State.setReg_low _ 12 _ (by decide)]
    exact State.setReg_low _ 13 _ (by decide)
  rw [State.setRegQ, high]
  show State.setRegL _ 14 _ = _
  rw [State.setRegL_rr14, part _ _ _ _ (by decide), part _ _ _ _ (by decide)]

theorem State.regQ_rq12 (s : State) : (s.regQ 12).extractLsb' 0 32 = s.regL 14 := by
  show (s.regL 12 ++ s.regL 14).extractLsb' 0 32 = _
  exact BitVec.extractLsb'_append_eq_right ..

/-- Settles O10, the modes of R22's table one by one. -/
theorem stackPointerCopies : Obligations.StackPointerCopies := by
  intro s v w q wh wl low q2 q3
  have pair : s.regL 14 = s.reg 14 ++ s.reg 15 := rfl
  refine ⟨fun hs hg => ?segmented, fun hs hg => ?nonsegmented, fun hs => ?normal, fun hv => State.isSeg_z8002 hv,
    s.regQ_rq12, fun hg => ?_, fun hg => ?_, ?_, fun hv => ?_, by decide, fun n m => s.reg_setReg n m v⟩
  case segmented =>
    have r14 : s.reg 14 = s.sysR14 := by simp [State.reg_r14, hs, hg]
    have r15 : s.reg 15 = s.sysR15 := by simp [State.reg_r15, hs]
    have written (t : State) (ht : t.fcw.sn = true) (hg' : t.isSeg = true) (a b : Word) :
        (t.setReg 14 a).setReg 15 b = { t with sysR14 := a, sysR15 := b } := by
      rw [State.setReg_r14_segmented t ht hg']
      exact State.setReg_r15_system { t with sysR14 := a } ht b
    exact ⟨r14, r15, by rw [pair, r14, r15], s.setReg_r14_segmented hs hg v, s.setReg_r15_system hs v,
      written s hs hg _ _, (s.setRegQ_rq12 q).trans (written { s with regs := low } hs hg _ _)⟩
  case nonsegmented =>
    have other : (s.fcw.sn && s.isSeg) = false := by simp [hg]
    have r14 : s.reg 14 = s.regs[14] := by simp [State.reg_r14, hg]
    have r15 : s.reg 15 = s.sysR15 := by simp [State.reg_r15, hs]
    have written (t : State) (ht : t.fcw.sn = true) (ho : (t.fcw.sn && t.isSeg) = false) (a b : Word) :
        (t.setReg 14 a).setReg 15 b = { t with regs := t.regs.set 14 a, sysR15 := b } := by
      rw [State.setReg_r14_other t ho]
      exact State.setReg_r15_system { t with regs := t.regs.set 14 a } ht b
    exact ⟨r14, r15, by rw [pair, r14, r15], s.setReg_r14_other other v, s.setReg_r15_system hs v,
      written s hs other _ _, (s.setRegQ_rq12 q).trans (written { s with regs := low } hs other _ _)⟩
  case normal =>
    have other : (s.fcw.sn && s.isSeg) = false := by simp [hs]
    have r14 : s.reg 14 = s.regs[14] := by simp [State.reg_r14, hs]
    have r15 : s.reg 15 = s.regs[15] := by simp [State.reg_r15, hs]
    have written (t : State) (ht : t.fcw.sn = false) (ho : (t.fcw.sn && t.isSeg) = false) (a b : Word) :
        (t.setReg 14 a).setReg 15 b = { t with regs := (t.regs.set 14 a).set 15 b } := by
      rw [State.setReg_r14_other t ho]
      exact State.setReg_r15_normal { t with regs := t.regs.set 14 a } ht b
    exact ⟨r14, r15, by rw [pair, r14, r15], s.setReg_r14_other other v, s.setReg_r15_normal hs v,
      written s hs other _ _, (s.setRegQ_rq12 q).trans (written { s with regs := low } hs other _ _)⟩
  · simp [State.addrOf, State.spReg, hg]
  · simp [State.addrOf, State.spReg, hg]
  · rfl
  · simp [State.reg_r14, State.isSeg, State.forceSystem, hv]

end Sys2Proof.Machine
end

section
/-! PROOF. The system stack as words, and the return that undoes an entry (R307, R620, R623). -/

namespace Sys2Proof.Machine

open Sys2Proof

/-! The system stack. -/

/-- An address in the segment of the system stack. -/
def State.systemStack (s : State) (off : Word) : Addr :=
  { seg := if s.isSeg then s.sysR14.extractLsb' 8 7 else s.pcSeg, off := off }

/-- A word of the system stack. -/
def State.stackWord (s : State) (off : Word) : Word := s.wordAt .stack (s.systemStack off)

/-- In system mode the processor stack pointer holds an address in the system stack (R22). -/
theorem State.addrOf_spReg {s : State} (hs : s.fcw.sn = true) : s.addrOf s.spReg = s.systemStack s.sysR15 := by
  have r15 : s.reg 15 = s.sysR15 := by simp [State.reg_r15, hs]
  by_cases hg : s.isSeg = true
  · have r14 : s.reg 14 = s.sysR14 := by simp [State.reg_r14, hs, hg]
    simp [State.addrOf, State.spReg, State.systemStack, hg, r14, r15]
  · simp [State.addrOf, State.spReg, State.systemStack, hg, r15]

theorem State.stepPtr_spReg {s : State} (hs : s.fcw.sn = true) (k : Word) :
    s.stepPtr s.spReg k = { s with sysR15 := s.sysR15 + k } := by
  have off : s.offReg s.spReg = 15 := by by_cases hg : s.isSeg = true <;> simp [State.offReg, State.spReg, hg]
  have r15 : s.reg 15 = s.sysR15 := by simp [State.reg_r15, hs]
  rw [State.stepPtr, off, r15, s.setReg_r15_system hs]

/-- The words of the system stack are those of memory, in the mode and with the stack segment of the state. -/
theorem State.stackWord_congr {s t : State} (hc : t.cfg = s.cfg) (hn : t.fcw.sn = s.fcw.sn) (hg : t.isSeg = s.isSeg)
    (hr : t.sysR14 = s.sysR14) (hp : s.isSeg = false → t.pcSeg = s.pcSeg) (hm : t.mem = s.mem) (off : Word) :
    t.stackWord off = s.stackWord off := by
  have seg : t.systemStack off = s.systemStack off := by
    unfold State.systemStack
    rw [hg, hr]
    split
    · rfl
    · rw [hp (by simp_all)]
  simp [State.stackWord, State.wordAt, State.key, seg, hc, hn, hm]

/-- Places in one segment are as far apart as their offsets. -/
theorem State.key_systemStack (s : State) (l : Label) (off : Word) :
    s.key l (s.systemStack off) = s.key l (s.systemStack 0) + off.toNat := by
  simp [State.key, memKey, Addr.flat, State.systemStack, Nat.add_assoc]

/-- A push of an entry goes to the stack whatever exception it is: TRAP STACK names the same memory (R116). -/
theorem State.key_pushLabel (s : State) (k : Exc) (a : Addr) : s.key k.pushLabel a = s.key .stack a := by
  cases k <;> rfl

/-- The word `j` words below the top of the system stack, the top being word 0. -/
def State.stackItem (s : State) (j : Nat) : Word := s.stackWord (s.sysR15 + BitVec.ofNat 16 (2 * j))

/-- A state in system mode whose processor stack pointer, register `n`, is even. -/
structure State.OnStack (s : State) (n : Reg) : Prop where
  sn : s.fcw.sn = true
  wf : s.mem.wf = true
  even : s.sysR15.getLsbD 0 = false
  spReg : s.spReg = n

/-- What a push in system mode does: the word stands on top of the stack, over the words that stood there. -/
structure State.Pushed (s t : State) (v : Word) : Prop where
  frame : t = { s with sysR15 := s.sysR15 - 2, mem := t.mem }
  top : t.stackItem 0 = v
  below : ∀ j < 8, t.stackItem (j + 1) = s.stackItem j

theorem toNat_even {x : Word} (h : x.getLsbD 0 = false) : x.toNat % 2 = 0 := by
  simpa [BitVec.getLsbD, Nat.testBit_zero] using h

theorem lsb_sub_two {x : Word} (h : x.getLsbD 0 = false) : (x - 2).getLsbD 0 = false := by
  rw [BitVec.sub_eq_add_neg, lsb_add_even _ _ (by decide), h]

/-- The state after a push in system mode. -/
theorem State.OnStack.pushed_eq {s : State} {n : Reg} (h : s.OnStack n) (k : Exc) (v : Word) :
    s.pushed k.pushLabel n .w v = { s with
      sysR15 := s.sysR15 - 2, mem := s.mem.writeWord (s.key .stack (s.systemStack (s.sysR15 - 2))) v } := by
  have sub : s.sysR15 + -(BitVec.ofNat 16 (Width.bytes .w)) = s.sysR15 - 2 := (BitVec.sub_eq_add_neg _ _).symm
  have addr : { s with sysR15 := s.sysR15 - 2 }.addrOf s.spReg = s.systemStack (s.sysR15 - 2) :=
    State.addrOf_spReg (s := { s with sysR15 := s.sysR15 - 2 }) h.sn
  rw [← h.spReg, State.pushed, State.stepPtr_spReg h.sn, sub, addr]
  show State.storeWord _ _ _ v = _
  rw [State.storeWord, State.key_pushLabel]
  rfl

/-- One push of an entry, and the stack is ready for the next. -/
theorem State.OnStack.push {s : State} {n : Reg} (h : s.OnStack n) (k : Exc) (v : Word) :
    s.Pushed (s.pushed k.pushLabel n .w v) v ∧ (s.pushed k.pushLabel n .w v).OnStack n := by
  rw [h.pushed_eq k v]
  refine ⟨⟨rfl, ?top, fun j hj => ?below⟩, h.sn, Memory.writeWord_wf _ _ _ h.wf, lsb_sub_two h.even, h.spReg⟩
  case top =>
    have off : s.sysR15 - 2 + BitVec.ofNat 16 (2 * 0) = s.sysR15 - 2 := BitVec.add_zero _
    show Memory.readWord _ (s.key .stack (s.systemStack (s.sysR15 - 2 + BitVec.ofNat 16 (2 * 0)))) = v
    rw [off, Memory.readWord_writeWord _ _ _ h.wf]
  case below =>
    have off : s.sysR15 - 2 + BitVec.ofNat 16 (2 * (j + 1)) = s.sysR15 + BitVec.ofNat 16 (2 * j) := by bv_omega
    have even := toNat_even h.even
    show Memory.readWord _ (s.key .stack (s.systemStack (s.sysR15 - 2 + BitVec.ofNat 16 (2 * (j + 1))))) =
      Memory.readWord _ (s.key .stack (s.systemStack (s.sysR15 + BitVec.ofNat 16 (2 * j))))
    rw [off]
    apply Memory.readWord_writeWord_other
    rw [State.key_systemStack s _ (s.sysR15 - 2), State.key_systemStack s _ (s.sysR15 + _)]
    bv_omega

/-! Popping it again. -/

/-- The state with `j` words of the system stack popped. -/
def State.unstacked (s : State) (j : Nat) : State := { s with sysR15 := s.sysR15 + BitVec.ofNat 16 (2 * j) }

theorem State.unstacked_zero (s : State) : s.unstacked 0 = s := by simp [State.unstacked]

theorem State.unstacked_step (s : State) (j k : Nat) :
    { s.unstacked j with sysR15 := (s.unstacked j).sysR15 + BitVec.ofNat 16 (2 * k) } = s.unstacked (j + k) := by
  have e : s.sysR15 + BitVec.ofNat 16 (2 * j) + BitVec.ofNat 16 (2 * k) = s.sysR15 + BitVec.ofNat 16 (2 * (j + k)) := by
    rw [Nat.mul_add, BitVec.ofNat_add, BitVec.add_assoc]
  exact congrArg (fun r => ({ s with sysR15 := r } : State)) e

theorem State.unstacked_even {s : State} (he : s.sysR15.getLsbD 0 = false) (j : Nat) :
    (s.unstacked j).sysR15.getLsbD 0 = false := by
  rw [State.unstacked, lsb_add_even _ _ (by simp [BitVec.getLsbD, Nat.testBit_zero]), he]

theorem pop_word {s : State} (hp : s.plain) (hs : s.fcw.sn = true) (he : s.sysR15.getLsbD 0 = false) (j : Nat) :
    pop s.spReg .w (s.unstacked j) = .ok (s.stackItem j, s.unstacked (j + 1)) := by
  have addr := State.addrOf_spReg (s := s.unstacked j) hs
  have even := State.unstacked_even he j
  rw [← State.unstacked_step s j 1, ← State.stepPtr_spReg (s := s.unstacked j) hs]
  show pop (s.unstacked j).spReg .w _ = _
  rw [pop_plain _ .w (s.unstacked j) hp (by rw [addr]; exact (Addr.aligned_w _).2 even), State.top, addr, State.labelOf,
    if_pos rfl]
  rfl

theorem pop_long {s : State} (hp : s.plain) (hs : s.fcw.sn = true) (he : s.sysR15.getLsbD 0 = false) (j : Nat) :
    pop s.spReg .l (s.unstacked j) = .ok (s.stackItem j ++ s.stackItem (j + 1), s.unstacked (j + 2)) := by
  have addr := State.addrOf_spReg (s := s.unstacked j) hs
  have even := State.unstacked_even he j
  have second : s.stackItem (j + 1) = s.stackWord ((s.unstacked j).sysR15 + 2) := by
    rw [State.stackItem, Nat.mul_add, BitVec.ofNat_add, ← BitVec.add_assoc]
    rfl
  rw [← State.unstacked_step s j 2, ← State.stepPtr_spReg (s := s.unstacked j) hs, second]
  show pop (s.unstacked j).spReg .l _ = _
  rw [pop_plain _ .l (s.unstacked j) hp (by rw [addr]; exact (Addr.aligned_l _).2 even), State.top, addr, State.labelOf,
    if_pos rfl]
  rfl

/-- IRET in nonsegmented mode: FCW and the PC are the second and third word of the stack. -/
theorem returnNonseg_system {s : State} (hp : s.plain) (hs : s.fcw.sn = true) (hg : s.isSeg = false)
    (he : s.sysR15.getLsbD 0 = false) : returnNonseg s = .ok ((), { s.unstacked 3 with
      fcw := loadFcw s.cfg (s.stackItem 1), pcOff := s.stackItem 2 }) := by
  have sp : s.spReg = 15 := by simp [State.spReg, hg]
  have word := pop_word hp hs he
  rw [sp] at word
  have first := word 0
  rw [State.unstacked_zero] at first
  unfold returnNonseg
  rw [M.bind_ok first, M.bind_ok (word 1), M.bind_ok (word 2)]
  rfl

/-- IRET in segmented mode: FCW is the second word of the stack, and the PC the two after it. -/
theorem returnSeg_system {s : State} (hp : s.plain) (hs : s.fcw.sn = true) (hg : s.isSeg = true)
    (he : s.sysR15.getLsbD 0 = false) :
    let a := Addr.ofLong (s.stackItem 2 ++ s.stackItem 3)
    returnSeg s = .ok ((), { s.unstacked 4 with
      fcw := loadFcw s.cfg (s.stackItem 1), pcSeg := a.seg, pcOff := a.off }) := by
  have sp : s.spReg = 14 := by simp [State.spReg, hg]
  have word := pop_word hp hs he
  have long := pop_long hp hs he 2
  rw [sp] at word long
  have first := word 0
  rw [State.unstacked_zero] at first
  unfold returnSeg
  rw [M.bind_ok first, M.bind_ok (word 1), M.bind_ok long]
  rfl

/-! An entry, and the IRET of its handler. -/

/-- The program status an entry saves on a Z8002, as IRET finds it (R620). -/
theorem entryFrame_z8002 {s : State} (hv : s.cfg.version = .z8002) (hw : s.mem.wf = true)
    (he : s.sysR15.getLsbD 0 = false) (k : Exc) (id : Word) (pcs : Addr) :
    let e := s.entryFrame k id pcs
    e = { s.forceSystem with sysR15 := s.sysR15 - 2 - 2 - 2, mem := e.mem } ∧ e.OnStack 15 ∧
      e.stackItem 1 = s.fcw.toWord ∧ e.stackItem 2 = pcs.off := by
  have sp : s.forceSystem.spReg = 15 := by simp [State.spReg, State.isSeg_z8002 (s := s.forceSystem) hv]
  have o : s.forceSystem.OnStack 15 := ⟨rfl, hw, he, sp⟩
  obtain ⟨p1, o1⟩ := o.push k pcs.off
  obtain ⟨p2, o2⟩ := o1.push k s.fcw.toWord
  obtain ⟨p3, o3⟩ := o2.push k id
  simp only [State.entryFrame, hv]
  refine ⟨?_, o3, ?_, ?_⟩
  · rw [p3.frame, p2.frame, p1.frame]
    rfl
  · rw [p3.below 0 (by decide), p2.top]
  · rw [p3.below 1 (by decide), p2.below 0 (by decide), p1.top]

/-- The program status an entry saves on a Z8001, as IRET finds it (R621). -/
theorem entryFrame_z8001 {s : State} (hv : s.cfg.version = .z8001) (hw : s.mem.wf = true)
    (he : s.sysR15.getLsbD 0 = false) (k : Exc) (id : Word) (pcs : Addr) :
    let e := s.entryFrame k id pcs
    e = { s.forceSystem with sysR15 := s.sysR15 - 2 - 2 - 2 - 2, mem := e.mem } ∧ e.OnStack 14 ∧
      e.stackItem 1 = s.fcw.toWord ∧ e.stackItem 2 = pcs.segWord ∧ e.stackItem 3 = pcs.off := by
  have sp : s.forceSystem.spReg = 14 := by simp [State.spReg, State.isSeg, State.forceSystem, hv]
  have o : s.forceSystem.OnStack 14 := ⟨rfl, hw, he, sp⟩
  obtain ⟨p1, o1⟩ := o.push k pcs.off
  obtain ⟨p2, o2⟩ := o1.push k pcs.segWord
  obtain ⟨p3, o3⟩ := o2.push k s.fcw.toWord
  obtain ⟨p4, o4⟩ := o3.push k id
  simp only [State.entryFrame, hv]
  refine ⟨?_, o4, ?_, ?_, ?_⟩
  · rw [p4.frame, p3.frame, p2.frame, p1.frame]
    rfl
  · rw [p4.below 0 (by decide), p3.top]
  · rw [p4.below 1 (by decide), p3.below 0 (by decide), p2.top]
  · rw [p4.below 2 (by decide), p3.below 1 (by decide), p2.below 0 (by decide), p1.top]

/-- A saved FCW loads as it was (R34, R307). -/
theorem State.Inv.loadFcw_toWord {s : State} (h : s.Inv) : loadFcw s.cfg s.fcw.toWord = s.fcw := by
  have seg : (s.fcw.seg && s.cfg.version == .z8001) = s.fcw.seg := by
    cases hv : s.cfg.version with
    | z8001 => exact Bool.and_true _
    | z8002 => rw [(h.nonseg hv).1]; rfl
  have epa : (s.fcw.epa && s.cfg.epaImplemented) = s.fcw.epa := by
    cases hi : s.cfg.epaImplemented with
    | true => exact Bool.and_true _
    | false => rw [h.epa hi]; rfl
  simp only [loadFcw, Fcw.ofWord_toWord, seg, epa]

/-- A saved PC reads back as it was (R81, R621). -/
theorem Addr.ofLong_segWord (a : Addr) : Addr.ofLong (a.segWord ++ a.off) = a := by
  have seg : BitVec.extractLsb' 24 7 (a.segWord ++ a.off) = a.seg := by
    refine BitVec.eq_of_getLsbD_eq fun i hi => ?_
    have bit : (a.segWord ++ a.off).getLsbD (24 + i) = a.seg.getLsbD i := by
      change BitVec.getLsbD (w := 1 + 7 + 8 + 16) (0#1 ++ a.seg ++ 0#8 ++ a.off) (24 + i) = _
      simp only [BitVec.getLsbD_append, show ¬24 + i < 16 by omega, show ¬24 + i - 16 < 8 by omega,
        show 24 + i - 16 - 8 = i by omega, hi, if_true, if_false]
    rw [BitVec.getLsbD_extractLsb', bit]
    simp [hi]
  have off : BitVec.extractLsb' 0 16 (a.segWord ++ a.off) = a.off := BitVec.extractLsb'_append_eq_right ..
  simp only [Addr.ofLong, seg, off]

/-- IRET runs the form of the mode, in system mode (R307, R308). -/
theorem exec_iret_nonseg {s t : State} (hs : s.fcw.sn = true) (hv : s.cfg.version = .z8002)
    (h : returnNonseg s = .ok ((), t)) : exec .iret s = .next t := by
  have hg : ¬s.isSeg = true := by simp [State.isSeg_z8002 hv]
  refine run_privileged_ok hs ?_
  rw [M.bind_ok (M.get_apply s), if_neg hg, if_pos hv, h]

theorem exec_iret_seg {s t : State} (hs : s.fcw.sn = true) (hg : s.isSeg = true) (h : returnSeg s = .ok ((), t)) :
    exec .iret s = .next t := by
  refine run_privileged_ok hs ?_
  rw [M.bind_ok (M.get_apply s), if_pos hg, h]

/-- What the program status an entry loads changes (R620). -/
theorem entered_eq (s : State) (k : Exc) (id : Word) (pcs : Addr) :
    ∃ f seg p n, s.entered k id pcs =
        { s.entryFrame k id pcs with fcw := f, pcSeg := seg, pcOff := p, halted := false, nmiLatch := n } ∧
      (s.cfg.version = .z8002 → seg = (s.entryFrame k id pcs).pcSeg) := by
  unfold State.entered
  cases hv : s.cfg.version with
  | z8002 => exact ⟨_, _, _, _, rfl, fun _ => rfl⟩
  | z8001 => exact ⟨_, _, _, _, rfl, nofun⟩

/-- A handler in the mode of the entry finds its words on the stack. -/
theorem stackItem_handler {e : State} {f : Fcw} {seg : BitVec 7} {p : Word} {n : Bool} (hs : f.sn = e.fcw.sn)
    (hg : { e with fcw := f }.isSeg = e.isSeg) (hp : e.isSeg = false → seg = e.pcSeg) (j : Nat) :
    { e with fcw := f, pcSeg := seg, pcOff := p, halted := false, nmiLatch := n }.stackItem j = e.stackItem j :=
  State.stackWord_congr (s := e) (t := { e with fcw := f, pcSeg := seg, pcOff := p, halted := false, nmiLatch := n })
    rfl hs hg rfl hp rfl _

/-- Settles O53: IRET pops the words the entry pushed, and each loads as what was saved. -/
theorem entryThenReturn : Obligations.EntryThenReturn := by
  intro s k id pcs hp hi hs u hsn hseg hpc
  have even : s.sysR15.getLsbD 0 = false := by simpa [State.systemStackReady] using hs
  obtain ⟨f, seg, p, n, hu, hpcSeg⟩ := entered_eq s k id pcs
  have hsn : f.sn = true := by simpa only [u, hu] using hsn
  have hseg : s.cfg.version = .z8001 → f.seg = true := by simpa only [u, hu] using hseg
  change ∃ v, exec .iret (s.entered k id pcs) = .next v ∧ _
  rw [hu]
  cases hv : s.cfg.version with
  | z8002 =>
    obtain ⟨frame, o, h1, h2⟩ := entryFrame_z8002 hv hi.mem even k id pcs
    have hcfg := congrArg State.cfg frame
    have hregs := congrArg State.regs frame
    have hr14 := congrArg State.sysR14 frame
    have hver : (s.entryFrame k id pcs).cfg.version = .z8002 := by rw [hcfg]; exact hv
    have plain : (s.entryFrame k id pcs).plain := by rw [frame]; exact hp
    have nonseg (g : Fcw) : { s.entryFrame k id pcs with fcw := g }.isSeg = false :=
      State.isSeg_z8002 hver
    have item := stackItem_handler (e := s.entryFrame k id pcs) (f := f) (seg := seg) (p := p) (n := n)
      (hsn.trans o.sn.symm) ((nonseg f).trans (nonseg _).symm) fun _ => hpcSeg hv
    refine ⟨_, exec_iret_nonseg hsn hver (returnNonseg_system plain hsn (nonseg f) o.even),
      (congrArg₂ loadFcw hcfg ((item 1).trans h1)).trans hi.loadFcw_toWord, ?pc, hregs, hr14, ?sysR15⟩
    case pc =>
      have kept := congrArg State.pcSeg frame
      have hs : seg = pcs.seg := (hpcSeg hv).trans (kept.trans (hpc hv).symm)
      exact congrArg₂ Addr.mk hs ((item 2).trans h2)
    case sysR15 =>
      show (s.entryFrame k id pcs).sysR15 + BitVec.ofNat 16 (2 * 3) = s.sysR15
      rw [congrArg State.sysR15 frame]
      bv_omega
  | z8001 =>
    obtain ⟨frame, o, h1, h2, h3⟩ := entryFrame_z8001 hv hi.mem even k id pcs
    have hcfg := congrArg State.cfg frame
    have hregs := congrArg State.regs frame
    have hr14 := congrArg State.sysR14 frame
    have hver : (s.entryFrame k id pcs).cfg.version = .z8001 := by rw [hcfg]; exact hv
    have plain : (s.entryFrame k id pcs).plain := by rw [frame]; exact hp
    have seg1 : (s.entryFrame k id pcs).isSeg = true := by rw [frame]; simp [State.isSeg, State.forceSystem, hv]
    have seg2 : { s.entryFrame k id pcs with fcw := f }.isSeg = true := by simp [State.isSeg, hver, hseg hv]
    have item := stackItem_handler (e := s.entryFrame k id pcs) (f := f) (seg := seg) (p := p) (n := n)
      (hsn.trans o.sn.symm) (seg2.trans seg1.symm) (by simp [seg1])
    refine ⟨_, exec_iret_seg hsn seg2 (returnSeg_system plain hsn seg2 o.even),
      (congrArg₂ loadFcw hcfg ((item 1).trans h1)).trans hi.loadFcw_toWord, ?pc, hregs, hr14, ?sysR15⟩
    case pc =>
      have long := congrArg₂ (fun x y : Word => Addr.ofLong (x ++ y)) ((item 2).trans h2) ((item 3).trans h3)
      exact long.trans pcs.ofLong_segWord
    case sysR15 =>
      show (s.entryFrame k id pcs).sysR15 + BitVec.ofNat 16 (2 * 4) = s.sysR15
      rw [congrArg State.sysR15 frame]
      bv_omega

end Sys2Proof.Machine
end

section
/-! PROOF. What the fetch of an instruction does on a machine of plain RAM without MMUs (R26, R159). -/

namespace Sys2Proof.Machine

open Sys2Proof

/-- The words from the PC on are the word there and those after it (R26). -/
theorem State.codeWords_succ (s : State) (n : Nat) :
    s.codeWords (n + 1) = s.wordAt .code s.pc :: { s with pcOff := s.pcOff + 2 }.codeWords n := by
  have later (j : Nat) : s.pc.add (BitVec.ofNat 16 (2 * (j + 1))) =
      { s with pcOff := s.pcOff + 2 }.pc.add (BitVec.ofNat 16 (2 * j)) := by
    have off : s.pcOff + BitVec.ofNat 16 (2 * (j + 1)) = s.pcOff + 2 + BitVec.ofNat 16 (2 * j) := by bv_omega
    exact congrArg (Addr.mk s.pcSeg) off
  unfold State.codeWords
  rw [List.range_succ_eq_map, List.map_cons, List.map_map]
  refine congrArg₂ List.cons (congrArg (s.wordAt .code) s.pc.add_zero) (List.map_congr_left fun j _ => ?_)
  exact congrArg (s.wordAt .code) (later j)

/-- Both labels of a fetch name the same memory (R74). -/
theorem State.key_ifetch (s : State) (a : Addr) : s.key .ifetch a = s.key .code a := by
  have space : spaceIndex s.cfg s.fcw.sn .ifetch = spaceIndex s.cfg s.fcw.sn .code := rfl
  rw [State.key, State.key, memKey, memKey, space]

/-- A word of an instruction: the PC moves past it. -/
theorem fetchWord_plain (l : Label) (s : State) (hl : s.key l s.pc = s.key .code s.pc) (hp : s.plain)
    (he : s.pcOff.getLsbD 0 = false) :
    fetchWord l s = .ok (s.wordAt .code s.pc, { s with pcOff := s.pcOff + 2 }) := by
  unfold fetchWord
  rw [M.bind_ok (M.get_apply s), M.bind_ok (readWord_plain l s.pc s hp he), M.bind_ok (M.modify_apply _ s), State.wordAt,
    hl]
  rfl

/-- Words are fetched until those fetched decode to an instruction, and no further. -/
theorem fetchMore_plain (i : Instr) : ∀ (fuel m : Nat) (ws : List Word) (s : State), s.plain →
    s.pcOff.getLsbD 0 = false → m ≤ fuel → decode s.isSeg (ws ++ s.codeWords m) = .ok (i, []) →
    fetchMore ws fuel s = .ok (some i, { s with pcOff := s.pcOff + BitVec.ofNat 16 (2 * m) }) := by
  have complete (fuel : Nat) (ws : List Word) (s : State) (h : decode s.isSeg (ws ++ s.codeWords 0) = .ok (i, [])) :
      fetchMore ws fuel s = .ok (some i, { s with pcOff := s.pcOff + BitVec.ofNat 16 (2 * 0) }) := by
    have hd : decode s.isSeg ws = .ok (i, []) := by simpa [State.codeWords] using h
    have stay : s.pcOff + BitVec.ofNat 16 (2 * 0) = s.pcOff := BitVec.add_zero _
    cases fuel <;> rw [stay, fetchMore, M.bind_ok (M.get_apply s), hd] <;> rfl
  intro fuel
  induction fuel with
  | zero =>
    intro m ws s _ _ hm h
    obtain rfl := Nat.le_zero.1 hm
    exact complete 0 ws s h
  | succ fuel ih =>
    intro m ws s hp he hm h
    cases m with
    | zero => exact complete _ ws s h
    | succ m =>
      rw [State.codeWords_succ] at h
      have short : decode s.isSeg ws = .error .truncated :=
        decode_truncated s.isSeg i [] ws _ (by rw [List.append_nil]; exact h) (List.cons_ne_nil _ _)
      have off : s.pcOff + 2 + BitVec.ofNat 16 (2 * m) = s.pcOff + BitVec.ofNat 16 (2 * (m + 1)) := by bv_omega
      rw [fetchMore, M.bind_ok (M.get_apply s), short]
      show (fetchWord .code >>= fun w => fetchMore (ws ++ [w]) fuel) s = _
      rw [M.bind_ok (fetchWord_plain .code s rfl hp he), ← off]
      exact ih m _ { s with pcOff := s.pcOff + 2 } hp (by rw [lsb_add_even _ _ (by decide), he]) (by omega)
        (by rw [List.append_assoc]; exact h)

/-- FETCHING AN INSTRUCTION (R26, R159): the words from the PC on that decode to it, the first of which raises no trap. -/
theorem fetchInstr_plain {s : State} {n : Nat} {i : Instr} (hp : s.plain) (he : s.pcOff.getLsbD 0 = false)
    (hn : n ≤ maxWords) (hd : decode s.isSeg (s.codeWords n) = .ok (i, []))
    (ht : firstWordTrap s.fcw (s.wordAt .code s.pc) = none) : fetchInstr s = .ok (.instr i, s.fetched n) := by
  cases n with
  | zero => cases hd
  | succ n =>
    have off : s.pcOff + 2 + BitVec.ofNat 16 (2 * n) = s.pcOff + BitVec.ofNat 16 (2 * (n + 1)) := by bv_omega
    let t : State := { s with
      instrPc := s.pcOff, held := none, pcOff := s.pcOff + 2, ir := s.wordAt .code s.pc
      rowStepped := s.rowStepped || s.stopsInside (s.wordAt .code s.pc) }
    have rest : decode t.isSeg ([s.wordAt .code s.pc] ++ t.codeWords n) = .ok (i, []) := by
      rw [State.codeWords_succ] at hd
      exact hd
    have more := fetchMore_plain i (maxWords - 1) n _ t hp (by rw [lsb_add_even _ _ (by decide), he])
      (Nat.le_sub_one_of_lt hn) rest
    have first : fetchWord .ifetch { s with instrPc := s.pcOff, held := none } =
        .ok (s.wordAt .code s.pc, { s with instrPc := s.pcOff, held := none, pcOff := s.pcOff + 2 }) :=
      fetchWord_plain .ifetch { s with instrPc := s.pcOff, held := none } (State.key_ifetch _ _) hp he
    unfold fetchInstr releaseSuppress
    rw [M.bind_ok (show (modify _ : M Unit) s = .ok ((), s) by rw [M.modify_apply, State.mapUnits_none _ s hp.1]),
      M.bind_ok (M.modify_apply _ s), M.bind_ok first, M.bind_ok (M.modify_apply _ _), M.bind_ok (M.get_apply _)]
    generalize hx : firstWordTrap _ _ = x
    obtain rfl : x = none := hx.symm.trans ht
    refine (M.bind_ok (M.modify_apply _ _)).trans ((M.bind_ok more).trans ?_)
    rw [M.bind_ok (resetPoint_none { t with pcOff := t.pcOff + BitVec.ofNat 16 (2 * n) } hp.2.2)]
    exact congrArg (fun p => Except.ok (Fetched.instr i, { t with pcOff := p })) off

/-- Settles O6, by `fetchInstr_plain`. -/
theorem stepRunsDecoded : Obligations.StepRunsDecoded := by
  intro s n i hp ha he hn hd ht
  have run : runInstr s = exec i (s.fetched n) := by
    rw [runInstr, fetchInstr_plain hp ((Addr.aligned_w _).1 he) hn hd ht]
  simp only [step, act, ha, run]

end Sys2Proof.Machine
end

section
/-! PROOF. What memory holds after a store, and what the stack instructions, a call and its return do on a machine of
plain RAM without MMUs (R70, R78, R86, R228, R230, R301, R306). -/

namespace Sys2Proof.Machine

open Sys2Proof

/-! Memory (R70, R78, R79). -/

/-- The place of the second word of an aligned long word lies apart from the first word, also where the offset wraps (R84). -/
theorem State.key_second_word (s : State) (l : Label) (a : Addr) (ha : a.off.getLsbD 0 = false) :
    s.key l a + 2 ≤ s.key l (a.add 2) ∨ s.key l (a.add 2) + 2 ≤ s.key l a := by
  have even := toNat_even ha
  have off : (a.off + 2).toNat = (a.off.toNat + 2) % 65536 := BitVec.toNat_add ..
  simp only [State.key, memKey, Addr.flat, Addr.add]
  omega

/-- The places of an aligned store (R78). -/
theorem StoreAt.bytes_aligned (s : State) (l : Label) (a : Addr) (wd : Width) (ha : a.aligned wd = true) :
    StoreAt.bytes s ⟨l, a, wd⟩ = match wd with
      | .b => [s.key l a]
      | .w => [s.key l a, s.key l a + 1]
      | .l => [s.key l a, s.key l a + 1, s.key l (a.add 2), s.key l (a.add 2) + 1] := by
  cases wd with
  | b => rfl
  | w => simp only [StoreAt.bytes, Addr.even_off a ((Addr.aligned_w a).1 ha)]
  | l =>
    have he := (Addr.aligned_l a).1 ha
    have he' : (a.off + 2) &&& 0xFFFE = a.off + 2 := Addr.even_off (a.add 2) (Addr.add_even a 2 (by decide) he)
    simp only [StoreAt.bytes, Addr.even_off a he, he']
    rfl

/-- A long word is its two halves. -/
theorem long_halves (v : Long) : v.extractLsb' 16 16 ++ v.extractLsb' 0 16 = v :=
  BitVec.extractLsb'_append_extractLsb'_eq_extractLsb' (by rfl) |>.trans (BitVec.extractLsb'_eq_self)

/-- Settles O9, width by width; the two words of a long word do not meet. -/
theorem storeReadsBack : Obligations.StoreReadsBack := by
  intro s l a wd v hw ha
  rw [StoreAt.bytes_aligned s l a wd ha]
  cases wd with
  | b =>
    exact ⟨Memory.read_write_same _ _ v hw, Memory.write_wf _ _ v hw,
      fun k hk => Memory.read_write_other _ _ k v (by simpa using hk)⟩
  | w =>
    refine ⟨Memory.readWord_writeWord _ _ v hw, Memory.writeWord_wf _ _ v hw, fun k hk => ?_⟩
    obtain ⟨h0, h1⟩ : k ≠ s.key l a ∧ k ≠ s.key l a + 1 := by simpa using hk
    exact Memory.read_writeWord_other _ _ k v h0 h1
  | l =>
    have first := Memory.writeWord_wf s.mem (s.key l a) (BitVec.extractLsb' 16 16 v) hw
    have apart := s.key_second_word l a ((Addr.aligned_l a).1 ha)
    refine ⟨?back, Memory.writeWord_wf _ _ _ first, fun k hk => ?frame⟩
    case back =>
      refine Eq.trans (congrArg₂ (· ++ ·) ?_ (Memory.readWord_writeWord _ _ _ first)) (long_halves v)
      exact (Memory.readWord_writeWord_other _ _ _ _ apart.symm).trans (Memory.readWord_writeWord _ _ _ hw)
    case frame =>
      obtain ⟨h0, h1, h2, h3⟩ : k ≠ s.key l a ∧ k ≠ s.key l a + 1 ∧ k ≠ s.key l (a.add 2) ∧
        k ≠ s.key l (a.add 2) + 1 := by simpa using hk
      exact (Memory.read_writeWord_other _ _ k _ h2 h3).trans (Memory.read_writeWord_other _ _ k _ h0 h1)


/-! The stack (R86, R228, R230, R301, R306). -/

theorem Dst.put_resetIn (wd : Width) (s : State) (d : Dst) (v : BitVec wd.bits) :
    (d.put wd s v).resetIn = s.resetIn := by
  cases d <;> simp [Dst.put, Mem.put]

/-- The elements of a stack are words and long words: a push moves the pointer by an even number. -/
theorem stackStep_even (wd : Width) (hw : wd ≠ .b) : (-(BitVec.ofNat 16 wd.bytes)).getLsbD 0 = false := by
  cases wd with
  | b => exact absurd rfl hw
  | w | l => decide

/-- A word and a long word are aligned alike (R80). -/
theorem Addr.aligned_of_word (a : Addr) (wd : Width) (h : a.aligned .w = true) : a.aligned wd = true := by
  cases wd with
  | b => rfl
  | w | l => exact h

/-- A push through an even pointer. -/
theorem push_even (n : Reg) (wd : Width) (v : BitVec wd.bits) (s : State) (hw : wd ≠ .b) (hp : s.plain)
    (he : (s.addrOf n).aligned .w = true) : push n wd v s = .ok ((), s.pushed (s.labelOf n) n wd v) :=
  push_plain n wd v s hp <| Addr.aligned_of_word _ wd <| (Addr.aligned_w _).2 <|
    State.addrOf_stepPtr_even s n _ (stackStep_even wd hw) ((Addr.aligned_w _).1 he)

/-- POP and POPL: the destination is written, and then the pointer moves (R228). -/
theorem popTo_plain (wd : Width) (d : Dst) (sp : Reg) (s : State) (hp : s.plain)
    (he : (s.addrOf sp).aligned .w = true) (hd : d.ready wd s = true) :
    popTo wd d sp s = .ok ((), (d.put wd s (s.top sp wd)).popped sp wd) := by
  have reset : (d.put wd s (s.top sp wd)).resetIn = none := (Dst.put_resetIn ..).trans hp.2.2
  unfold popTo
  rw [M.bind_ok (M.get_apply s), M.bind_ok (readMem_plain _ _ wd s hp (Addr.aligned_of_word _ wd he)),
    M.bind_ok (writeDst_plain wd d _ s hp hd)]
  exact M.bind_ok (resetPoint_none _ reset)

/-- PUSH and PUSHL: the source is read, and then pushed (R230). -/
theorem pushFrom_plain (wd : Width) (sp : Reg) (x : Dst) (s : State) (hw : wd ≠ .b) (hp : s.plain)
    (he : (s.addrOf sp).aligned .w = true) (hx : x.ready wd s = true) :
    pushFrom wd sp x s = .ok ((), s.pushed (s.labelOf sp) sp wd (x.value wd s)) := by
  unfold pushFrom
  rw [M.bind_ok (readDst_plain wd x s hp hx), push_even sp wd _ s hw hp he]

/-- Settles O18, by `popTo_plain` and `pushFrom_plain` at each width. -/
theorem stackResult : Obligations.StackResult := by
  intro s x sp hp he
  exact ⟨fun hx => M.run_ok (popTo_plain .w x sp s hp he hx), fun hx => M.run_ok (popTo_plain .l x sp s hp he hx),
    fun hx => M.run_ok (pushFrom_plain .w sp x s nofun hp he hx),
    fun hx => M.run_ok (pushFrom_plain .l sp x s nofun hp he hx),
    fun v => M.run_ok (push_even sp .w v s nofun hp he)⟩

/-! A call and its return (R301, R306). -/

theorem State.reg_stored (s : State) (l : Label) (a : Addr) (wd : Width) (v : BitVec wd.bits) (r : Reg) :
    (s.stored l a wd v).reg r = s.reg r := by
  simp [State.reg]

theorem State.reg_jump (s : State) (a : Addr) (r : Reg) : (s.jump a).reg r = s.reg r := by
  simp [State.reg]

/-- In segmented mode a jump loads the whole PC (R300(b)). -/
theorem State.pc_jump_seg {s : State} (hg : s.isSeg = true) (a : Addr) : (s.jump a).pc = a := by
  simp [State.jump, hg, State.pc]

/-- In nonsegmented mode a jump leaves the segment of the PC (R300(b)). -/
theorem State.pcSeg_jump_nonseg {s : State} (hg : s.isSeg = false) (a : Addr) : (s.jump a).pcSeg = s.pcSeg := by
  simp [State.jump, hg]

theorem State.reg_setPc (s : State) (p : Word) (r : Reg) : { s with pcOff := p }.reg r = s.reg r := rfl

/-- A step of a pointer adds to its offset register and leaves every other register (R84). -/
theorem State.reg_stepPtr (s : State) (n : Reg) (k : Word) (r : Reg) :
    (s.stepPtr n k).reg r = if r = s.offReg n then s.reg r + k else s.reg r := by
  rw [State.stepPtr, State.reg_setReg]
  split
  · rename_i h
    rw [h]
  · rfl

theorem State.addrOf_stored (s : State) (l : Label) (a : Addr) (wd : Width) (v : BitVec wd.bits) (n : Reg) :
    (s.stored l a wd v).addrOf n = s.addrOf n := by
  simp [State.addrOf, State.reg_stored]

/-- Where a stack pointer points does not go by where a jump went: only in segmented mode does it load the segment. -/
theorem State.addrOf_jump (s : State) (a : Addr) (n : Reg) : (s.jump a).addrOf n = s.addrOf n := by
  simp only [State.addrOf, State.jump_isSeg, State.reg_jump]
  split
  · rfl
  · rename_i hg
    rw [State.pcSeg_jump_nonseg (Bool.eq_false_iff.2 hg)]

/-- The label of a reference goes by the mode alone (R74(f)). -/
theorem State.labelOf_of_isSeg {s t : State} (h : t.isSeg = s.isSeg) (n : Reg) : t.labelOf n = s.labelOf n := by
  have sp : t.spReg = s.spReg := by simp [State.spReg, h]
  rw [State.labelOf, State.labelOf, sp]

theorem State.value_jump (s : State) (b : Addr) (l : Label) (a : Addr) (wd : Width) :
    (s.jump b).value l a wd = s.value l a wd := by
  cases wd <;> simp [State.value, State.byteAt, State.wordAt, State.key]

/-- What was pushed is on top of the stack, also after a jump (R86). -/
theorem State.top_pushed_jump (s : State) (n : Reg) (wd : Width) (v : BitVec wd.bits) (b : Addr) (hw : wd ≠ .b)
    (hm : s.mem.wf = true) (he : (s.addrOf n).aligned .w = true) :
    ((s.pushed (s.labelOf n) n wd v).jump b).top n wd = v := by
  have label : ((s.pushed (s.labelOf n) n wd v).jump b).labelOf n = s.labelOf n :=
    State.labelOf_of_isSeg (by simp) n
  have even := State.addrOf_stepPtr_even s n _ (stackStep_even wd hw) ((Addr.aligned_w _).1 he)
  have back := storeReadsBack (s.stepPtr n (-(BitVec.ofNat 16 wd.bytes))) (s.labelOf n)
    ((s.stepPtr n (-(BitVec.ofNat 16 wd.bytes))).addrOf n) wd v (by simpa using hm)
    (Addr.aligned_of_word _ wd ((Addr.aligned_w _).2 even))
  rw [State.top, State.value_jump, label, State.addrOf_jump, State.pushed, State.addrOf_stored]
  exact back.1

/-- A push, a jump and a pop leave every register (R86). -/
theorem State.reg_popped_pushed (s : State) (l : Label) (n : Reg) (wd : Width) (v : BitVec wd.bits) (b : Addr) (r : Reg) :
    (((s.pushed l n wd v).jump b).popped n wd).reg r = s.reg r := by
  have off : ((s.pushed l n wd v).jump b).offReg n = s.offReg n := by simp [State.offReg]
  rw [State.popped, State.reg_stepPtr, off, State.reg_jump, State.pushed, State.reg_stored, State.reg_stepPtr]
  split
  · rw [BitVec.add_assoc, BitVec.add_comm (-_), ← BitVec.sub_eq_add_neg, BitVec.sub_self, BitVec.add_zero]
  · rfl

/-- The pop that undoes a push, after a jump. -/
theorem pop_pushed_jump (s : State) (n : Reg) (wd : Width) (v : BitVec wd.bits) (b : Addr) (hw : wd ≠ .b) (hp : s.plain)
    (hm : s.mem.wf = true) (he : (s.addrOf n).aligned .w = true) :
    let u := (s.pushed (s.labelOf n) n wd v).jump b
    pop n wd u = .ok (v, u.popped n wd) := by
  intro u
  have even := State.addrOf_stepPtr_even s n _ (stackStep_even wd hw) ((Addr.aligned_w _).1 he)
  have addr : u.addrOf n = (s.stepPtr n (-(BitVec.ofNat 16 wd.bytes))).addrOf n := by
    rw [State.addrOf_jump, State.pushed, State.addrOf_stored]
  rw [pop_plain n wd u (by simpa [u, State.plain] using hp)
    (by rw [addr]; exact Addr.aligned_of_word _ wd ((Addr.aligned_w _).2 even)),
    State.top_pushed_jump s n wd v b hw hm he]

/-- CALL where the PC is pushed so: in segmented mode a long word through RR14, else a word through R15 (R301). -/
theorem exec_call_of_push {s u : State} (t : Mem)
    (h : (if s.isSeg then push 14 .l s.pc.toLong else push 15 .w s.pcOff) s = .ok ((), u)) :
    exec (.call t) s = .next (u.jump (Mem.ea s t)) := by
  have pushed : pushPc s = .ok ((), u) := by
    unfold pushPc
    rw [M.bind_ok (M.get_apply s), h]
  exact M.run_ok (by rw [M.bind_ok pushed, M.modify_apply])

/-- RET on the condition that always holds is the pop of the PC (R150, R306). -/
theorem exec_ret_always (s : State) : exec (.ret 8) s = M.run popPc s := by
  have always : s.fcw.cond 8 = true := rfl
  show M.run (if s.fcw.cond 8 then popPc else pure ()) s = _
  rw [if_pos always]

theorem popPc_seg {u w : State} {v : Long} (hg : u.isSeg = true) (h : pop 14 .l u = .ok (v, w)) :
    popPc u = .ok ((), w.jump (Addr.ofLong v)) := by
  unfold popPc
  rw [M.bind_ok (M.get_apply u), if_pos hg, M.bind_ok h, M.modify_apply]

theorem popPc_nonseg {u w : State} {v : Word} (hg : u.isSeg = false) (h : pop 15 .w u = .ok (v, w)) :
    popPc u = .ok ((), { w with pcOff := v }) := by
  unfold popPc
  rw [M.bind_ok (M.get_apply u), if_neg (by simp [hg]), M.bind_ok h, M.modify_apply]

/-- Settles O32, mode by mode: the pop undoes the push (`pop_pushed_jump`, `State.reg_popped_pushed`). -/
theorem callThenReturn : Obligations.CallThenReturn := by
  intro s t hp hm hr
  by_cases hg : s.isSeg = true
  · have even : (s.addrOf 14).aligned .w = true := by simpa [State.stackReady, State.spReg, hg] using hr
    have pushed := push_even 14 .l s.pc.toLong s nofun hp even
    have popped := pop_pushed_jump s 14 .l s.pc.toLong (Mem.ea s t) nofun hp hm even
    refine ⟨_, _, exec_call_of_push t ((congrFun (if_pos hg) s).trans pushed),
      (exec_ret_always _).trans (M.run_ok (popPc_seg (by simpa using hg) popped)), ?pc, by simp, fun r => ?reg⟩
    case pc =>
      exact (State.pc_jump_seg (by simpa using hg) _).trans (Addr.ofLong_segWord s.pc)
    case reg => rw [State.reg_jump, State.reg_popped_pushed]
  · have nonseg : s.isSeg = false := Bool.eq_false_iff.2 hg
    have even : (s.addrOf 15).aligned .w = true := by simpa [State.stackReady, State.spReg, nonseg] using hr
    have pushed := push_even 15 .w s.pcOff s nofun hp even
    have popped := pop_pushed_jump s 15 .w s.pcOff (Mem.ea s t) nofun hp hm even
    refine ⟨_, _, exec_call_of_push t ((congrFun (if_neg hg) s).trans pushed),
      (exec_ret_always _).trans (M.run_ok (popPc_nonseg (by simpa using nonseg) popped)), ?_, by simp, fun r => ?_⟩
    · simp [State.pc, State.pcSeg_jump_nonseg, nonseg]
    · rw [State.reg_setPc, State.reg_popped_pushed]

end Sys2Proof.Machine
end

section
/-! PROOF. The input and output instructions on a machine without MMUs (R76, R420 to R424). -/

namespace Sys2Proof.Machine

open Sys2Proof

/-- What an I/O read of this width takes from the word a device supplies: a byte, or all of it (R76). -/
def deviceValue (wd : Width) (v : Word) : Word :=
  match wd with
  | .b => (v.extractLsb' 0 8).setWidth 16
  | _ => v

/-- An I/O read is one transaction; its value is the one the device supplies, or any value. -/
theorem ioRead_plain (sp : IoSpace) (port : Word) (wd : Width) (s : State) (h : s.units = []) (hi : s.resetIn = none) :
    ∃ (v : Word) (rest : List Word) (n : Nat), (s.ioIn = v :: rest ∨ (s.ioIn = [] ∧ rest = [])) ∧
      ioRead sp port wd s = .ok (deviceValue wd v, { s with
        ioIn := rest, freeCount := n, events := .ioRead sp port wd.bytes (deviceValue wd v) :: s.events }) := by
  obtain ⟨v, rest, n, hv, e⟩ := deviceWord_inv s
  refine ⟨v, rest, n, hv, ?_⟩
  unfold ioRead
  rw [M.bind_ok (resetPoint_none s hi), M.bind_ok (M.get_apply s), h]
  exact M.bind_ok e

/-- Input into a register: one read, and the register receives its value. -/
theorem inputTo_plain (sp : IoSpace) (wd : Width) (d : Reg) (port : Word) (s : State) (h : s.units = [])
    (hi : s.resetIn = none) :
    ∃ (v : Word) (rest : List Word) (n : Nat), (s.ioIn = v :: rest ∨ (s.ioIn = [] ∧ rest = [])) ∧
      inputTo sp wd d port s = .ok ((), ({ s with
        ioIn := rest, freeCount := n, events := .ioRead sp port wd.bytes (deviceValue wd v) :: s.events }).setRegAt wd d
          ((deviceValue wd v).setWidth wd.bits)) := by
  obtain ⟨v, rest, n, hv, e⟩ := ioRead_plain sp port wd s h hi
  refine ⟨v, rest, n, hv, ?_⟩
  unfold inputTo
  rw [M.bind_ok e]
  exact M.bind_ok (resetPoint_none _ hi)

/-- Output from a register: one write of its value. -/
theorem outputFrom_plain (sp : IoSpace) (wd : Width) (port : Word) (r : Reg) (s : State) (h : s.units = [])
    (hi : s.resetIn = none) : outputFrom sp wd port r s =
      .ok ((), { s with events := .ioWrite sp port wd.bytes ((s.regAt wd r).setWidth 16) :: s.events }) := by
  unfold outputFrom
  rw [M.bind_ok (M.get_apply s), ioWrite_plain sp port wd _ s h hi]

/-- A word is read whole. -/
theorem deviceValue_word (v : Word) : (deviceValue .w v).setWidth 16 = v := BitVec.setWidth_eq v

/-- A byte is the low byte of the word supplied. -/
theorem deviceValue_byte (v : Word) : (deviceValue .b v).setWidth 8 = v.extractLsb' 0 8 :=
  BitVec.setWidth_setWidth_of_le _ (by decide) |>.trans (BitVec.setWidth_eq _)

/-- Settles O42, by `inputTo_plain` and `outputFrom_plain`: each form is one of them in system mode. -/
theorem inputOutput : Obligations.InputOutput := by
  intro s d p r port h hi hs input inputB output outputB
  have word (sp : IoSpace) (q : Word) : input sp q (M.run (privileged (inputTo sp .w d q)) s) := by
    obtain ⟨v, rest, n, hv, e⟩ := inputTo_plain sp .w d q s h hi
    rw [deviceValue_word] at e
    exact ⟨v, rest, n, hv, run_privileged_ok hs e⟩
  have byte (sp : IoSpace) (q : Word) : inputB sp q (M.run (privileged (inputTo sp .b d q)) s) := by
    obtain ⟨w, rest, n, hw, e⟩ := inputTo_plain sp .b d q s h hi
    rw [deviceValue_byte] at e
    exact ⟨w, _, rest, n, rfl, hw, run_privileged_ok hs e⟩
  have out (sp : IoSpace) (q : Word) : output sp q (M.run (privileged (outputFrom sp .w q r)) s) := by
    have e := outputFrom_plain sp .w q r s h hi
    rw [BitVec.setWidth_eq] at e
    exact run_privileged_ok hs e
  have outB (sp : IoSpace) (q : Word) : outputB sp q (M.run (privileged (outputFrom sp .b q r)) s) :=
    run_privileged_ok hs (outputFrom_plain sp .b q r s h hi)
  exact ⟨word _ _, word _ _, word _ _, byte _ _, byte _ _, byte _ _, out _ _, out _ _, out _ _, outB _ _, outB _ _,
    outB _ _⟩

end Sys2Proof.Machine
end

section
/-! PROOF. What an MMU does with a write: the violations, the translated address, the mark (R101 to R112). -/

namespace Sys2Proof.Machine

open Sys2Proof

/-! The checks of a unit, and what it does with a write (R101, R102, R104, R110 to R112). -/

/-- Following the first-word fetches changes ISN and IOFF alone (R104). -/
theorem Mmu.track_inv (m : Mmu) (a : Access) : ∃ n o, m.track a = { m with isn := n, ioff := o } := by
  unfold Mmu.track
  split
  · exact ⟨_, _, rfl⟩
  · exact ⟨m.isn, m.ioff, rfl⟩

/-- The first five flags of VTR as a byte: one bit for each cause (R104, log 36). -/
theorem violationByte_eq (r y c e p : Bool) :
    BitVec.ofNat 8 (r.toNat + 2 * y.toNat + 4 * c.toNat + 8 * e.toNat + 16 * p.toNat) =
      0#3 ++ BitVec.ofBool p ++ BitVec.ofBool e ++ BitVec.ofBool c ++ BitVec.ofBool y ++ BitVec.ofBool r := by
  decide +revert

theorem violationByte_eq_zero (r y c e p : Bool) :
    (0#3 ++ BitVec.ofBool p ++ BitVec.ofBool e ++ BitVec.ofBool c ++ BitVec.ofBool y ++ BitVec.ofBool r : Byte) = 0 ↔
      (r || y || c || e || p) = false := by
  decide +revert

/-- A program reference that EXC admits: one of status 1101, or of status 1100 where the parameter has it so (U14). -/
theorem excAdmits_eq (l : Label) (allows : Bool) :
    (!(if allows then l.isCode else l == .ifetch)) = (l != .ifetch && !(l == .code && allows)) := by
  cases l <;> cases allows <;> rfl

/-- A violated access (R112): Suppress, and the cause and the place where no flag was set. -/
theorem Mmu.check_violated (cfg : Config) (m : Mmu) (a : Access) (hv : m.violations cfg a ≠ 0)
    (hl : a.label ≠ .trapStack) :
    let u := m.check cfg a
    (u.suppress = true ∧ u.descs = m.descs) ∧
    (m.vtr = 0 →
      u.segt = true ∧ u.vtr = m.violations cfg a ∧ u.vsn = a.addr.seg.setWidth 8 ∧ u.voff = offHigh a.addr.off) ∧
    (m.vtr ≠ 0 → u.segt = m.segt ∧ u.vtr = m.vtr ||| m.violations cfg a ||| 0x80 ∧ u.vsn = m.vsn ∧ u.voff = m.voff ∧
      u.bcs = m.bcs) := by
  have violation : (m.violations cfg a != 0) = true := bne_iff_ne.2 hv
  have suppress : (m.suppress || a.label != Label.trapStack) = true := by simp [hl]
  by_cases h0 : m.vtr = 0
  · have quiet : (m.vtr != 0) = false := by rw [h0]; rfl
    simp only [Mmu.check, violation, suppress, quiet, if_true, Bool.false_eq_true, if_false, Mmu.record]
    simp [h0]
  · have pending : (m.vtr != 0) = true := bne_iff_ne.2 h0
    simp only [Mmu.check, violation, suppress, pending, if_true]
    exact ⟨⟨trivial, trivial⟩, fun h => absurd h h0, fun _ => ⟨trivial, trivial, trivial, trivial, trivial⟩⟩

/-- An access without violation (R101, R112): its descriptor is marked; a warning sets PWW where no flag was set. -/
theorem Mmu.check_clean (cfg : Config) (m : Mmu) (a : Access) (hv : m.violations cfg a = 0) :
    let u := m.check cfg a
    (u.suppress = m.suppress ∧ u.descs = (m.mark a).descs) ∧
    (m.warning a = false → u.segt = m.segt ∧ u.vtr = m.vtr) ∧
    (m.warning a = true → m.vtr = 0 → u.segt = true ∧ u.vtr = 0x20) := by
  have clean : (m.violations cfg a != 0) = false := by rw [hv]; rfl
  cases hw : m.warning a with
  | false =>
    simp only [Mmu.check, clean, hw, Bool.false_eq_true, if_false]
    simp [Mmu.mark]
  | true =>
    simp only [Mmu.check, clean, hw, if_true, Bool.false_eq_true, if_false]
    refine ⟨?same, nofun, fun _ h0 => ?first⟩
    case same => split_ifs <;> exact ⟨rfl, rfl⟩
    case first => simp [h0, Mmu.record]

/-- What an MMU that serves an access is after it: ISN and IOFF do not matter to the check (R104, R112). -/
def Mmu.served (cfg : Config) (m : Mmu) (a : Access) : Mmu := (m.track a).check cfg a

theorem Mmu.served_violated (cfg : Config) (m : Mmu) (a : Access) (hv : m.violations cfg a ≠ 0)
    (hl : a.label ≠ .trapStack) :
    let u := m.served cfg a
    (u.suppress = true ∧ u.descs = m.descs) ∧
    (m.vtr = 0 →
      u.segt = true ∧ u.vtr = m.violations cfg a ∧ u.vsn = a.addr.seg.setWidth 8 ∧ u.voff = offHigh a.addr.off) ∧
    (m.vtr ≠ 0 → u.segt = m.segt ∧ u.vtr = m.vtr ||| m.violations cfg a ||| 0x80 ∧ u.vsn = m.vsn ∧ u.voff = m.voff ∧
      u.bcs = m.bcs) := by
  obtain ⟨n, o, e⟩ := m.track_inv a
  unfold Mmu.served
  rw [e]
  exact Mmu.check_violated cfg { m with isn := n, ioff := o } a hv hl

theorem Mmu.served_clean (cfg : Config) (m : Mmu) (a : Access) (hv : m.violations cfg a = 0) :
    let u := m.served cfg a
    (u.suppress = m.suppress ∧ u.descs = (m.mark a).descs) ∧
    (m.warning a = false → u.segt = m.segt ∧ u.vtr = m.vtr) ∧
    (m.warning a = true → m.vtr = 0 → u.segt = true ∧ u.vtr = 0x20) := by
  obtain ⟨n, o, e⟩ := m.track_inv a
  unfold Mmu.served
  rw [e]
  exact Mmu.check_clean cfg { m with isn := n, ioff := o } a hv

/-- A write as the bus shows it (R72). -/
def State.writeAccess (s : State) (l : Label) (a : Addr) (word : Bool) : Access :=
  { addr := a, label := l, sys := s.fcw.sn, write := true, word := word }

/-- What finding the place of a write does where there are MMUs (R110, R112). -/
theorem route_units {s : State} {m : Mmu} {ms : List Mmu} (l : Label) (a : Addr) (word : Bool)
    (h : s.units = m :: ms) :
    let p := mmuAccess s.cfg (s.writeAccess l a word) ((m :: ms).map fun u => u.track (s.writeAccess l a word))
    route l a true word s =
      if l != Label.trapStack && p.1.any fun u => u.suppress then .ok (none, { s with mmus := p.1 })
      else .ok (s.taking true (memKey s.cfg s.fcw.sn l p.2), { s with mmus := p.1 }) := by
  unfold route
  rw [h]
  rfl

/-- The place of a write that a translating MMU serves, on a machine of plain RAM with this MMU alone (R110, R112). -/
theorem translate_mmu {s : State} {m : Mmu} {l : Label} {a : Addr} {word : Bool} (hv : s.cfg.version = .z8001)
    (hm : s.mmus = [m]) (hr : s.cfg.memMap = []) (hi : s.resetIn = none) (hl : l ≠ .trapStack)
    (resp : m.responds (s.writeAccess l a word) = true) (ht : m.trns = true)
    (ha : word = true → a.off.getLsbD 0 = false) :
    let u := m.served s.cfg (s.writeAccess l a word)
    translate l a true word s = .ok
      (if u.suppress then none else some (memKey s.cfg s.fcw.sn l (m.phys (s.writeAccess l a word))),
       { s with mmus := [u] }) := by
  intro u
  have even : busAddr a word s = .ok (a, s) := by
    cases word with
    | false => rfl
    | true => exact evenAddr_even a s (ha rfl)
  have served : mmuAccess s.cfg (s.writeAccess l a word) [m.track (s.writeAccess l a word)] =
      ([u], m.phys (s.writeAccess l a word)) := by
    obtain ⟨n, o, e⟩ := m.track_inv (s.writeAccess l a word)
    have resp' : (m.track (s.writeAccess l a word)).responds (s.writeAccess l a word) = true := by rw [e]; exact resp
    have ht' : (m.track (s.writeAccess l a word)).trns = true := by rw [e]; exact ht
    have phys : (m.track (s.writeAccess l a word)).phys (s.writeAccess l a word) = m.phys (s.writeAccess l a word) := by
      rw [e]; rfl
    simp only [mmuAccess, resp', ht', phys, if_true]
    rfl
  have label : (l != Label.trapStack) = true := bne_iff_ne.2 hl
  have units : s.units = [m] := (s.units_z8001 hv).trans hm
  unfold translate
  rw [M.bind_ok (resetPoint_none s hi), M.bind_ok even, route_units l a word units]
  simp only [List.map_cons, List.map_nil, served, label, List.any_cons, List.any_nil, Bool.or_false, Bool.true_and]
  split
  · rfl
  · simp [State.taking, admits, hr]

/-- The checks of a write, as the VTR flags they set (R111, R112). -/
theorem Mmu.violations_write (s : State) (m : Mmu) (l : Label) (a : Addr) (word : Bool) :
    let d := m.descs[descIndex a.seg]
    let b := (a.off.extractLsb' 8 8).toNat
    m.violations s.cfg (s.writeAccess l a word) =
      0#3 ++ BitVec.ofBool (if d.attr.getLsbD 5 then decide (b < d.limit.toNat) else decide (d.limit.toNat < b)) ++
        BitVec.ofBool (d.attr.getLsbD 3 && l != .ifetch && !(l == .code && s.cfg.mmuExcAllows1100)) ++
        BitVec.ofBool (d.attr.getLsbD 2) ++ BitVec.ofBool (d.attr.getLsbD 1 && !s.fcw.sn) ++
        BitVec.ofBool (d.attr.getLsbD 0) := by
  intro d b
  have past : decide (if d.attr.getLsbD 5 = true then b < d.limit.toNat else d.limit.toNat < b) =
      if d.attr.getLsbD 5 then decide (b < d.limit.toNat) else decide (d.limit.toNat < b) := by
    split <;> rfl
  rw [← past, Bool.and_assoc, ← excAdmits_eq, ← violationByte_eq]
  simp only [Mmu.violations, State.writeAccess, Bool.and_true]
  rfl

/-- The write warning (R111 (6)). -/
theorem Mmu.warning_write (s : State) (m : Mmu) (l : Label) (a : Addr) (word : Bool) :
    m.warning (s.writeAccess l a word) = true ↔ m.descs[descIndex a.seg].attr.getLsbD 5 = true ∧
      (a.off.extractLsb' 8 8).toNat = m.descs[descIndex a.seg].limit.toNat := by
  simp only [Mmu.warning, State.writeAccess, Mmu.desc, offHigh, Bool.and_true, Bool.and_eq_true, beq_iff_eq,
    BitVec.toNat_eq]

/-- A write without violation marks its descriptor changed and referenced (R101). -/
theorem Mmu.mark_write (s : State) (m : Mmu) (l : Label) (a : Addr) (word : Bool) :
    (m.mark (s.writeAccess l a word)).descs = m.descs.set (descIndex a.seg)
      { m.descs[descIndex a.seg] with attr := m.descs[descIndex a.seg].attr ||| 0xC0 } := by
  simp only [Mmu.mark, State.writeAccess, Mmu.desc, if_true, BitVec.or_assoc]
  rfl

theorem writeByte_of_translate {l : Label} {a : Addr} {s t : State} {k : Option Nat} (v : Byte)
    (h : translate l a true false s = .ok (k, t)) :
    writeByte l a v s = .ok ((), { t with mem := k.elim t.mem fun k => t.mem.write k v }) := by
  unfold writeByte
  rw [M.bind_ok h]
  cases k <;> rfl

theorem writeWord_of_translate {l : Label} {a : Addr} {s t : State} {k : Option Nat} (v : Word)
    (h : translate l a true true s = .ok (k, t)) :
    writeWord l a v s = .ok ((), { t with mem := k.elim t.mem fun k => t.mem.writeWord k v }) := by
  unfold writeWord
  rw [M.bind_ok h]
  cases k <;> rfl

/-- Settles O56: `translate_mmu` gives the place, `Mmu.check_violated` and `Mmu.check_clean` the unit after it. -/
theorem mmuProtection : Obligations.MmuProtection := by
  intro s m l a d b rd sysv cpui exc down past violated causes place wrote hv hm hr hi msen urs mst trns suppress hl
  have served (word : Bool) (ha : word = true → a.off.getLsbD 0 = false) (x : M Unit) (f : Nat → Memory)
      (hx : ∀ k t, translate l a true word s = .ok (k, t) → t.mem = s.mem →
        x s = .ok ((), { t with mem := k.elim s.mem f })) : wrote x (f place) := by
    have resp : m.responds (s.writeAccess l a word) = true := by
      simp only [Mmu.responds, State.writeAccess, msen, urs, Bool.true_and, beq_self_eq_true]
      cases h : m.mst with
      | false => rfl
      | true => simp [mst h]
    have phys : memKey s.cfg s.fcw.sn l (m.phys (s.writeAccess l a word)) = place := by
      simp only [Mmu.phys, trns, if_true]
      rfl
    have run := hx _ _ (translate_mmu hv hm hr hi hl resp trns ha) rfl
    rw [phys] at run
    have flags : m.violations s.cfg (s.writeAccess l a word) = causes := m.violations_write s l a word
    have zero : causes = 0 ↔ violated = false := violationByte_eq_zero rd sysv cpui exc past
    refine ⟨m.served s.cfg (s.writeAccess l a word), ?_⟩
    cases hviol : violated with
    | true =>
      have cause : m.violations s.cfg (s.writeAccess l a word) ≠ 0 := fun h =>
        Bool.false_ne_true ((zero.1 (flags.symm.trans h)).symm.trans hviol)
      obtain ⟨⟨hsup, hdescs⟩, hfirst, hlater⟩ := m.served_violated s.cfg (s.writeAccess l a word) cause hl
      rw [flags] at hfirst hlater
      rw [hsup] at run
      exact ⟨run, fun _ => ⟨hsup, hdescs⟩, fun _ => hfirst, fun _ => hlater, nofun, nofun, nofun⟩
    | false =>
      have clean : m.violations s.cfg (s.writeAccess l a word) = 0 := flags.trans (zero.2 hviol)
      obtain ⟨⟨hsup, hdescs⟩, hquiet, hwarn⟩ := m.served_clean s.cfg (s.writeAccess l a word) clean
      have warns := m.warning_write s l a word
      rw [hsup, suppress] at run
      refine ⟨run, nofun, nofun, nofun, fun _ => ⟨hsup.trans suppress, hdescs.trans (m.mark_write s l a word)⟩,
        fun _ hno => hquiet (Bool.eq_false_iff.2 fun hw => ?_), fun _ hdown hb => hwarn (warns.2 ⟨hdown, hb⟩)⟩
      obtain ⟨hdown, hb⟩ := warns.1 hw
      rcases hno with h | h
      · exact absurd (h.symm.trans hdown) Bool.false_ne_true
      · exact h hb
  have word (v : Word) (k : Option Nat) (t : State) (h : translate l a true true s = .ok (k, t)) (hm : t.mem = s.mem) :
      writeWord l a v s = .ok ((), { t with mem := k.elim s.mem (s.mem.writeWord · v) }) := by
    rw [writeWord_of_translate v h, hm]
  refine ⟨fun v => served false nofun _ (s.mem.write · v) fun k t h hm => ?_, fun ha v =>
    served true (fun _ => (Addr.aligned_w a).1 ha) _ (s.mem.writeWord · v) (word v)⟩
  rw [writeByte_of_translate v h, hm]

end Sys2Proof.Machine
end

section
/-! PROOF. What an instruction writes in memory: every operation leaves each byte outside the stores the instruction names
(R70, R78, R79). -/

namespace Sys2Proof.Machine

open Sys2Proof

/-! Accesses at any address, on a machine of plain RAM without MMUs. -/

/-- The address a word access puts on the bus where `ODD_WORD_ADDR` drops bit 0 (U1). -/
def Addr.even (a : Addr) : Addr := { a with off := a.off &&& 0xFFFE }

theorem Addr.even_lsb (a : Addr) : a.even.off.getLsbD 0 = false := by
  simp [Addr.even, BitVec.getLsbD]

theorem Addr.even_of_lsb {a : Addr} (h : a.off.getLsbD 0 = false) : a.even = a := by
  rw [Addr.even, Addr.even_off a h]

/-- A word transaction goes to the even address, or an odd one stops the run (R80, U1). -/
theorem translate_word (l : Label) (a : Addr) (w : Bool) (s : State) (hi : s.resetIn = none) :
    translate l a w true s = translate l a.even w true s ∨
      translate l a w true s = .error (.fault .oddWordAddress) := by
  have even : evenAddr a.even s = .ok (a.even, s) := evenAddr_even _ s a.even_lsb
  unfold translate
  rw [M.bind_ok (resetPoint_none s hi), M.bind_ok (resetPoint_none s hi)]
  show (evenAddr a >>= _) s = (evenAddr a.even >>= _) s ∨ (evenAddr a >>= _) s = _
  rw [M.bind_ok even]
  cases ha : a.off.getLsbD 0 with
  | false => exact .inl (by rw [M.bind_ok (evenAddr_even a s ha), Addr.even_of_lsb ha])
  | true =>
    cases hc : s.cfg.dropAddressBit0 with
    | false => exact .inr (M.bind_fault (evenAddr_odd a s ha hc))
    | true =>
      have dropped : evenAddr a s = .ok (a.even, s) := by
        unfold evenAddr
        rw [M.bind_ok (M.get_apply s), ha, hc]
        rfl
      exact .inl (M.bind_ok dropped)

/-- A word read on the default platform answers and changes nothing, or an odd address stops the run. -/
theorem readWord_ends (l : Label) (a : Addr) (s : State) (hp : s.plain) :
    readWord l a s = .ok (s.wordAt l a.even, s) ∨ readWord l a s = .error (.fault .oddWordAddress) := by
  have even := readWord_plain l a.even s hp a.even_lsb
  unfold readWord at even ⊢
  rcases translate_word l a false s hp.2.2 with e | e
  · exact .inl (by rw [M.bind_apply, e, ← M.bind_apply, even])
  · exact .inr (M.bind_fault e)

/-- A word write on the default platform is the store at the even address, or an odd address stops the run. -/
theorem writeWord_ends (l : Label) (a : Addr) (v : Word) (s : State) (hp : s.plain) :
    writeWord l a v s = .ok ((), s.storeWord l a.even v) ∨ writeWord l a v s = .error (.fault .oddWordAddress) := by
  have even := writeWord_plain l a.even v s hp a.even_lsb
  unfold writeWord at even ⊢
  rcases translate_word l a true s hp.2.2 with e | e
  · exact .inl (by rw [M.bind_apply, e, ← M.bind_apply, even])
  · exact .inr (M.bind_fault e)

/-- The word an EPU gives: the next of the environment, or a free one (R500). -/
theorem epuGive_inv (s : State) : ∃ v rest k, epuGive s = .ok (v, { s with epuIn := rest, freeCount := k }) := by
  unfold epuGive
  rw [M.bind_ok (M.get_apply s)]
  cases s.epuIn with
  | nil => exact ⟨_, s.epuIn, s.freeCount + 1, rfl⟩
  | cons v rest => exact ⟨v, rest, s.freeCount, rfl⟩

/-- Every EPU sees the instruction's two words; nothing else changes (R500). -/
theorem epuNote_inv (i : Instr) (s : State) : ∃ e, epuNote i s = .ok ((), { s with events := e }) := by
  unfold epuNote
  rcases encode i with _ | ⟨w1, _ | ⟨w2, ws⟩⟩
  · exact ⟨s.events, rfl⟩
  · exact ⟨s.events, rfl⟩
  · exact ⟨_, logEvent_apply _ s⟩

/-! One operation that is known from one state. -/

theorem KeepsAt.of_ok {α : Type} {Q : State → State → Prop} {x : M α} {s t : State} {a : α} (e : x s = .ok (a, t))
    (h : Q s t) : KeepsAt Q x s := by
  constructor
  · intro b u hu
    cases e.symm.trans hu
    exact h
  · intro u hu
    cases e.symm.trans hu

theorem KeepsAt.of_fault {α : Type} {Q : State → State → Prop} {x : M α} {s : State} {f : Fault}
    (e : x s = .error (.fault f)) : KeepsAt Q x s :=
  ⟨fun _ _ h => (nomatch e.symm.trans h), fun _ h => (nomatch e.symm.trans h)⟩

/-! Operations that change nothing. -/

/-- From this state the operation changes nothing. -/
abbrev Still {α : Type} (x : M α) (s : State) : Prop := KeepsAt (fun s t => t = s) x s

namespace Still

theorem bind {α β : Type} {x : M α} {f : α → M β} {s : State} (hx : Still x s) (hf : ∀ a, Still (f a) s) :
    Still (x >>= f) s :=
  KeepsAt.bind (Q := fun s t => t = s) (R := fun s t => t = s) hx (fun a u hu => by subst hu; exact hf a)
    (fun _ h => h) fun u t hu ht => ht.trans hu

theorem readReg (wd : Width) (n : Reg) (s : State) : Still (Machine.readReg wd n) s :=
  KeepsAt.of_ok (readReg_apply wd n s) rfl

theorem of_pure {α : Type} (a : α) (s : State) : Still (Pure.pure a : M α) s :=
  KeepsAt.of_ok (M.pure_apply a s) rfl

variable {s : State} (hp : s.plain)
include hp

theorem readByte (l : Label) (a : Addr) : Still (Machine.readByte l a) s :=
  KeepsAt.of_ok (readByte_plain l a s hp) rfl

theorem readWord (l : Label) (a : Addr) : Still (Machine.readWord l a) s := by
  rcases readWord_ends l a s hp with e | e
  · exact KeepsAt.of_ok e rfl
  · exact KeepsAt.of_fault e

theorem readMem (l : Label) (a : Addr) (wd : Width) : Still (Machine.readMem l a wd) s := by
  cases wd with
  | b => exact readByte hp l a
  | w => exact readWord hp l a
  | l => exact (readWord hp l a).bind fun _ => (readWord hp l _).bind fun _ => of_pure _ s

theorem resetPoint : Still Machine.resetPoint s :=
  KeepsAt.of_ok (resetPoint_none s hp.2.2) rfl

theorem readDst (wd : Width) (d : Dst) : Still (Machine.readDst wd d) s := by
  cases d with
  | reg r => exact Still.readReg wd r s
  | mem m => exact (readMem hp _ _ wd).get_bind

theorem readPtr (wd : Width) (p : Reg) : Still (Machine.readPtr wd p) s := (readMem hp _ _ wd).get_bind

theorem readTable (t : Reg) (b : Byte) : Still (Machine.readTable t b) s := (readByte hp _ _).get_bind

end Still

/-! Operations that write no byte outside some stores. -/

theorem StoreAt.bytes_word (s : State) (l : Label) (a : Addr) :
    StoreAt.bytes s ⟨l, a, .w⟩ = [s.key l a.even, s.key l a.even + 1] := rfl

theorem StoreAt.bytes_long (s : State) (l : Label) (a : Addr) : StoreAt.bytes s ⟨l, a, .l⟩ =
    [s.key l a.even, s.key l a.even + 1, s.key l (a.add 2).even, s.key l (a.add 2).even + 1] := rfl

/-- Each byte outside the stores `xs`, placed as in `s₀`, reads as before. -/
def Spares (s₀ : State) (xs : List StoreAt) (s t : State) : Prop :=
  ∀ k, (∀ x ∈ xs, k ∉ x.bytes s₀) → t.mem.read k = s.mem.read k

/-- A state of the default platform that places labels and addresses in memory as `s₀` does. -/
structure Sited (s₀ s : State) : Prop where
  plain : s.plain
  key : ∀ l a, s.key l a = s₀.key l a

theorem Sited.refl {s : State} (h : s.plain) : Sited s s := ⟨h, fun _ _ => rfl⟩

theorem Sited.stepPtr {s : State} (h : s.plain) (n : Reg) (k : Word) : Sited s (s.stepPtr n k) :=
  ⟨by simpa [State.plain] using h, fun l a => State.key_stepPtr s n k l a⟩

namespace Spares

variable {s₀ : State} {xs : List StoreAt}

theorem of_mem {s t : State} (h : t.mem = s.mem) : Spares s₀ xs s t := fun k _ => by rw [h]

theorem refl (s : State) : Spares s₀ xs s s := of_mem rfl

theorem trans {s u t : State} (h : Spares s₀ xs s u) (h' : Spares s₀ xs u t) : Spares s₀ xs s t :=
  fun k hk => (h' k hk).trans (h k hk)

theorem of_still {α : Type} {x : M α} {s : State} (h : Still x s) : KeepsAt (Spares s₀ xs) x s :=
  KeepsAt.mono h fun _ ht => of_mem (congrArg State.mem ht)

end Spares

/-- The operation writes no byte outside the stores `xs`, from any state. -/
abbrev Sparing {α : Type} (s₀ : State) (xs : List StoreAt) (x : M α) : Prop := Keeps (Spares s₀ xs) x

namespace Sparing

variable {s₀ : State} {xs : List StoreAt}

/-! Composition. -/

theorem bind {α β : Type} {x : M α} {f : α → M β} (hx : Sparing s₀ xs x) (hf : ∀ a, Sparing s₀ xs (f a)) :
    Sparing s₀ xs (x >>= f) := Keeps.bind (Q := Spares s₀ xs) Spares.trans hx hf

/-- From one state: the second operation writes nothing outside the stores, wherever the first one ends. -/
theorem bindAt {α β : Type} {x : M α} {f : α → M β} {s : State} (hx : KeepsAt (Spares s₀ xs) x s)
    (hf : ∀ a, Sparing s₀ xs (f a)) : KeepsAt (Spares s₀ xs) (x >>= f) s :=
  hx.bind (fun a u _ => hf a u) (fun _ h => h) fun _ _ => Spares.trans

/-- From one state: the first operation changes nothing, so that the second one begins there too. -/
theorem stillBind {α β : Type} {x : M α} {f : α → M β} {s : State} (hx : Still x s)
    (hf : ∀ a, KeepsAt (Spares s₀ xs) (f a) s) : KeepsAt (Spares s₀ xs) (x >>= f) s :=
  KeepsAt.bind (Q := fun s t => t = s) (R := Spares s₀ xs) hx (fun a u hu => by subst hu; exact hf a)
    (fun _ hu => Spares.of_mem (congrArg State.mem hu)) fun u t hu h => by subst hu; exact h

/-- From one state: the first operation ends where labels and addresses lie as before. -/
theorem sitedBind {α β : Type} {x : M α} {f : α → M β} {s : State}
    (hx : KeepsAt (fun s t => Spares s₀ xs s t ∧ Sited s₀ t) x s)
    (hf : ∀ a u, Sited s₀ u → KeepsAt (Spares s₀ xs) (f a) u) : KeepsAt (Spares s₀ xs) (x >>= f) s :=
  KeepsAt.bind (Q := fun s t => Spares s₀ xs s t ∧ Sited s₀ t) (R := Spares s₀ xs) hx (fun a u hu => hf a u hu.2)
    (fun _ h => h.1) fun _ _ h h' => h.1.trans h'

/-- From one state: the first operation answers and leaves memory, and the second one is done from where it ends. -/
theorem okBind {α β : Type} {x : M α} {f : α → M β} {s u : State} {a : α} (e : x s = .ok (a, u)) (hm : u.mem = s.mem)
    (hf : KeepsAt (Spares s₀ xs) (f a) u) : KeepsAt (Spares s₀ xs) (x >>= f) s := by
  unfold KeepsAt
  rw [M.bind_ok e]
  exact ⟨fun b t h => (Spares.of_mem hm).trans (hf.1 b t h), fun t h => (Spares.of_mem hm).trans (hf.2 t h)⟩

theorem of_pure {α : Type} (a : α) : Sparing s₀ xs (Pure.pure a : M α) := Keeps.pure Spares.refl a

theorem of_get : Sparing s₀ xs (get : M State) := Keeps.get Spares.refl

theorem refuse {α : Type} (r : Refusal) : Sparing s₀ xs (M.refuse r : M α) := Keeps.refuse r

theorem of_modify {f : State → State} (h : ∀ s, (f s).mem = s.mem := by simp) :
    Sparing s₀ xs (modify f : M Unit) := Keeps.modify fun s => Spares.of_mem (h s)

theorem of_set {s t : State} (h : t.mem = s.mem) : KeepsAt (Spares s₀ xs) (set t : M Unit) s :=
  KeepsAt.set (Spares.of_mem h)

/-- An instruction in system mode, where it is privileged (R470). -/
theorem system {x : M Unit} {s : State} (hs : s.fcw.sn = true) (h : KeepsAt (Spares s₀ xs) x s) :
    KeepsAt (Spares s₀ xs) (privileged x) s := by
  unfold KeepsAt
  rwa [privileged_system x s hs]

/-- An extended instruction with FCW.EPA = 1 (R501). -/
theorem present {x : M Unit} {s : State} (hs : s.fcw.epa = true) (h : KeepsAt (Spares s₀ xs) x s) :
    KeepsAt (Spares s₀ xs) (extended x) s := by
  unfold KeepsAt
  rwa [extended_present x s hs]

/-- What the next state of an instruction has. -/
theorem run {x : M Unit} {s t : State} (h : KeepsAt (Spares s₀ xs) x s) (e : M.run x s = .next t) :
    Spares s₀ xs s t := KeepsAt.run (Q := Spares s₀ xs) h e

/-! What writes no memory at all. -/

theorem free (w : Nat) : Sparing s₀ xs (Machine.free w) := Keeps.free w fun _ => Spares.of_mem rfl

theorem freeBool : Sparing s₀ xs Machine.freeBool := (free 1).bind fun _ => of_pure _

theorem freeZ : Sparing s₀ xs Machine.freeZ := freeBool.bind fun _ => of_modify

theorem resetPoint : Sparing s₀ xs Machine.resetPoint := Keeps.resetPoint Spares.refl fun _ _ => Spares.of_mem rfl

theorem setFcw (g : Fcw → Fcw) : Sparing s₀ xs (Machine.setFcw g) := of_modify

theorem logEvent (e : BusEvent) : Sparing s₀ xs (Machine.logEvent e) := of_modify

theorem readReg (wd : Width) (n : Reg) : Sparing s₀ xs (Machine.readReg wd n) := of_get.bind fun _ => of_pure _

theorem writeReg (wd : Width) (n : Reg) (v : BitVec wd.bits) : Sparing s₀ xs (Machine.writeReg wd n v) := of_modify

theorem translate (l : Label) (a : Addr) (w b : Bool) : Sparing s₀ xs (Machine.translate l a w b) :=
  Keeps.translate (Q := Spares s₀ xs) Spares.trans Spares.refl (fun _ _ => Spares.of_mem rfl)
    (fun _ _ => Spares.of_mem rfl) l a w b

theorem readByte (l : Label) (a : Addr) : Sparing s₀ xs (Machine.readByte l a) := by
  refine (translate l a false false).bind fun k => ?_
  cases k with
  | none => exact free 8
  | some k => exact of_get.bind fun _ => of_pure _

theorem readWord (l : Label) (a : Addr) : Sparing s₀ xs (Machine.readWord l a) := by
  refine (translate l a false true).bind fun k => ?_
  cases k with
  | none => exact free 16
  | some k => exact of_get.bind fun _ => of_pure _

theorem readMem (l : Label) (a : Addr) (wd : Width) : Sparing s₀ xs (Machine.readMem l a wd) := by
  cases wd with
  | b => exact readByte l a
  | w => exact readWord l a
  | l => exact (readWord l a).bind fun _ => (readWord l _).bind fun _ => of_pure _

theorem readM (wd : Width) (m : Mem) : Sparing s₀ xs (Machine.readM wd m) := of_get.bind fun _ => readMem _ _ wd

theorem readBased (wd : Width) (b : Based) : Sparing s₀ xs (Machine.readBased wd b) :=
  of_get.bind fun _ => readMem _ _ wd

theorem readDst (wd : Width) (d : Dst) : Sparing s₀ xs (Machine.readDst wd d) := by
  cases d with
  | reg r => exact readReg wd r
  | mem m => exact readM wd m

theorem readSrc {wd : Width} (x : Src wd) : Sparing s₀ xs (Machine.readSrc x) := by
  cases x with
  | reg r => exact readReg wd r
  | imm v => exact of_pure v
  | mem m => exact readM wd m

theorem readPtr (wd : Width) (p : Reg) : Sparing s₀ xs (Machine.readPtr wd p) := of_get.bind fun _ => readMem _ _ wd

theorem readTable (t : Reg) (b : Byte) : Sparing s₀ xs (Machine.readTable t b) := of_get.bind fun _ => readByte _ _

theorem pop (n : Reg) (wd : Width) : Sparing s₀ xs (Machine.pop n wd) :=
  of_get.bind fun _ => (readMem _ _ wd).bind fun _ => resetPoint.bind fun _ => bind of_modify fun _ => of_pure _

theorem popPc : Sparing s₀ xs Machine.popPc := by
  refine of_get.bind fun s => ?_
  split
  · exact (pop 14 .l).bind fun _ => of_modify
  · exact (pop 15 .w).bind fun _ => of_modify

/-- An operation done on a condition. -/
theorem ite {α : Type} {c : Prop} [Decidable c] {x y : M α} (hx : Sparing s₀ xs x) (hy : Sparing s₀ xs y) :
    Sparing s₀ xs (if c then x else y) := by
  split
  · exact hx
  · exact hy

theorem loadAddress (d : Reg) (a : Addr) : Sparing s₀ xs (Machine.loadAddress d a) :=
  of_get.bind fun _ => ite ((free 1).bind fun _ => (free 8).bind fun _ => writeReg .l d _) (writeReg .w d _)

theorem loadMultiple (l : Label) (a : Addr) (r : Reg) (i k : Nat) : Sparing s₀ xs (Machine.loadMultiple l a r i k) := by
  induction k generalizing i with
  | zero => exact of_pure ()
  | succ k ih => exact (readWord l _).bind fun _ => (writeReg .w _ _).bind fun _ => ih (i + 1)

theorem arithInto (wd : Width) (d : Reg) (x : Src wd) (op : BitVec wd.bits → BitVec wd.bits → Bool → Arith wd.bits)
    (c : Bool) (fl : Fcw → Arith wd.bits → Fcw) : Sparing s₀ xs (Machine.arithInto wd d x op c fl) :=
  (readSrc x).bind fun _ => (readReg wd d).bind fun _ => of_get.bind fun _ => (writeReg wd d _).bind fun _ => setFcw _

theorem decimalAdjust (d : Reg) : Sparing s₀ xs (Machine.decimalAdjust d) := by
  refine of_get.bind fun s => ?_
  dsimp only
  split
  · exact (writeReg .b d _).bind fun _ => setFcw _
  · exact (free 8).bind fun _ => freeBool.bind fun _ => freeBool.bind fun _ => freeBool.bind fun _ =>
      (writeReg .b d _).bind fun _ => setFcw _

theorem finishDivide {n : Nat} {wr : BitVec n → BitVec n → M Unit} (h : ∀ m q, Sparing s₀ xs (wr m q)) (x : Quotient n) :
    Sparing s₀ xs (Machine.finishDivide wr x) := by
  cases x with
  | fits q m zero neg => exact (h m q).bind fun _ => setFcw _
  | byZero => exact setFcw fun f => { f with c := false, z := true, s := false, pv := true }
  | tooLarge =>
    exact (free n).bind fun _ => (free n).bind fun _ => freeBool.bind fun _ => freeBool.bind fun _ =>
      (h _ _).bind fun _ => setFcw _
  | oneBitOver q m neg => exact (h m q).bind fun _ => setFcw _

theorem logicInto (wd : Width) (d : Reg) (x : Src wd) (op : BitVec wd.bits → BitVec wd.bits → BitVec wd.bits)
    (fl : Fcw → BitVec wd.bits → Fcw) : Sparing s₀ xs (Machine.logicInto wd d x op fl) :=
  (readSrc x).bind fun _ => (readReg wd d).bind fun _ => (writeReg wd d _).bind fun _ => setFcw _

section
variable (wd : Width) (d : Reg)

theorem testBit (x : Dst) (k : Nat) : Sparing s₀ xs (Machine.testBit wd x k) := (readDst wd x).bind fun _ => setFcw _

theorem rotate (step : ShiftStep wd.bits) (twice : Bool) : Sparing s₀ xs (Machine.rotate wd step d twice) :=
  of_get.bind fun _ => (writeReg wd d _).bind fun _ => setFcw _

theorem rotateDigit (move : Byte → Byte → Byte × Byte) (r : Reg) : Sparing s₀ xs (Machine.rotateDigit move d r) :=
  of_get.bind fun _ => (writeReg .b d _).bind fun _ => (writeReg .b r _).bind fun _ => freeBool.bind fun _ => setFcw _

theorem shiftLeftArith (n : Nat) : Sparing s₀ xs (Machine.shiftLeftArith wd d n) :=
  of_get.bind fun _ => ite (freeBool.bind fun _ => (writeReg wd d _).bind fun _ => setFcw _)
    ((of_pure _).bind fun _ => (writeReg wd d _).bind fun _ => setFcw _)

theorem shiftLeftLogical (n : Nat) : Sparing s₀ xs (Machine.shiftLeftLogical wd d n) :=
  of_get.bind fun _ => ite
    (freeBool.bind fun _ => freeBool.bind fun _ => (writeReg wd d _).bind fun _ => setFcw _)
    ((of_pure _).bind fun _ => freeBool.bind fun _ => (writeReg wd d _).bind fun _ => setFcw _)

theorem shiftRightArith (n : Nat) : Sparing s₀ xs (Machine.shiftRightArith wd d n) :=
  of_get.bind fun _ => (writeReg wd d _).bind fun _ => setFcw _

theorem shiftRightLogical (n : Nat) : Sparing s₀ xs (Machine.shiftRightLogical wd d n) :=
  of_get.bind fun _ => freeBool.bind fun _ => (writeReg wd d _).bind fun _ => setFcw _

theorem shiftUndefined : Sparing s₀ xs (Machine.shiftUndefined wd d) :=
  (free _).bind fun _ => freeBool.bind fun _ => freeBool.bind fun _ => freeBool.bind fun _ => freeBool.bind fun _ =>
    (writeReg wd d _).bind fun _ => setFcw _

theorem shiftDynamic {left right : Reg → Nat → M Unit} (s : Reg) (hl : ∀ n, Sparing s₀ xs (left d n))
    (hr : ∀ n, Sparing s₀ xs (right d n)) : Sparing s₀ xs (Machine.shiftDynamic wd left right d s) :=
  of_get.bind fun _ => ite (shiftUndefined wd d) (ite (hl _) (hr _))

end

/-! Elements of the block instructions, input and output, EPU transfers, control registers. -/

theorem stepElement (wd : Width) (up : Bool) (p : Reg) : Sparing s₀ xs (Machine.stepElement wd up p) :=
  resetPoint.bind fun _ => of_modify

theorem countElement (r : Reg) : Sparing s₀ xs (Machine.countElement r) :=
  resetPoint.bind fun _ => of_get.bind fun _ => (writeReg .w r _).bind fun _ => (setFcw _).bind fun _ => of_pure _

theorem compareElement (wd : Width) (up : Bool) (d s r : Reg) (cc : CC) :
    Sparing s₀ xs (Machine.compareElement wd up d s r cc) :=
  (readPtr wd s).bind fun _ => (readReg wd d).bind fun _ => freeBool.bind fun _ => freeBool.bind fun _ =>
    (setFcw _).bind fun _ => (stepElement wd up s).bind fun _ => (countElement r).bind fun _ => of_pure _

theorem compareStrings (wd : Width) (up : Bool) (d s r : Reg) (cc : CC) :
    Sparing s₀ xs (Machine.compareStrings wd up d s r cc) :=
  (readPtr wd s).bind fun _ => (readPtr wd d).bind fun _ => (setFcw _).bind fun _ => (stepElement wd up d).bind fun _ =>
    (stepElement wd up s).bind fun _ => (countElement r).bind fun _ => of_pure _

theorem translateTest (up : Bool) (d t r : Reg) : Sparing s₀ xs (Machine.translateTest up d t r) :=
  (readPtr .b d).bind fun _ => (readTable t _).bind fun _ => (writeReg .b 1 _).bind fun _ => (setFcw _).bind fun _ =>
    (stepElement .b up d).bind fun _ => (countElement r).bind fun _ => of_pure _

theorem finishElement (wd : Width) (up : Bool) (p r : Reg) : Sparing s₀ xs (Machine.finishElement wd up p r) :=
  (stepElement wd up p).bind fun _ => freeZ.bind fun _ => countElement r

theorem deviceWord : Sparing s₀ xs Machine.deviceWord := by
  refine Keeps.of_ends fun s => ?_
  obtain ⟨v, rest, k, -, e⟩ := deviceWord_inv s
  exact .inl ⟨v, _, e, Spares.of_mem rfl⟩

theorem mapUnits (f : Mmu → Mmu) (s : State) : (s.mapUnits f).mem = s.mem := by
  obtain ⟨ms, e⟩ := State.mapUnits_inv f s
  rw [e]

theorem ioWrite (sp : IoSpace) (port : Word) (wd : Width) (v : Word) : Sparing s₀ xs (Machine.ioWrite sp port wd v) :=
  resetPoint.bind fun _ => (of_modify fun s => mapUnits _ s).bind fun _ => logEvent _

theorem outputFrom (sp : IoSpace) (wd : Width) (port : Word) (r : Reg) :
    Sparing s₀ xs (Machine.outputFrom sp wd port r) := of_get.bind fun _ => ioWrite sp port wd _

theorem outputElement (sp : IoSpace) (wd : Width) (up : Bool) (p q r : Reg) :
    Sparing s₀ xs (Machine.outputElement sp wd up p q r) :=
  (readPtr wd p).bind fun _ => of_get.bind fun _ => (ioWrite sp _ wd _).bind fun _ => finishElement wd up p r

theorem ioRead (sp : IoSpace) (port : Word) (wd : Width) : Sparing s₀ xs (Machine.ioRead sp port wd) := by
  refine resetPoint.bind fun _ s => KeepsAt.get_bind ?_
  dsimp only
  split
  · refine bindAt (of_set (mapUnits _ s)) fun _ => ?_
    split
    · exact (of_pure _).bind fun _ => (logEvent _).bind fun _ => of_pure _
    · exact deviceWord.bind fun _ => (logEvent _).bind fun _ => of_pure _
  · exact (deviceWord.bind fun _ => (logEvent _).bind fun _ => of_pure _ : Sparing s₀ xs _) s

theorem inputTo (sp : IoSpace) (wd : Width) (d : Reg) (port : Word) : Sparing s₀ xs (Machine.inputTo sp wd d port) :=
  (ioRead sp port wd).bind fun _ => resetPoint.bind fun _ => writeReg wd d _

theorem once {x : M Bool} {s : State} (h : KeepsAt (Spares s₀ xs) x s) : KeepsAt (Spares s₀ xs) (Machine.once x) s :=
  bindAt h fun _ => of_pure ()

theorem repeating {x : M Bool} {s : State} (h : KeepsAt (Spares s₀ xs) x s) :
    KeepsAt (Spares s₀ xs) (Machine.repeating x) s := by
  refine bindAt h fun done => ?_
  cases done with
  | true => exact of_pure ()
  | false => exact of_modify (f := fun s => { s with pcOff := s.instrPc })

theorem epuGive : Sparing s₀ xs Machine.epuGive := by
  intro s
  obtain ⟨v, rest, k, e⟩ := epuGive_inv s
  exact KeepsAt.of_ok e (Spares.of_mem rfl)

theorem epuNote (i : Instr) : Sparing s₀ xs (Machine.epuNote i) := by
  unfold Machine.epuNote
  split
  · exact logEvent _
  · exact of_pure ()

theorem memoryToEpu (l : Label) (a : Addr) (i k : Nat) : Sparing s₀ xs (Machine.memoryToEpu l a i k) := by
  induction k generalizing i with
  | zero => exact of_pure ()
  | succ k ih => exact (readWord l _).bind fun _ => of_get.bind fun _ => (logEvent _).bind fun _ => ih (i + 1)

theorem epuToRegs (r : Reg) (i k : Nat) : Sparing s₀ xs (Machine.epuToRegs r i k) := by
  induction k generalizing i with
  | zero => exact of_pure ()
  | succ k ih =>
    exact resetPoint.bind fun _ => epuGive.bind fun _ => of_get.bind fun _ => (logEvent _).bind fun _ =>
      (writeReg .w _ _).bind fun _ => ih (i + 1)

theorem regsToEpu (r : Reg) (i k : Nat) : Sparing s₀ xs (Machine.regsToEpu r i k) := by
  induction k generalizing i with
  | zero => exact of_pure ()
  | succ k ih =>
    exact resetPoint.bind fun _ => (readReg .w _).bind fun _ => of_get.bind fun _ => (logEvent _).bind fun _ => ih (i + 1)

theorem epuFlags : Sparing s₀ xs Machine.epuFlags :=
  resetPoint.bind fun _ => epuGive.bind fun _ => of_get.bind fun _ => (logEvent _).bind fun _ => (setFcw _).bind fun _ =>
    resetPoint.bind fun _ => (free 16).bind fun _ => writeReg .w 0 _

theorem readRefresh : Sparing s₀ xs Machine.readRefresh :=
  of_get.bind fun _ => ite ((free 8).bind fun _ => (free 7).bind fun _ => of_pure _)
    ((of_pure _).bind fun _ => (free 7).bind fun _ => of_pure _)

theorem readControl (c : CtlReg) : Sparing s₀ xs (Machine.readControl c) := by
  refine of_get.bind fun s => ?_
  cases c with
  | fcw | psapoff | nspoff => exact of_pure _
  | refresh => exact readRefresh
  | psapseg | nspseg => exact ite (of_pure _) (refuse _)

theorem writeControl (c : CtlReg) (v : Word) (s : State) : KeepsAt (Spares s₀ xs) (Machine.writeControl c v) s := by
  refine KeepsAt.get_bind ?_
  cases c with
  | fcw => exact setFcw _ s
  | refresh | psapoff | nspoff => exact of_set rfl
  | psapseg | nspseg =>
    dsimp only
    split
    · exact of_set rfl
    · exact refuse _ s

theorem delayLoop (d : Reg) : Sparing s₀ xs (Machine.delayLoop d) := by
  refine Keeps.of_ends fun s => ?_
  unfold Machine.delayLoop
  cases s.resetIn with
  | none => exact .inl ⟨(), _, rfl, Spares.of_mem (by simp)⟩
  | some k =>
    dsimp only
    split
    · exact .inr (.inl ⟨_, rfl, Spares.of_mem (by simp)⟩)
    · exact .inl ⟨(), _, rfl, Spares.of_mem (by simp)⟩

theorem multiMicroRequest (d : Reg) : Sparing s₀ xs (Machine.multiMicroRequest d) :=
  of_get.bind fun _ => ite ((setFcw _).bind fun _ => of_modify) <| (setFcw _).bind fun _ => bind of_modify fun _ =>
    (delayLoop d).bind fun _ => (setFcw _).bind fun _ => of_modify

theorem loadProgramStatus (l : Label) (a : Addr) : Sparing s₀ xs (Machine.loadProgramStatus l a) :=
  of_get.bind fun _ => ite
    ((readWord l _).bind fun _ => (readWord l _).bind fun _ => (readWord l _).bind fun _ => of_modify)
    ((readWord l _).bind fun _ => (readWord l _).bind fun _ => of_modify)

theorem returnSeg : Sparing s₀ xs Machine.returnSeg :=
  (pop 14 .w).bind fun _ => (pop 14 .w).bind fun _ => (pop 14 .l).bind fun _ => of_modify

theorem returnNonseg : Sparing s₀ xs Machine.returnNonseg :=
  (pop 15 .w).bind fun _ => (pop 15 .w).bind fun _ => (pop 15 .w).bind fun _ => of_modify

/-! What writes a store of the list. -/

section
variable {s : State}

/-- A word written where the store lies, and no MMU or place has changed. -/
theorem writeWord_sited {l : Label} {a : Addr} (v : Word) (hs : Sited s₀ s)
    (hx : ∀ k, (∀ x ∈ xs, k ∉ x.bytes s₀) → k ≠ s₀.key l a.even ∧ k ≠ s₀.key l a.even + 1) :
    KeepsAt (fun s t => Spares s₀ xs s t ∧ Sited s₀ t) (Machine.writeWord l a v) s := by
  have stored : Spares s₀ xs s (s.storeWord l a.even v) ∧ Sited s₀ (s.storeWord l a.even v) := by
    refine ⟨fun k hk => ?_, by simpa [State.plain] using hs.plain, hs.key⟩
    obtain ⟨h0, h1⟩ := hx k hk
    rw [← hs.key] at h0 h1
    exact Memory.read_writeWord_other s.mem _ k v h0 h1
  rcases writeWord_ends l a v s hs.plain with e | e
  · exact KeepsAt.of_ok e stored
  · exact KeepsAt.of_fault e

/-- A store of the list, of any width. -/
theorem writeMem {l : Label} {a : Addr} {wd : Width} (v : BitVec wd.bits) (hs : Sited s₀ s) (hx : ⟨l, a, wd⟩ ∈ xs) :
    KeepsAt (Spares s₀ xs) (Machine.writeMem l a wd v) s := by
  cases wd with
  | b =>
    have e := writeByte_plain l a v s hs.plain
    have stored : Spares s₀ xs s (s.storeByte l a v) := fun k hk =>
      Memory.read_write_other s.mem _ k v (by rw [hs.key]; simpa [StoreAt.bytes] using hk _ hx)
    exact KeepsAt.of_ok e stored
  | w =>
    refine KeepsAt.mono (Q := fun s t => Spares s₀ xs s t ∧ Sited s₀ t) (writeWord_sited v hs fun k hk => ?_) fun _ h => h.1
    simpa [StoreAt.bytes_word] using hk _ hx
  | l =>
    have apart (k : Nat) (hk : ∀ x ∈ xs, k ∉ x.bytes s₀) : (k ≠ s₀.key l a.even ∧ k ≠ s₀.key l a.even + 1) ∧
        k ≠ s₀.key l (a.add 2).even ∧ k ≠ s₀.key l (a.add 2).even + 1 := by
      simpa [StoreAt.bytes_long, and_assoc] using hk _ hx
    exact sitedBind (writeWord_sited _ hs fun k hk => (apart k hk).1) fun _ u hu =>
      KeepsAt.mono (Q := fun s t => Spares s₀ xs s t ∧ Sited s₀ t) (writeWord_sited _ hu fun k hk => (apart k hk).2) fun _ h => h.1

theorem writeM {m : Mem} {wd : Width} (v : BitVec wd.bits) (hp : s.plain) (hx : m.store wd s ⊆ xs) :
    KeepsAt (Spares s xs) (Machine.writeM wd m v) s :=
  KeepsAt.get_bind (writeMem v (Sited.refl hp) (hx List.mem_cons_self))

theorem writeBased {b : Based} {wd : Width} (v : BitVec wd.bits) (hp : s.plain) (hx : b.store wd s ⊆ xs) :
    KeepsAt (Spares s xs) (Machine.writeBased wd b v) s :=
  KeepsAt.get_bind (writeMem v (Sited.refl hp) (hx List.mem_cons_self))

theorem writeDst {d : Dst} {wd : Width} (v : BitVec wd.bits) (hp : s.plain) (hx : d.store wd s ⊆ xs) :
    KeepsAt (Spares s xs) (Machine.writeDst wd d v) s := by
  cases d with
  | reg r => exact writeReg wd r v s
  | mem m => exact writeM v hp hx

theorem writePtr {p : Reg} {wd : Width} (v : BitVec wd.bits) (hp : s.plain) (hx : ptrStore wd s p ⊆ xs) :
    KeepsAt (Spares s xs) (Machine.writePtr wd p v) s :=
  KeepsAt.get_bind (writeMem v (Sited.refl hp) (hx List.mem_cons_self))

theorem storeRelative {wd : Width} {disp : Word} {r : Reg} (hp : s.plain) (hx : ⟨.code, s.relative disp, wd⟩ ∈ xs) :
    KeepsAt (Spares s xs) (Machine.storeRelative wd disp r) s := KeepsAt.get_bind (writeMem _ (Sited.refl hp) hx)

theorem updateDst {d : Dst} {wd : Width} {f : BitVec wd.bits → BitVec wd.bits} {g : BitVec wd.bits → Fcw → Fcw}
    (hp : s.plain) (hx : d.store wd s ⊆ xs) : KeepsAt (Spares s xs) (Machine.updateDst wd d f g) s :=
  stillBind (Still.readDst hp wd d) fun _ => bindAt (writeDst _ hp hx) fun _ => setFcw _

theorem clearBit {d : Dst} {wd : Width} (k : Nat) (hp : s.plain) (hx : d.store wd s ⊆ xs) :
    KeepsAt (Spares s xs) (Machine.clearBit wd d k) s :=
  stillBind (Still.readDst hp wd d) fun _ => writeDst _ hp hx

theorem setBit {d : Dst} {wd : Width} (k : Nat) (hp : s.plain) (hx : d.store wd s ⊆ xs) :
    KeepsAt (Spares s xs) (Machine.setBit wd d k) s :=
  stillBind (Still.readDst hp wd d) fun _ => writeDst _ hp hx

/-- A change of the flag S leaves where an operand lies. -/
theorem store_setS (s : State) (d : Dst) (wd : Width) (b : Bool) :
    d.store wd (s.withFcw { s.fcw with s := b }) = d.store wd s := by
  cases d with
  | reg r => rfl
  | mem m => cases m <;> rfl

theorem testAndSet {d : Dst} {wd : Width} (hp : s.plain) (hx : d.store wd s ⊆ xs) :
    KeepsAt (Spares s xs) (Machine.testAndSet wd d) s :=
  stillBind (Still.readDst hp wd d) fun v => okBind (setFcw_apply _ s) rfl <|
    writeDst (s := s.withFcw _) _ hp ((store_setS s d wd v.msb).symm ▸ hx)

theorem exchange {d : Reg} {x : Dst} {wd : Width} (hp : s.plain) (hx : x.store wd s ⊆ xs) :
    KeepsAt (Spares s xs) (Machine.exchange wd d x) s :=
  stillBind (Still.readDst hp wd x) fun _ => stillBind (Still.readReg wd d s) fun _ => bindAt (writeDst _ hp hx)
    fun _ => resetPoint.bind fun _ => writeReg wd d _

theorem popTo {d : Dst} {sp : Reg} {wd : Width} (hp : s.plain) (hx : d.store wd s ⊆ xs) :
    KeepsAt (Spares s xs) (Machine.popTo wd d sp) s :=
  KeepsAt.get_bind <| stillBind (Still.readMem hp _ _ wd) fun _ => bindAt (writeDst _ hp hx) fun _ =>
    resetPoint.bind fun _ => of_modify

theorem push {n : Reg} {wd : Width} (v : BitVec wd.bits) (hp : s.plain) (hx : pushStore wd s n ⊆ xs) :
    KeepsAt (Spares s xs) (Machine.push n wd v) s :=
  KeepsAt.get_bind <| stillBind (Still.resetPoint hp) fun _ => okBind (M.modify_apply _ s) (by simp) <| KeepsAt.get_bind <|
    writeMem v (Sited.stepPtr hp n _) (hx List.mem_cons_self)

theorem pushPc (hp : s.plain) (hx : (if s.isSeg then pushStore .l s 14 else pushStore .w s 15) ⊆ xs) :
    KeepsAt (Spares s xs) Machine.pushPc s := by
  refine KeepsAt.get_bind ?_
  split at hx
  · rename_i hg
    rw [if_pos hg]
    exact push _ hp hx
  · rename_i hg
    rw [if_neg hg]
    exact push _ hp hx

theorem mem_wordStores (l : Label) (a : Addr) {n j : Nat} (h : j < 0 + n) : ⟨l, wordAfter a j, .w⟩ ∈ wordStores l a n :=
  List.mem_map.2 ⟨j, by simpa using h, rfl⟩

theorem storeMultiple {l : Label} {a : Addr} (r : Reg) (i k : Nat) (hs : Sited s₀ s)
    (hx : ∀ j < i + k, ⟨l, wordAfter a j, .w⟩ ∈ xs) : KeepsAt (Spares s₀ xs) (Machine.storeMultiple l a r i k) s := by
  induction k generalizing i s with
  | zero => exact of_pure () s
  | succ k ih =>
    refine stillBind (Still.readReg .w _ s) fun v => sitedBind (writeWord_sited v hs fun k hk => ?_) fun _ u hu =>
      ih (i + 1) hu fun j hj => hx j (by omega)
    simpa [StoreAt.bytes_word] using hk _ (hx i (by omega))

theorem moveElement {wd : Width} {up : Bool} {d p r : Reg} (hp : s.plain) (hx : ptrStore wd s d ⊆ xs) :
    KeepsAt (Spares s xs) (Machine.moveElement wd up d p r) s :=
  stillBind (Still.readPtr hp wd p) fun v => bindAt (writePtr v hp hx) fun _ => (stepElement wd up d).bind fun _ =>
    (stepElement wd up p).bind fun _ => freeZ.bind fun _ => countElement r

theorem translateElement {up : Bool} {d p r : Reg} (hp : s.plain) (hx : ptrStore .b s d ⊆ xs) :
    KeepsAt (Spares s xs) (Machine.translateElement up d p r) s :=
  stillBind (Still.readPtr hp .b d) fun b => stillBind (Still.readTable hp p b) fun v => bindAt (writePtr v hp hx)
    fun _ => (stepElement .b up d).bind fun _ => freeZ.bind fun _ => (countElement r).bind fun _ => resetPoint.bind
    fun _ => (free 8).bind fun _ => (writeReg .b 1 _).bind fun _ => of_pure _

/-- An I/O read moves no operand and no store (R76). -/
theorem inputElement {sp : IoSpace} {wd : Width} {up : Bool} {d q r : Reg} (hp : s.plain) (hx : ptrStore wd s d ⊆ xs) :
    KeepsAt (Spares s xs) (Machine.inputElement sp wd up d q r) s := by
  refine KeepsAt.get_bind ?_
  obtain ⟨v, rest, n, -, e⟩ := ioRead_plain sp (s.reg q) wd s hp.1 hp.2.2
  exact okBind e rfl <| bindAt (writePtr (s := { s with ioIn := rest, freeCount := n, events := _ }) _ hp hx) fun _ =>
    finishElement wd up d r

theorem epuGive_sited (hs : Sited s₀ s) : KeepsAt (fun s t => Spares s₀ xs s t ∧ Sited s₀ t) Machine.epuGive s := by
  obtain ⟨v, rest, k, e⟩ := epuGive_inv s
  exact KeepsAt.of_ok e ⟨Spares.of_mem rfl, hs.plain, hs.key⟩

theorem epuToMemory {l : Label} {a : Addr} (i k : Nat) (hs : Sited s₀ s)
    (hx : ∀ j < i + k, ⟨l, wordAfter a j, .w⟩ ∈ xs) : KeepsAt (Spares s₀ xs) (Machine.epuToMemory l a i k) s := by
  induction k generalizing i s with
  | zero => exact of_pure () s
  | succ k ih =>
    refine stillBind (Still.resetPoint hs.plain) fun _ => sitedBind (epuGive_sited hs) fun v u hu => sitedBind
      (writeWord_sited v hu fun k hk => ?_) fun _ w hw => KeepsAt.get_bind <| okBind (logEvent_apply _ w) rfl ?_
    · simpa [StoreAt.bytes_word] using hk _ (hx i (by omega))
    · exact ih (i + 1) ⟨hw.plain, hw.key⟩ fun j hj => hx j (by omega)

end

/-! Every instruction. -/

/-- An instruction's own effect writes no byte outside its stores. -/
theorem of_exec (i : Instr) (s t : State) (hp : s.plain) (hr : i.runs s = true) (h : exec i s = .next t) :
    Spares s (i.stores s) s t := by
  have sys : i.isPrivileged = true → s.fcw.sn = true := fun p => by simp_all [Instr.runs]
  have epu : i.isExtended = true → s.fcw.epa = true := fun p => by simp_all [Instr.runs]
  cases i with
  | clr d | clrb d => exact run (writeDst _ hp fun _ h => h) h
  | ex d x | exb d x => exact run (exchange hp fun _ h => h) h
  | ld d x | ldb d x | ldl d x => exact run (((readSrc x).bind fun _ => writeReg _ d _) s) h
  | ldBased d x | ldbBased d x | ldlBased d x => exact run (((readBased _ x).bind fun _ => writeReg _ d _) s) h
  | ldStore d x | ldbStore d x | ldlStore d x =>
    exact run (stillBind (Still.readReg _ x s) fun _ => writeM _ hp fun _ h => h) h
  | ldStoreBased d x | ldbStoreBased d x | ldlStoreBased d x =>
    exact run (stillBind (Still.readReg _ x s) fun _ => writeBased _ hp fun _ h => h) h
  | ldImm d v | ldbImm d v => exact run (writeM _ hp fun _ h => h) h
  | ldbShort d v => exact run (writeReg .b d v s) h
  | ldk d n => exact run (writeReg .w d _ s) h
  | lda d x => exact run (loadAddress d (Mem.ea s x) s) h
  | ldaBased d x => exact run (loadAddress d (Based.ea s x) s) h
  | ldar d x => exact run ((ite (writeReg .l d _) (loadAddress d (s.relative x))) s) h
  | ldmLoad d x n => exact run (loadMultiple (Mem.label s x) (Mem.ea s x) d 0 _ s) h
  | ldmStore d x n =>
    exact run (storeMultiple x 0 _ (Sited.refl hp) fun _ => mem_wordStores _ _) h
  | ldr d x | ldrb d x | ldrl d x =>
    exact run ((of_get.bind fun _ => (readMem _ _ _).bind fun _ => writeReg _ d _) s) h
  | ldrStore x r | ldrbStore x r | ldrlStore x r =>
    exact run (storeRelative hp List.mem_cons_self) h
  | pop d sp | popl d sp => exact run (popTo hp fun _ h => h) h
  | push sp x | pushl sp x =>
    exact run (stillBind (Still.readDst hp _ x) fun _ => push _ hp fun _ h => h) h
  | pushImm sp v => exact run (push _ hp fun _ h => h) h
  | adc d r => exact run (arithInto .w d (.reg r) addWith true Fcw.arith s) h
  | sbc d r => exact run (arithInto .w d (.reg r) subWith true Fcw.arith s) h
  | adcb d r => exact run (arithInto .b d (.reg r) addWith true (fun f x => f.arithB false x) s) h
  | sbcb d r => exact run (arithInto .b d (.reg r) subWith true (fun f x => f.arithB true x) s) h
  | add d x | addb d x | addl d x | sub d x | subb d x | subl d x => exact run (arithInto _ d x _ false _ s) h
  | cp d x | cpb d x | cpl d x =>
    exact run (((readSrc x).bind fun _ => (readReg _ d).bind fun _ => setFcw _) s) h
  | cpImm d v | cpbImm d v => exact run (((readM _ d).bind fun _ => setFcw _) s) h
  | dab d => exact run (decimalAdjust d s) h
  | inc d n | incb d n | dec d n | decb d n | neg d | negb d | com d | comb d =>
    exact run (updateDst hp fun _ h => h) h
  | extsb d | exts d => exact run (writeReg _ d _ s) h
  | extsl d => exact run ((of_modify (f := fun s => s.setRegQ d ((s.regL (d + 2)).signExtend 64))) s) h
  | mult d x =>
    exact run (((readSrc x).bind fun _ => (readReg .w _).bind fun _ => (writeReg .l d _).bind fun _ => setFcw _) s) h
  | multl d x =>
    exact run (((readSrc x).bind fun _ => (readReg .l _).bind fun _ => bind of_modify fun _ => setFcw _) s) h
  | div d x =>
    exact run (((readSrc x).bind fun _ => (readReg .l d).bind fun _ => finishDivide (fun _ _ => writeReg .l d _) _) s) h
  | divl d x =>
    exact run (((readSrc x).bind fun _ => of_get.bind fun _ => finishDivide (fun _ _ => of_modify) _) s) h
  | and d x | andb d x | or d x | orb d x | xor d x | xorb d x => exact run (logicInto _ d x _ _ s) h
  | test d | testb d => exact run (((readDst _ d).bind fun _ => setFcw _) s) h
  | testl d => exact run (((readDst _ d).bind fun _ => freeBool.bind fun _ => setFcw _) s) h
  | tcc cc d | tccb cc d => exact run ((of_get.bind fun _ => ite (writeReg _ d _) (of_pure ())) s) h
  | call x => exact run (bindAt (pushPc hp fun _ h => h) fun _ => of_modify) h
  | calr disp => exact run (bindAt (pushPc hp fun _ h => h) fun _ => of_modify) h
  | djnz r disp | dbjnz r disp =>
    exact run ((of_get.bind fun _ => (writeReg _ r _).bind fun _ => ite (of_pure ()) of_modify) s) h
  | jp cc x => exact run ((ite of_modify (of_pure ())) s) h
  | jr cc disp => exact run ((ite of_modify (of_pure ())) s) h
  | ret cc => exact run ((ite popPc (of_pure ())) s) h
  | iret =>
    exact run (system (sys rfl) ((of_get.bind fun _ => ite returnSeg (ite returnNonseg (refuse _))) s)) h
  | sc n => simp [Instr.runs] at hr
  | bit d k | bitb d k => exact run (testBit _ d _ s) h
  | bitDyn d r | bitbDyn d r => exact run (testBit _ (.reg d) _ s) h
  | res d k | resb d k => exact run (clearBit _ hp fun _ h => h) h
  | resDyn d r | resbDyn d r => exact run (clearBit (d := .reg d) _ hp fun _ h => h) h
  | set d k | setb d k => exact run (setBit _ hp fun _ h => h) h
  | setDyn d r | setbDyn d r => exact run (setBit (d := .reg d) _ hp fun _ h => h) h
  | tset d | tsetb d => exact run (testAndSet hp fun _ h => h) h
  | rl d n | rlb d n | rlc d n | rlcb d n | rr d n | rrb d n | rrc d n | rrcb d n => exact run (rotate _ d _ n s) h
  | rldb d r | rrdb d r =>
    exact run (rotateDigit d _ r s) h
  | sla d n | slab d n | slal d n => exact run (shiftLeftArith _ d n s) h
  | sll d n | sllb d n | slll d n => exact run (shiftLeftLogical _ d n s) h
  | sra d n | srab d n | sral d n => exact run (shiftRightArith _ d n s) h
  | srl d n | srlb d n | srll d n => exact run (shiftRightLogical _ d n s) h
  | sda d r | sdab d r | sdal d r =>
    exact run (shiftDynamic _ d r (fun n => shiftLeftArith _ d n) (fun n => shiftRightArith _ d n) s) h
  | sdl d r | sdlb d r | sdll d r =>
    exact run (shiftDynamic _ d r (fun n => shiftLeftLogical _ d n) (fun n => shiftRightLogical _ d n) s) h
  | cpi d p r cc | cpib d p r cc | cpd d p r cc | cpdb d p r cc => exact run (once (compareElement _ _ d p r cc s)) h
  | cpir d p r cc | cpirb d p r cc | cpdr d p r cc | cpdrb d p r cc =>
    exact run (repeating (compareElement _ _ d p r cc s)) h
  | cpsi d p r cc | cpsib d p r cc | cpsd d p r cc | cpsdb d p r cc =>
    exact run (once (compareStrings _ _ d p r cc s)) h
  | cpsir d p r cc | cpsirb d p r cc | cpsdr d p r cc | cpsdrb d p r cc =>
    exact run (repeating (compareStrings _ _ d p r cc s)) h
  | ldi d p r | ldib d p r | ldd d p r | lddb d p r => exact run (once (moveElement hp fun _ h => h)) h
  | ldir d p r | ldirb d p r | lddr d p r | lddrb d p r => exact run (repeating (moveElement hp fun _ h => h)) h
  | trib d p r | trdb d p r => exact run (once (translateElement hp fun _ h => h)) h
  | trirb d p r | trdrb d p r => exact run (repeating (translateElement hp fun _ h => h)) h
  | trtib d p r | trtdb d p r => exact run (once (translateTest _ d p r s)) h
  | trtirb d p r | trtdrb d p r => exact run (repeating (translateTest _ d p r s)) h
  | inIr d r | inbIr d r | inDa d r | inbDa d r | sin d r | sinb d r =>
    exact run (system (sys rfl) (inputTo _ _ d _ s)) h
  | outIr d r | outbIr d r | outDa d r | outbDa d r | sout d r | soutb d r =>
    exact run (system (sys rfl) (outputFrom _ _ _ r s)) h
  | ini d p r | inib d p r | ind d p r | indb d p r | sini d p r | sinib d p r | sind d p r | sindb d p r =>
    exact run (system (sys rfl) (once (inputElement hp fun _ h => h))) h
  | inir d p r | inirb d p r | indr d p r | indrb d p r | sinir d p r | sinirb d p r | sindr d p r | sindrb d p r =>
    exact run (system (sys rfl) (repeating (inputElement hp fun _ h => h))) h
  | outi d p r | outib d p r | outd d p r | outdb d p r | souti d p r | soutib d p r | soutd d p r | soutdb d p r =>
    exact run (system (sys rfl) (once (outputElement _ _ _ p d r s))) h
  | otir d p r | otirb d p r | otdr d p r | otdrb d p r | sotir d p r | sotirb d p r | sotdr d p r | sotdrb d p r =>
    exact run (system (sys rfl) (repeating (outputElement _ _ _ p d r s))) h
  | comflg c z g p | resflg c z g p | setflg c z g p | ldctlbWrite r =>
    simp only [exec, execComflg, execResflg, execSetflg, execLdctlbWrite] at h
    exact run (setFcw _ s) h
  | ei a b | di a b => exact run (system (sys rfl) (setFcw _ s)) h
  | halt | mres | mset => exact run (system (sys rfl) ((of_modify : Sparing s _ _) s)) h
  | ldctlWrite c r => exact run (system (sys rfl) (writeControl c (s.reg r) s)) h
  | ldctlRead d c => exact run (system (sys rfl) (((readControl c).bind fun _ => writeReg .w d _) s)) h
  | ldctlbRead d => exact run (writeReg .b d _ s) h
  | ldps x => exact run (system (sys rfl) (loadProgramStatus _ _ s)) h
  | mbit => exact run (system (sys rfl) ((freeBool.bind fun _ => setFcw _) s)) h
  | mreq d => exact run (system (sys rfl) (multiMicroRequest d s)) h
  | nop => exact run (of_pure () s) h
  | epuLdmFrom x ii w2 =>
    obtain ⟨e, noted⟩ := epuNote_inv (.epuLdmFrom x ii w2) s
    have stored : KeepsAt (Spares s (Instr.stores s (.epuLdmFrom x ii w2)))
        (Machine.epuToMemory (Mem.label s x).epu (Mem.ea s x) 0 (epuCount w2)) { s with events := e } :=
      epuToMemory 0 _ ⟨hp, fun _ _ => rfl⟩ fun _ => mem_wordStores _ _
    exact run (present (epu rfl) (okBind noted rfl stored)) h
  | epuLdmTo x ii w2 =>
    exact run (present (epu rfl) (((epuNote _).bind fun _ => memoryToEpu _ _ 0 _) s)) h
  | epuLdrFrom x ii w2 => exact run (present (epu rfl) (((epuNote _).bind fun _ => epuToRegs _ 0 _) s)) h
  | epuLdrTo x ii w2 => exact run (present (epu rfl) (((epuNote _).bind fun _ => regsToEpu _ 0 _) s)) h
  | epuLdfFrom x ii w2 => exact run (present (epu rfl) (((epuNote _).bind fun _ => epuFlags) s)) h
  | epuLdfTo x ii w2 =>
    exact run (present (epu rfl) (((epuNote _).bind fun _ => resetPoint.bind fun _ => logEvent _) s)) h
  | epuOp x ii w2 => exact run (present (epu rfl) (epuNote _ s)) h

end Sparing

/-- Settles O58, by `Sparing.of_exec`. -/
theorem frameMemory : Obligations.FrameMemory := fun s t i hp hr h => Sparing.of_exec i s t hp hr h

end Sys2Proof.Machine
end

section
/-! PROOF. A word access at an odd address stops the run, in every operation and form that makes one (R80, U1). -/

namespace Sys2Proof.Machine

open Sys2Proof

/-! Odd addresses. -/

/-- The addresses that an access of this width may not have: the odd ones, of words and long words (R80). -/
theorem Addr.unaligned_iff {a : Addr} {wd : Width} : a.aligned wd = false ↔ wd ≠ .b ∧ a.off.getLsbD 0 = true := by
  simp [Addr.aligned]

/-- The offset of an address register is its offset register (R75, R84). -/
theorem State.addrOf_off (s : State) (n : Reg) : (s.addrOf n).off = s.reg (s.offReg n) := by
  unfold State.addrOf State.offReg
  split <;> rfl

/-- A step by an even number keeps the parity of where the pointer points (R84). -/
theorem State.addrOf_stepPtr_lsb (s : State) (n : Reg) (k : Word) (hk : k.getLsbD 0 = false) :
    ((s.stepPtr n k).addrOf n).off.getLsbD 0 = (s.addrOf n).off.getLsbD 0 := by
  have same : (s.stepPtr n k).offReg n = s.offReg n := by simp [State.offReg]
  rw [State.addrOf_off, State.addrOf_off, same, State.reg_stepPtr, if_pos rfl, lsb_add_even _ _ hk]

/-- So an element of a stack that lies at an odd address does so after the pointer moved. -/
theorem State.addrOf_stepPtr_unaligned {s : State} {n : Reg} {wd : Width} (h : (s.addrOf n).aligned wd = false) :
    ((s.stepPtr n (-(BitVec.ofNat 16 wd.bytes))).addrOf n).aligned wd = false := by
  obtain ⟨wide, odd⟩ := Addr.unaligned_iff.1 h
  exact Addr.unaligned_iff.2 ⟨wide, (State.addrOf_stepPtr_lsb s n _ (stackStep_even wd wide)).trans odd⟩

theorem wordAfter_zero (a : Addr) : wordAfter a 0 = a := a.add_zero

/-! Operations that stop. -/

/-- An odd word address stops this operation (U1, log 11). -/
def Stops {α : Type} (x : M α) (s : State) : Prop := x s = .error (.fault .oddWordAddress)

/-- Odd word addresses stop the run (U1), and RESET does not fall inside (R702). -/
structure State.Strict (s : State) : Prop where
  keepsBit0 : s.cfg.dropAddressBit0 = false
  noReset : s.resetIn = none

namespace Stops

variable {α β : Type} {x : M α} {f : α → M β} {s t : State} {a : α}

theorem bind (h : Stops x s) : Stops (x >>= f) s := M.bind_fault h

theorem after (e : x s = .ok (a, t)) (h : Stops (f a) t) : Stops (x >>= f) s := (M.bind_ok e).trans h

theorem get {f : State → M α} (h : Stops (f s) s) : Stops (MonadState.get >>= f) s := after (M.get_apply s) h

theorem system {x : M Unit} (hs : s.fcw.sn = true) (h : Stops x s) : Stops (privileged x) s :=
  (privileged_system x s hs).trans h

theorem present {x : M Unit} (he : s.fcw.epa = true) (h : Stops x s) : Stops (extended x) s :=
  (extended_present x s he).trans h

end Stops

/-- An odd word address stops each of these instructions. -/
def StopsAll (s : State) (is : List Instr) : Prop := ∀ i ∈ is, exec i s = .fault .oddWordAddress

namespace StopsAll

variable {s : State} {i : Instr} {is : List Instr} {x : M Unit}

theorem nil : StopsAll s [] := List.forall_mem_nil _

/-- An instruction stops where what it runs stops. -/
theorem cons (e : exec i s = M.run x s) (h : Stops x s) (rest : StopsAll s is) : StopsAll s (i :: is) :=
  List.forall_mem_cons.2 ⟨e.trans (M.run_fault h), rest⟩

end StopsAll

/-! Accesses (R78, R80). -/

namespace State.Strict

variable {s : State} (hs : s.Strict) {l : Label} {a : Addr} {wd : Width}
include hs

theorem resetPoint : Machine.resetPoint s = .ok ((), s) := resetPoint_none s hs.noReset

theorem translate {w : Bool} (ha : a.off.getLsbD 0 = true) : Stops (Machine.translate l a w true) s :=
  .after hs.resetPoint (.bind (evenAddr_odd a s ha hs.keepsBit0))

theorem readWord (ha : a.off.getLsbD 0 = true) : Stops (Machine.readWord l a) s := .bind (hs.translate ha)

theorem writeWord (v : Word) (ha : a.off.getLsbD 0 = true) : Stops (Machine.writeWord l a v) s :=
  .bind (hs.translate ha)

theorem readMem (ha : a.aligned wd = false) : Stops (Machine.readMem l a wd) s := by
  obtain ⟨wide, odd⟩ := Addr.unaligned_iff.1 ha
  cases wd with
  | b => exact absurd rfl wide
  | w => exact hs.readWord odd
  | l => exact .bind (hs.readWord odd)

theorem writeMem (v : BitVec wd.bits) (ha : a.aligned wd = false) : Stops (Machine.writeMem l a wd v) s := by
  obtain ⟨wide, odd⟩ := Addr.unaligned_iff.1 ha
  cases wd with
  | b => exact absurd rfl wide
  | w => exact hs.writeWord v odd
  | l => exact .bind (hs.writeWord _ odd)

theorem fetchWord (ha : s.pc.aligned .w = false) : Stops (Machine.fetchWord l) s :=
  .get (.bind (hs.readWord (Addr.unaligned_iff.1 ha).2))

/-! The stack (R86). -/

variable {n : Reg}

theorem stepPtr (k : Word) : (s.stepPtr n k).Strict :=
  ⟨by simpa using hs.keepsBit0, by simpa using hs.noReset⟩

theorem pushAs (v : BitVec wd.bits) (ha : (s.addrOf n).aligned wd = false) : Stops (Machine.pushAs l n wd v) s :=
  .after hs.resetPoint <| .after (M.modify_apply _ s) <| .get <|
    (hs.stepPtr _).writeMem v (State.addrOf_stepPtr_unaligned ha)

theorem push (v : BitVec wd.bits) (ha : (s.addrOf n).aligned wd = false) : Stops (Machine.push n wd v) s :=
  .get (hs.pushAs v ha)

theorem pop (ha : (s.addrOf n).aligned wd = false) : Stops (Machine.pop n wd) s := .get (.bind (hs.readMem ha))

/-! Operands (R135 to R147). -/

variable {m : Mem} {b : Based}

theorem readM (hm : m.ready wd s = false) : Stops (Machine.readM wd m) s := .get (hs.readMem hm)

theorem writeM (v : BitVec wd.bits) (hm : m.ready wd s = false) : Stops (Machine.writeM wd m v) s :=
  .get (hs.writeMem v hm)

theorem readBased (hb : b.ready wd s = false) : Stops (Machine.readBased wd b) s := .get (hs.readMem hb)

theorem writeBased (v : BitVec wd.bits) (hb : b.ready wd s = false) : Stops (Machine.writeBased wd b v) s :=
  .get (hs.writeMem v hb)

theorem readPtr (hp : (s.addrOf n).aligned wd = false) : Stops (Machine.readPtr wd n) s := .get (hs.readMem hp)

theorem writePtr (v : BitVec wd.bits) (hp : (s.addrOf n).aligned wd = false) : Stops (Machine.writePtr wd n v) s :=
  .get (hs.writeMem v hp)

end State.Strict

/-! The instructions, by what their operation does first. -/

theorem ea_odd {s : State} {m : Mem} (hm : m.ready .w s = false) : (Mem.ea s m).off.getLsbD 0 = true :=
  (Addr.unaligned_iff.1 hm).2

namespace State.Strict

variable {s : State} (hs : s.Strict) {m : Mem}
include hs

/-- An instruction that reads an odd operand first (R80). -/
theorem reads {i : Instr} {is : List Instr} {wd : Width} {f : BitVec wd.bits → M Unit}
    (e : exec i s = M.run (Machine.readM wd m >>= f) s) (hm : m.ready wd s = false) (rest : StopsAll s is) :
    StopsAll s (i :: is) :=
  .cons e (.bind (hs.readM hm)) rest

/-! Registers and several words (R220, R478, R502, R503). -/

variable {l : Label} {a : Addr}

theorem loadMultiple (r : Reg) (k : Nat) (ha : a.off.getLsbD 0 = true) :
    Stops (Machine.loadMultiple l a r 0 (k + 1)) s := by
  refine .bind (hs.readWord ?_)
  rwa [wordAfter_zero]

theorem storeMultiple (r : Reg) (k : Nat) (ha : a.off.getLsbD 0 = true) :
    Stops (Machine.storeMultiple l a r 0 (k + 1)) s := by
  refine .after rfl (.bind (hs.writeWord _ ?_))
  rwa [wordAfter_zero]

theorem loadProgramStatus (ha : a.off.getLsbD 0 = true) : Stops (Machine.loadProgramStatus l a) s := by
  have second : (a.add 2).off.getLsbD 0 = true := (lsb_add_even a.off 2 (by decide)).trans ha
  unfold Machine.loadProgramStatus
  refine .get ?_
  split
  · exact .bind (hs.readWord second)
  · exact .bind (hs.readWord ha)

theorem epuToMemory (k : Nat) (ha : a.off.getLsbD 0 = true) : Stops (Machine.epuToMemory l a 0 (k + 1)) s := by
  obtain ⟨v, rest, n, given⟩ := epuGive_inv s
  have strict : State.Strict { s with epuIn := rest, freeCount := n } := ⟨hs.keepsBit0, hs.noReset⟩
  refine .after hs.resetPoint (.after given (.bind (strict.writeWord v ?_)))
  rwa [wordAfter_zero]

theorem memoryToEpu (k : Nat) (ha : a.off.getLsbD 0 = true) : Stops (Machine.memoryToEpu l a 0 (k + 1)) s := by
  refine .bind (hs.readWord ?_)
  rwa [wordAfter_zero]

/-! The forms with a word or a long word in memory. -/

variable (hm : m.ready .w s = false)
include hm

theorem moves (d sp : Reg) (n : Fin 16) (v : Word) :
    StopsAll s [.ld d (.mem m), .ldl d (.mem m), .ldStore m d, .ldlStore m d, .ldImm m v, .clr (.mem m), .ex d (.mem m),
      .ldmLoad d m n, .ldmStore m d n, .push sp (.mem m), .pushl sp (.mem m)] :=
  hs.reads rfl hm <| hs.reads rfl hm <| .cons rfl (.after rfl (hs.writeM _ hm)) <|
    .cons rfl (.after rfl (hs.writeM _ hm)) <| .cons rfl (hs.writeM _ hm) <| .cons rfl (hs.writeM _ hm) <|
    hs.reads rfl hm <| .cons rfl (hs.loadMultiple d n.val (ea_odd hm)) <|
    .cons rfl (hs.storeMultiple d n.val (ea_odd hm)) <| hs.reads rfl hm <| hs.reads rfl hm .nil

theorem arithmetic (d : Reg) (n : Fin 16) (v : Word) :
    StopsAll s [.add d (.mem m), .addl d (.mem m), .sub d (.mem m), .subl d (.mem m), .cp d (.mem m), .cpl d (.mem m),
      .cpImm m v, .inc (.mem m) n, .dec (.mem m) n, .neg (.mem m), .mult d (.mem m), .multl d (.mem m),
      .div d (.mem m), .divl d (.mem m)] := by
  iterate 14 refine hs.reads rfl hm ?_
  exact .nil

theorem logic (d : Reg) (n : Fin 16) :
    StopsAll s [.and d (.mem m), .or d (.mem m), .xor d (.mem m), .com (.mem m), .test (.mem m), .testl (.mem m),
      .bit (.mem m) n, .res (.mem m) n, .set (.mem m) n, .tset (.mem m)] := by
  iterate 10 refine hs.reads rfl hm ?_
  exact .nil

theorem ldps (sn : s.fcw.sn = true) : StopsAll s [.ldps m] :=
  .cons rfl (.system sn (hs.loadProgramStatus (ea_odd hm))) .nil

theorem epuTransfers (epa : s.fcw.epa = true) (ii : Fin 4) (w2 : Word) :
    StopsAll s [.epuLdmFrom m ii w2, .epuLdmTo m ii w2] := by
  obtain ⟨e, fromNoted⟩ := epuNote_inv (.epuLdmFrom m ii w2) s
  obtain ⟨e', toNoted⟩ := epuNote_inv (.epuLdmTo m ii w2) s
  have strict (e : List BusEvent) : State.Strict { s with events := e } := ⟨hs.keepsBit0, hs.noReset⟩
  exact .cons rfl (.present epa (.after fromNoted ((strict e).epuToMemory _ (ea_odd hm)))) <|
    .cons rfl (.present epa (.after toNoted ((strict e').memoryToEpu _ (ea_odd hm)))) .nil

theorem popsToMemory {sp : Reg} (hp : s.plain) (he : (s.addrOf sp).aligned .w = true) :
    StopsAll s [.pop (.mem m) sp, .popl (.mem m) sp] := by
  have pops (wd : Width) (hm : m.ready wd s = false) : Stops (popTo wd (.mem m) sp) s :=
    .get (.after (readMem_plain _ _ wd s hp (Addr.aligned_of_word _ wd he)) (.bind (hs.writeM _ hm)))
  exact .cons rfl (pops .w hm) <| .cons rfl (pops .l hm) .nil

end State.Strict

/-! The stack of CALL, RET and IRET is RR14 or R15, by the mode (R86). -/

theorem stack_seg {s : State} (hk : s.stackReady = false) (hg : s.isSeg = true) : (s.addrOf 14).aligned .w = false := by
  have sp : s.spReg = 14 := if_pos hg
  rwa [State.stackReady, sp] at hk

theorem stack_nonseg {s : State} (hk : s.stackReady = false) (hg : ¬s.isSeg = true) :
    (s.addrOf 15).aligned .w = false := by
  have sp : s.spReg = 15 := if_neg hg
  rwa [State.stackReady, sp] at hk

/-- A word-wide I/O read selects no MMU (R118): the device answers, and no pointer changes. -/
theorem ioRead_word (sp : IoSpace) (port : Word) {s : State} (hi : s.resetIn = none) :
    ∃ v ws k es, ioRead sp port .w s = .ok (v, { s with ioIn := ws, freeCount := k, events := es }) := by
  have unselected : s.units.find? (mmuSelected sp .w port) = none :=
    List.find?_eq_none.2 fun m _ => by simp [mmuSelected]
  obtain ⟨v, ws, k, -, given⟩ := deviceWord_inv s
  refine ⟨v, ws, k, .ioRead sp port Width.w.bytes v :: s.events, ?_⟩
  unfold ioRead
  rw [M.bind_ok (resetPoint_none s hi), M.bind_ok (M.get_apply s), unselected]
  exact M.bind_ok given

/-- The acknowledge reads the bus and may release SEGT (R116, R619). -/
theorem acknowledge_inv (k : Exc) (s : State) :
    ∃ id ms es, acknowledge k s = .ok (id, { s with mmus := ms, events := es }) := by
  unfold acknowledge
  rw [M.bind_ok (M.get_apply s)]
  split
  · obtain ⟨ms, released⟩ := State.mapUnits_inv (fun m => { m with segt := false }) s
    rw [M.bind_ok (M.modify_apply _ s), released]
    exact ⟨_, ms, .acknowledge k _ :: s.events, rfl⟩
  · exact ⟨_, s.mmus, .acknowledge k _ :: s.events, rfl⟩

namespace State.Strict

variable {s : State} (hs : s.Strict)
include hs

theorem basedMoves {b : Based} (hb : b.ready .w s = false) (d : Reg) :
    StopsAll s [.ldBased d b, .ldlBased d b, .ldStoreBased b d, .ldlStoreBased b d] :=
  .cons rfl (.bind (hs.readBased hb)) <| .cons rfl (.bind (hs.readBased hb)) <|
    .cons rfl (.after rfl (hs.writeBased _ hb)) <| .cons rfl (.after rfl (hs.writeBased _ hb)) .nil

theorem relativeMoves {disp : Word} (ha : (s.relative disp).aligned .w = false) (d : Reg) :
    StopsAll s [.ldr d disp, .ldrl d disp, .ldrStore disp d, .ldrlStore disp d] := by
  have loads (wd : Width) (ha : (s.relative disp).aligned wd = false) : Stops (loadRelative wd d disp) s :=
    .get (.bind (hs.readMem ha))
  have stores (wd : Width) (ha : (s.relative disp).aligned wd = false) : Stops (storeRelative wd disp d) s :=
    .get (hs.writeMem _ ha)
  exact .cons rfl (loads .w ha) <| .cons rfl (loads .l ha) <| .cons rfl (stores .w ha) <| .cons rfl (stores .l ha) .nil

/-! The stack: POP, PUSH, CALL, RET, IRET (R228, R230, R301, R306, R307). -/

theorem stackForms {sp : Reg} (ha : (s.addrOf sp).aligned .w = false) (x : Dst) (r : Reg) (v : Word) :
    StopsAll s [.pop x sp, .popl x sp, .push sp (.reg r), .pushl sp (.reg r), .pushImm sp v] := by
  have pops (wd : Width) (ha : (s.addrOf sp).aligned wd = false) : Stops (popTo wd x sp) s :=
    .get (.bind (hs.readMem ha))
  have pushes (wd : Width) (ha : (s.addrOf sp).aligned wd = false) : Stops (pushFrom wd sp (.reg r)) s :=
    .after (readReg_apply wd r s) (hs.push _ ha)
  exact .cons rfl (pops .w ha) <| .cons rfl (pops .l ha) <| .cons rfl (pushes .w ha) <| .cons rfl (pushes .l ha) <|
    .cons rfl (hs.push (wd := .w) v ha) .nil

theorem pushesOfOperand {sp : Reg} {x : Dst} (ha : (s.addrOf sp).aligned .w = false) (hp : s.plain)
    (hx : x.ready .w s = true) : StopsAll s [.push sp x, .pushl sp x] := by
  have long : x.ready .l s = true := by
    cases x with
    | reg => rfl
    | mem m => exact Addr.aligned_of_word _ .l hx
  have pushes (wd : Width) (hx : x.ready wd s = true) (ha : (s.addrOf sp).aligned wd = false) :
      Stops (pushFrom wd sp x) s := .after (readDst_plain wd x s hp hx) (hs.push _ ha)
  exact .cons rfl (pushes .w hx ha) <| .cons rfl (pushes .l long ha) .nil

theorem pushPc (hk : s.stackReady = false) : Stops Machine.pushPc s := by
  refine .get ?_
  split
  next seg => exact hs.push _ (stack_seg hk seg)
  next nonseg => exact hs.push _ (stack_nonseg hk nonseg)

theorem popPc (hk : s.stackReady = false) : Stops Machine.popPc s := by
  refine .get ?_
  split
  next seg => exact .bind (hs.pop (stack_seg hk seg))
  next nonseg => exact .bind (hs.pop (stack_nonseg hk nonseg))

theorem calls (hk : s.stackReady = false) (t : Mem) (disp : BitVec 12) : StopsAll s [.call t, .calr disp] :=
  .cons rfl (.bind (hs.pushPc hk)) <| .cons rfl (.bind (hs.pushPc hk)) .nil

theorem returns (hk : s.stackReady = false) {cc : CC} (hc : s.fcw.cond cc = true) : StopsAll s [.ret cc] :=
  .cons (congrFun (congrArg M.run (if_pos hc)) s) (hs.popPc hk) .nil

theorem exceptionReturn (hk : s.stackReady = false) (sn : s.fcw.sn = true)
    (hv : s.isSeg = true ∨ s.cfg.version = .z8002) : StopsAll s [.iret] := by
  refine .cons rfl (.system sn (.get ?_)) .nil
  split
  next seg => exact .bind (hs.pop (stack_seg hk seg))
  next nonseg =>
    rw [if_pos (hv.resolve_left nonseg)]
    exact .bind (hs.pop (stack_nonseg hk nonseg))

/-! The word block forms (R370 to R397, R428). -/

theorem stringForms {p : Reg} (ha : (s.addrOf p).aligned .w = false) (d r : Reg) (cc : CC) :
    StopsAll s [.cpi d p r cc, .cpir d p r cc, .cpd d p r cc, .cpdr d p r cc, .cpsi d p r cc, .cpsir d p r cc,
      .cpsd d p r cc, .cpsdr d p r cc, .ldi d p r, .ldir d p r, .ldd d p r, .lddr d p r] := by
  iterate 12 refine .cons rfl (.bind (.bind (hs.readPtr ha))) ?_
  exact .nil

/-- The transfer from the port comes before the access through the pointer (R428). -/
theorem inputElement {p : Reg} (ha : (s.addrOf p).aligned .w = false) (sp : IoSpace) (up : Bool) (q r : Reg) :
    Stops (Machine.inputElement sp .w up p q r) s := by
  obtain ⟨v, ws, k, es, read⟩ := ioRead_word sp (s.reg q) hs.noReset
  have strict : State.Strict { s with ioIn := ws, freeCount := k, events := es } := ⟨hs.keepsBit0, hs.noReset⟩
  exact .get (.after read (.bind (strict.writePtr _ ha)))

theorem blockIo {p : Reg} (ha : (s.addrOf p).aligned .w = false) (sn : s.fcw.sn = true) (d r : Reg) :
    StopsAll s [.ini p d r, .inir p d r, .ind p d r, .indr p d r, .sini p d r, .sinir p d r,
      .sind p d r, .sindr p d r, .outi d p r, .otir d p r, .outd d p r, .otdr d p r, .souti d p r, .sotir d p r,
      .soutd d p r, .sotdr d p r] := by
  iterate 8 refine .cons rfl (.system sn (.bind (hs.inputElement ha _ _ d r))) ?_
  iterate 8 refine .cons rfl (.system sn (.bind (.bind (hs.readPtr ha)))) ?_
  exact .nil

/-- The source is read first (D23): it is even, and the access through the other pointer stops. -/
theorem stringPairs {d p : Reg} (ha : (s.addrOf d).aligned .w = false) (hp : s.plain)
    (he : (s.addrOf p).aligned .w = true) (r : Reg) (cc : CC) :
    StopsAll s [.cpsi d p r cc, .cpsir d p r cc, .cpsd d p r cc, .cpsdr d p r cc, .ldi d p r, .ldir d p r, .ldd d p r,
      .lddr d p r] := by
  have source := readPtr_plain .w p s hp he
  iterate 4 refine .cons rfl (.bind (.after source (.bind (hs.readPtr ha)))) ?_
  iterate 4 refine .cons rfl (.bind (.after source (.bind (hs.writePtr _ ha)))) ?_
  exact .nil

/-! Entries (R600 to R621). -/

/-- The first push of an entry goes to the system stack, whichever mode the machine was in (R620). -/
theorem enter (hk : s.systemStackReady = false) (k : Exc) (id : Word) (pcs : Addr) :
    Stops (Machine.enter k id pcs) s := by
  have odd : s.sysR15.getLsbD 0 = true := by simpa [State.systemStackReady] using hk
  have strict : s.forceSystem.Strict := ⟨hs.keepsBit0, hs.noReset⟩
  unfold Machine.enter
  refine .get (.after (M.modify_apply _ s) ?_)
  cases hv : s.cfg.version with
  | z8002 =>
    have stack : (s.forceSystem.addrOf 15).off = s.sysR15 := by
      simp [State.addrOf, State.isSeg, State.forceSystem, hv, State.reg]
    exact .bind (strict.pushAs _ (Addr.unaligned_iff.2 ⟨nofun, by rw [stack, odd]⟩))
  | z8001 =>
    have stack : (s.forceSystem.addrOf 14).off = s.sysR15 := by
      simp [State.addrOf, State.isSeg, State.forceSystem, hv, State.reg]
    exact .bind (strict.pushAs _ (Addr.unaligned_iff.2 ⟨nofun, by rw [stack, odd]⟩))

theorem trapOnFirstWord (hk : s.systemStackReady = false) (k : Exc) : Stops (Machine.trapOnFirstWord k) s :=
  .get (hs.enter hk k _ _)

theorem systemCall (hk : s.systemStackReady = false) (n : Byte) : StopsAll s [.sc n] :=
  .cons rfl (hs.enter hk _ _ _) .nil

theorem privilegedTrap (hk : s.systemStackReady = false) {i : Instr} (hi : i.isPrivileged = true)
    (sn : s.fcw.sn = false) : StopsAll s [i] :=
  .cons (exec_privileged_normal i hi sn) (hs.trapOnFirstWord hk _) .nil

theorem extendedTrap (hk : s.systemStackReady = false) {i : Instr} (hi : i.isExtended = true)
    (epa : s.fcw.epa = false) : StopsAll s [i] :=
  .cons (exec_extended_absent i hi epa) (hs.trapOnFirstWord hk _) .nil

/-! Steps (R606, R618). -/

/-- The aborted fetch and the acknowledge come before the entry, and neither moves the system stack (R618, R619). -/
theorem takeAtBoundary (hk : s.systemStackReady = false) (k : Exc) : Stops (Machine.takeAtBoundary k) s := by
  obtain ⟨ms, released⟩ := State.mapUnits_inv (fun m => { m with suppress := false }) s
  let t : State := { s with mmus := ms, held := none }
  have reset : Machine.resetPoint t = .ok ((), t) := resetPoint_none t hs.noReset
  obtain ⟨id, us, es, answered⟩ := acknowledge_inv k { t with events := .abortedFetch t.pc t.fcw.sn :: t.events }
  have strict : State.Strict { t with mmus := us, events := es } := ⟨hs.keepsBit0, hs.noReset⟩
  refine .after (M.modify_apply _ s) ?_
  rw [released]
  refine .after (M.modify_apply _ _) (.after (a := ()) (t := t) reset ?_)
  exact .get <| .after (logEvent_apply _ t) <| .after (resetPoint_none _ hs.noReset) <|
    .after answered (strict.enter hk k _ _)

theorem fetchInstr (ha : s.pc.aligned .w = false) : Stops Machine.fetchInstr s := by
  obtain ⟨ms, released⟩ := State.mapUnits_inv (fun m => { m with suppress := false }) s
  have strict : State.Strict { s with mmus := ms, instrPc := s.pcOff, held := none } := ⟨hs.keepsBit0, hs.noReset⟩
  refine .after (M.modify_apply _ s) ?_
  rw [released]
  exact .after (M.modify_apply _ _) (.bind (strict.fetchWord ha))

theorem step_take (hk : s.systemStackReady = false) {k : Exc} (h : s.activity = .take k) :
    step s = .fault .oddWordAddress := by
  simp only [step, act, h, M.run_fault (hs.takeAtBoundary hk k), Out.map]

theorem step_execute (ha : s.pc.aligned .w = false) (h : s.activity = .execute) : step s = .fault .oddWordAddress := by
  have run : runInstr s = .fault .oddWordAddress := by rw [runInstr, hs.fetchInstr ha]
  simp only [step, act, h, run, Out.bind, Out.map]

end State.Strict

/-- Settles O11: each operation reaches its access at the odd address before anything else can end it
(`State.Strict.readMem`, `State.Strict.writeMem`). -/
theorem oddAddressStops : Obligations.OddAddressStops := by
  intro s drop reset odd stop even
  have hs : s.Strict := ⟨drop, reset⟩
  refine ⟨fun l a wd ha => ⟨hs.readMem ha, fun v => hs.writeMem v ha⟩,
    fun l a v ha => ⟨hs.readMem (wd := .w) ha, hs.writeMem (wd := .w) v ha⟩, fun l ha => hs.fetchWord ha,
    fun l n wd ha => ⟨hs.pop ha, fun v => ⟨hs.pushAs v ha, hs.push v ha⟩⟩,
    fun m d sp n v hm => ⟨hs.moves hm d sp n v, hs.arithmetic hm d n v, hs.logic hm d n, hs.ldps hm,
      hs.epuTransfers hm, hs.popsToMemory hm⟩,
    fun b d hb => hs.basedMoves hb d, fun d disp ha => hs.relativeMoves ha d, fun x r sp v he => ?stack,
    fun hk => ⟨hs.calls hk, fun cc => hs.returns hk, hs.exceptionReturn hk⟩, fun d p r cc => ⟨fun he => ?source,
      fun hp he ho => hs.stringPairs (Bool.eq_false_iff.2 ho) hp he r cc⟩,
    fun hk => ⟨hs.enter hk, hs.systemCall hk, fun i => hs.privilegedTrap hk, fun i => hs.extendedTrap hk,
      fun k => hs.step_take hk⟩, fun h ha => hs.step_execute ha h⟩
  case stack =>
    have ha : (s.addrOf sp).aligned .w = false := Bool.eq_false_iff.2 he
    exact ⟨hs.stackForms ha x r v, hs.pushesOfOperand ha⟩
  case source =>
    have ha : (s.addrOf p).aligned .w = false := Bool.eq_false_iff.2 he
    exact ⟨hs.stringForms ha d r cc, fun sn => hs.blockIo ha sn d r⟩

end Sys2Proof.Machine
end

section
/-! PROOF. Decoding what the encoder wrote: the part of the opcode map each first word goes to, what is read from the
words after it, and every instruction by the shape of its encoding (R130, R145, R157). -/

namespace Sys2Proof

/-! First words: which part of the opcode map they go to (R157). -/

/-- A first word of the general opcodes. -/
theorem D.instr_general {seg : Bool} {m low6 : Nat} {a b : Fin 16} {ws : List Word} (hm : m ≤ 2 := by decide)
    (hl : low6 < 0x30 := by decide) :
    D.instr seg (mkW (m * 64 + low6) a b :: ws) = D.general seg m low6 a b ws := by
  have byte : m * 64 + low6 < 256 := by omega
  unfold D.instr
  rw [D.bind_ok (D.word_cons _ ws), mkW_op _ a b byte, mkW_n1 _ a b byte, mkW_n0 _ a b byte,
    if_neg (by omega), if_pos (by omega), show (m * 64 + low6) / 64 = m by omega,
    show (m * 64 + low6) % 64 = low6 by omega]

/-- A first word of the special opcodes. -/
theorem D.instr_special_word {seg : Bool} {w : Word} {ws : List Word} (h : w.op < 0xC0) (hl : 0x30 ≤ w.op % 64) :
    D.instr seg (w :: ws) = D.special seg w.op w.n1 w.n0 ws := by
  unfold D.instr
  rw [D.bind_ok (D.word_cons w ws), if_neg (by omega), if_neg (by omega)]

theorem D.instr_special {seg : Bool} {op : Nat} {a b : Fin 16} {ws : List Word}
    (h : op < 0xC0 ∧ 0x30 ≤ op % 64 := by decide) : D.instr seg (mkW op a b :: ws) = D.special seg op a b ws := by
  have byte : op < 256 := by omega
  have first := D.instr_special_word (seg := seg) (w := mkW op a b) (ws := ws)
  rw [mkW_op op a b byte, mkW_n1 op a b byte, mkW_n0 op a b byte] at first
  exact first h.1 h.2

/-- A first word of the compact formats. -/
theorem D.instr_compact {seg : Bool} {w : Word} {ws : List Word} (h : 12 ≤ w.op / 16) :
    D.instr seg (w :: ws) = D.compact w ws := by
  unfold D.instr
  rw [D.bind_ok (D.word_cons w ws), if_pos (by omega)]

/-! Second words. -/

theorem D.oneReg_mkW (x : Reg) (ws : List Word) : D.oneReg (mkW x.val 0 0 :: ws) = .ok (x, ws) := by
  have byte : x.val < 256 := by omega
  unfold D.oneReg
  rw [D.bind_ok (D.word_cons _ ws), if_pos ⟨mkW_n3 x 0 0, mkW_n1 _ 0 0 byte, mkW_n0 _ 0 0 byte⟩, mkW_n2]
  rfl

theorem D.block_mkW (r d : Reg) (z : Fin 16) (ws : List Word) :
    D.block (mkW r.val d z :: ws) = .ok ((r, d, z), ws) := by
  have byte : r.val < 256 := by omega
  unfold D.block
  rw [D.bind_ok (D.word_cons _ ws), if_pos (mkW_n3 r d z), mkW_n2, mkW_n1 _ d z byte, mkW_n0 _ d z byte]
  rfl

theorem D.ldm_mkW (d : Reg) (n : Fin 16) (ws : List Word) : D.ldm (mkW d.val 0 n :: ws) = .ok ((d, n), ws) := by
  have byte : d.val < 256 := by omega
  unfold D.ldm
  rw [D.bind_ok (D.word_cons _ ws), if_pos ⟨mkW_n3 d 0 n, mkW_n1 _ 0 n byte⟩, mkW_n2, mkW_n0 _ 0 n byte]
  rfl

/-- Count words below this stand for shifts to the right: the count's complement in a word, of which the byte forms use
the low half (R350). -/
def Width.countTop (wd : Width) : Nat :=
  match wd with
  | .b => 256
  | _ => 65536

theorem Width.bits_lt_countTop (wd : Width) : wd.bits + wd.bits < wd.countTop ∧ wd.countTop ≤ 65536 := by
  cases wd <;> decide

theorem D.count_apply (wd : Width) (w : Word) (ws : List Word) :
    D.count wd (w :: ws) =
      if w.toNat ≤ wd.bits then .ok (.inl w.toNat, ws)
      else if wd.countTop - wd.bits ≤ w.toNat ∧ w.toNat < wd.countTop then .ok (.inr (wd.countTop - w.toNat), ws)
      else .error .reserved := by
  unfold D.count
  rw [D.bind_ok (D.word_cons w ws)]
  by_cases left : w.toNat ≤ wd.bits
  · rw [if_pos left, if_pos left]
    rfl
  · rw [if_neg left, if_neg left]
    by_cases right : wd.countTop - wd.bits ≤ w.toNat ∧ w.toNat < wd.countTop
    · rw [if_pos right]
      exact congrFun (if_pos right) ws
    · rw [if_neg right]
      exact congrFun (if_neg right) ws

/-- A shift to the left. -/
theorem D.count_left {wd : Width} {n : Nat} (h : leftCount wd n = true) (ws : List Word) :
    D.count wd (BitVec.ofNat 16 n :: ws) = .ok (.inl n, ws) := by
  have le : n ≤ wd.bits := of_decide_eq_true h
  have top := wd.bits_lt_countTop
  have word : (BitVec.ofNat 16 n).toNat = n := by
    rw [BitVec.toNat_ofNat]
    omega
  rw [D.count_apply, word, if_pos le]

/-- A shift to the right. -/
theorem D.count_right {wd : Width} {n : Nat} (h : rightCount wd n = true) (ws : List Word) :
    D.count wd (BitVec.ofNat 16 (wd.countTop - n) :: ws) = .ok (.inr n, ws) := by
  obtain ⟨pos, le⟩ : 1 ≤ n ∧ n ≤ wd.bits := by simpa [rightCount] using h
  have top := wd.bits_lt_countTop
  have word : (BitVec.ofNat 16 (wd.countTop - n)).toNat = wd.countTop - n := by
    rw [BitVec.toNat_ofNat]
    omega
  rw [D.count_apply, word, if_neg (by omega), if_pos (by omega), show wd.countTop - (wd.countTop - n) = n by omega]

/-! Fields of a word that hold no register. -/

theorem apply_flagNib {β : Type} (g : Bool → Bool → Bool → Bool → β) (c z s p : Bool) :
    g (nibBit (flagNib c z s p) 3) (nibBit (flagNib c z s p) 2) (nibBit (flagNib c z s p) 1)
      (nibBit (flagNib c z s p) 0) = g c z s p := by
  cases c <;> cases z <;> cases s <;> cases p <;> rfl

theorem D.di_intNib (seg : Bool) (vi nvi : Bool) (ws : List Word) :
    D.special seg 0x7C 0 (intNib 0 (by omega) vi nvi) ws = .ok (.di vi nvi, ws) := by
  cases vi <;> cases nvi <;> rfl

theorem D.ei_intNib (seg : Bool) (vi nvi : Bool) (ws : List Word) :
    D.special seg 0x7C 0 (intNib 4 (by omega) vi nvi) ws = .ok (.ei vi nvi, ws) := by
  cases vi <;> cases nvi <;> rfl

theorem epuNib_code (c ii : Fin 4) : (epuNib c ii).val / 4 = c.val := by
  show (c.val * 4 + ii.val) / 4 = c.val
  omega

theorem nibLow2_epuNib (c ii : Fin 4) : nibLow2 (epuNib c ii) = ii := by
  apply Fin.ext
  show (c.val * 4 + ii.val) % 4 = ii.val
  omega

theorem mkB_low (op v : Nat) (h : op < 256) (hv : v < 256) : (mkB op v).n1.val * 16 + (mkB op v).n0.val = v := by
  show (mkB op v).toNat / 16 % 16 * 16 + (mkB op v).toNat % 16 = v
  rw [mkB_toNat op v h hv]
  omega

/-! Compact formats (R131): a code in bits 15:12 and a field in bits 11:8. -/

theorem D.instr_of_short {seg : Bool} {w : Word} {ws : List Word} (h : w.op / 16 = 12) :
    D.instr seg (w :: ws) = .ok (.ldbShort w.n2 w.lo, ws) := by
  rw [D.instr_compact (by omega), D.compact, h]
  rfl

theorem D.instr_of_calr {seg : Bool} {w : Word} {ws : List Word} (h : w.op / 16 = 13) :
    D.instr seg (w :: ws) = .ok (.calr (w.extractLsb' 0 12), ws) := by
  rw [D.instr_compact (by omega), D.compact, h]
  rfl

theorem D.instr_of_jr {seg : Bool} {w : Word} {ws : List Word} (h : w.op / 16 = 14) :
    D.instr seg (w :: ws) = .ok (.jr w.n2 w.lo, ws) := by
  rw [D.instr_compact (by omega), D.compact, h]
  rfl

theorem D.instr_of_dbjnz {seg : Bool} {w : Word} {ws : List Word} (h : w.op / 16 = 15) (hn : w.n1.val < 8) :
    D.instr seg (w :: ws) = .ok (.dbjnz w.n2 (w.extractLsb' 0 7), ws) := by
  rw [D.instr_compact (by omega), D.compact, h]
  exact congrFun (if_pos hn) ws

theorem D.instr_of_djnz {seg : Bool} {w : Word} {ws : List Word} (h : w.op / 16 = 15) (hn : ¬w.n1.val < 8) :
    D.instr seg (w :: ws) = .ok (.djnz w.n2 (w.extractLsb' 0 7), ws) := by
  rw [D.instr_compact (by omega), D.compact, h]
  exact congrFun (if_neg hn) ws

theorem mkB_code {k v : Nat} (d : Fin 16) (hk : k < 16) (hv : v < 256) : (mkB (k * 16 + d.val) v).op / 16 = k := by
  rw [mkB_op _ v (by omega) hv]
  omega

theorem mkB_n2 {k v : Nat} (d : Fin 16) (hk : k < 16) (hv : v < 256) : (mkB (k * 16 + d.val) v).n2 = d := by
  apply Fin.ext
  show (mkB (k * 16 + d.val) v).toNat / 256 % 16 = d.val
  rw [mkB_toNat _ v (by omega) hv]
  omega

/-- The low bits of a word that ends in this field. -/
theorem extract_low {n k : Nat} {w : Word} {v : BitVec n} (h : w.toNat = 2 ^ n * k + v.toNat) :
    w.extractLsb' 0 n = v := by
  apply BitVec.eq_of_toNat_eq
  rw [BitVec.extractLsb'_toNat, Nat.shiftRight_zero, h, Nat.mul_add_mod, Nat.mod_eq_of_lt v.isLt]

theorem mkB_lo (op : Nat) (v : Byte) (h : op < 256) : (mkB op v.toNat).lo = v :=
  extract_low (k := op) (by rw [mkB_toNat op _ h v.isLt]; omega)

/-! Shapes of encodings: a first word, a piece `x` of the decoder that reads what follows, and the rest `f`. -/

section
variable {seg : Bool} {i : Instr} {rest : List Word} {α : Type} {x : D α} {f : α → D Instr} {v : α}

/-- A special opcode, followed by something. -/
theorem D.instr_second {op : Nat} {a b : Fin 16} {ws : List Word}
    (hx : x ws = .ok (v, rest)) (hs : D.special seg op a b = x >>= f) (hf : f v rest = .ok (i, rest))
    (h : op < 0xC0 ∧ 0x30 ≤ op % 64 := by decide) : D.instr seg (mkW op a b :: ws) = .ok (i, rest) := by
  rw [D.instr_special h, hs, D.bind_ok hx, hf]

/-- A general opcode, followed by something. -/
theorem D.instr_operand {m low6 : Nat} {a b : Fin 16} {ws ws' : List Word} (hm : m ≤ 2)
    (hx : x ws = .ok (v, ws')) (hg : D.general seg m low6 a b = x >>= f) (hf : f v ws' = .ok (i, rest))
    (hl : low6 < 0x30 := by decide) : D.instr seg (mkW (m * 64 + low6) a b :: ws) = .ok (i, rest) := by
  rw [D.instr_general hm hl, hg, D.bind_ok hx, hf]

/-- The dynamic bit forms stand in mode 0 with register field 0 (R322). -/
theorem D.instr_dynamic {low6 : Nat} {d r : Reg} {f : Reg → D Instr} (hg : D.general seg 0 low6 0 r = D.oneReg >>= f)
    (hf : f d rest = .ok (i, rest)) (hl : low6 < 0x30 := by decide) :
    D.instr seg (mkW low6 0 r :: mkW d.val 0 0 :: rest) = .ok (i, rest) := by
  have read := D.instr_operand (Nat.zero_le 2) (D.oneReg_mkW d rest) hg hf hl
  rwa [Nat.zero_mul, Nat.zero_add] at read

/-- The BA and BX forms (R143, R144): a base that is not 0, and no index 0. -/
theorem D.instr_based {x : Based} {mk : Based → Instr} {rel : Word → Instr} {ba bx : Nat} {b : Reg}
    (hx : x.wf seg = true)
    (hba : ∀ a, D.special seg ba a b = D.word >>= fun p => pure (if a = 0 then rel p else mk (.ba a p)))
    (hbx : ∀ a, D.special seg bx a b = D.oneReg >>= fun i => pure (mk (.bx a i)))
    (h1 : ba < 0xC0 ∧ 0x30 ≤ ba % 64 := by decide) (h2 : bx < 0xC0 ∧ 0x30 ≤ bx % 64 := by decide) :
    D.instr seg (x.encode ba bx b ++ rest) = .ok (mk x, rest) := by
  cases x with
  | ba base disp =>
    have nonzero : base ≠ 0 := by
      rintro rfl
      simp [Based.wf, Reg.isPtr] at hx
    refine D.instr_second (D.word_cons disp rest) (hba base) ?_ h1
    rw [if_neg nonzero]
    rfl
  | bx base index => exact D.instr_second (D.oneReg_mkW index rest) (hbx base) rfl h2

end

/-- A memory operand and the word after it. -/
theorem D.mem_enc_append {seg : Bool} {m : Mem} (h : m.wf seg = true) (ws rest : List Word) :
    D.mem seg m.enc.mode m.enc.field (m.enc.words ++ ws ++ rest) = .ok (m, ws ++ rest) := by
  rw [List.append_assoc]
  exact D.mem_enc seg m (ws ++ rest) h

theorem Mem.enc_mode_le (m : Mem) : m.enc.mode ≤ 2 := Dst.enc_mode (.mem m)

theorem Mem.enc_mode_ne (m : Mem) : m.enc.mode ≠ 2 := by
  rcases m.enc_mode with e | e <;> omega

theorem Mem.enc_mode_direct {m : Mem} (h : m.isDirect = true) : m.enc.mode = 1 := by
  cases m with
  | ir r => cases h
  | da a => rfl
  | x a i => rfl

/-- No static bit operand is written as the dynamic forms are: mode 0 and register field 0 (R322). -/
theorem Dst.enc_static {seg : Bool} {wd : Width} {d : Dst} (h : d.wf seg wd = true) :
    ¬(d.enc.mode = 0 ∧ d.enc.field = 0) := by
  rintro ⟨hm, hf⟩
  cases d with
  | reg r => cases hm
  | mem m => exact m.enc_field seg h hm hf

/-- DA and X operands have an opcode of their own where they stand alone (R215, R478). -/
theorem D.mem_enc_direct {seg : Bool} {m : Mem} (h : m.wf seg = true) (hd : m.isDirect = true) (rest : List Word) :
    D.mem seg 1 m.enc.field (m.enc.words ++ rest) = .ok (m, rest) := by
  rw [← Mem.enc_mode_direct hd]
  exact D.mem_enc seg m rest h

/-! SC and the compact formats. -/

section
variable {seg : Bool}

theorem D.instr_sc (n : Byte) (rest : List Word) : D.instr seg (encode (.sc n) ++ rest) = .ok (.sc n, rest) := by
  have op : (mkB 0x7F n.toNat).op = 0x7F := mkB_op _ _ (by decide) n.isLt
  have low := mkB_low 0x7F n.toNat (by decide) n.isLt
  refine (D.instr_special_word (by rw [op]; decide) (by rw [op]; decide)).trans ?_
  rw [op]
  show Except.ok (Instr.sc (BitVec.ofNat 8 _), rest) = _
  rw [low, BitVec.ofNat_toNat, BitVec.setWidth_eq]

theorem D.instr_short (d : Reg) (v : Byte) (rest : List Word) :
    D.instr seg (encode (.ldbShort d v) ++ rest) = .ok (.ldbShort d v, rest) := by
  refine (D.instr_of_short (mkB_code (k := 12) d (by decide) v.isLt)).trans ?_
  rw [mkB_n2 (k := 12) d (by decide) v.isLt, mkB_lo _ v (by omega)]
  rfl

theorem D.instr_jr (cc : CC) (disp : BitVec 8) (rest : List Word) :
    D.instr seg (encode (.jr cc disp) ++ rest) = .ok (.jr cc disp, rest) := by
  refine (D.instr_of_jr (mkB_code (k := 14) cc (by decide) disp.isLt)).trans ?_
  rw [mkB_n2 (k := 14) cc (by decide) disp.isLt, mkB_lo _ disp (by omega)]
  rfl

theorem D.instr_calr (disp : BitVec 12) (rest : List Word) :
    D.instr seg (encode (.calr disp) ++ rest) = .ok (.calr disp, rest) := by
  have word : (BitVec.ofNat 16 (0xD000 + disp.toNat)).toNat = 0xD000 + disp.toNat := by
    rw [BitVec.toNat_ofNat]
    omega
  refine (D.instr_of_calr ?_).trans ?_
  · rw [Word.op, word]
    omega
  · rw [extract_low (k := 13) word]
    rfl

/-- The word of DJNZ and DBJNZ: bit 7 tells which (R303). -/
theorem mkB_loop (r : Reg) (disp : BitVec 7) (c : Nat) (hc : c < 2) :
    (mkB (15 * 16 + r.val) (c * 128 + disp.toNat)).n1.val / 8 = c ∧
      (mkB (15 * 16 + r.val) (c * 128 + disp.toNat)).extractLsb' 0 7 = disp := by
  have word := mkB_toNat (15 * 16 + r.val) (c * 128 + disp.toNat) (by omega) (by omega)
  constructor
  · show (mkB (15 * 16 + r.val) (c * 128 + disp.toNat)).toNat / 16 % 16 / 8 = c
    omega
  · exact extract_low (k := (15 * 16 + r.val) * 2 + c) (by omega)

theorem D.instr_dbjnz (r : Reg) (disp : BitVec 7) (rest : List Word) :
    D.instr seg (encode (.dbjnz r disp) ++ rest) = .ok (.dbjnz r disp, rest) := by
  obtain ⟨byte, low⟩ := mkB_loop r disp 0 (by decide)
  rw [Nat.zero_mul, Nat.zero_add] at byte low
  refine (D.instr_of_dbjnz (mkB_code (k := 15) r (by decide) (by omega)) (by omega)).trans ?_
  rw [mkB_n2 (k := 15) r (by decide) (by omega), low]
  rfl

theorem D.instr_djnz (r : Reg) (disp : BitVec 7) (rest : List Word) :
    D.instr seg (encode (.djnz r disp) ++ rest) = .ok (.djnz r disp, rest) := by
  obtain ⟨word, low⟩ := mkB_loop r disp 1 (by decide)
  rw [Nat.one_mul] at word low
  refine (D.instr_of_djnz (mkB_code (k := 15) r (by decide) (by omega)) (by omega)).trans ?_
  rw [mkB_n2 (k := 15) r (by decide) (by omega), low]
  rfl

/-! Extended instructions (R511, R512). -/

theorem D.epuOdd_from {m : Nat} (hm : m ≠ 2) (a : Reg) (ii : Fin 4) :
    D.epuOdd seg m a (epuNib 3 ii) =
      D.word >>= fun w => D.mem seg m a >>= fun x => pure (.epuLdmFrom x ii w) := by
  rw [D.epuOdd, if_neg hm, epuNib_code, nibLow2_epuNib]
  rfl

theorem D.epuOdd_to {m : Nat} (hm : m ≠ 2) (a : Reg) (ii : Fin 4) :
    D.epuOdd seg m a (epuNib 1 ii) =
      D.word >>= fun w => D.mem seg m a >>= fun x => pure (.epuLdmTo x ii w) := by
  rw [D.epuOdd, if_neg hm, epuNib_code, nibLow2_epuNib]
  rfl

theorem nibLow3_val (x : Fin 8) : nibLow3 ⟨x.val, by omega⟩ = x := Fin.ext (Nat.mod_eq_of_lt x.isLt)

/-- The EPU's transfers with registers. -/
theorem D.epuOdd_regs (x : Fin 8) (c ii : Fin 4) :
    D.epuOdd seg 2 ⟨x.val, by omega⟩ (epuNib c ii) = match c with
      | 0 => D.word >>= fun w => pure (.epuLdrFrom x ii w)
      | 2 => D.word >>= fun w => pure (.epuLdrTo x ii w)
      | _ => D.reserved := by
  rw [D.epuOdd, if_pos rfl, if_pos x.isLt, epuNib_code, nibLow2_epuNib, nibLow3_val]
  fin_cases c <;> rfl

/-- The EPU's transfers with the flags, and its own operations. -/
theorem D.epuEven_code (x : Fin 16) (c ii : Fin 4) :
    D.epuEven 2 x (epuNib c ii) = match c with
      | 0 => D.word >>= fun w => pure (.epuLdfFrom x ii w)
      | 1 => D.word >>= fun w => pure (.epuOp x ii w)
      | 2 => D.word >>= fun w => pure (.epuLdfTo x ii w)
      | _ => D.reserved := by
  rw [D.epuEven, if_pos rfl, epuNib_code, nibLow2_epuNib]
  fin_cases c <;> rfl

end

/-- Every instruction, by the shape of its encoding. -/
theorem D.instr_encode (seg : Bool) (i : Instr) (rest : List Word) (h : i.wf seg = true) :
    D.instr seg (encode i ++ rest) = .ok (i, rest) := by
  cases i with
  | clr d | clrb d | com d | comb d | neg d | negb d | test d | testb d | testl d | tset d | tsetb d
  | inc d n | incb d n | dec d n | decb d n | ex r d | exb r d =>
    exact D.instr_operand d.enc_mode (D.dst_enc seg _ d rest h) rfl rfl
  | pop d sp | push sp d =>
    exact D.instr_operand d.enc_mode (D.dst_enc seg _ d rest (Bool.and_elim_left h)) rfl rfl
  | popl d sp | pushl sp d =>
    exact D.instr_operand d.enc_mode (D.dst_enc seg _ d rest (Bool.and_elim_left (Bool.and_elim_left h))) rfl rfl
  | bit d k | res d k | set d k =>
    exact D.instr_operand d.enc_mode (D.dst_enc seg _ d rest h) (if_neg (Dst.enc_static h)) rfl
  | bitb d k | resb d k | setb d k =>
    have hd := Bool.and_elim_left h
    exact D.instr_operand d.enc_mode (D.dst_enc seg _ d rest hd) (if_neg (Dst.enc_static hd)) rfl
  | ld d s | ldb d s | add d s | addb d s | sub d s | subb d s | cp d s | cpb d s | and d s | andb d s | or d s
  | orb d s | xor d s | xorb d s =>
    exact D.instr_operand s.enc_mode (D.src_enc seg s rest h) rfl rfl
  | ldl d s | addl d s | subl d s | cpl d s | mult d s | multl d s | div d s | divl d s =>
    exact D.instr_operand s.enc_mode (D.src_enc seg s rest (Bool.and_elim_right h)) rfl rfl
  | call m => exact D.instr_operand m.enc_mode_le (D.mem_enc seg m rest h) rfl rfl
  | ldlStore m s => exact D.instr_operand m.enc_mode_le (D.mem_enc seg m rest (Bool.and_elim_left h)) rfl rfl
  | ldStore m s | ldbStore m s | jp s m =>
    exact D.instr_operand m.enc_mode_le (D.mem_enc seg m rest h) (if_neg m.enc_mode_ne) rfl
  | cpImm m v | ldImm m v =>
    exact D.instr_operand m.enc_mode_le (D.mem_enc_append h [v] rest) (if_neg m.enc_mode_ne) rfl
  | cpbImm m v =>
    exact D.instr_operand m.enc_mode_le (D.mem_enc_append h _ rest) (if_neg m.enc_mode_ne)
      (D.bind_ok (D.imm_words .b v rest))
  | ldbImm m v =>
    exact D.instr_operand m.enc_mode_le (D.mem_enc_append h _ rest) rfl (D.bind_ok (D.imm_words .b v rest))
  | ldmLoad d m n | ldmStore m d n =>
    exact D.instr_operand m.enc_mode_le (D.ldm_mkW d n _) (if_neg m.enc_mode_ne) (D.bind_ok (D.mem_enc seg m rest h))
  | lda d m =>
    obtain ⟨⟨-, hm⟩, hd⟩ : (_ ∧ m.wf seg = true) ∧ m.isDirect = true := by simpa [Instr.wf] using h
    exact D.instr_second (D.mem_enc_direct hm hd rest) rfl rfl
  | ldps m =>
    have hm : m.wf seg = true := h
    cases m with
    | ir r => exact D.instr_second (op := 0x39) (D.mem_enc seg (.ir r) rest hm) rfl rfl
    | da a | x a i => exact D.instr_second (op := 0x79) (D.mem_enc_direct hm rfl rest) rfl rfl
  | ldBased d x | ldbBased d x => exact D.instr_based h (fun _ => rfl) fun _ => rfl
  | ldlBased d x | ldaBased d x => exact D.instr_based (Bool.and_elim_right h) (fun _ => rfl) fun _ => rfl
  | ldStoreBased x d => exact D.instr_based (mk := (.ldStoreBased · d)) h (fun _ => rfl) fun _ => rfl
  | ldbStoreBased x d => exact D.instr_based (mk := (.ldbStoreBased · d)) h (fun _ => rfl) fun _ => rfl
  | ldlStoreBased x d =>
    exact D.instr_based (mk := (.ldlStoreBased · d)) (Bool.and_elim_left h) (fun _ => rfl) fun _ => rfl
  | ldar d p | ldr d p | ldrb d p | ldrl d p | ldrStore p d | ldrbStore p d | ldrlStore p d | ldk d n
  | adc d s | adcb d s | sbc d s | sbcb d s | dab d | extsb d | exts d | extsl d | rldb d s | rrdb d s
  | inIr d s | inbIr d s | outIr d s | outbIr d s | inDa d p | inbDa d p | outDa p d | outbDa p d | sin d p | sinb d p
  | sout p d | soutb p d | iret | halt | mbit | mreq d | mres | mset =>
    exact D.instr_special
  | rl d twice | rlb d twice | rlc d twice | rlcb d twice | rr d twice | rrb d twice | rrc d twice | rrcb d twice =>
    cases twice <;> exact D.instr_special
  | ldctlWrite c s | ldctlRead d c => cases c <;> exact D.instr_special
  | di vi nvi => exact (D.instr_special).trans (D.di_intNib seg vi nvi rest)
  | ei vi nvi => exact (D.instr_special).trans (D.ei_intNib seg vi nvi rest)
  | sda d s | sdab d s | sdal d s | sdl d s | sdlb d s | sdll d s => exact D.instr_second (D.oneReg_mkW s rest) rfl rfl
  | sla d n | slab d n | sll d n | sllb d n => exact D.instr_second (D.count_left h rest) rfl rfl
  | slal d n | slll d n => exact D.instr_second (D.count_left (Bool.and_elim_left h) rest) rfl rfl
  | sra d n | srab d n | srl d n | srlb d n => exact D.instr_second (D.count_right h rest) rfl rfl
  | sral d n | srll d n => exact D.instr_second (D.count_right (Bool.and_elim_left h) rest) rfl rfl
  | cpi d s r cc | cpib d s r cc | cpir d s r cc | cpirb d s r cc | cpd d s r cc | cpdb d s r cc | cpdr d s r cc
  | cpdrb d s r cc | cpsi d s r cc | cpsib d s r cc | cpsir d s r cc | cpsirb d s r cc | cpsd d s r cc | cpsdb d s r cc
  | cpsdr d s r cc | cpsdrb d s r cc
  | ldi d s r | ldib d s r | ldir d s r | ldirb d s r | ldd d s r | lddb d s r | lddr d s r | lddrb d s r
  | trib d s r | trirb d s r | trdb d s r | trdrb d s r | trtib d s r | trtirb d s r | trtdb d s r | trtdrb d s r
  | ini d s r | inib d s r | inir d s r | inirb d s r | ind d s r | indb d s r | indr d s r | indrb d s r
  | outi d s r | outib d s r | otir d s r | otirb d s r | outd d s r | outdb d s r | otdr d s r | otdrb d s r
  | sini d s r | sinib d s r | sinir d s r | sinirb d s r | sind d s r | sindb d s r | sindr d s r | sindrb d s r
  | souti d s r | soutib d s r | sotir d s r | sotirb d s r | soutd d s r | soutdb d s r | sotdr d s r
  | sotdrb d s r =>
    exact D.instr_second (D.block_mkW r _ _ rest) rfl rfl
  | pushImm sp v => exact D.instr_general (m := 0) (low6 := 0x0D)
  | bitDyn d s | bitbDyn d s | resDyn d s | resbDyn d s | setDyn d s | setbDyn d s => exact D.instr_dynamic rfl rfl
  | tcc cc d => exact D.instr_general (m := 2) (low6 := 0x2F)
  | tccb cc d => exact D.instr_general (m := 2) (low6 := 0x2E)
  | ret cc => exact D.instr_general (m := 2) (low6 := 0x1E)
  | nop => exact D.instr_general (m := 2) (low6 := 0x0D)
  | ldctlbWrite r | ldctlbRead r => exact D.instr_general (m := 2) (low6 := 0x0C)
  | comflg c z s p | resflg c z s p | setflg c z s p =>
    exact (D.instr_general (m := 2) (low6 := 0x0D)).trans
      (congrArg (fun i => Except.ok (i, rest)) (apply_flagNib _ c z s p))
  | sc n => exact D.instr_sc n rest
  | ldbShort d v => exact D.instr_short d v rest
  | jr cc disp => exact D.instr_jr cc disp rest
  | calr disp => exact D.instr_calr disp rest
  | djnz r disp => exact D.instr_djnz r disp rest
  | dbjnz r disp => exact D.instr_dbjnz r disp rest
  | epuLdmFrom m ii w =>
    exact D.instr_operand m.enc_mode_le (D.word_cons w _) (D.epuOdd_from m.enc_mode_ne _ ii)
      (D.bind_ok (D.mem_enc seg m rest h))
  | epuLdmTo m ii w =>
    exact D.instr_operand m.enc_mode_le (D.word_cons w _) (D.epuOdd_to m.enc_mode_ne _ ii)
      (D.bind_ok (D.mem_enc seg m rest h))
  | epuLdrFrom x ii w | epuLdrTo x ii w =>
    exact D.instr_operand (m := 2) (low6 := 0x0F) (by decide) (D.word_cons w _) (D.epuOdd_regs x _ ii) rfl
  | epuLdfFrom x ii w | epuLdfTo x ii w | epuOp x ii w =>
    exact D.instr_operand (m := 2) (low6 := 0x0E) (by decide) (D.word_cons w _) (D.epuEven_code x _ ii) rfl

/-- Settles O3: by `D.instr_encode`, and the check of the fields passes what is well formed. -/
theorem decodeEncode : Obligations.DecodeEncode := by
  intro seg i rest h
  rw [decode, D.instr_encode seg i rest h]
  exact if_pos h

end Sys2Proof
end

section
/-! PROOF. What decodes is well formed, and the decoder takes four words at most: the bound of every piece of it, of three
for all that follows the first word (R130, R159). -/

namespace Sys2Proof

/-- This piece of the decoder takes at most `n` words. -/
def D.AtMost {α : Type} (n : Nat) (x : D α) : Prop := ∀ ws a r, x ws = .ok (a, r) → ws.length ≤ r.length + n

namespace D.AtMost

variable {α β : Type} {m n : Nat} {x y : D α} {f : α → D β}

@[simp] theorem pure (a : α) : D.AtMost n (pure a : D α) := by
  intro ws b r h
  cases h
  exact Nat.le_add_right _ _

@[simp] theorem reserved : D.AtMost n (D.reserved : D α) := nofun

@[simp] theorem word : D.AtMost (n + 1) D.word := by
  intro ws w r h
  cases ws with
  | nil => cases h
  | cons v ws =>
    cases h
    simp

/-- Two pieces in a row take what both take. -/
theorem bind (hx : D.AtMost m x) (hf : ∀ a, D.AtMost n (f a)) : D.AtMost (n + m) (x >>= f) := by
  intro ws b r h
  rw [D.bind_apply] at h
  cases hw : x ws with
  | error e => simp [hw] at h
  | ok v =>
    obtain ⟨a, u⟩ := v
    simp only [hw] at h
    have first := hx ws a u hw
    have second := hf a u b r h
    omega

@[simp] theorem map_iff {g : α → β} : D.AtMost n (g <$> x) ↔ D.AtMost n x := by
  rw [map_eq_pure_bind]
  constructor
  · intro h ws a r hx
    exact h ws (g a) r (D.bind_ok hx)
  · intro hx
    simpa only [Nat.zero_add] using bind hx fun a => pure (n := 0) (g a)

theorem ite {c : Prop} [Decidable c] (hx : D.AtMost n x) (hy : D.AtMost n y) :
    D.AtMost n (if c then x else y) := by
  split
  · exact hx
  · exact hy

@[simp] theorem ite_iff {c : Prop} [Decidable c] :
    D.AtMost n (if c then x else y) ↔ (c → D.AtMost n x) ∧ (¬c → D.AtMost n y) := by
  split <;> simp_all

@[simp] theorem word_bind {f : Word → D β} (hf : ∀ w, D.AtMost n (f w)) : D.AtMost (n + 1) (D.word >>= f) :=
  (word (n := 0)).bind hf

/-! The pieces that read operands and second words. -/

@[simp] theorem oneReg : D.AtMost (n + 1) D.oneReg := by simp [D.oneReg]

@[simp] theorem block : D.AtMost (n + 1) D.block := by simp [D.block]

@[simp] theorem ldm : D.AtMost (n + 1) D.ldm := by simp [D.ldm]

@[simp] theorem count (wd : Width) : D.AtMost (n + 1) (D.count wd) := by simp [D.count]

@[simp] theorem imm (wd : Width) : D.AtMost (n + 2) (D.imm wd) := by
  cases wd <;> simp [D.imm]

@[simp] theorem iaddr (seg : Bool) : D.AtMost (n + 2) (D.iaddr seg) := by simp [D.iaddr]

@[simp] theorem mem (seg : Bool) (m : Nat) (r : Reg) : D.AtMost (n + 2) (D.mem seg m r) := by
  unfold D.mem
  split <;> simp

@[simp] theorem dst (seg : Bool) (m : Nat) (r : Reg) : D.AtMost (n + 2) (D.dst seg m r) := by simp [D.dst]

@[simp] theorem src (seg : Bool) (wd : Width) (m : Nat) (r : Reg) : D.AtMost (n + 2) (D.src seg wd m r) := by
  simp [D.src]

@[simp] theorem mem_bind {seg : Bool} {r : Reg} {f : Mem → D β} (hf : ∀ x, D.AtMost n (f x)) :
    D.AtMost (n + 2) (D.mem seg m r >>= f) := (mem (n := 0) seg m r).bind hf

@[simp] theorem block_bind {f : Reg × Reg × Fin 16 → D β} (hf : ∀ x, D.AtMost n (f x)) :
    D.AtMost (n + 1) (D.block >>= f) := (block (n := 0)).bind hf

@[simp] theorem ldm_bind {f : Reg × Fin 16 → D β} (hf : ∀ x, D.AtMost n (f x)) :
    D.AtMost (n + 1) (D.ldm >>= f) := (ldm (n := 0)).bind hf

@[simp] theorem count_bind {wd : Width} {f : Nat ⊕ Nat → D β} (hf : ∀ x, D.AtMost n (f x)) :
    D.AtMost (n + 1) (D.count wd >>= f) := (count (n := 0) wd).bind hf

/-! The tables (R157, R158). -/

theorem table1Byte (seg : Bool) (m : Nat) (a b : Fin 16) : D.AtMost 3 (D.table1Byte seg m a b) := by
  unfold D.table1Byte
  split <;> simp [D.imm]

theorem table1Word (seg : Bool) (m : Nat) (a b : Fin 16) : D.AtMost 3 (D.table1Word seg m a b) := by
  unfold D.table1Word
  split <;> simp [D.imm]

theorem table2 (seg : Bool) (m : Nat) (a b : Fin 16) : D.AtMost 3 (D.table2 seg m a b) := by
  unfold D.table2
  split <;> simp

theorem epuEven (m : Nat) (a b : Fin 16) : D.AtMost 3 (D.epuEven m a b) := by
  unfold D.epuEven
  split
  · split <;> simp
  · simp

theorem epuOdd (seg : Bool) (m : Nat) (a b : Fin 16) : D.AtMost 3 (D.epuOdd seg m a b) := by
  unfold D.epuOdd
  split
  · refine ite ?_ reserved
    split <;> simp
  · split <;> simp

theorem table3 (word : Bool) (a b : Fin 16) : D.AtMost 3 (D.table3 word a b) := by
  unfold D.table3
  split
  case h_5 =>
    refine ite reserved (block_bind fun ⟨r, d, z⟩ => ?_)
    dsimp only
    split
    · split <;> exact pure _
    · refine ite ?_ reserved
      split <;> exact pure _
  all_goals simp

theorem table4Byte (a b : Fin 16) : D.AtMost 3 (D.table4Byte a b) := by
  unfold D.table4Byte
  split <;> simp

theorem table4Word (a b : Fin 16) : D.AtMost 3 (D.table4Word a b) := by
  unfold D.table4Word
  split <;> simp

theorem table5 (a b : Fin 16) : D.AtMost 3 (D.table5 a b) := by
  unfold D.table5
  refine ite reserved (block_bind fun ⟨r, s, z⟩ => ?_)
  dsimp only
  split <;> simp

theorem table6 (word : Bool) (a b : Fin 16) : D.AtMost 3 (D.table6 word a b) := by
  unfold D.table6
  split <;> simp

theorem compact (w : Word) : D.AtMost 3 (D.compact w) := by
  unfold D.compact
  split <;> simp

theorem general (seg : Bool) (m low6 : Nat) (a b : Fin 16) : D.AtMost 3 (D.general seg m low6 a b) := by
  unfold D.general
  split <;> simp [table1Byte, table1Word, table2, epuOdd, epuEven]

theorem special (seg : Bool) (op : Nat) (a b : Fin 16) : D.AtMost 3 (D.special seg op a b) := by
  unfold D.special
  split
  -- the first bytes 7B, 7C, 7D and B1 have tables of their own
  case h_25 => exact ite (pure _) (ite (by split <;> simp) reserved)
  case h_26 => exact ite (by split <;> simp) reserved
  case h_27 | h_30 => split <;> simp
  all_goals simp [table3, table4Byte, table4Word, table5, table6]

/-- A first word, and three more at most (R130). -/
theorem instr (seg : Bool) : D.AtMost maxWords (D.instr seg) :=
  word_bind fun w => ite (compact w) (ite (general seg _ _ _ _) (special seg _ _ _))

end D.AtMost

/-- What decodes is well formed, and was so read. -/
theorem wf_of_decode {seg : Bool} {ws rest : List Word} {i : Instr} (h : decode seg ws = .ok (i, rest)) :
    i.wf seg = true ∧ D.instr seg ws = .ok (i, rest) := by
  unfold decode at h
  split at h
  · rename_i hd
    split at h
    · rename_i hw
      cases h
      exact ⟨hw, hd⟩
    · cases h
  · cases h

/-- Settles O4: the words used are those of `decode_next`, at most four by `D.AtMost.instr`. -/
theorem decodeWellFormed : Obligations.DecodeWellFormed := by
  intro seg ws rest i h
  obtain ⟨hw, hd⟩ := wf_of_decode h
  obtain ⟨p, rfl, hp⟩ := decode_next seg ws rest i h
  refine ⟨hw, p, rfl, ?_, ?_, hp⟩
  · rintro rfl
    cases hp []
  · have bound := D.AtMost.instr seg _ i rest hd
    rw [List.length_append] at bound
    omega

end Sys2Proof
end

section
/-! PROOF. How a fetch ends that runs no instruction (R156, R159): in the trap of its first word, or in the refusal of
words that are no instruction. -/

namespace Sys2Proof.Machine

open Sys2Proof

/-! Fetching. -/

/-- The rest of a fetch, once the first word `w` is in the machine (R159). -/
def fetchAfter (w : Word) : M Fetched := do
  let s ← get
  match firstWordTrap s.fcw w with
  | some k => pure (.trap k)
  | none =>
    modify fun s => { s with rowStepped := s.rowStepped || s.stopsInside w }
    let i ← fetchMore [w] (maxWords - 1)
    resetPoint
    match i with
    | some i => pure (.instr i)
    | none => M.refuse .reservedEncoding

/-- The state with the first word fetched, before that word is looked at (R26, R603). -/
def State.firstFetched (s : State) : State :=
  { s with instrPc := s.pcOff, held := none, pcOff := s.pcOff + 2, ir := s.wordAt .code s.pc }

theorem fetchInstr_first {s : State} (hp : s.plain) (he : s.pcOff.getLsbD 0 = false) :
    fetchInstr s = fetchAfter (s.wordAt .code s.pc) s.firstFetched := by
  have released : releaseSuppress s = .ok ((), s) := by
    rw [releaseSuppress, M.modify_apply, State.mapUnits_none _ s hp.1]
  have first : fetchWord .ifetch { s with instrPc := s.pcOff, held := none } =
      .ok (s.wordAt .code s.pc, { s with instrPc := s.pcOff, held := none, pcOff := s.pcOff + 2 }) :=
    fetchWord_plain .ifetch { s with instrPc := s.pcOff, held := none } (State.key_ifetch _ _) hp he
  unfold fetchInstr
  rw [M.bind_ok released, M.bind_ok (M.modify_apply _ s), M.bind_ok first, M.bind_ok (M.modify_apply _ _)]
  rfl

theorem fetchAfter_trap {w : Word} {s : State} {k : Exc} (ht : firstWordTrap s.fcw w = some k) :
    fetchAfter w s = .ok (.trap k, s) := by
  rw [fetchAfter, M.bind_ok (M.get_apply s), ht]
  rfl

theorem fetchAfter_refused {w : Word} {s u : State} (ht : firstWordTrap s.fcw w = none)
    (hf : fetchMore [w] (maxWords - 1) { s with rowStepped := s.rowStepped || s.stopsInside w } = .ok (none, u))
    (hr : u.resetIn = none) : fetchAfter w s = .error (.refused .reservedEncoding) := by
  rw [fetchAfter, M.bind_ok (M.get_apply s), ht]
  refine (M.bind_ok (M.modify_apply _ s)).trans ((M.bind_ok hf).trans ?_)
  rw [M.bind_ok (resetPoint_none u hr)]
  rfl

/-! Traps of the first word (R603, R604). -/

theorem firstWordTrap_some {f : Fcw} {w : Word} {k : Exc} (h : firstWordTrap f w = some k) :
    (k = .extended ∧ f.epa = false) ∨ (k = .privileged ∧ isPrivilegedOp w.op = true) := by
  unfold firstWordTrap at h
  split at h
  · rename_i he
    cases h
    exact .inl ⟨rfl, by simpa using Bool.and_elim_right he⟩
  · split at h
    · rename_i hp
      cases h
      exact .inr ⟨rfl, Bool.and_elim_left hp⟩
    · cases h

/-- No first byte is both privileged and an extended instruction's. -/
theorem isExtendedOp_of_privileged {op : Nat} (h : isPrivilegedOp op = true) : isExtendedOp op = false := by
  simp only [isPrivilegedOp, Bool.or_eq_true, Bool.and_eq_true, beq_iff_eq, decide_eq_true_eq] at h
  simp only [isExtendedOp, Bool.or_eq_false_iff, beq_eq_false_iff_ne]
  omega

/-- Where the first word traps, STOP is not looked at again (R510(e)): that is done for extended instructions that run. -/
theorem State.stopsInside_of_trap {s : State} {w : Word} {k : Exc} (h : firstWordTrap s.fcw w = some k) :
    s.stopsInside w = false := by
  rcases firstWordTrap_some h with ⟨-, epa⟩ | ⟨-, op⟩
  · simp [State.stopsInside, epa]
  · simp [State.stopsInside, isExtendedWord, isExtendedOp_of_privileged op]

/-- Settles O7: the fetch ends in the trap (`fetchAfter_trap`), and the trap is an entry (`enter_plain`). -/
theorem firstWordTraps : Obligations.FirstWordTraps := by
  intro s k hp ha he hs ht
  have fetched : s.firstFetched = s.fetched 1 := by
    rw [State.fetched, State.stopsInside_of_trap ht, Bool.or_false]
    rfl
  have run : runInstr s = .next ((s.fetched 1).entered k (s.wordAt .code s.pc) (s.pc.add 2)) := by
    rw [runInstr, fetchInstr_first hp ((Addr.aligned_w _).1 he), fetchAfter_trap (s := s.firstFetched) ht, fetched]
    show M.run (trapOnFirstWord k) (s.fetched 1) = _
    rw [run_trapOnFirstWord]
    exact M.run_ok (enter_plain k _ _ (s.fetched 1) hp hs)
  refine ⟨(firstWordTrap_some ht).imp And.left And.left, ?_⟩
  rw [step, act, ha, ← run]

/-! Words that are no instruction (R156, U2). -/

/-- Words that decode decode before any further words. -/
theorem decode_append {seg : Bool} {ws rest : List Word} {i : Instr} (h : decode seg ws = .ok (i, rest))
    (vs : List Word) : decode seg (ws ++ vs) = .ok (i, rest ++ vs) := by
  obtain ⟨p, rfl, hp⟩ := decode_next seg ws rest i h
  rw [List.append_assoc]
  exact hp _

/-- Where the words from the PC on are no instruction, the fetch of more words finds none. -/
theorem fetchMore_reserved {e : DecodeError} (hne : e ≠ .truncated) : ∀ (fuel m : Nat) (ws : List Word) (s : State),
    s.plain → s.pcOff.getLsbD 0 = false → m ≤ fuel → decode s.isSeg (ws ++ s.codeWords m) = .error e →
    ∃ p, fetchMore ws fuel s = .ok (none, { s with pcOff := p }) := by
  intro fuel
  induction fuel with
  | zero =>
    intro m ws s _ _ hm h
    obtain rfl := Nat.le_zero.1 hm
    have here : decode s.isSeg ws = .error e := by simpa [State.codeWords] using h
    refine ⟨s.pcOff, ?_⟩
    rw [fetchMore, M.bind_ok (M.get_apply s), here]
    rfl
  | succ fuel ih =>
    intro m ws s hp he hm h
    rw [fetchMore, M.bind_ok (M.get_apply s)]
    cases hd : decode s.isSeg ws with
    | ok v => rw [decode_append (rest := v.2) (i := v.1) hd] at h; cases h
    | error e' =>
      cases e' with
      | reserved | illFormed => exact ⟨s.pcOff, rfl⟩
      | truncated =>
        cases m with
        | zero =>
          have here : decode s.isSeg ws = .error e := by simpa [State.codeWords] using h
          rw [hd] at here
          cases here
          exact absurd rfl hne
        | succ m =>
          rw [State.codeWords_succ] at h
          obtain ⟨p, more⟩ := ih m (ws ++ [s.wordAt .code s.pc]) { s with pcOff := s.pcOff + 2 } hp
            (by rw [lsb_add_even _ _ (by decide), he]) (by omega) (by rw [List.append_assoc]; exact h)
          exact ⟨p, (M.bind_ok (fetchWord_plain .code s rfl hp he)).trans more⟩

/-- Settles O8: the first word raises no trap, and no further word makes an instruction (`fetchMore_reserved`). -/
theorem reservedRefused : Obligations.ReservedRefused := by
  intro s n e hp ha he pos hn ht hd hne
  have even : s.pcOff.getLsbD 0 = false := (Addr.aligned_w _).1 he
  obtain ⟨n, rfl⟩ : ∃ m, n = m + 1 := ⟨n - 1, by omega⟩
  rw [State.codeWords_succ] at hd
  obtain ⟨p, more⟩ := fetchMore_reserved hne (maxWords - 1) n [s.wordAt .code s.pc]
    { s.firstFetched with rowStepped := s.rowStepped || s.stopsInside (s.wordAt .code s.pc) } hp
    ((lsb_add_even s.pcOff 2 (by decide)).trans even) (Nat.le_sub_one_of_lt hn) hd
  have refused : fetchInstr s = .error (.refused .reservedEncoding) :=
    (fetchInstr_first hp even).trans (fetchAfter_refused ht more hp.2.2)
  simp only [step, act, ha, runInstr, refused, Out.bind, Out.map]

end Sys2Proof.Machine
end

section
/-! PROOF. The condition codes, and words the sources print with the instructions they stand for (R150, R165). -/

namespace Sys2Proof.Machine

open Sys2Proof

/-- The tests of the low three bits of a code (R150). -/
theorem Fcw.cond_low (f : Fcw) :
    f.cond 0 = false ∧ f.cond 1 = (f.s != f.pv) ∧ f.cond 2 = (f.z || f.s != f.pv) ∧ f.cond 3 = (f.c || f.z) ∧
      f.cond 4 = f.pv ∧ f.cond 5 = f.s ∧ f.cond 6 = f.z ∧ f.cond 7 = f.c := by
  simp [Fcw.cond, condOn]

/-- Bit 3 of a code inverts the test (R150). -/
theorem Fcw.cond_add_eight (f : Fcw) (cc : CC) : f.cond (cc + 8) = !f.cond cc := by
  have same : (cc + 8).val % 8 = cc.val % 8 := by omega
  have flipped : decide (8 ≤ (cc + 8).val) = !decide (8 ≤ cc.val) := by
    rw [← decide_not, decide_eq_decide]
    omega
  rw [Fcw.cond, condOn, same, flipped, Bool.bne_not]
  rfl

/-- Settles O29, by `Fcw.cond_low` and `Fcw.cond_add_eight`. -/
theorem conditionCodes : Obligations.ConditionCodes := by
  intro f
  obtain ⟨h0, h1, h2, h3, h4, h5, h6, h7⟩ := f.cond_low
  have high (cc : CC) {b : Bool} (h : f.cond cc = b) : f.cond (cc + 8) = !b := (f.cond_add_eight cc).trans (by rw [h])
  refine ⟨h0, high 0 h0, ?_, ?_, ?_, ?_, ?_, ?_, h4, high 4 h4, h5, high 5 h5, h6, high 6 h6, h7, high 7 h7⟩
  · simp [h1]
  · simp [show f.cond 9 = _ from high 1 h1]
  · simp [h2]
  · simp [show f.cond 10 = _ from high 2 h2]
  · simp [h3]
  · simp [show f.cond 11 = _ from high 3 h3]

/-- Settles O5: the printed words are what the instruction printed beside them encodes to, so `decodeEncode` applies. -/
theorem decodeSamples : Obligations.DecodeSamples :=
  have printed (i : Instr) (h : i.wf false = true) : decode false (encode i ++ []) = .ok (i, []) :=
    decodeEncode false i [] h
  ⟨printed (.add 2 (.reg 3)) rfl, printed (.add 2 (.imm 0x1234)) rfl, printed (.addb 2 (.imm 0x12)) rfl,
    printed (.addl 2 (.imm 0x12345678)) rfl, printed .iret rfl, printed .nop rfl, printed .halt rfl,
    printed (.bitDyn 5 1) rfl, printed (.trirb 4 5 3) rfl, printed (.soutb 0x0100 8) rfl⟩

end Sys2Proof.Machine
end

section
/-! PROOF. The load and exchange instructions on a machine of plain RAM without MMUs (R200 to R224). -/

namespace Sys2Proof.Machine

open Sys2Proof

/-! Loads into a register (R205, R206, R210, R218). -/

theorem load_plain (wd : Width) (d : Reg) (x : Src wd) (s : State) (hp : s.plain) (hx : x.ready s = true) :
    load wd d x s = .ok ((), s.setRegAt wd d (x.value s)) := by
  unfold load
  rw [M.bind_ok (readSrc_plain x s hp hx), writeReg_apply]

theorem loadBased_plain (wd : Width) (d : Reg) (b : Based) (s : State) (hp : s.plain) (hb : b.ready wd s = true) :
    loadBased wd d b s = .ok ((), s.setRegAt wd d (b.value wd s)) := by
  unfold loadBased
  rw [M.bind_ok (readBased_plain wd b s hp hb), writeReg_apply]

/-- Settles O12, by `load_plain` and `loadBased_plain` at each width; an immediate form is a register write. -/
theorem loadRegister : Obligations.LoadRegister := by
  intro s d hp
  refine ⟨fun x hx => ?_, fun x hx => ?_, fun x hx => ?_, fun b hb => ?_, fun b hb => ?_, fun b hb => ?_,
    fun v => ?_, fun n => ?_⟩
  · exact M.run_ok (load_plain .w d x s hp hx)
  · exact M.run_ok (load_plain .b d x s hp hx)
  · exact M.run_ok (load_plain .l d x s hp hx)
  · exact M.run_ok (loadBased_plain .w d b s hp hb)
  · exact M.run_ok (loadBased_plain .b d b s hp hb)
  · exact M.run_ok (loadBased_plain .l d b s hp hb)
  · exact M.run_ok (writeReg_apply .b d v s)
  · exact M.run_ok (writeReg_apply .w d _ s)

/-! Stores (R201, R207 to R209). -/

theorem store_plain (wd : Width) (m : Mem) (r : Reg) (s : State) (hp : s.plain) (hm : m.ready wd s = true) :
    store wd m r s = .ok ((), m.put wd s (s.regAt wd r)) := by
  unfold store
  rw [M.bind_ok (readReg_apply wd r s), writeM_plain wd m _ s hp hm]

theorem storeBased_plain (wd : Width) (b : Based) (r : Reg) (s : State) (hp : s.plain) (hb : b.ready wd s = true) :
    storeBased wd b r s = .ok ((), b.put wd s (s.regAt wd r)) := by
  unfold storeBased
  rw [M.bind_ok (readReg_apply wd r s), writeBased_plain wd b _ s hp hb]

/-- Settles O13, by `store_plain` and `storeBased_plain` at each width; the immediate forms and CLR read nothing. -/
theorem storeMemory : Obligations.StoreMemory := by
  intro s r hp
  refine ⟨fun m hm => ?_, fun m hm => ?_, fun m hm => ?_, fun b hb => ?_, fun b hb => ?_, fun b hb => ?_,
    fun m v hm => ?_, fun m v hm => ?_, fun x hx => ?_, fun x hx => ?_⟩
  · exact M.run_ok (store_plain .w m r s hp hm)
  · exact M.run_ok (store_plain .b m r s hp hm)
  · exact M.run_ok (store_plain .l m r s hp hm)
  · exact M.run_ok (storeBased_plain .w b r s hp hb)
  · exact M.run_ok (storeBased_plain .b b r s hp hb)
  · exact M.run_ok (storeBased_plain .l b r s hp hb)
  · exact M.run_ok (writeM_plain .w m v s hp hm)
  · exact M.run_ok (writeM_plain .b m v s hp hm)
  · exact M.run_ok (writeDst_plain .w x 0 s hp hx)
  · exact M.run_ok (writeDst_plain .b x 0 s hp hx)

/-! Exchange (R202). -/

/-- Both operands are read before either is written. -/
theorem exchange_plain (wd : Width) (d : Reg) (x : Dst) (s : State) (hp : s.plain) (hx : x.ready wd s = true) :
    exchange wd d x s = .ok ((), (x.put wd s (s.regAt wd d)).setRegAt wd d (x.value wd s)) := by
  have reset : (x.put wd s (s.regAt wd d)).resetIn = none := (Dst.put_resetIn ..).trans hp.2.2
  unfold exchange
  rw [M.bind_ok (readDst_plain wd x s hp hx), M.bind_ok (readReg_apply wd d s),
    M.bind_ok (writeDst_plain wd x _ s hp hx), M.bind_ok (resetPoint_none _ reset), writeReg_apply]

/-- Settles O14, by `exchange_plain` at both widths. -/
theorem exExchangesOperands : Obligations.Exchange := fun s d x hp =>
  ⟨fun hx => M.run_ok (exchange_plain .w d x s hp hx), fun hx => M.run_ok (exchange_plain .b d x s hp hx)⟩

/-! Effective addresses (R215, R216). -/

/-- In segmented mode an instruction that loads an address leaves any value in the reserved bits of the pair (U12). -/
theorem run_loadAddress_seg (d : Reg) (a : Addr) (s : State) (hg : s.isSeg = true) :
    ∃ (r31 : BitVec 1) (r16 : Byte) (n : Nat), M.run (loadAddress d a) s =
      .next (({ s with freeCount := n }).setRegL d (r31 ++ a.seg ++ r16 ++ a.off)) := by
  obtain ⟨r31, r16, n, e⟩ := loadAddress_seg d a s hg
  exact ⟨r31, r16, n, M.run_ok e⟩

/-- LDAR loads as LDA does, unless it is to clear the reserved bits of a pair (log 51). -/
theorem exec_ldar_loadAddress (d : Reg) (disp : Word) (s : State) (h : (s.isSeg && !s.cfg.ldarReservedFree) = false) :
    exec (.ldar d disp) s = M.run (loadAddress d (s.relative disp)) s := by
  change M.run (if _ then _ else _) s = _
  rw [if_neg (by simp [h])]

theorem exec_ldar_zeros (d : Reg) (disp : Word) (s : State) (h : (s.isSeg && !s.cfg.ldarReservedFree) = true) :
    exec (.ldar d disp) s = .next (s.setRegL d (s.relative disp).toLong) := by
  change M.run (if _ then _ else _) s = _
  rw [if_pos h]
  exact M.run_ok (writeReg_apply .l d _ s)

/-- Settles O15, mode by mode; in segmented mode LDAR goes by its parameter. -/
theorem ldaLoadsAddress : Obligations.LoadAddress := by
  intro s d
  refine ⟨fun hg => ⟨fun m => ?_, fun b => ?_, fun disp => ?_⟩, fun hg => ⟨fun m => ?_, fun b => ?_, fun disp => ?_⟩⟩
  · exact M.run_ok (loadAddress_nonseg d (Mem.ea s m) s hg)
  · exact M.run_ok (loadAddress_nonseg d (Based.ea s b) s hg)
  · rw [exec_ldar_loadAddress d disp s (by simp [hg])]
    exact M.run_ok (loadAddress_nonseg d (s.relative disp) s hg)
  · exact run_loadAddress_seg d (Mem.ea s m) s hg
  · exact run_loadAddress_seg d (Based.ea s b) s hg
  · split
    next free =>
      rw [exec_ldar_loadAddress d disp s (by simp [free])]
      exact run_loadAddress_seg d (s.relative disp) s hg
    next zeros => exact exec_ldar_zeros d disp s (by simp [hg, zeros])

/-! Program memory (R224). -/

theorem loadRelative_plain (wd : Width) (d : Reg) (disp : Word) (s : State) (hp : s.plain)
    (ha : (s.relative disp).aligned wd = true) :
    loadRelative wd d disp s = .ok ((), s.setRegAt wd d (s.value .code (s.relative disp) wd)) := by
  unfold loadRelative
  rw [M.bind_ok (M.get_apply s), M.bind_ok (readMem_plain .code _ wd s hp ha), writeReg_apply]

theorem storeRelative_plain (wd : Width) (disp : Word) (r : Reg) (s : State) (hp : s.plain)
    (ha : (s.relative disp).aligned wd = true) :
    storeRelative wd disp r s = .ok ((), s.stored .code (s.relative disp) wd (s.regAt wd r)) := by
  unfold storeRelative
  rw [M.bind_ok (M.get_apply s), writeMem_plain .code _ wd _ s hp ha]

/-- Settles O16, by `loadRelative_plain` and `storeRelative_plain` at each width; a byte is aligned anywhere. -/
theorem ldrMovesRelative : Obligations.LoadRelative := by
  intro s r disp hp
  refine ⟨fun ha => ⟨?_, ?_, ?_, ?_⟩, ?_, ?_⟩
  · exact M.run_ok (loadRelative_plain .w r disp s hp ha)
  · exact M.run_ok (loadRelative_plain .l r disp s hp (Addr.aligned_of_word _ .l ha))
  · exact M.run_ok (storeRelative_plain .w disp r s hp ha)
  · exact M.run_ok (storeRelative_plain .l disp r s hp (Addr.aligned_of_word _ .l ha))
  · exact M.run_ok (loadRelative_plain .b r disp s hp (Addr.aligned_b _))
  · exact M.run_ok (storeRelative_plain .b disp r s hp (Addr.aligned_b _))

end Sys2Proof.Machine
end

section
/-! PROOF. LDM on a machine of plain RAM without MMUs (R220): what the registers hold after several register writes, and
memory after several stores. -/

namespace Sys2Proof.Machine

open Sys2Proof

/-! Several registers. -/

/-- Up to sixteen consecutive registers differ (R220). -/
theorem regAfter_inj {r : Reg} {i j : Nat} (hi : i < 16) (hj : j < 16) (h : regAfter r i = regAfter r j) : i = j := by
  have e : Fin.ofNat 16 i = Fin.ofNat 16 j := add_left_cancel h
  simpa [Fin.ext_iff, Nat.mod_eq_of_lt hi, Nat.mod_eq_of_lt hj] using e

/-- The state after `n` words `g 0`, `g 1`, … are written to the registers from `r` on (R220). -/
def State.regsLoaded (s : State) (r : Reg) (g : Nat → Word) (n : Nat) : State :=
  (List.range n).foldl (fun t j => t.setReg (regAfter r j) (g j)) s

section
variable (s : State) (r : Reg) (g : Nat → Word)

theorem State.regsLoaded_succ (n : Nat) :
    s.regsLoaded r g (n + 1) = (s.regsLoaded r g n).setReg (regAfter r n) (g n) := by
  simp [State.regsLoaded, List.range_succ]

/-- Each register of the run holds its own word: a later write goes to another register. -/
theorem State.reg_regsLoaded {n j : Nat} (hn : n ≤ 16) (hj : j < n) :
    (s.regsLoaded r g n).reg (regAfter r j) = g j := by
  induction n with
  | zero => omega
  | succ n ih =>
    rw [State.regsLoaded_succ]
    by_cases e : j = n
    · rw [e, State.reg_setReg_same]
    · have other : regAfter r j ≠ regAfter r n := fun h => e (regAfter_inj (by omega) (by omega) h)
      rw [State.reg_setReg_other _ _ _ _ other, ih (by omega) (by omega)]

theorem State.reg_regsLoaded_other {n : Nat} {q : Reg} (hq : q ∉ runOfRegs r n) :
    (s.regsLoaded r g n).reg q = s.reg q := by
  induction n with
  | zero => rfl
  | succ n ih =>
    obtain ⟨before, last⟩ : q ∉ runOfRegs r n ∧ q ≠ regAfter r n := by
      simpa [runOfRegs, List.range_succ, or_imp, forall_and] using hq
    rw [State.regsLoaded_succ, State.reg_setReg_other _ _ _ _ last, ih before]

end

/-- Two states differ in their general registers alone, in whatever copy. -/
def State.DiffersInRegs (s t : State) : Prop := t = { s with regs := t.regs, sysR14 := t.sysR14, sysR15 := t.sysR15 }

theorem State.DiffersInRegs.setReg {s t : State} (h : s.DiffersInRegs t) (n : Reg) (v : Word) :
    s.DiffersInRegs (t.setReg n v) := by
  unfold State.DiffersInRegs at *
  unfold State.setReg
  split
  · rw [h]
  · split <;> rw [h]

theorem State.regsLoaded_frame (s : State) (r : Reg) (g : Nat → Word) (n : Nat) :
    s.DiffersInRegs (s.regsLoaded r g n) := by
  induction n with
  | zero => rfl
  | succ n ih =>
    rw [State.regsLoaded_succ]
    exact ih.setReg _ _

/-! Several words of memory. -/

/-- The places of the words after an even address lie apart, also where the offset wraps (R84). -/
theorem State.key_wordAfter_apart (s : State) (l : Label) (a : Addr) (ha : a.off.getLsbD 0 = false) {i j : Nat}
    (hi : i < 32768) (hj : j < 32768) (h : i ≠ j) :
    s.key l (wordAfter a i) + 2 ≤ s.key l (wordAfter a j) ∨ s.key l (wordAfter a j) + 2 ≤ s.key l (wordAfter a i) := by
  have even := toNat_even ha
  have off (k : Nat) : (a.off + BitVec.ofNat 16 (2 * k)).toNat = (a.off.toNat + 2 * k) % 65536 := by simp
  have offi := off i
  have offj := off j
  simp only [State.key, memKey, Addr.flat, Addr.add, wordAfter]
  omega

/-- The state after `n` words `g 0`, `g 1`, … are stored from `a` on (R220). -/
def State.wordsStored (s : State) (l : Label) (a : Addr) (g : Nat → Word) (n : Nat) : State :=
  (List.range n).foldl (fun t j => t.storeWord l (wordAfter a j) (g j)) s

section
variable (s : State) (l : Label) (a : Addr) (g : Nat → Word)

theorem State.wordsStored_succ (n : Nat) :
    s.wordsStored l a g (n + 1) = (s.wordsStored l a g n).storeWord l (wordAfter a n) (g n) := by
  simp [State.wordsStored, List.range_succ]

/-- Stores change memory alone. -/
theorem State.wordsStored_frame (n : Nat) : s.wordsStored l a g n = { s with mem := (s.wordsStored l a g n).mem } := by
  induction n with
  | zero => rfl
  | succ n ih =>
    rw [State.wordsStored_succ, ih]
    rfl

/-- Stores leave every label's place in memory. -/
theorem State.key_wordsStored (n : Nat) (l' : Label) (b : Addr) : (s.wordsStored l a g n).key l' b = s.key l' b := by
  rw [State.wordsStored_frame]
  rfl

theorem State.wordsStored_wf (hw : s.mem.wf = true) (n : Nat) : (s.wordsStored l a g n).mem.wf = true := by
  induction n with
  | zero => exact hw
  | succ n ih =>
    rw [State.wordsStored_succ]
    exact Memory.writeWord_wf _ _ _ ih

/-- Each word reads back: a later store goes to another place. -/
theorem State.wordAt_wordsStored (hw : s.mem.wf = true) (ha : a.off.getLsbD 0 = false) {n j : Nat} (hn : n ≤ 32768)
    (hj : j < n) : (s.wordsStored l a g n).wordAt l (wordAfter a j) = g j := by
  induction n with
  | zero => omega
  | succ n ih =>
    rw [State.wordsStored_succ]
    by_cases e : j = n
    · rw [e]
      exact Memory.readWord_writeWord _ _ _ (s.wordsStored_wf l a g hw n)
    · have apart := (s.wordsStored l a g n).key_wordAfter_apart l a ha (i := n) (j := j) (by omega) (by omega) (Ne.symm e)
      exact (Memory.readWord_writeWord_other _ _ _ _ apart).trans (ih (by omega) (by omega))

end

/-! LDM (R220). -/

theorem exec_ldmLoad_plain (s : State) (m : Mem) (r : Reg) (n : Fin 16) (hp : s.plain) (hm : m.ready .w s = true) :
    exec (.ldmLoad r m n) s =
      .next (s.regsLoaded r (fun j => s.wordAt (Mem.label s m) (wordAfter (Mem.ea s m) j)) (n.val + 1)) := by
  have run := loadMultiple_plain (Mem.label s m) (Mem.ea s m) r (n.val + 1) 0 s hp ((Addr.aligned_w _).1 hm)
  rw [← List.range_eq_range'] at run
  exact M.run_ok run

theorem exec_ldmStore_plain (s : State) (m : Mem) (r : Reg) (n : Fin 16) (hp : s.plain) (hm : m.ready .w s = true) :
    exec (.ldmStore m r n) s =
      .next (s.wordsStored (Mem.label s m) (Mem.ea s m) (fun j => s.reg (regAfter r j)) (n.val + 1)) := by
  have run := storeMultiple_plain (Mem.label s m) (Mem.ea s m) r (n.val + 1) 0 s hp ((Addr.aligned_w _).1 hm)
  rw [← List.range_eq_range'] at run
  exact M.run_ok run

/-- Settles O17: the next states are `State.regsLoaded` and `State.wordsStored`, whose values and frames are stated above;
the bytes of memory outside the stores are those of `frameMemory`. -/
theorem ldmMovesWords : Obligations.LoadMultiple := by
  intro s m r n hp hm
  have even := (Addr.aligned_w _).1 hm
  have few := n.isLt
  have runs : Instr.runs s (.ldmStore m r n) = true := rfl
  have run := exec_ldmStore_plain s m r n hp hm
  refine ⟨exec_ldmLoad_plain s m r n hp hm, run, ?loaded, ?others, ?loadFrame, ?stored, ?bytes, ?storeFrame⟩
  case loaded => exact fun j hj => s.reg_regsLoaded r _ few (Nat.lt_succ_of_le hj)
  case others => exact fun q hq => s.reg_regsLoaded_other r _ hq
  case loadFrame => exact s.regsLoaded_frame r _ _
  case stored => exact fun hw j hj => s.wordAt_wordsStored _ _ _ hw even (by omega) (Nat.lt_succ_of_le hj)
  case bytes => exact fun _ => frameMemory s _ _ hp runs run
  case storeFrame => exact s.wordsStored_frame _ _ _ _

end Sys2Proof.Machine
end

section
/-! PROOF. The sum and the difference of two words of any width, and what V means in the integers (R240). -/

namespace Sys2Proof.Machine

open Sys2Proof

/-! The result and C. -/

theorem addWith_c {n : Nat} (a b : BitVec n) (c : Bool) :
    (addWith a b c).c = true ↔ 2 ^ n ≤ a.toNat + b.toNat + c.toNat := decide_eq_true_iff

theorem subWith_c {n : Nat} (a b : BitVec n) (c : Bool) :
    (subWith a b c).c = true ↔ a.toNat < b.toNat + c.toNat := decide_eq_true_iff

theorem addWith_r {n : Nat} (a b : BitVec n) (c : Bool) :
    (addWith a b c).r.toNat = (a.toNat + b.toNat + c.toNat) % 2 ^ n := BitVec.toNat_ofNat ..

/-- A number below twice the modulus is its remainder, or one modulus more. -/
theorem mod_add_carry {m k : Nat} (h : m < 2 * k) : m % k + (if k ≤ m then k else 0) = m := by
  split
  next le => rw [Nat.mod_eq_sub_mod le, Nat.mod_eq_of_lt (by omega)]; omega
  next lt => exact Nat.mod_eq_of_lt (by omega)

/-- The result and the carry hold the exact sum. -/
theorem addWith_exact {n : Nat} (a b : BitVec n) (c : Bool) :
    (addWith a b c).r.toNat + (if (addWith a b c).c = true then 2 ^ n else 0) = a.toNat + b.toNat + c.toNat := by
  have hc := c.toNat_lt
  simp only [addWith_c, addWith_r]
  exact mod_add_carry (by omega)

/-- A difference of words and its borrow hold the exact difference. -/
theorem sub_borrow_exact {n : Nat} (a b : BitVec n) :
    (a - b).toNat + b.toNat = a.toNat + (if a.toNat < b.toNat then 2 ^ n else 0) := by
  split
  next lt => rw [BitVec.toNat_sub_of_lt lt]; omega
  next ge => rw [BitVec.toNat_sub_of_le (Nat.le_of_not_lt ge), Nat.sub_add_cancel (Nat.le_of_not_lt ge)]; rfl

/-- The result and the borrow hold the exact difference. -/
theorem subWith_exact {n : Nat} (hn : 0 < n) (a b : BitVec n) (c : Bool) :
    (subWith a b c).r.toNat + b.toNat + c.toNat = a.toNat + (if (subWith a b c).c = true then 2 ^ n else 0) := by
  have toNat_c : (BitVec.ofNat n c.toNat).toNat = c.toNat :=
    Nat.mod_eq_of_lt (c.toNat_lt.trans_le (Nat.le_pow hn))
  have first := sub_borrow_exact a b
  have second := sub_borrow_exact (a - b) (BitVec.ofNat n c.toNat)
  rw [toNat_c] at second
  change (a - b - BitVec.ofNat n c.toNat).toNat + _ + _ = _
  simp only [subWith_c]
  have hc := c.toNat_lt
  have lt := (a - b).isLt
  have lt' := (a - b - BitVec.ofNat n c.toNat).isLt
  split at first <;> split at second <;> split <;> omega

theorem subWith_r {n : Nat} (hn : 0 < n) (a b : BitVec n) (c : Bool) :
    ((subWith a b c).r.toNat : Int) = ((a.toNat : Int) - b.toNat - c.toNat) % 2 ^ n := by
  have total := subWith_exact hn a b c
  have lt : ((subWith a b c).r.toNat : Int) < 2 ^ n := by exact_mod_cast (subWith a b c).r.isLt
  rw [← Int.emod_eq_of_lt (Int.natCast_nonneg _) lt]
  have total' : ((subWith a b c).r.toNat : Int) + b.toNat + c.toNat =
    a.toNat + if (subWith a b c).c = true then 2 ^ n else 0 := by exact_mod_cast total
  split at total'
  · rw [show ((subWith a b c).r.toNat : Int) = a.toNat - b.toNat - c.toNat + 2 ^ n by omega, Int.add_emod_right]
  · rw [show ((subWith a b c).r.toNat : Int) = a.toNat - b.toNat - c.toNat by omega]

/-! V (R240). -/

theorem addWith_v {n : Nat} (a b : BitVec n) (c : Bool) :
    (addWith a b c).v = true ↔ a.msb = b.msb ∧ (addWith a b c).r.msb ≠ a.msb := by simp [addWith]

theorem subWith_v {n : Nat} (a b : BitVec n) (c : Bool) :
    (subWith a b c).v = true ↔ a.msb ≠ b.msb ∧ (subWith a b c).r.msb = b.msb := by simp [subWith]

/-- The sign bit and the signed value of a word of `n + 1` bits, by the half its unsigned value lies in. -/
theorem signed_cases {n : Nat} (x : BitVec (n + 1)) :
    (x.msb = false ∧ x.toNat < 2 ^ n ∧ x.toInt = x.toNat) ∨
    (x.msb = true ∧ 2 ^ n ≤ x.toNat ∧ x.toInt = x.toNat - 2 * (2 ^ n : Nat)) := by
  have sign := BitVec.msb_eq_decide x
  have value := BitVec.toInt_eq_msb_cond x
  cases h : x.msb <;> simp_all [pow_succ, mul_comm]

/-- V of a sum: the exact signed sum does not fit. -/
theorem addWith_v_overflow {n : Nat} (a b : BitVec (n + 1)) (c : Bool) : (addWith a b c).v = true ↔
    a.toInt + b.toInt + c.toNat < -2 ^ n ∨ 2 ^ n ≤ a.toInt + b.toInt + c.toNat := by
  have total := addWith_exact a b c
  have cast : (2 : Int) ^ n = (2 ^ n : Nat) := by simp
  have hc := c.toNat_lt
  have ha := signed_cases a
  have hb := signed_cases b
  have hr := signed_cases (addWith a b c).r
  rw [addWith_v, cast]
  grind

/-- V of a difference: the exact signed difference does not fit. -/
theorem subWith_v_overflow {n : Nat} (a b : BitVec (n + 1)) (c : Bool) : (subWith a b c).v = true ↔
    a.toInt - b.toInt - c.toNat < -2 ^ n ∨ 2 ^ n ≤ a.toInt - b.toInt - c.toNat := by
  have total := subWith_exact n.succ_pos a b c
  have cast : (2 : Int) ^ n = (2 ^ n : Nat) := by simp
  have hc := c.toNat_lt
  have ha := signed_cases a
  have hb := signed_cases b
  have hr := signed_cases (subWith a b c).r
  rw [subWith_v, cast]
  grind

/-- A borrow is the absence of a carry from the two's-complement sum. -/
theorem borrow_iff_no_carry {n : Nat} (a b : BitVec n) (c : Bool) :
    a.toNat < b.toNat + c.toNat ↔ a.toNat + (~~~b).toNat + (!c).toNat < 2 ^ n := by
  have lt := b.isLt
  rw [BitVec.toNat_not]
  cases c <;> simp only [Bool.toNat_false, Bool.toNat_true, Bool.not_false, Bool.not_true] <;> omega

/-- Settles O20: results and flags by their definitions, V by the exact result. -/
theorem arithmeticFlags : Obligations.ArithmeticFlags := by
  intro n a b c hn
  obtain ⟨n, rfl⟩ : ∃ k, n = k + 1 := ⟨n - 1, by omega⟩
  refine ⟨⟨addWith_r a b c, addWith_c a b c, beq_iff_eq, rfl, addWith_v a b c, decide_eq_true_iff,
    addWith_v_overflow a b c⟩, subWith_r n.succ_pos a b c, subWith_c a b c, beq_iff_eq, rfl, subWith_v a b c,
    (subWith_c a b c).trans (borrow_iff_no_carry a b c), decide_eq_true_iff, subWith_v_overflow a b c⟩

end Sys2Proof.Machine
end

section
/-! PROOF. Comparison, counting, sign extension, negation and multiplication (R243, R244, R246 to R252). -/

namespace Sys2Proof.Machine

open Sys2Proof

/-! Comparison (R243, R244). -/

theorem compareReg_plain (wd : Width) (d : Reg) (x : Src wd) (s : State) (hp : s.plain) (hx : x.ready s = true) :
    compareReg wd d x s = .ok ((), s.withFcw (s.fcw.arith (subWith (s.regAt wd d) (x.value s) false))) := by
  unfold compareReg
  rw [M.bind_ok (readSrc_plain x s hp hx), M.bind_ok (readReg_apply wd d s), setFcw_apply]

theorem compareImm_plain (wd : Width) (m : Mem) (v : BitVec wd.bits) (s : State) (hp : s.plain)
    (hm : m.ready wd s = true) :
    compareImm wd m v s = .ok ((), s.withFcw (s.fcw.arith (subWith (m.value wd s) v false))) := by
  unfold compareImm
  rw [M.bind_ok (readM_plain wd m s hp hm), setFcw_apply]

/-- Settles O21, by `compareReg_plain` and `compareImm_plain` at each width. -/
theorem compareResult : Obligations.CompareResult := by
  intro s d hp
  refine ⟨fun x hx => ?_, fun x hx => ?_, fun x hx => ?_, fun m v hm => ?_, fun m v hm => ?_⟩
  · exact M.run_ok (compareReg_plain .w d x s hp hx)
  · exact M.run_ok (compareReg_plain .b d x s hp hx)
  · exact M.run_ok (compareReg_plain .l d x s hp hx)
  · exact M.run_ok (compareImm_plain .w m v s hp hm)
  · exact M.run_ok (compareImm_plain .b m v s hp hm)

/-! Read-modify-write instructions (R246, R247, R250). -/

/-- The flags are computed from the value read and from FCW as it was. -/
theorem run_updateDst (wd : Width) (d : Dst) (f : BitVec wd.bits → BitVec wd.bits) (g : BitVec wd.bits → Fcw → Fcw)
    (s : State) (hp : s.plain) (hd : d.ready wd s = true) : M.run (updateDst wd d f g) s =
      .next ((d.put wd s (f (d.value wd s))).withFcw (g (d.value wd s) s.fcw)) := by
  rw [M.run_ok (updateDst_plain wd d f g s hp hd), Dst.put_fcw]

/-- Settles O22, by `run_updateDst` with the operation and flags of each form. -/
theorem incrementDecrement : Obligations.IncrementDecrement := by
  intro s d n hp
  refine ⟨fun hd => ⟨?_, ?_⟩, fun hd => ⟨?_, ?_⟩⟩ <;> exact run_updateDst _ d _ _ s hp hd

/-- Settles O24: extension is by definition that of the signed value, and NEG is a read-modify-write. -/
theorem extendNegate : Obligations.ExtendNegate := by
  intro s d x
  refine ⟨rfl, rfl, rfl, fun hp hx => ?_, fun hp hx => ?_⟩
  · exact run_updateDst .w x _ _ s hp hx
  · exact run_updateDst .b x _ _ s hp hx

/-! Multiplication (R252). -/

/-- The product of two words of `n` bits fits in `2 * n`. -/
theorem toInt_product {n : Nat} (hn : 0 < n) (a b : BitVec n) :
    (BitVec.ofInt (2 * n) (a.toInt * b.toInt)).toInt = a.toInt * b.toInt := by
  have low := BitVec.le_toInt_mul_toInt (x := a) (y := b)
  have high := BitVec.toInt_mul_toInt_le (x := a) (y := b)
  have room : (2 : Int) ^ (n * 2 - 2) < 2 ^ (2 * n - 1) := pow_lt_pow_right₀ one_lt_two (by omega)
  exact BitVec.toInt_ofInt_eq_self (by omega) (by omega) (by omega)

theorem toInt_eq_zero {n : Nat} {r : BitVec n} : r.toInt = 0 ↔ r = 0 := by
  rw [← BitVec.toInt_zero (w := n), BitVec.toInt_inj]
  rfl

/-- Z of a word, from its signed value. -/
theorem beq_zero_eq_toInt {n : Nat} (r : BitVec n) : (r == 0) = decide (r.toInt = 0) := by
  rw [Bool.eq_iff_iff, beq_iff_eq, decide_eq_true_iff, toInt_eq_zero]

/-- The flags of a product, from the word that holds it. -/
theorem Fcw.product_toInt (f : Fcw) (n m : Nat) (p : BitVec m) : f.product n p.toInt =
    { f with c := decide (p.toInt < -2 ^ (n - 1) ∨ 2 ^ (n - 1) ≤ p.toInt), z := p == 0, s := p.msb, pv := false } := by
  rw [beq_zero_eq_toInt, BitVec.msb_eq_toInt, Bool.decide_or]
  rfl

theorem multiply_plain (d : Reg) (x : Src .w) (s : State) (hp : s.plain) (hx : x.ready s = true) :
    let p := (s.reg (d + 1)).toInt * (x.value s : Word).toInt
    multiply d x s = .ok ((), (s.setRegL d (BitVec.ofInt 32 p)).withFcw (s.fcw.product 16 p)) := by
  unfold multiply
  rw [M.bind_ok (readSrc_plain x s hp hx), M.bind_ok (readReg_apply .w (d + 1) s), M.bind_ok (writeReg_apply .l d _ s),
    setFcw_apply, State.setRegAt_fcw]
  rfl

theorem multiplyLong_plain (d : Reg) (x : Src .l) (s : State) (hp : s.plain) (hx : x.ready s = true) :
    let p := (s.regL (d + 2)).toInt * (x.value s : Long).toInt
    multiplyLong d x s = .ok ((), (s.setRegQ d (BitVec.ofInt 64 p)).withFcw (s.fcw.product 32 p)) := by
  unfold multiplyLong
  rw [M.bind_ok (readSrc_plain x s hp hx), M.bind_ok (readReg_apply .l (d + 2) s), M.bind_ok (M.modify_apply _ s),
    setFcw_apply, State.setRegQ_fcw]
  rfl

/-- Settles O25: the double word written holds the exact product, and the flags of the product are its flags. -/
theorem multiplyLeavesProduct : Obligations.Multiply := by
  intro s d hp
  refine ⟨fun x hx => ?word, fun x hx => ?long⟩
  case word =>
    have total := toInt_product (n := 16) (by decide) (s.reg (d + 1)) (x.value s)
    have run := multiply_plain d x s hp hx
    refine ⟨_, total, ?_⟩
    rw [← Fcw.product_toInt _ 16, total]
    exact M.run_ok run
  case long =>
    have total := toInt_product (n := 32) (by decide) (s.regL (d + 2)) (x.value s)
    have run := multiplyLong_plain d x s hp hx
    refine ⟨_, total, ?_⟩
    rw [← Fcw.product_toInt _ 32, total]
    exact M.run_ok run

end Sys2Proof.Machine
end

section
/-! PROOF. Decimal adjustment (R245): a byte sum or difference of two-digit decimal numbers depends on the sums or
differences of their digits alone, and the table corrects each of these. -/

namespace Sys2Proof.Machine

open Sys2Proof

/-! What DAB does with the byte. -/

/-- The byte and C after, where the table lists the combination (R245). -/
def dabResult (d c h : Bool) (byte : Byte) : Option (Byte × Bool) :=
  (dabTable d c h byte).map fun x => (byte + x.1, x.2)

theorem exec_dab_listed {s : State} {d : Reg} {r : Byte} {c : Bool}
    (h : dabResult s.fcw.d s.fcw.c s.fcw.h (s.regB d) = some (r, c)) :
    exec (.dab d) s = .next ((s.setRegB d r).withFcw { s.fcw with c := c, z := r == 0, s := r.msb }) := by
  obtain ⟨⟨k, c'⟩, listed, e⟩ := Option.map_eq_some_iff.1 h
  cases e
  refine M.run_ok ?_
  unfold decimalAdjust
  rw [M.bind_ok (M.get_apply s)]
  simp only [listed]
  rw [M.bind_ok (writeReg_apply .b d _ s), setFcw_apply, State.setRegAt_fcw]
  rfl

/-- Where the table does not list the combination, the byte, C, Z and S are free (U16). -/
theorem exec_dab_unlisted {s : State} {d : Reg} (h : dabTable s.fcw.d s.fcw.c s.fcw.h (s.regB d) = none) :
    ∃ (r : Byte) (c z g : Bool) (n : Nat), exec (.dab d) s =
      .next ((({ s with freeCount := n }).setRegB d r).withFcw { s.fcw with c := c, z := z, s := g }) :=
  ⟨_, _, _, _, _, M.run_ok (by
    unfold decimalAdjust
    rw [M.bind_ok (M.get_apply s)]
    simp only [h]
    rw [M.bind_ok (M.free_apply 8 s), M.bind_ok (M.freeBool_apply _), M.bind_ok (M.freeBool_apply _),
      M.bind_ok (M.freeBool_apply _), M.bind_ok (writeReg_apply .b d _ _), setFcw_apply, State.setRegAt_fcw]
    rfl)⟩

/-! The table on digit sums and differences. -/

/-- Two decimal digits in a byte. -/
def decimalByte (k : Nat) : Byte := BitVec.ofNat 8 (k / 10 * 16 + k % 10)

theorem decimalByte_toNat (x : Fin 100) : (decimalByte x).toNat = x / 10 * 16 + x % 10 := by
  rw [decimalByte, BitVec.toNat_ofNat]
  omega

/-- After an addition whose high digits sum to `u` and whose low digits and carry sum to `l`. -/
theorem dabResult_digitSums : ∀ (u : Fin 19) (l : Fin 20),
    dabResult false (decide (256 ≤ u.val * 16 + l.val)) (decide (16 ≤ l.val)) (BitVec.ofNat 8 (u * 16 + l)) =
      some (decimalByte ((u * 10 + l) % 100), decide (100 ≤ u.val * 10 + l.val)) := by decide

/-- After a subtraction whose high digits differ by `u - 9` and whose low digits and borrow by `l - 10`. -/
theorem dabResult_digitDifferences : ∀ (u : Fin 19) (l : Fin 20),
    dabResult true (decide (u.val * 16 + l.val < 154)) (decide (l.val < 10)) (BitVec.ofNat 8 (u * 16 + l + 102)) =
      some (decimalByte ((u * 10 + l) % 100), decide (u.val * 10 + l.val < 100)) := by decide

/-- A byte addition of decimal numbers, adjusted. -/
theorem dabResult_addWith (x y : Fin 100) (c : Bool) :
    let a := addWith (decimalByte x) (decimalByte y) c
    dabResult false a.c a.h a.r =
      some (decimalByte ((x.val + y.val + c.toNat) % 100), decide (100 ≤ x.val + y.val + c.toNat)) := by
  have hc := c.toNat_lt
  have hx := decimalByte_toNat x
  have hy := decimalByte_toNat y
  obtain ⟨u, hu⟩ : ∃ u : Fin 19, u.val = x / 10 + y / 10 := ⟨⟨_, by omega⟩, rfl⟩
  obtain ⟨l, hl⟩ : ∃ l : Fin 20, l.val = x % 10 + y % 10 + c.toNat := ⟨⟨_, by omega⟩, rfl⟩
  have bytes : (decimalByte x).toNat + (decimalByte y).toNat + c.toNat = u * 16 + l := by omega
  have low : (decimalByte x).toNat % 16 + (decimalByte y).toNat % 16 + c.toNat = l := by omega
  have decimal : x.val + y.val + c.toNat = u * 10 + l := by omega
  simp only [addWith, bytes, low, decimal]
  exact dabResult_digitSums u l

/-- A byte subtraction of decimal numbers, adjusted. -/
theorem dabResult_subWith (x y : Fin 100) (c : Bool) :
    let a := subWith (decimalByte x) (decimalByte y) c
    dabResult true a.c a.h a.r =
      some (decimalByte ((x.val + 200 - y.val - c.toNat) % 100), decide (x.val < y.val + c.toNat)) := by
  intro a
  have hc := c.toNat_lt
  have hx := decimalByte_toNat x
  have hy := decimalByte_toNat y
  obtain ⟨u, hu⟩ : ∃ u : Fin 19, u.val = x / 10 + 9 - y / 10 := ⟨⟨_, by omega⟩, rfl⟩
  obtain ⟨l, hl⟩ : ∃ l : Fin 20, l.val = x % 10 + 10 - y % 10 - c.toNat := ⟨⟨_, by omega⟩, rfl⟩
  have carry : a.c = decide (u.val * 16 + l.val < 154) := decide_eq_decide.2 (by omega)
  have half : a.h = decide (l.val < 10) := decide_eq_decide.2 (by omega)
  have byte : a.r = BitVec.ofNat 8 (u * 16 + l + 102) := by
    have total : a.r.toNat + _ + _ = _ := subWith_exact (by decide) (decimalByte x) (decimalByte y) c
    simp only [subWith_c] at total
    apply BitVec.eq_of_toNat_eq
    rw [BitVec.toNat_ofNat]
    split at total <;> omega
  have decimal : (x.val + 200 - y.val - c.toNat) % 100 = (u * 10 + l) % 100 := by omega
  have borrow : x.val < y.val + c.toNat ↔ u.val * 10 + l.val < 100 := by omega
  simp only [carry, half, byte, decimal, borrow]
  exact dabResult_digitDifferences u l

/-- Settles O23: `dabResult_addWith`, `dabResult_subWith`, and a free outcome where the table lists nothing. -/
theorem decimalAdjustLeavesDecimal : Obligations.DecimalAdjust := by
  refine ⟨fun s d x y c hd hc hh hr => ?sum, fun s d x y c hd hc hh hr => ?difference, fun s d => ?any⟩
  case sum => exact exec_dab_listed (by rw [hd, hc, hh, hr]; exact dabResult_addWith x y c)
  case difference => exact exec_dab_listed (by rw [hd, hc, hh, hr]; exact dabResult_subWith x y c)
  case any =>
    cases h : dabTable s.fcw.d s.fcw.c s.fcw.h (s.regB d) with
    | none => exact exec_dab_unlisted h
    | some p => exact ⟨_, _, _, _, s.freeCount, exec_dab_listed (by rw [dabResult, h]; rfl)⟩

end Sys2Proof.Machine
end

section
/-! PROOF. Division (R253): the four rows of its table, at both widths. -/

namespace Sys2Proof.Machine

open Sys2Proof

/-! Quotient and remainder. -/

/-- A remainder fits in the width of the divisor. -/
theorem toInt_remainder {n : Nat} (hn : 0 < n) (a : Int) {b : BitVec n} (hb : b.toInt ≠ 0) :
    (BitVec.ofInt n (a.tmod b.toInt)).toInt = a - a.tdiv b.toInt * b.toInt := by
  have low := BitVec.le_toInt b
  have high := BitVec.toInt_lt (x := b)
  have small : (a.tmod b.toInt).natAbs < b.toInt.natAbs := by
    rw [Int.natAbs_tmod]
    exact Nat.mod_lt _ (Int.natAbs_pos.2 hb)
  rw [BitVec.toInt_ofInt_eq_self hn (by omega) (by omega)]
  have := Int.tdiv_mul_add_tmod a b.toInt
  omega

section
variable {n : Nat} {a : BitVec (2 * n)} {b : BitVec n}

theorem divide_zero (hb : b.toInt = 0) : divide a b = .byZero := if_pos (toInt_eq_zero.1 hb)

theorem divide_fits (hb : b.toInt ≠ 0) (low : -2 ^ (n - 1) ≤ a.toInt.tdiv b.toInt)
    (high : a.toInt.tdiv b.toInt < 2 ^ (n - 1)) :
    divide a b = .fits (BitVec.ofInt n (a.toInt.tdiv b.toInt)) (BitVec.ofInt n (a.toInt.tmod b.toInt))
      (decide (a.toInt.tdiv b.toInt = 0)) (decide (a.toInt.tdiv b.toInt < 0)) :=
  (if_neg (mt toInt_eq_zero.2 hb)).trans (if_pos ⟨low, high⟩)

theorem divide_tooLarge (hn : 0 < n) (hb : b.toInt ≠ 0)
    (out : a.toInt.tdiv b.toInt < -2 ^ n ∨ 2 ^ n ≤ a.toInt.tdiv b.toInt) : divide a b = .tooLarge := by
  have less : (2 : Int) ^ (n - 1) < 2 ^ n := pow_lt_pow_right₀ one_lt_two (by omega)
  exact (if_neg (mt toInt_eq_zero.2 hb)).trans ((if_neg (by omega)).trans (if_pos out))

theorem divide_oneBitOver (hb : b.toInt ≠ 0) (low : -2 ^ n ≤ a.toInt.tdiv b.toInt)
    (high : a.toInt.tdiv b.toInt < 2 ^ n)
    (out : a.toInt.tdiv b.toInt < -2 ^ (n - 1) ∨ 2 ^ (n - 1) ≤ a.toInt.tdiv b.toInt) :
    divide a b = .oneBitOver (BitVec.ofInt n (a.toInt.tdiv b.toInt)) (BitVec.ofInt n (a.toInt.tmod b.toInt))
      (decide (a.toInt.tdiv b.toInt < 0)) :=
  (if_neg (mt toInt_eq_zero.2 hb)).trans ((if_neg (by omega)).trans (if_neg (by omega)))

end

/-! The table (R253). -/

/-- The four rows of the table, for a division of `a` by `b` that answers `o`; `put` is the write of the destination. -/
def DivideTable (n : Nat) (put : State → BitVec (n + n) → State) (s : State) (a b : Int) (o : Out) : Prop :=
  let q := a.tdiv b
  (b = 0 → o = .next (s.withFcw { s.fcw with c := false, z := true, s := false, pv := true })) ∧
  (b ≠ 0 → -2 ^ (n - 1) ≤ q → q < 2 ^ (n - 1) → ∃ m k : BitVec n, k.toInt = q ∧ m.toInt = a - q * b ∧
    o = .next ((put s (m ++ k)).withFcw
      { s.fcw with c := false, z := decide (q = 0), s := decide (q < 0), pv := false })) ∧
  (b ≠ 0 → (q < -2 ^ n ∨ 2 ^ n ≤ q) → ∃ (v : BitVec (n + n)) (c g : Bool) (k : Nat),
    o = .next ((put { s with freeCount := k } v).withFcw { s.fcw with c := c, z := false, s := g, pv := true })) ∧
  (b ≠ 0 → -2 ^ n ≤ q → q < 2 ^ n → (q < -2 ^ (n - 1) ∨ 2 ^ (n - 1) ≤ q) →
    ∃ m k : BitVec n, k = BitVec.ofInt n q ∧ m.toInt = a - q * b ∧
    o = .next ((put s (m ++ k)).withFcw { s.fcw with c := true, z := false, s := decide (q < 0), pv := true }))

/-- What a division leaves is what the table says, whatever register the destination is, if its write leaves FCW. -/
theorem run_finishDivide {n : Nat} (hn : 0 < n) {put : State → BitVec (n + n) → State}
    (hput : ∀ t v, (put t v).fcw = t.fcw) (s : State) (a : BitVec (2 * n)) (b : BitVec n) :
    DivideTable n put s a.toInt b.toInt
      (M.run (finishDivide (fun m q => modify fun t => put t (m ++ q)) (divide a b)) s) := by
  refine ⟨fun hb => ?zero, fun hb low high => ?fits, fun hb out => ?large, fun hb low high out => ?oneBitOver⟩
  case zero => rw [divide_zero hb]; rfl
  case fits =>
    rw [divide_fits hb low high]
    refine ⟨_, _, BitVec.toInt_ofInt_eq_self hn low high, toInt_remainder hn _ hb, M.run_ok ?_⟩
    exact (M.bind_ok (M.modify_apply _ s)).trans (by rw [setFcw_apply, hput])
  case large =>
    rw [divide_tooLarge hn hb out]
    exact ⟨_, _, _, _, M.run_ok (by
      dsimp only [finishDivide]
      rw [M.bind_ok (M.free_apply n s), M.bind_ok (M.free_apply n _), M.bind_ok (M.freeBool_apply _),
        M.bind_ok (M.freeBool_apply _), M.bind_ok (M.modify_apply _ _), setFcw_apply, hput])⟩
  case oneBitOver =>
    rw [divide_oneBitOver hb low high out]
    refine ⟨_, _, rfl, toInt_remainder hn _ hb, M.run_ok ?_⟩
    exact (M.bind_ok (M.modify_apply _ s)).trans (by rw [setFcw_apply, hput])

/-- Settles O26: DIV and DIVL read their operands and go by `run_finishDivide`. -/
theorem divideByTable : Obligations.Divide := by
  intro s d hp
  refine ⟨fun x hx => ?word, fun x hx => ?long⟩
  case word =>
    have run : exec (.div d x) s = M.run (finishDivide (n := 16) (fun m q => modify fun t => t.setRegL d (m ++ q))
        (divide (n := 16) (s.regL d) (x.value s))) s := by
      change M.run (divideWord d x) s = _
      unfold divideWord M.run
      rw [M.bind_ok (readSrc_plain x s hp hx), M.bind_ok (readReg_apply .l d s)]
      rfl
    rw [run]
    exact run_finishDivide (n := 16) (by decide) (fun t v => t.setRegL_fcw d v) s _ _
  case long =>
    have run : exec (.divl d x) s = M.run (finishDivide (n := 32) (fun m q => modify fun t => t.setRegQ d (m ++ q))
        (divide (n := 32) (s.regQ d) (x.value s))) s := by
      change M.run (divideLong d x) s = _
      unfold divideLong M.run
      rw [M.bind_ok (readSrc_plain x s hp hx), M.bind_ok (M.get_apply s)]
    rw [run]
    exact run_finishDivide (n := 32) (by decide) (fun t v => t.setRegQ_fcw d v) s _ _

end Sys2Proof.Machine
end

section
/-! PROOF. The logical instructions, the tests of an operand, and the test of a condition (R280 to R286). -/

namespace Sys2Proof.Machine

open Sys2Proof

/-! Parity (R280). -/

/-- A sum of bits without carries is the parity of the number of ones. -/
theorem foldl_xor_eq_countP {α : Type} (p : α → Bool) (l : List α) (b : Bool) :
    l.foldl (fun acc a => acc ^^ p a) b = (b ^^ decide (l.countP p % 2 = 1)) := by
  induction l generalizing b with
  | nil => simp
  | cons a l ih =>
    rw [List.foldl_cons, ih, List.countP_cons]
    cases p a
    · simp
    · have step : decide ((l.countP p + 1) % 2 = 1) = !decide (l.countP p % 2 = 1) := by
        rw [← decide_not, decide_eq_decide]
        omega
      simp [step]

theorem evenParity_eq_countP (r : Byte) :
    evenParity r = decide (((List.range 8).countP fun i => r.getLsbD i) % 2 = 0) := by
  have bits : evenParity r = !(List.range 8).foldl (fun acc i => acc ^^ r.getLsbD i) false := by
    simp [evenParity, List.range_succ]
  rw [bits, foldl_xor_eq_countP, Bool.false_xor, ← decide_not, decide_eq_decide, Nat.mod_two_not_eq_one]

/-- The flags of a byte logical instruction, P/V by the number of ones. -/
theorem Fcw.logicB_eq (f : Fcw) (r : Byte) : f.logicB r = { f with
    z := r == 0, s := r.msb, pv := decide (((List.range 8).countP fun i => r.getLsbD i) % 2 = 0) } := by
  rw [← evenParity_eq_countP]
  rfl

/-! AND, OR, XOR and COM (R281 to R284). -/

/-- Combining a source with a register: the register receives the result, and FCW its flags. -/
theorem run_logicInto (wd : Width) (d : Reg) (x : Src wd) (op : BitVec wd.bits → BitVec wd.bits → BitVec wd.bits)
    (fl : Fcw → BitVec wd.bits → Fcw) (s : State) (hp : s.plain) (hx : x.ready s = true) :
    let r := op (s.regAt wd d) (x.value s)
    M.run (logicInto wd d x op fl) s = .next ((s.setRegAt wd d r).withFcw (fl s.fcw r)) := by
  apply M.run_ok
  unfold logicInto
  rw [M.bind_ok (readSrc_plain x s hp hx), M.bind_ok (readReg_apply wd d s), M.bind_ok (writeReg_apply wd d _ s),
    setFcw_apply, State.setRegAt_fcw]

/-- Settles O27, by `run_logicInto` and `run_updateDst` with the operation of each form. -/
theorem logicalResult : Obligations.LogicalResult := by
  intro s d y hp
  simp only [← Fcw.logicB_eq]
  refine ⟨fun x hx => ⟨?_, ?_, ?_⟩, fun x hx => ⟨?_, ?_, ?_⟩, fun hy => ?_, fun hy => ?_⟩
  · exact run_logicInto .w d x (· &&& ·) Fcw.logic s hp hx
  · exact run_logicInto .w d x (· ||| ·) Fcw.logic s hp hx
  · exact run_logicInto .w d x (· ^^^ ·) Fcw.logic s hp hx
  · exact run_logicInto .b d x (· &&& ·) Fcw.logicB s hp hx
  · exact run_logicInto .b d x (· ||| ·) Fcw.logicB s hp hx
  · exact run_logicInto .b d x (· ^^^ ·) Fcw.logicB s hp hx
  · exact run_updateDst .w y _ _ s hp hy
  · exact run_updateDst .b y _ _ s hp hy

/-! TEST and TCC (R285, R286). -/

theorem run_testOperand (wd : Width) (x : Dst) (fl : Fcw → BitVec wd.bits → Fcw) (s : State) (hp : s.plain)
    (hx : x.ready wd s = true) : M.run (testOperand wd x fl) s = .next (s.withFcw (fl s.fcw (x.value wd s))) := by
  apply M.run_ok
  unfold testOperand
  rw [M.bind_ok (readDst_plain wd x s hp hx), setFcw_apply]

/-- TESTL draws one free value, for P/V (U3). -/
theorem run_testLong (x : Dst) (s : State) (hp : s.plain) (hx : x.ready .l s = true) : ∃ (v : Bool) (n : Nat),
    M.run (testLong x) s =
      .next (({ s with freeCount := n }).withFcw { s.fcw.logic (x.value .l s) with pv := v }) := by
  unfold testLong
  exact ⟨_, _, M.run_ok (by
    rw [M.bind_ok (readDst_plain .l x s hp hx), M.bind_ok (M.freeBool_apply s), setFcw_apply])⟩

theorem run_testCondition (wd : Width) (cc : CC) (d : Reg) (s : State) : M.run (testCondition wd cc d) s =
    .next (if s.fcw.cond cc then s.setRegAt wd d (s.regAt wd d ||| 1) else s) := by
  apply M.run_ok
  unfold testCondition
  rw [M.bind_ok (M.get_apply s)]
  split
  next => exact writeReg_apply wd d _ s
  next => exact M.pure_apply () s

/-- Settles O28, by the rule of each operation: `run_testOperand`, `run_testLong`, `run_testCondition`. -/
theorem testResult : Obligations.TestResult := by
  intro s x cc d
  simp only [← Fcw.logicB_eq]
  refine ⟨fun hp hx => ?_, fun hp hx => ?_, fun hp hx => ?_, ?_, ?_⟩
  · exact run_testOperand .w x Fcw.logic s hp hx
  · exact run_testOperand .b x Fcw.logicB s hp hx
  · exact run_testLong x s hp hx
  · exact run_testCondition .w cc d s
  · exact run_testCondition .b cc d s

end Sys2Proof.Machine
end

section
/-! PROOF. Calls, returns and jumps (R301 to R306), the return from an exception (R307, R308) and the internal traps (R309,
R470, R501, R603 to R605). -/

namespace Sys2Proof.Machine

open Sys2Proof

/-! The processor stack (R86, R300). -/

theorem State.spReg_seg {s : State} (hg : s.isSeg = true) : s.spReg = 14 := if_pos hg

theorem State.spReg_nonseg {s : State} (hg : s.isSeg = false) : s.spReg = 15 := if_neg (Bool.eq_false_iff.1 hg)

/-- A reference through the processor stack pointer is labelled STACK (R74(f)). -/
theorem State.labelOf_spReg {s : State} {n : Reg} (h : s.spReg = n) : s.labelOf n = .stack := if_pos h.symm

/-- The processor stack pointer is even, where its register is known by number (R24). -/
theorem State.stackReady_spReg {s : State} {n : Reg} (hr : s.stackReady = true) (h : s.spReg = n) :
    (s.addrOf n).aligned .w = true := h ▸ hr

/-- Pushing the PC (R300(e)). -/
theorem pushPc_plain {s : State} (hp : s.plain) (hr : s.stackReady = true) : pushPc s = .ok ((), s.pcPushed) := by
  unfold pushPc State.pcPushed
  rw [M.bind_ok (M.get_apply s)]
  cases hg : s.isSeg with
  | true =>
    have sp := State.spReg_seg hg
    rw [← State.labelOf_spReg sp]
    exact push_even 14 .l s.pc.toLong s nofun hp (State.stackReady_spReg hr sp)
  | false =>
    have sp := State.spReg_nonseg hg
    rw [← State.labelOf_spReg sp]
    exact push_even 15 .w s.pcOff s nofun hp (State.stackReady_spReg hr sp)

/-- The distance of a relative jump or call: twice the signed displacement (R302, R305). -/
theorem twice_signExtend {n : Nat} (d : BitVec n) : d.signExtend 16 * 2 = BitVec.ofInt 16 (2 * d.toInt) := by
  rw [BitVec.ofInt_mul, BitVec.mul_comm]
  rfl

/-- The distance of a counted jump: twice the unsigned displacement (R303). -/
theorem twice_setWidth {n : Nat} (d : BitVec n) : d.setWidth 16 * 2 = BitVec.ofNat 16 (2 * d.toNat) := by
  rw [BitVec.ofNat_mul, BitVec.mul_comm, BitVec.ofNat_toNat]
  rfl

/-! CALL, CALR and RET (R301, R302, R306). -/

/-- Settles O30: the PC is pushed (`pushPc_plain`), then the PC moves. -/
theorem callResult : Obligations.CallResult := by
  intro s hp hr
  have pushed := pushPc_plain hp hr
  refine ⟨fun t => M.run_ok ?call, fun disp => M.run_ok ?calr⟩
  case call => rw [M.bind_ok pushed, M.modify_apply]
  case calr =>
    have kept : s.pcPushed.pcOff = s.pcOff := by
      unfold State.pcPushed
      split <;> simp
    rw [M.bind_ok pushed, moveBy, M.modify_apply, kept, twice_signExtend, ← BitVec.sub_eq_add_neg]

/-- RET where its condition holds is the pop of the PC (R306). -/
theorem exec_ret_taken {s : State} {cc : CC} (hc : s.fcw.cond cc = true) : exec (.ret cc) s = M.run popPc s := by
  show M.run (if s.fcw.cond cc then popPc else pure ()) s = _
  rw [if_pos hc]

theorem exec_ret_not_taken {s : State} {cc : CC} (hc : s.fcw.cond cc = false) : exec (.ret cc) s = .next s := by
  show M.run (if s.fcw.cond cc then popPc else pure ()) s = _
  rw [if_neg (Bool.eq_false_iff.1 hc)]
  exact M.run_ok (M.pure_apply () s)

/-- Settles O31: `popPc_seg` or `popPc_nonseg`, where the condition holds. -/
theorem returnResult : Obligations.ReturnResult := by
  intro s cc
  refine ⟨exec_ret_not_taken, fun hc hp hr => ⟨fun hg => ?segmented, fun hg => ?nonsegmented⟩⟩
  case segmented =>
    have even := State.stackReady_spReg hr (State.spReg_seg hg)
    have jumped : (s.popped 14 .l).isSeg = true := (State.popped_isSeg s 14 .l).trans hg
    rw [exec_ret_taken hc, M.run_ok (popPc_seg hg (pop_plain 14 .l s hp even)), State.jump, if_pos jumped]
    rfl
  case nonsegmented =>
    have even := State.stackReady_spReg hr (State.spReg_nonseg hg)
    rw [exec_ret_taken hc, M.run_ok (popPc_nonseg hg (pop_plain 15 .w s hp even))]

/-! JP, JR, DJNZ and DBJNZ (R303, R304, R305). -/

/-- An instruction that changes the state only where a condition holds. -/
theorem run_modify_if (c : Bool) (f : State → State) (s : State) :
    M.run (if c then modify f else pure ()) s = .next (if c then f s else s) := by
  cases c <;> rfl

/-- Counting down: the jump is made unless the counter was 1 (R303). -/
theorem run_countDown (wd : Width) (r : Reg) (disp : BitVec 7) (s : State) :
    M.run (countDown wd r disp) s = .next
      (if s.regAt wd r = 1 then s.setRegAt wd r 0
       else { s.setRegAt wd r (s.regAt wd r - 1) with pcOff := s.pcOff - BitVec.ofNat 16 (2 * disp.toNat) }) := by
  apply M.run_ok
  unfold countDown
  rw [M.bind_ok (M.get_apply s), M.bind_ok (writeReg_apply wd r _ s)]
  by_cases h : s.regAt wd r = 1
  · have zero : s.regAt wd r - 1 = 0 := sub_eq_zero.2 h
    rw [if_pos h, if_pos zero, zero, M.pure_apply]
  · have nonzero : ¬s.regAt wd r - 1 = 0 := fun zero => h (sub_eq_zero.1 zero)
    rw [if_neg h, if_neg nonzero, moveBy, M.modify_apply, State.setRegAt_pcOff, twice_setWidth, ← BitVec.sub_eq_add_neg]

/-- Settles O33, by `run_modify_if` and `run_countDown`. -/
theorem jumpResult : Obligations.JumpResult := by
  intro s cc r
  refine ⟨fun t => ?jp, fun disp => ?jr, fun disp => ?djnz, fun disp => ?dbjnz⟩
  case jp => exact run_modify_if (s.fcw.cond cc) (·.jump (Mem.ea s t)) s
  case jr =>
    rw [← twice_signExtend]
    exact run_modify_if (s.fcw.cond cc) _ s
  case djnz => exact run_countDown .w r disp s
  case dbjnz => exact run_countDown .b r disp s

/-! IRET (R307, R308). -/

/-- In system mode the processor stack pointer is the system copy of R15 (R22, R24). -/
theorem State.stackReady_system {s : State} (hs : s.fcw.sn = true) (hr : s.stackReady = true) :
    s.sysR15.getLsbD 0 = false := by
  rw [State.stackReady, State.addrOf_spReg hs] at hr
  exact (Addr.aligned_w _).1 hr

/-- A word of the system stack stands that many bytes from the processor stack pointer. -/
theorem State.stackItem_spReg {s : State} {n : Reg} (hs : s.fcw.sn = true) (h : s.spReg = n) (j : Nat) :
    s.stackItem j = s.wordAt .stack ((s.addrOf n).add (BitVec.ofNat 16 (2 * j))) := by
  rw [← h, State.addrOf_spReg hs]
  rfl

/-- A popped PC: its segment is in the first word (R81). -/
theorem Addr.ofLong_append (x y : Word) : Addr.ofLong (x ++ y) = { seg := x.extractLsb' 8 7, off := y } := by
  rw [Addr.ofLong, BitVec.extractLsb'_append_eq_of_le (by decide), BitVec.extractLsb'_append_eq_right]

/-- Popping words in system mode moves R15 (R22). -/
theorem State.unstacked_eq_setReg {s : State} (hs : s.fcw.sn = true) (j : Nat) :
    s.unstacked j = s.setReg 15 (s.reg 15 + BitVec.ofNat 16 (2 * j)) := by
  rw [State.setReg_r15_system s hs, State.reg_r15, if_pos hs, State.unstacked]

/-- A Z8001 in nonsegmented mode refuses IRET (R308, U18). -/
theorem exec_iret_refused {s : State} (hs : s.fcw.sn = true) (hv : s.cfg.version = .z8001) (hg : s.isSeg = false) :
    exec .iret s = .refused .iretNonsegmented := by
  have version : ¬s.cfg.version = .z8002 := by simp [hv]
  refine run_privileged_refused hs ?_
  rw [M.bind_ok (M.get_apply s), if_neg (Bool.eq_false_iff.1 hg), if_neg version, M.refuse_apply]

/-- Settles O52, by `returnNonseg_system` and `returnSeg_system`. -/
theorem interruptReturn : Obligations.InterruptReturn := by
  intro s hs
  refine ⟨fun hp hv hr => ?nonsegmented, fun hp hg hr => ?segmented, exec_iret_refused hs⟩
  case nonsegmented =>
    have hg : s.isSeg = false := State.isSeg_z8002 hv
    have item := State.stackItem_spReg hs (State.spReg_nonseg hg)
    rw [exec_iret_nonseg hs hv (returnNonseg_system hp hs hg (State.stackReady_system hs hr)), item 1, item 2,
      State.unstacked_eq_setReg hs 3]
    rfl
  case segmented =>
    have item := State.stackItem_spReg hs (State.spReg_seg hg)
    rw [exec_iret_seg hs hg (returnSeg_system hp hs hg (State.stackReady_system hs hr)), item 1, item 2, item 3,
      State.unstacked_eq_setReg hs 4, Addr.ofLong_append]
    rfl

/-! The internal traps (R309, R470, R501, R603, R604, R605). -/

/-- A trap on the first word is an entry that saves the address of the second word, and the first as its identifier. -/
theorem run_trapOnFirstWord_plain (k : Exc) {s : State} (hp : s.plain) (hs : s.systemStackReady = true) :
    M.run (trapOnFirstWord k) s = .next (s.entered k s.ir { seg := s.pcSeg, off := s.instrPc + 2 }) := by
  rw [run_trapOnFirstWord, M.run_ok (enter_plain k s.ir s.secondWord s hp hs)]
  rfl

/-- The instruction word of SC (R309, R605). -/
theorem systemCall_word (n : Byte) : (0x7F#8 ++ n : Word) = BitVec.ofNat 16 (0x7F00 + n.toNat) := by
  have fits : 0x7F00 + n.toNat < 2 ^ 16 := by omega
  apply BitVec.eq_of_toNat_eq
  rw [BitVec.toNat_append, ← Nat.shiftLeft_add_eq_or_of_lt n.isLt, BitVec.toNat_ofNat (0x7F00 + n.toNat) 16,
    Nat.mod_eq_of_lt fits]
  rfl

/-- Settles O50: what raises each trap (`exec_privileged_normal`, `exec_extended_absent`), and the entry of the trap. -/
theorem internalTraps : Obligations.InternalTraps := by
  intro s i hp hs
  refine ⟨fun hi hn => ?privileged, fun hi he => ?extended, fun n => ?systemCall⟩
  case privileged => rw [exec_privileged_normal i hi hn, run_trapOnFirstWord_plain .privileged hp hs]
  case extended => rw [exec_extended_absent i hi he, run_trapOnFirstWord_plain .extended hp hs]
  case systemCall =>
    rw [← systemCall_word]
    exact M.run_ok (enter_plain .systemCall (0x7F#8 ++ n) s.pc s hp hs)

end Sys2Proof.Machine
end

section
/-! PROOF. The bit manipulation instructions (R320 to R326): the mask of one bit, and testing, clearing and setting a bit of an
operand that is reached. -/

namespace Sys2Proof.Machine

open Sys2Proof

/-! One bit of a word. -/

theorem getLsbD_bitMask (n k j : Nat) : (bitMask n k).getLsbD j = (decide (j < n) && decide (k = j)) := by
  rw [bitMask, BitVec.getLsbD_ofNat, Nat.testBit_two_pow]

/-- Masking a bit out clears that bit alone (R323). -/
theorem getLsbD_and_not_bitMask {n : Nat} (v : BitVec n) (k j : Nat) :
    (v &&& ~~~bitMask n k).getLsbD j = (v.getLsbD j && j != k) := by
  rw [BitVec.getLsbD_and, BitVec.getLsbD_not, getLsbD_bitMask]
  by_cases inside : j < n
  · simp [inside, bne, beq_eq_decide, eq_comm]
  · simp [BitVec.getLsbD_of_ge v j (Nat.le_of_not_lt inside)]

/-- Masking a bit in sets that bit alone, if the word has it (R324). -/
theorem getLsbD_or_bitMask {n : Nat} (v : BitVec n) {k : Nat} (hk : k < n) (j : Nat) :
    (v ||| bitMask n k).getLsbD j = (v.getLsbD j || j == k) := by
  rw [BitVec.getLsbD_or, getLsbD_bitMask]
  by_cases same : k = j
  · subst same
    simp [hk]
  · simp [same, Ne.symm same]

/-! Operands that are reached. -/

/-- Reading the operand gives its value, and writing it stores the value written; neither stops the run. -/
structure Reached (wd : Width) (x : Dst) (s : State) : Prop where
  read : readDst wd x s = .ok (x.value wd s, s)
  write : ∀ v, writeDst wd x v s = .ok ((), x.put wd s v)

/-- A register is reached on every machine. -/
theorem Reached.reg (wd : Width) (d : Reg) (s : State) : Reached wd (.reg d) s :=
  ⟨readDst_reg wd d s, fun v => writeDst_reg wd d v s⟩

/-- An aligned operand is reached on a machine of plain RAM without MMUs. -/
theorem Reached.of_plain {wd : Width} {x : Dst} {s : State} (hp : s.plain) (hx : x.ready wd s = true) :
    Reached wd x s :=
  ⟨readDst_plain wd x s hp hx, fun v => writeDst_plain wd x v s hp hx⟩

/-- The flag S moves no operand, so it takes none out of alignment. -/
theorem Dst.ready_setS (wd : Width) (x : Dst) (s : State) (b : Bool) :
    x.ready wd (s.withFcw { s.fcw with s := b }) = x.ready wd s := by
  cases x with
  | reg r => rfl
  | mem m => cases m <;> rfl

/-! What each operation does (R321, R323, R324, R326). -/

theorem run_testBit {wd : Width} {x : Dst} {s : State} (hx : Reached wd x s) (k : Nat) :
    M.run (testBit wd x k) s = .next (s.withFcw { s.fcw with z := !(x.value wd s).getLsbD k }) := by
  apply M.run_ok
  unfold testBit
  rw [M.bind_ok hx.read, setFcw_apply]

theorem run_clearBit {wd : Width} {x : Dst} {s : State} (hx : Reached wd x s) (k : Nat) :
    ∃ v : BitVec wd.bits, (∀ j, v.getLsbD j = ((x.value wd s).getLsbD j && j != k)) ∧
      M.run (clearBit wd x k) s = .next (x.put wd s v) := by
  refine ⟨_, getLsbD_and_not_bitMask (x.value wd s) k, M.run_ok ?_⟩
  unfold clearBit
  rw [M.bind_ok hx.read, hx.write]

theorem run_setBit {wd : Width} {x : Dst} {s : State} (hx : Reached wd x s) {k : Nat} (hk : k < wd.bits) :
    ∃ v : BitVec wd.bits, (∀ j, v.getLsbD j = ((x.value wd s).getLsbD j || j == k)) ∧
      M.run (setBit wd x k) s = .next (x.put wd s v) := by
  refine ⟨_, getLsbD_or_bitMask (x.value wd s) hk, M.run_ok ?_⟩
  unfold setBit
  rw [M.bind_ok hx.read, hx.write]

/-- The write comes after the change of S, at the place of the read. -/
theorem run_testAndSet {wd : Width} {x : Dst} {s : State} (hp : s.plain) (hx : x.ready wd s = true) :
    M.run (testAndSet wd x) s = .next
      (x.put wd (s.withFcw { s.fcw with s := (x.value wd s).getLsbD (wd.bits - 1) }) (BitVec.allOnes wd.bits)) := by
  apply M.run_ok
  unfold testAndSet
  rw [M.bind_ok (readDst_plain wd x s hp hx), BitVec.msb_eq_getLsbD_last, M.bind_ok (setFcw_apply _ s)]
  exact writeDst_plain wd x _ _ hp ((Dst.ready_setS wd x s _).trans hx)

/-- The bit number of a dynamic form is that of a bit of the operand (R320, R322). -/
theorem State.bitNumber_lt (s : State) (wd : Width) (r : Reg) : s.bitNumber wd r < wd.bits :=
  Nat.mod_lt _ (by cases wd <;> decide)

/-- Settles O34: every form tests, clears or sets a bit of an operand that is reached, or is `run_testAndSet`. -/
theorem bitResult : Obligations.BitResult := by
  intro s x d r k
  refine ⟨fun hp hx => ?words, fun hp hx => ⟨fun hk => ?bytes, run_testAndSet (wd := .b) hp hx⟩,
    run_testBit (.reg .w d s) _, run_testBit (.reg .b d s) _, run_clearBit (.reg .w d s) _,
    run_setBit (.reg .w d s) (s.bitNumber_lt .w r), run_clearBit (.reg .b d s) _,
    run_setBit (.reg .b d s) (s.bitNumber_lt .b r)⟩
  case words =>
    have reached : Reached .w x s := .of_plain hp hx
    exact ⟨run_testBit reached k, run_clearBit reached k, run_setBit reached k.isLt, run_testAndSet (wd := .w) hp hx⟩
  case bytes =>
    have reached : Reached .b x s := .of_plain hp hx
    exact ⟨run_testBit reached k, run_clearBit reached k, run_setBit reached hk⟩

end Sys2Proof.Machine
end

section
/-! PROOF. The rotates and shifts (R340 to R356): what a number of places does to a value and to C, and what each
operation leaves in its register and in FCW. -/

namespace Sys2Proof.Machine

open Sys2Proof

/-! A rotation reads each bit at a place further on, modulo the width, so rotations add up. -/

section
variable {n : Nat} (x : BitVec n)

/-- `BitVec.getMsbD_rotateLeft` says the same of a rotation to the left, from the other end. -/
theorem getLsbD_rotateRight_mod {i : Nat} (hi : i < n) (k : Nat) :
    (x.rotateRight k).getLsbD i = x.getLsbD ((k + i) % n) := by
  have hk : k % n < n := Nat.mod_lt k (Nat.zero_lt_of_lt hi)
  rw [BitVec.getLsbD_rotateRight, decide_eq_true hi, Bool.true_and, Nat.add_mod_eq_ite, Nat.mod_eq_of_lt hi]
  by_cases h : i < n - k % n
  · rw [decide_eq_true h, cond_true, if_neg (by omega)]
  · rw [decide_eq_false h, cond_false, if_pos (by omega), Nat.sub_sub_right _ hk.le, Nat.add_comm]

theorem rotateLeft_zero : x.rotateLeft 0 = x :=
  BitVec.eq_of_getMsbD_eq fun i hi => by
    rw [BitVec.getMsbD_rotateLeft, decide_eq_true hi, Bool.true_and, Nat.zero_add, Nat.mod_eq_of_lt hi]

theorem rotateRight_zero : x.rotateRight 0 = x :=
  BitVec.eq_of_getLsbD_eq fun i hi => by rw [getLsbD_rotateRight_mod x hi, Nat.zero_add, Nat.mod_eq_of_lt hi]

theorem rotateLeft_rotateLeft (j k : Nat) : (x.rotateLeft j).rotateLeft k = x.rotateLeft (j + k) :=
  BitVec.eq_of_getMsbD_eq fun i hi => by
    have inside : (k + i) % n < n := Nat.mod_lt _ (Nat.zero_lt_of_lt hi)
    simp only [BitVec.getMsbD_rotateLeft, hi, inside, decide_true, Bool.true_and, Nat.add_mod_mod, Nat.add_assoc]

theorem rotateRight_rotateRight (j k : Nat) : (x.rotateRight j).rotateRight k = x.rotateRight (j + k) :=
  BitVec.eq_of_getLsbD_eq fun i hi => by
    have inside : (k + i) % n < n := Nat.mod_lt _ (Nat.zero_lt_of_lt hi)
    rw [getLsbD_rotateRight_mod _ hi, getLsbD_rotateRight_mod _ inside, getLsbD_rotateRight_mod _ hi,
      Nat.add_mod_mod, Nat.add_assoc]

/-- The most significant bit is the one that goes round to the other end. -/
theorem getLsbD_zero_rotateLeft_one : (x.rotateLeft 1).getLsbD 0 = x.msb := by
  match n with
  | 0 | 1 => simp [BitVec.msb_eq_getLsbD_last]
  | n + 2 => simp [BitVec.msb_eq_getLsbD_last]

theorem msb_rotateRight_one : (x.rotateRight 1).msb = x.getLsbD 0 := by
  match n with
  | 0 | 1 => simp [BitVec.msb_eq_getLsbD_last]
  | n + 2 => simp [BitVec.msb_eq_getLsbD_last]

end

/-! Several places (R340): the last of them comes after the others. -/

section
variable {n : Nat} (v : BitVec n) (c : Bool) (k : Nat)

theorem shiftBy_succ (step : ShiftStep n) :
    let x := shiftBy step k v c
    (shiftBy step (k + 1) v c).val = (step x.val x.c).1 ∧ (shiftBy step (k + 1) v c).c = (step x.val x.c).2 := by
  induction k generalizing v c with
  | zero => exact ⟨rfl, rfl⟩
  | succ k ih => exact ih (step v c).1 (step v c).2

/-- Places add up to an operation by a number of places, if one more place always does. -/
theorem shiftBy_val {step : ShiftStep n} {op : BitVec n → Nat → BitVec n} (zero : ∀ x, op x 0 = x)
    (succ : ∀ x j b, (step (op x j) b).1 = op x (j + 1)) : (shiftBy step k v c).val = op v k := by
  induction k with
  | zero => exact (zero v).symm
  | succ k ih => rw [(shiftBy_succ v c k step).1, ih, succ]

theorem shiftBy_shiftLeft1_val : (shiftBy shiftLeft1 k v c).val = v <<< k :=
  shiftBy_val v c k BitVec.shiftLeft_zero fun x j _ => (x.shiftLeft_add j 1).symm

theorem shiftBy_shiftRight1_val : (shiftBy shiftRight1 k v c).val = v >>> k :=
  shiftBy_val v c k BitVec.ushiftRight_zero fun x j _ => (x.shiftRight_add j 1).symm

theorem shiftBy_shiftRightArith1_val : (shiftBy shiftRightArith1 k v c).val = v.sshiftRight k :=
  shiftBy_val v c k (fun _ => BitVec.sshiftRight_zero) fun _ _ _ => BitVec.sshiftRight_add.symm

theorem shiftBy_rotateLeft1_val : (shiftBy rotateLeft1 k v c).val = v.rotateLeft k :=
  shiftBy_val v c k rotateLeft_zero fun x j _ => rotateLeft_rotateLeft x j 1

theorem shiftBy_rotateRight1_val : (shiftBy rotateRight1 k v c).val = v.rotateRight k :=
  shiftBy_val v c k rotateRight_zero fun x j _ => rotateRight_rotateRight x j 1

variable {k}

/-- C after some places is the bit that the last of them puts out. -/
theorem shiftBy_c (step : ShiftStep n) (hk : 0 < k) :
    (shiftBy step k v c).c = (step (shiftBy step (k - 1) v c).val (shiftBy step (k - 1) v c).c).2 := by
  cases k with
  | zero => contradiction
  | succ k => exact (shiftBy_succ v c k step).2

theorem shiftBy_shiftLeft1_c (hk : 0 < k) (h : k ≤ n) : (shiftBy shiftLeft1 k v c).c = v.getLsbD (n - k) := by
  have inside : k - 1 < n := by omega
  rw [shiftBy_c v c _ hk, shiftBy_shiftLeft1_val, shiftLeft1, BitVec.msb_shiftLeft, BitVec.getMsbD_eq_getLsbD,
    Nat.sub_sub_sub_cancel_right hk, decide_eq_true inside, Bool.true_and]

theorem shiftBy_shiftRight1_c (hk : 0 < k) : (shiftBy shiftRight1 k v c).c = v.getLsbD (k - 1) := by
  rw [shiftBy_c v c _ hk, shiftBy_shiftRight1_val, shiftRight1, BitVec.getLsbD_ushiftRight, Nat.add_zero]

theorem shiftBy_shiftRightArith1_c (hk : 0 < k) (h : k ≤ n) :
    (shiftBy shiftRightArith1 k v c).c = v.getLsbD (k - 1) := by
  have inside : k - 1 < n := by omega
  have nonempty : n ≠ 0 := by omega
  rw [shiftBy_c v c _ hk, shiftBy_shiftRightArith1_val, shiftRightArith1, BitVec.getLsbD_sshiftRight]
  simp [inside, nonempty]

theorem shiftBy_rotateLeft1_c (hk : 0 < k) : (shiftBy rotateLeft1 k v c).c = (v.rotateLeft k).getLsbD 0 := by
  rw [shiftBy_c v c _ hk, shiftBy_rotateLeft1_val, rotateLeft1, ← getLsbD_zero_rotateLeft_one, rotateLeft_rotateLeft,
    Nat.sub_add_cancel hk]

theorem shiftBy_rotateRight1_c (hk : 0 < k) : (shiftBy rotateRight1 k v c).c = (v.rotateRight k).msb := by
  rw [shiftBy_c v c _ hk, shiftBy_rotateRight1_val, rotateRight1, ← msb_rotateRight_one, rotateRight_rotateRight,
    Nat.sub_add_cancel hk]

end

/-! Rotates through carry (R342, R344): C and the value are one value of a bit more, with C on top. -/

section
variable {n : Nat} (v : BitVec n) (c : Bool) (k : Nat)

/-- A bit that enters a value at place `j`. -/
theorem getLsbD_ofNat_bit (j i : Nat) :
    (BitVec.ofNat n (c.toNat * 2 ^ j)).getLsbD i = (decide (i < n) && decide (j = i) && c) := by
  cases c with
  | false => rw [Bool.toNat_false, Nat.zero_mul, BitVec.getLsbD_zero, Bool.and_false]
  | true => rw [Bool.and_true, ← getLsbD_bitMask, bitMask, Bool.toNat_true, Nat.one_mul]

theorem getMsbD_ofNat_toNat {i : Nat} (hi : i < n) :
    (BitVec.ofNat n c.toNat).getMsbD i = (decide (i + 1 = n) && c) := by
  have entering := getLsbD_ofNat_bit (n := n) c 0 (n - 1 - i)
  rw [pow_zero, Nat.mul_one] at entering
  rw [BitVec.getMsbD_eq_getLsbD, entering]
  have last : 0 = n - 1 - i ↔ i + 1 = n := by omega
  have inside : n - 1 - i < n := by omega
  simp only [hi, inside, last, decide_true, Bool.true_and]

theorem getMsbD_ofBool_append_zero : (BitVec.ofBool c ++ v).getMsbD 0 = c := by
  rw [BitVec.getMsbD_append, if_neg (Nat.not_succ_le_zero 0)]
  exact BitVec.msb_ofBool c

theorem getMsbD_ofBool_append_succ (i : Nat) : (BitVec.ofBool c ++ v).getMsbD (i + 1) = v.getMsbD i := by
  rw [BitVec.getMsbD_append, if_pos (Nat.le_add_left 1 i), Nat.add_sub_cancel]

theorem getLsbD_ofBool_append {i : Nat} (hi : i < n) : (BitVec.ofBool c ++ v).getLsbD i = v.getLsbD i := by
  rw [BitVec.getLsbD_append, if_pos hi]

theorem getLsbD_ofBool_append_top : (BitVec.ofBool c ++ v).getLsbD n = c := by
  rw [BitVec.getLsbD_append, if_neg (Nat.lt_irrefl n), Nat.sub_self, BitVec.getLsbD_ofBool, decide_eq_true rfl,
    Bool.true_and]

theorem rotateLeftCarry1_append (hn : 0 < n) :
    BitVec.ofBool (rotateLeftCarry1 v c).2 ++ (rotateLeftCarry1 v c).1 = (BitVec.ofBool c ++ v).rotateLeft 1 := by
  apply BitVec.eq_of_getMsbD_eq
  intro i hi
  rw [BitVec.getMsbD_rotateLeft, decide_eq_true hi, Bool.true_and, Nat.add_comm 1 i]
  match i with
  | 0 =>
    rw [getMsbD_ofBool_append_zero, Nat.mod_eq_of_lt (Nat.lt_add_of_pos_right hn), getMsbD_ofBool_append_succ]
    rfl
  | i + 1 =>
    have inside : i < n := by omega
    rw [getMsbD_ofBool_append_succ, rotateLeftCarry1, BitVec.getMsbD_or, BitVec.getMsbD_shiftLeft,
      getMsbD_ofNat_toNat c inside]
    by_cases last : i + 1 = n
    · rw [last, Nat.add_comm n 1, Nat.mod_self, getMsbD_ofBool_append_zero, BitVec.getMsbD_of_ge v n n.le_refl,
        decide_eq_true rfl, Bool.true_and, Bool.false_or]
    · rw [Nat.mod_eq_of_lt (by omega), getMsbD_ofBool_append_succ, decide_eq_false last, Bool.false_and, Bool.or_false]

theorem rotateRightCarry1_append (hn : 0 < n) :
    BitVec.ofBool (rotateRightCarry1 v c).2 ++ (rotateRightCarry1 v c).1 = (BitVec.ofBool c ++ v).rotateRight 1 := by
  apply BitVec.eq_of_getLsbD_eq
  intro i hi
  rw [getLsbD_rotateRight_mod _ hi]
  obtain inside | rfl : i < n ∨ n = i := by omega
  · rw [getLsbD_ofBool_append _ _ inside, rotateRightCarry1, BitVec.getLsbD_or, BitVec.getLsbD_ushiftRight,
      getLsbD_ofNat_bit, Nat.mod_eq_of_lt (Nat.add_lt_add_left inside 1), decide_eq_true inside, Bool.true_and]
    by_cases last : 1 + i = n
    · have top : n - 1 = i := by omega
      rw [last, getLsbD_ofBool_append_top, BitVec.getLsbD_of_ge v n n.le_refl, decide_eq_true top, Bool.true_and,
        Bool.false_or]
    · have below : n - 1 ≠ i := by omega
      rw [getLsbD_ofBool_append _ _ (by omega), decide_eq_false below, Bool.false_and, Bool.or_false]
  · rw [getLsbD_ofBool_append_top, Nat.mod_self, getLsbD_ofBool_append _ _ hn]
    rfl

/-- Places of C and the value together add up as those of the value alone (`shiftBy_val`). -/
theorem shiftBy_append {step : ShiftStep n} {op : BitVec (1 + n) → Nat → BitVec (1 + n)} (zero : ∀ x, op x 0 = x)
    (add : ∀ x i j, op (op x i) j = op x (i + j))
    (one : ∀ x b, BitVec.ofBool (step x b).2 ++ (step x b).1 = op (BitVec.ofBool b ++ x) 1) :
    BitVec.ofBool (shiftBy step k v c).c ++ (shiftBy step k v c).val = op (BitVec.ofBool c ++ v) k := by
  induction k with
  | zero => exact (zero _).symm
  | succ k ih =>
    obtain ⟨val, carry⟩ := shiftBy_succ v c k step
    rw [val, carry, one, ih, add]

theorem msb_ofBool_append : (BitVec.ofBool c ++ v).msb = c := by
  simp [BitVec.msb_append]

theorem extractLsb'_ofBool_append : (BitVec.ofBool c ++ v).extractLsb' 0 n = v := by
  simp [BitVec.extractLsb'_append_eq_of_add_le]

end

/-! What every rotate and shift leaves (R340). -/

theorem bits_pos (wd : Width) : 0 < wd.bits := by
  cases wd <;> decide

theorem Shift.overflow_ends {n : Nat} {cfg : Config} (h : cfg.shiftVAnyStep = false) (a : BitVec n) (x : Shift n) :
    x.overflow cfg a = (a.msb != x.val.msb) := by
  simp [Shift.overflow, h]

/-- The result in the register, the flags, and free values used up to number `k`. -/
def State.shifted (s : State) (wd : Width) (d : Reg) (r : BitVec wd.bits) (c v : Bool) (k : Nat) : State :=
  (({ s with freeCount := k }).setRegAt wd d r).withFcw { s.fcw with c := c, z := r == 0, s := r.msb, pv := v }

theorem writeShifted_apply (wd : Width) (d : Reg) (s : State) (r : BitVec wd.bits) (c v : Bool) (k : Nat) :
    (do writeReg wd d r; setFcw fun f => f.shift c v r : M Unit) { s with freeCount := k } =
      .ok ((), s.shifted wd d r c v k) := by
  rw [M.bind_ok (writeReg_apply wd d r _), setFcw_apply, State.setRegAt_fcw]
  rfl

/-! The rotates (R341 to R344). -/

/-- By how many places a rotate goes (R341). -/
abbrev places (twice : Bool) : Nat := if twice then 2 else 1

theorem places_pos (twice : Bool) : 0 < places twice := by
  cases twice <;> decide

/-- The outcome of a rotate: V says that the sign changed (D21). -/
def Rotated (wd : Width) (d : Reg) (s : State) (o : Out) (x : BitVec wd.bits) (c : Bool) : Prop :=
  ∃ v : Bool, (s.cfg.shiftVAnyStep = false → v = ((s.regAt wd d).msb != x.msb)) ∧
    o = .next (s.shifted wd d x c v s.freeCount)

theorem run_rotate {wd : Width} {step : ShiftStep wd.bits} {d : Reg} {twice : Bool} {s : State} {x : BitVec wd.bits}
    {c : Bool} (hx : (shiftBy step (places twice) (s.regAt wd d) s.fcw.c).val = x)
    (hc : (shiftBy step (places twice) (s.regAt wd d) s.fcw.c).c = c) :
    Rotated wd d s (M.run (rotate wd step d twice) s) x c := by
  subst hx hc
  refine ⟨_, fun cfg => Shift.overflow_ends cfg _ _, M.run_ok ?_⟩
  unfold rotate
  rw [M.bind_ok (M.get_apply s)]
  exact writeShifted_apply ..

section
variable (wd : Width) (d : Reg) (twice : Bool) (s : State)

theorem run_rotateLeft :
    let x := (s.regAt wd d).rotateLeft (places twice)
    Rotated wd d s (M.run (rotate wd rotateLeft1 d twice) s) x (x.getLsbD 0) :=
  run_rotate (shiftBy_rotateLeft1_val ..) (shiftBy_rotateLeft1_c _ _ (places_pos twice))

theorem run_rotateRight :
    let x := (s.regAt wd d).rotateRight (places twice)
    Rotated wd d s (M.run (rotate wd rotateRight1 d twice) s) x x.msb :=
  run_rotate (shiftBy_rotateRight1_val ..) (shiftBy_rotateRight1_c _ _ (places_pos twice))

theorem run_rotateLeftCarry :
    let y := (BitVec.ofBool s.fcw.c ++ s.regAt wd d).rotateLeft (places twice)
    Rotated wd d s (M.run (rotate wd rotateLeftCarry1 d twice) s) (y.extractLsb' 0 wd.bits) y.msb := by
  rw [← shiftBy_append _ _ _ rotateLeft_zero rotateLeft_rotateLeft
    fun x b => rotateLeftCarry1_append x b (bits_pos wd)]
  exact run_rotate (extractLsb'_ofBool_append ..).symm (msb_ofBool_append ..).symm

theorem run_rotateRightCarry :
    let y := (BitVec.ofBool s.fcw.c ++ s.regAt wd d).rotateRight (places twice)
    Rotated wd d s (M.run (rotate wd rotateRightCarry1 d twice) s) (y.extractLsb' 0 wd.bits) y.msb := by
  rw [← shiftBy_append _ _ _ rotateRight_zero rotateRight_rotateRight
    fun x b => rotateRightCarry1_append x b (bits_pos wd)]
  exact run_rotate (extractLsb'_ofBool_append ..).symm (msb_ofBool_append ..).symm

end

/-- The digits (R349): the link is written before the source, and S is free (U3). -/
theorem run_rotateDigit (move : Byte → Byte → Byte × Byte) (link r : Reg) (s : State) :
    let x := move (s.regB link) (s.regB r)
    ∃ (g : Bool) (k : Nat), M.run (rotateDigit move link r) s = .next
      (({ (s.setRegB link x.1).setRegB r x.2 with freeCount := k }).withFcw { s.fcw with z := x.1 == 0, s := g }) := by
  unfold rotateDigit
  exact ⟨_, _, M.run_ok (by
    rw [M.bind_ok (M.get_apply s), M.bind_ok (writeReg_apply .b link _ s), M.bind_ok (writeReg_apply .b r _ _),
      M.bind_ok (M.freeBool_apply _), setFcw_apply, State.setRegAt_fcw, State.setRegAt_fcw]
    rfl)⟩

/-- Settles O35: every rotate is `run_rotate` with what its step does in two places or one. -/
theorem rotateResult : Obligations.RotateResult := fun s d r twice =>
  ⟨run_rotateLeft .w d twice s, run_rotateLeft .b d twice s,
    run_rotateRight .w d twice s, run_rotateRight .b d twice s,
    run_rotateLeftCarry .w d twice s, run_rotateLeftCarry .b d twice s,
    run_rotateRightCarry .w d twice s, run_rotateRightCarry .b d twice s,
    run_rotateDigit rotateDigitLeft d r s, run_rotateDigit rotateDigitRight d r s⟩

/-! The static shifts (R350 to R354). -/

section
variable (wd : Width) (d : Reg) (n : Nat) (s : State)

/-- The outcome of a shift to the left: C is the last bit out, if any, and V is free in a logical shift (U3). -/
def ShiftedLeft (arith : Bool) (o : Out) : Prop :=
  let a := s.regAt wd d
  ∃ (c v : Bool) (k : Nat), (0 < n → c = a.getLsbD (wd.bits - n)) ∧
    (arith = true → s.cfg.shiftVAnyStep = false → v = (a.msb != (a <<< n).msb)) ∧
    o = .next (s.shifted wd d (a <<< n) c v k)

/-- A free flag changes nothing but the count of free values. -/
theorem freeBool_inv (k : Nat) : ∃ (b : Bool) (k' : Nat),
    freeBool { s with freeCount := k } = .ok (b, { s with freeCount := k' }) := ⟨_, _, M.freeBool_apply _⟩

/-- The choice of C in a shift to the left: free where no bit goes out (U3). -/
theorem carryChoice_inv (c : Bool) : ∃ (c' : Bool) (k : Nat), (0 < n → c' = c) ∧ ∀ f : Bool → M Unit,
    (if n = 0 then freeBool >>= f else pure c >>= f) s = f c' { s with freeCount := k } := by
  by_cases hn : n = 0
  · obtain ⟨b, k, drawn⟩ := freeBool_inv s s.freeCount
    exact ⟨b, k, fun pos => absurd hn pos.ne', fun f => by rw [if_pos hn]; exact M.bind_ok drawn⟩
  · exact ⟨c, s.freeCount, fun _ => rfl, fun f => by rw [if_neg hn, M.bind_ok (M.pure_apply c s)]⟩

theorem run_shiftLeftArith (h : n ≤ wd.bits) : ShiftedLeft wd d n s true (M.run (shiftLeftArith wd d n) s) := by
  obtain ⟨c, k, out, chosen⟩ := carryChoice_inv n s (shiftBy shiftLeft1 n (s.regAt wd d) s.fcw.c).c
  refine ⟨c, (shiftBy shiftLeft1 n (s.regAt wd d) s.fcw.c).overflow s.cfg (s.regAt wd d), k,
    fun pos => (out pos).trans (shiftBy_shiftLeft1_c _ _ pos h), fun _ cfg => ?sign, M.run_ok ?run⟩
  case sign => rw [Shift.overflow_ends cfg, shiftBy_shiftLeft1_val]
  case run =>
    unfold shiftLeftArith
    rw [M.bind_ok (M.get_apply s)]
    dsimp only
    rw [chosen, shiftBy_shiftLeft1_val]
    exact writeShifted_apply ..

theorem run_shiftLeftLogical (h : n ≤ wd.bits) :
    ShiftedLeft wd d n s false (M.run (shiftLeftLogical wd d n) s) := by
  obtain ⟨c, k, out, chosen⟩ := carryChoice_inv n s (shiftBy shiftLeft1 n (s.regAt wd d) s.fcw.c).c
  obtain ⟨v, k', drawn⟩ := freeBool_inv s k
  refine ⟨c, v, k', fun pos => (out pos).trans (shiftBy_shiftLeft1_c _ _ pos h), nofun, M.run_ok ?_⟩
  unfold shiftLeftLogical
  rw [M.bind_ok (M.get_apply s)]
  dsimp only
  rw [chosen, M.bind_ok drawn, shiftBy_shiftLeft1_val]
  exact writeShifted_apply ..

theorem run_shiftRightArith (hn : 1 ≤ n) (h : n ≤ wd.bits) :
    let a := s.regAt wd d
    M.run (shiftRightArith wd d n) s =
      .next (s.shifted wd d (a.sshiftRight n) (a.getLsbD (n - 1)) false s.freeCount) := by
  apply M.run_ok
  unfold shiftRightArith
  rw [M.bind_ok (M.get_apply s), shiftBy_shiftRightArith1_val, shiftBy_shiftRightArith1_c _ _ hn h]
  exact writeShifted_apply ..

theorem run_shiftRightLogical (hn : 1 ≤ n) :
    let a := s.regAt wd d
    ∃ (v : Bool) (k : Nat),
      M.run (shiftRightLogical wd d n) s = .next (s.shifted wd d (a >>> n) (a.getLsbD (n - 1)) v k) := by
  obtain ⟨v, k, drawn⟩ := freeBool_inv s s.freeCount
  refine ⟨v, k, M.run_ok ?_⟩
  unfold shiftRightLogical
  rw [M.bind_ok (M.get_apply s), shiftBy_shiftRight1_val, shiftBy_shiftRight1_c _ _ hn]
  exact (M.bind_ok drawn).trans (writeShifted_apply ..)

end

/-- Settles O36, by the rule of each operation. -/
theorem staticShift : Obligations.StaticShift := fun s d n =>
  ⟨run_shiftLeftArith .w d n s, run_shiftLeftArith .b d n s, run_shiftLeftArith .l d n s,
    run_shiftLeftLogical .w d n s, run_shiftLeftLogical .b d n s, run_shiftLeftLogical .l d n s,
    run_shiftRightArith .w d n s, run_shiftRightArith .b d n s, run_shiftRightArith .l d n s,
    fun hn _ => run_shiftRightLogical .w d n s hn, fun hn _ => run_shiftRightLogical .b d n s hn,
    fun hn _ => run_shiftRightLogical .l d n s hn⟩

/-! The dynamic shifts (R355, R356). -/

/-- The free values of a count out of range (U23). -/
theorem run_shiftUndefined (wd : Width) (d : Reg) (s : State) :
    ∃ (v : BitVec wd.bits) (c z g p : Bool) (k : Nat), M.run (shiftUndefined wd d) s =
      .next ((({ s with freeCount := k }).setRegAt wd d v).withFcw { s.fcw with c := c, z := z, s := g, pv := p }) := by
  obtain ⟨c, k₁, drawnC⟩ := freeBool_inv s (s.freeCount + 1)
  obtain ⟨z, k₂, drawnZ⟩ := freeBool_inv s k₁
  obtain ⟨g, k₃, drawnS⟩ := freeBool_inv s k₂
  obtain ⟨p, k₄, drawnV⟩ := freeBool_inv s k₃
  refine ⟨Config.freeBits wd.bits s.freeCount, c, z, g, p, k₄, M.run_ok ?_⟩
  unfold shiftUndefined
  rw [M.bind_ok (M.free_apply wd.bits s), M.bind_ok drawnC, M.bind_ok drawnZ, M.bind_ok drawnS, M.bind_ok drawnV,
    M.bind_ok (writeReg_apply wd d _ _), setFcw_apply, State.setRegAt_fcw]

section
variable {wd : Width} {left right : Reg → Nat → M Unit} {d r : Reg} {s : State}

theorem run_shiftDynamic_left (low : 0 ≤ (s.reg r).toInt) (high : (s.reg r).toInt ≤ wd.bits) :
    M.run (shiftDynamic wd left right d r) s = M.run (left d (s.reg r).toInt.toNat) s := by
  unfold shiftDynamic M.run
  rw [M.bind_ok (M.get_apply s), if_neg (by omega), if_pos low]

theorem run_shiftDynamic_right (high : (s.reg r).toInt < 0) (low : -(wd.bits : Int) ≤ (s.reg r).toInt) :
    M.run (shiftDynamic wd left right d r) s = M.run (right d (-(s.reg r).toInt).toNat) s := by
  unfold shiftDynamic M.run
  rw [M.bind_ok (M.get_apply s), if_neg (by omega), if_neg (by omega)]

theorem run_shiftDynamic_undefined (out : (s.reg r).toInt < -(wd.bits : Int) ∨ (wd.bits : Int) < (s.reg r).toInt) :
    M.run (shiftDynamic wd left right d r) s = M.run (shiftUndefined wd d) s := by
  unfold shiftDynamic M.run
  rw [M.bind_ok (M.get_apply s), if_pos out.symm]

end

/-- The three ranges of the count. -/
theorem run_shiftDynamic (wd : Width) (left right : Reg → Nat → M Unit) (d r : Reg) (s : State) :
    let n := (s.reg r).toInt
    let o := M.run (shiftDynamic wd left right d r) s
    (0 ≤ n → n ≤ wd.bits → o = M.run (left d n.toNat) s) ∧
    (n < 0 → -(wd.bits : Int) ≤ n → o = M.run (right d (-n).toNat) s) ∧
    ((n < -(wd.bits : Int) ∨ (wd.bits : Int) < n) → ∃ (v : BitVec wd.bits) (c z g p : Bool) (k : Nat), o = .next
      ((({ s with freeCount := k }).setRegAt wd d v).withFcw { s.fcw with c := c, z := z, s := g, pv := p })) := by
  refine ⟨run_shiftDynamic_left, run_shiftDynamic_right, fun out => ?_⟩
  rw [run_shiftDynamic_undefined out]
  exact run_shiftUndefined wd d s

/-- Settles O37, by `run_shiftDynamic`. -/
theorem dynamicShift : Obligations.DynamicShift := fun s d r =>
  ⟨run_shiftDynamic .w _ _ d r s, run_shiftDynamic .b _ _ d r s, run_shiftDynamic .l _ _ d r s,
    run_shiftDynamic .w _ _ d r s, run_shiftDynamic .b _ _ d r s, run_shiftDynamic .l _ _ d r s⟩

end Sys2Proof.Machine
end

section
/-! PROOF. The block input and output instructions (R428 to R443): one element between the port and memory, then the
pointer and the counter. -/

namespace Sys2Proof.Machine

open Sys2Proof

/-! Flags and free values, on which no pointer, counter or element depends. -/

/-- The state with the flags `f` and `k` free values drawn. It stands in statements alone and is never run. -/
noncomputable def State.flagged (s : State) (f : Fcw) (k : Nat) : State := { s with freeCount := k, fcw := f }

section
variable {s : State} {f : Fcw} (k : Nat) (h1 : f.sn = s.fcw.sn) (h2 : f.seg = s.fcw.seg)
include h1 h2

theorem State.reg_flagged (n : Reg) : (s.flagged f k).reg n = s.reg n :=
  State.reg_with s n f k s.events s.ioIn h1 h2

theorem State.setReg_flagged (n : Reg) (v : Word) : (s.flagged f k).setReg n v = (s.setReg n v).flagged f k := by
  have moved := State.setReg_with s n v f k s.events s.ioIn h1 h2
  refine moved.trans ?_
  rw [← State.setReg_events s n v, ← State.setReg_ioIn s n v]
  rfl

theorem State.counted_flagged (r : Reg) : (s.flagged f k).counted r = (s.counted r).flagged f k := by
  unfold State.counted
  rw [State.reg_flagged k h1 h2, State.setReg_flagged k h1 h2]

/-- The counter; P/V is the answer. -/
theorem countElement_flagged (r : Reg) (hi : s.resetIn = none) :
    let zero := (s.counted r).reg r == 0
    countElement r (s.flagged f k) = .ok (zero, (s.counted r).flagged { f with pv := zero } k) := by
  refine (countElement_plain r (s.flagged f k) hi).trans ?_
  rw [State.counted_flagged k h1 h2, State.reg_flagged k h1 h2, State.counted_reg]
  rfl

end

theorem State.stepPtr_flagged (s : State) (n : Reg) (v : Word) (k : Nat) :
    (s.flagged s.fcw k).stepPtr n v = (s.stepPtr n v).flagged s.fcw k := by
  have off : (s.flagged s.fcw k).offReg n = s.offReg n := rfl
  unfold State.stepPtr
  rw [off, State.reg_flagged k rfl rfl, State.setReg_flagged k rfl rfl]

/-- A store moves neither the flags nor the count of free values. -/
theorem State.elemPut_flagged (s : State) (wd : Width) (n : Reg) (v : BitVec wd.bits) (k : Nat) :
    (s.flagged s.fcw k).elemPut wd n v = (s.elemPut wd n v).flagged (s.elemPut wd n v).fcw k := by
  cases wd <;> rfl

theorem freeZ_flagged (s : State) (f : Fcw) (k : Nat) :
    freeZ (s.flagged f k) = .ok ((), s.flagged { f with z := (Config.freeBits 1 k).getLsbD 0 } (k + 1)) := rfl

/-- The end of an element, however many free values were drawn before it: Z is free (U3), P/V is the answer. -/
theorem finishElement_flagged (wd : Width) (up : Bool) (p r : Reg) (s : State) (k : Nat) (hi : s.resetIn = none) :
    let u := (s.stepPtr p (elementStep wd up)).counted r
    finishElement wd up p r (s.flagged s.fcw k) = .ok (u.reg r == 0, u.flagged
      { s.fcw with z := (Config.freeBits 1 k).getLsbD 0, pv := u.reg r == 0 } (k + 1)) := by
  have fcw := State.stepPtr_fcw s p (elementStep wd up)
  have stepped := stepElement_plain wd up p (s.flagged s.fcw k) hi
  rw [State.stepPtr_flagged] at stepped
  exact (M.bind_ok stepped).trans <| (M.bind_ok (freeZ_flagged _ s.fcw k)).trans <|
    countElement_flagged (f := { s.fcw with z := (Config.freeBits 1 k).getLsbD 0 }) (k + 1) (congrArg Fcw.sn fcw).symm
      (congrArg Fcw.seg fcw).symm r ((State.stepPtr_resetIn ..).trans hi)

/-! What every block form has in common (R371, R428). -/

/-- The state with the flags `f` and `k` free values drawn, about to go on at `pc`. -/
noncomputable def State.endedAt (s : State) (f : Fcw) (k : Nat) (pc : Word) : State :=
  { s with freeCount := k, fcw := f, pcOff := pc }

/-- A block form: one element, which a repeating form does until it answers that it is the last. -/
noncomputable def blockForm (rep : Bool) (element : M Bool) : M Unit := if rep then repeating element else once element

theorem run_blockForm {rep done : Bool} {x : M Bool} {s t : State} {f : Fcw} {k : Nat}
    (h : x s = .ok (done, t.flagged f k)) :
    M.run (blockForm rep x) s = .next (t.endedAt f k (if rep && !done then t.instrPc else t.pcOff)) := by
  cases rep with
  | false => exact once_next h
  | true =>
    cases done with
    | false => exact repeating_next h
    | true => exact repeating_next h

theorem run_privileged {x : M Unit} {s : State} (hs : s.fcw.sn = true) : M.run (privileged x) s = M.run x s := by
  unfold M.run
  rw [privileged_system x s hs]

/-- The outcome of a block form whose transfer has led to `t`; the transfer itself changes neither FCW nor the PC. -/
def BlockEnded (t : State) (d r : Reg) (wd : Width) (up rep : Bool) (o : Out) : Prop :=
  ∃ (z : Bool) (n : Nat),
    let u := (t.stepPtr d (elementStep wd up)).counted r
    let zero := u.reg r == 0
    o = .next (u.endedAt { t.fcw with z := z, pv := zero } n (if rep && !zero then t.instrPc else t.pcOff))

/-- In system mode a block form ends as `finishElement` has it. -/
theorem blockEnded_of_transfer {wd : Width} {up rep : Bool} {d r : Reg} {s t : State} {x : M Bool} {k : Nat}
    (hs : s.fcw.sn = true) (hi : t.resetIn = none) (hx : x s = finishElement wd up d r (t.flagged t.fcw k)) :
    BlockEnded t d r wd up rep (M.run (privileged (blockForm rep x)) s) := by
  have run := run_blockForm (rep := rep) (hx.trans (finishElement_flagged wd up d r t k hi))
  rw [State.counted_pcOff, State.stepPtr_pcOff, State.counted_instrPc, State.stepPtr_instrPc] at run
  exact ⟨_, _, (run_privileged hs).trans run⟩

/-! Input and output of one element (R428). -/

/-- The word of an I/O read is the supplied word cut to the width (R76). -/
theorem deviceValue_eq_setWidth (wd : Width) (w : Word) : deviceValue wd w = (w.setWidth wd.bits).setWidth 16 := by
  cases wd with
  | b => rfl
  | w => exact (deviceValue_word w).symm.trans (BitVec.setWidth_eq _).symm
  | l => exact (BitVec.setWidth_setWidth_of_le w (by decide) |>.trans (BitVec.setWidth_eq w)).symm

/-- The state after an I/O transaction: the device values that are left, and the event. -/
noncomputable def State.transacted (s : State) (rest : List Word) (e : BusEvent) : State :=
  { s with ioIn := rest, events := e :: s.events }

theorem ioRead_transacted (sp : IoSpace) (port : Word) (wd : Width) (s : State) (h : s.units = [])
    (hi : s.resetIn = none) :
    ∃ (w : Word) (rest : List Word) (k : Nat), (s.ioIn = w :: rest ∨ (s.ioIn = [] ∧ rest = [])) ∧
      ioRead sp port wd s = .ok (deviceValue wd w,
        (s.transacted rest (.ioRead sp port wd.bytes (deviceValue wd w))).flagged s.fcw k) :=
  ioRead_plain sp port wd s h hi

/-- What follows the I/O read of an input: its value goes to memory. -/
theorem blockEnded_of_ioRead {sp : IoSpace} {wd : Width} {up rep : Bool} {d p r : Reg} {s t : State} {v : Word}
    {k : Nat} (hs : s.fcw.sn = true) (read : ioRead sp (s.reg p) wd s = .ok (v, t.flagged t.fcw k)) (hp : t.plain)
    (ha : (t.addrOf d).aligned wd = true) :
    BlockEnded (t.elemPut wd d (v.setWidth wd.bits)) d r wd up rep
      (M.run (privileged (blockForm rep (inputElement sp wd up d p r))) s) := by
  refine blockEnded_of_transfer (k := k) hs ((State.stored_resetIn ..).trans hp.2.2) ?_
  unfold inputElement
  rw [M.bind_ok (M.get_apply s), M.bind_ok read, ← State.elemPut_flagged]
  exact M.bind_ok (writePtr_plain wd d (v.setWidth wd.bits) (t.flagged t.fcw k) hp ha)

/-- The outcome of a block input: the element that a device supplies, or any value, has gone to memory. -/
def BlockInput (s : State) (d p r : Reg) (sp : IoSpace) (wd : Width) (up rep : Bool) (o : Out) : Prop :=
  ∃ (w v : Word) (rest : List Word),
    (s.ioIn = w :: rest ∨ (s.ioIn = [] ∧ rest = [])) ∧ v = (w.setWidth wd.bits).setWidth 16 ∧
    BlockEnded ((s.transacted rest (.ioRead sp (s.reg p) wd.bytes v)).elemPut wd d (v.setWidth wd.bits)) d r wd up rep o

section
variable {d : Reg} (p r : Reg) {s : State} (hp : s.plain) (hs : s.fcw.sn = true) {wd : Width}
  (ha : (s.addrOf d).aligned wd = true) (sp : IoSpace) (up rep : Bool)
include hp hs ha

/-- Input: the element that a device supplies goes to memory. -/
theorem run_blockInput :
    BlockInput s d p r sp wd up rep (M.run (privileged (blockForm rep (inputElement sp wd up d p r))) s) := by
  obtain ⟨w, rest, k, supplied, read⟩ := ioRead_transacted sp (s.reg p) wd s hp.1 hp.2.2
  exact ⟨w, deviceValue wd w, rest, supplied, deviceValue_eq_setWidth wd w, blockEnded_of_ioRead hs read hp ha⟩

/-- Output: the element in memory goes to the port. -/
theorem run_blockOutput : BlockEnded
    (s.transacted s.ioIn (.ioWrite sp (s.reg p) wd.bytes ((s.elem wd d).setWidth 16))) d r wd up rep
    (M.run (privileged (blockForm rep (outputElement sp wd up d p r))) s) := by
  refine blockEnded_of_transfer (k := s.freeCount) hs hp.2.2 ?_
  unfold outputElement
  rw [M.bind_ok (readPtr_plain wd d s hp ha), M.bind_ok (M.get_apply s),
    M.bind_ok (ioWrite_plain sp (s.reg p) wd _ s hp.1 hp.2.2)]
  rfl

end

/-- Settles O43, by `run_blockInput` and `run_blockOutput`: each form is one of them; a byte is always aligned. -/
theorem blockInputOutput : Obligations.BlockInputOutput := by
  intro s d p r hp hs ended input output
  have byte := Addr.aligned_b (s.addrOf d)
  have insW (even : (s.addrOf d).aligned .w = true) (sp : IoSpace) (up rep : Bool) :
      input sp .w up rep (M.run (privileged (blockForm rep (inputElement sp .w up d p r))) s) :=
    run_blockInput p r hp hs even sp up rep
  have insB (sp : IoSpace) (up rep : Bool) :
      input sp .b up rep (M.run (privileged (blockForm rep (inputElement sp .b up d p r))) s) :=
    run_blockInput p r hp hs byte sp up rep
  have outs {wd : Width} (ha : (s.addrOf d).aligned wd = true) (sp : IoSpace) (up rep : Bool) :
      output sp wd up rep (M.run (privileged (blockForm rep (outputElement sp wd up d p r))) s) :=
    run_blockOutput p r hp hs ha sp up rep
  refine ⟨fun even => ?words, ?bytes⟩
  case words =>
    iterate 4 refine ⟨insW even _ _ false, insW even _ _ true, ?_⟩
    iterate 3 refine ⟨outs even _ _ false, outs even _ _ true, ?_⟩
    exact ⟨outs even _ _ false, outs even _ _ true⟩
  case bytes =>
    iterate 4 refine ⟨insB _ _ false, insB _ _ true, ?_⟩
    iterate 3 refine ⟨outs byte _ _ false, outs byte _ _ true, ?_⟩
    exact ⟨outs byte _ _ false, outs byte _ _ true⟩

end Sys2Proof.Machine
end

section
/-! PROOF. The CPU control instructions in system mode, and the wait of a halted machine (R471 to R474,
R480 to R483). -/

namespace Sys2Proof.Machine

open Sys2Proof

/-! MREQ (R481). -/

/-- A register write does not meet MO, nor a change of FCW that leaves the mode. -/
theorem State.setReg_fcw_moLow_with (s : State) (n : Reg) (v : Word) (f : Fcw) (b : Bool) (h1 : f.sn = s.fcw.sn)
    (h2 : f.seg = s.fcw.seg) : ({ s with fcw := f, moLow := b } : State).setReg n v =
      { s.setReg n v with fcw := f, moLow := b } := by
  have hs : ({ s with fcw := f, moLow := b } : State).isSeg = s.isSeg := by simp only [State.isSeg, h2]
  unfold State.setReg
  rw [hs, h1]
  split
  · rfl
  · split <;> rfl

/-- Where RESET does not fall inside it the loop runs to its end. -/
theorem delayLoop_none (d : Reg) (s : State) (hi : s.resetIn = none) : delayLoop d s = .ok ((), s.setReg d 0) := by
  simp only [delayLoop, hi]

/-- MI is low at once, or MO goes low, the register is counted down, and MI is tested again. -/
theorem multiMicroRequest_none (d : Reg) {s : State} (hi : s.resetIn = none) :
    multiMicroRequest d s = .ok ((),
      if s.pins.mi then { s.withFcw { s.fcw with z := false, s := false } with moLow := false }
      else { (s.setReg d 0).withFcw { s.fcw with z := true, s := s.pins.miSecond } with
        moLow := s.pins.miSecond }) := by
  unfold multiMicroRequest
  rw [M.bind_ok (M.get_apply s)]
  split
  · rfl
  · have counted : delayLoop d { s with fcw := { s.fcw with z := false }, moLow := true } =
        .ok ((), { s.setReg d 0 with fcw := { s.fcw with z := false }, moLow := true }) :=
      (delayLoop_none d _ (by exact hi)).trans
        (congrArg (fun u => Except.ok ((), u)) (s.setReg_fcw_moLow_with d 0 _ true rfl rfl))
    rw [M.bind_ok (setFcw_apply _ s), M.bind_ok (M.modify_apply _ _)]
    exact M.bind_ok counted

/-- A halted CPU with no accepted request takes a sample, and nothing else changes (R474, R607(d)). -/
theorem State.Running.step_waiting {s : State} (h : s.Running) (ha : s.accepted = none) (hl : s.halted = true) :
    step s = .next ({ s with haltSample := s.requests } : State).endStep := by
  simp only [step, act, h.activity_waiting ha hl]
  rfl

/-- Settles O45: each operation is one of FCW, of MO or of the halt, run in system mode; the wait is `step_waiting`. -/
theorem controlInstructions : Obligations.ControlInstructions := by
  intro s a b r
  refine ⟨fun hs => ⟨?ei, ?di, ?halt, ?mres, ?mset, ?mbit, fun hi => ?mreq⟩, fun hl hr hg hb hst ha => ?waiting⟩
  case ei => exact run_privileged_ok hs (setFcw_apply _ s)
  case di => exact run_privileged_ok hs (setFcw_apply _ s)
  case halt => exact run_privileged_ok hs (M.modify_apply _ s)
  case mres => exact run_privileged_ok hs (M.modify_apply _ s)
  case mset => exact run_privileged_ok hs (M.modify_apply _ s)
  case mbit => exact ⟨_, _, run_privileged_ok hs ((M.bind_ok (M.freeBool_apply s)).trans (setFcw_apply _ _))⟩
  case mreq => exact run_privileged_ok hs (multiMicroRequest_none r hi)
  case waiting => exact State.Running.step_waiting ⟨hr, hg, hb, hst⟩ ha hl

end Sys2Proof.Machine
end

section
/-! PROOF. What an entry leaves on the system stack (R620, R621). -/

namespace Sys2Proof.Machine

open Sys2Proof

/-- The identifier is pushed last. -/
theorem entryFrame_top {s : State} (hw : s.mem.wf = true) (he : s.sysR15.getLsbD 0 = false) (k : Exc) (id : Word)
    (pcs : Addr) : (s.entryFrame k id pcs).stackItem 0 = id := by
  cases hv : s.cfg.version with
  | z8002 =>
    have o : s.forceSystem.OnStack 15 :=
      ⟨rfl, hw, he, State.spReg_nonseg (State.isSeg_z8002 (s := s.forceSystem) hv)⟩
    simp only [State.entryFrame, hv]
    exact (((o.push k pcs.off).2.push k s.fcw.toWord).2.push k id).1.top
  | z8001 =>
    have o : s.forceSystem.OnStack 14 :=
      ⟨rfl, hw, he, State.spReg_seg (by simp [State.isSeg, State.forceSystem, hv])⟩
    simp only [State.entryFrame, hv]
    exact ((((o.push k pcs.off).2.push k pcs.segWord).2.push k s.fcw.toWord).2.push k id).1.top

/-- The word at an offset of the system stack's segment, counted from the stack pointer. -/
theorem State.wordAt_eq_stackItem {u : State} {seg : BitVec 7} {off : Word} (j : Nat)
    (hseg : (u.systemStack off).seg = seg) (hoff : u.sysR15 + BitVec.ofNat 16 (2 * j) = off) :
    u.wordAt .stack { seg := seg, off := off } = u.stackItem j := by
  rw [← hseg, State.stackItem, hoff]
  rfl

/-- Settles O51: the pushed words are the items of the system stack (`entryFrame_z8002`, `entryFrame_z8001`), and their
offsets count down from the stack pointer before the entry. -/
theorem entrySaves : Obligations.EntrySaves := by
  intro s k id pcs hw hs u at2 at1
  have even : s.sysR15.getLsbD 0 = false := by simpa [State.systemStackReady] using hs
  have top : u.stackItem 0 = id := entryFrame_top hw even k id pcs
  cases hv : s.cfg.version with
  | z8002 =>
    obtain ⟨frame, onStack, fcw, pc⟩ := entryFrame_z8002 hv hw even k id pcs
    have r15 : u.sysR15 = s.sysR15 - 6 := (congrArg State.sysR15 frame).trans (by bv_omega)
    have nonseg : u.isSeg = false := State.isSeg_z8002 ((congrArg (·.cfg.version) frame).trans hv)
    have seg (off : Word) : (u.systemStack off).seg = s.pcSeg :=
      (if_neg (by simp [nonseg])).trans ((congrArg State.pcSeg frame).trans rfl)
    refine ⟨(congrArg State.regs frame).trans rfl, (congrArg State.sysR14 frame).trans rfl, onStack.sn,
      fun _ _ => ⟨r15, ?pc, ?fcw, ?id⟩, nofun⟩
    case pc => exact (u.wordAt_eq_stackItem 2 (seg _) (by rw [r15]; bv_omega)).trans pc
    case fcw => exact (u.wordAt_eq_stackItem 1 (seg _) (by rw [r15]; bv_omega)).trans fcw
    case id => exact (u.wordAt_eq_stackItem 0 (seg _) (by rw [r15]; bv_omega)).trans top
  | z8001 =>
    obtain ⟨frame, onStack, fcw, pcSeg, pc⟩ := entryFrame_z8001 hv hw even k id pcs
    have r15 : u.sysR15 = s.sysR15 - 8 := (congrArg State.sysR15 frame).trans (by bv_omega)
    have segmented : u.fcw.seg = true := (congrArg (·.fcw.seg) frame).trans (by simp [State.forceSystem, hv])
    have version : u.cfg.version = .z8001 := (congrArg (·.cfg.version) frame).trans hv
    have isSeg : u.isSeg = true := by simp [State.isSeg, version, segmented]
    have seg (off : Word) : (u.systemStack off).seg = s.sysR14.extractLsb' 8 7 :=
      (if_pos isSeg).trans (congrArg (·.sysR14.extractLsb' 8 7) frame)
    refine ⟨(congrArg State.regs frame).trans rfl, (congrArg State.sysR14 frame).trans rfl, onStack.sn, nofun,
      fun _ => ⟨segmented, r15, ?pc, ?pcSeg, ?fcw, ?id⟩⟩
    case pc => exact (u.wordAt_eq_stackItem 3 (seg _) (by rw [r15]; bv_omega)).trans pc
    case pcSeg => exact (u.wordAt_eq_stackItem 2 (seg _) (by rw [r15]; bv_omega)).trans pcSeg
    case fcw => exact (u.wordAt_eq_stackItem 1 (seg _) (by rw [r15]; bv_omega)).trans fcw
    case id => exact (u.wordAt_eq_stackItem 0 (seg _) (by rw [r15]; bv_omega)).trans top

end Sys2Proof.Machine
end

section
/-! PROOF. The extended instructions with FCW.EPA = 1 (R500 to R511): the words an EPU gives, the transactions it takes
part in, and the four loops that move words between it and memory or registers. -/

namespace Sys2Proof.Machine

open Sys2Proof

/-! The words an EPU gives (R500). -/

/-- The word number `j` that an EPU gives from a state on: the environment's, or a free value when it has no more. -/
def State.epuWord (s : State) (j : Nat) : Word :=
  s.epuIn[j]?.getD (Config.freeBits 16 (s.freeCount + (j - s.epuIn.length)))

/-- The state `t` with what the environment and the free values are after `n` words given from `s` on. -/
def State.epuDrawn (t s : State) (n : Nat) : State :=
  { t with epuIn := s.epuIn.drop n, freeCount := s.freeCount + (n - s.epuIn.length) }

theorem epuGive_drawn (t s : State) (n : Nat) :
    epuGive (t.epuDrawn s n) = .ok (s.epuWord n, t.epuDrawn s (n + 1)) := by
  unfold epuGive State.epuDrawn State.epuWord
  rw [M.bind_ok (M.get_apply _)]
  by_cases h : n < s.epuIn.length
  · have given : s.epuIn.drop n = s.epuIn[n] :: s.epuIn.drop (n + 1) := List.drop_eq_getElem_cons h
    have unused : n - s.epuIn.length = 0 ∧ n + 1 - s.epuIn.length = 0 := by omega
    simp only [given, unused, List.getElem?_eq_getElem h]
    rfl
  · have given : s.epuIn.drop n = [] ∧ s.epuIn.drop (n + 1) = [] := by simp; omega
    have used : n + 1 - s.epuIn.length = n - s.epuIn.length + 1 := by omega
    simp only [given, used, List.getElem?_eq_none (Nat.le_of_not_lt h)]
    rfl

theorem State.epuDrawn_zero (s : State) : s.epuDrawn s 0 = s := by simp [State.epuDrawn]

/-- While the environment holds words, it gives its own. -/
theorem State.epuWord_given {s : State} {j : Nat} (h : j < s.epuIn.length) : some (s.epuWord j) = s.epuIn[j]? := by
  simp [State.epuWord, h]

/-- The first word given is the environment's first, if it has one. -/
theorem State.epuIn_supplied (s : State) :
    s.epuIn = s.epuWord 0 :: s.epuIn.drop 1 ∨ s.epuIn = [] ∧ s.epuIn.drop 1 = [] := by
  unfold State.epuWord
  cases s.epuIn with
  | nil => exact .inr ⟨rfl, rfl⟩
  | cons v rest => exact .inl rfl

/-! The transactions (R500, R510). -/

/-- The transactions `e` of `n` words `g 0`, `g 1`, …, the latest first. -/
def transfers (e : Nat → Word → BusEvent) (g : Nat → Word) : (n : Nat) → List BusEvent
  | 0 => []
  | n + 1 => e n (g n) :: transfers e g n

theorem transfers_eq_map (e : Nat → Word → BusEvent) (g : Nat → Word) (n : Nat) :
    transfers e g n = ((List.range n).map fun j => e j (g j)).reverse := by
  induction n with
  | zero => rfl
  | succ n ih => simp [transfers, ih, List.range_succ]

theorem transfers_congr {f g : Nat → Word} (e : Nat → Word → BusEvent) {n : Nat} (h : ∀ j < n, f j = g j) :
    transfers e f n = transfers e g n := by
  induction n with
  | zero => rfl
  | succ n ih => rw [transfers, transfers, h n (by omega), ih fun j hj => h j (by omega)]

/-- The state `t` with the transactions of `n` words after those of `s`. -/
def State.transferred (t s : State) (e : Nat → Word → BusEvent) (g : Nat → Word) (n : Nat) : State :=
  { t with events := transfers e g n ++ s.events }

/-- The state `t` with the EPU's side of `n` words it gives from `s` on: what they take from the environment, and their
transactions. -/
def State.epuGiven (t s : State) (e : Nat → Word → BusEvent) (n : Nat) : State :=
  (t.transferred s e s.epuWord n).epuDrawn s n

theorem State.epuGiven_zero (s : State) (e : Nat → Word → BusEvent) : s.epuGiven s e 0 = s := s.epuDrawn_zero

/-- The EPU's side and a register write do not meet. -/
theorem State.setReg_epuGiven (t s : State) (e : Nat → Word → BusEvent) (n : Nat) (q : Reg) (v : Word) :
    (t.epuGiven s e n).setReg q v = (t.setReg q v).epuGiven s e n := by
  have fcw : (t.epuGiven s e n).fcw = t.fcw := rfl
  have mode : (t.epuGiven s e n).isSeg = t.isSeg := rfl
  unfold State.setReg
  rw [mode, fcw]
  split
  · rfl
  · split <;> rfl

/-! Loops over words (R502 to R506). -/

/-- A loop that leads from each state of a sequence to the next one ends as many states on. -/
theorem eachWord_ok {loop : Nat → Nat → M Unit} {S : Nat → State} (stop : ∀ i, loop i 0 = pure ())
    (next : ∀ i k, loop i (k + 1) (S i) = loop (i + 1) k (S (i + 1))) (n : Nat) :
    loop 0 n (S 0) = .ok ((), S n) := by
  have ends (k i : Nat) : loop i k (S i) = .ok ((), S (i + k)) := by
    induction k generalizing i with
    | zero => rw [stop, M.pure_apply, Nat.add_zero]
    | succ k ih => rw [next, ih, Nat.add_right_comm, Nat.add_assoc]
  rw [ends, Nat.zero_add]

/-! One word. -/

section
variable (i k : Nat) (s t : State)

theorem regsToEpu_succ (r : Reg) (hi : t.resetIn = none) : regsToEpu r i (k + 1) t = regsToEpu r (i + 1) k
    { t with events := .epuTake (t.epuCpuLines false) i (t.reg (regAfter r i)) :: t.events } := by
  rw [regsToEpu, M.bind_ok (resetPoint_none t hi), M.bind_ok (readReg_apply .w _ t), M.bind_ok (M.get_apply t),
    M.bind_ok (logEvent_apply _ t)]
  rfl

theorem wordAfter_even (a : Addr) (ha : a.off.getLsbD 0 = false) : (wordAfter a i).off.getLsbD 0 = false :=
  Addr.add_even _ _ (by simp [BitVec.getLsbD]) ha

theorem memoryToEpu_succ (l : Label) (a : Addr) (hp : t.plain) (ha : a.off.getLsbD 0 = false) :
    memoryToEpu l a i (k + 1) t = memoryToEpu l a (i + 1) k
      { t with events := .epuTake (t.epuMemLines l true) i (t.wordAt l (wordAfter a i)) :: t.events } := by
  rw [memoryToEpu, M.bind_ok (readWord_plain l _ t hp (wordAfter_even i a ha)), M.bind_ok (M.get_apply t),
    M.bind_ok (logEvent_apply _ t)]

theorem epuToRegs_succ (r : Reg) (hi : t.resetIn = none) : epuToRegs r i (k + 1) (t.epuDrawn s i) =
    epuToRegs r (i + 1) k ((({ t with events := .epuGive (t.epuCpuLines true) i (s.epuWord i) :: t.events } :
      State).epuDrawn s (i + 1)).setReg (regAfter r i) (s.epuWord i)) := by
  rw [epuToRegs, M.bind_ok (resetPoint_none (t.epuDrawn s i) hi), M.bind_ok (epuGive_drawn t s i),
    M.bind_ok (M.get_apply _), M.bind_ok (logEvent_apply _ _), M.bind_ok (writeReg_apply .w _ _ _)]
  rfl

theorem epuToMemory_succ (l : Label) (a : Addr) (hp : t.plain) (ha : a.off.getLsbD 0 = false) :
    epuToMemory l a i (k + 1) (t.epuDrawn s i) = epuToMemory l a (i + 1) k
      (({ t with events := .epuGive (t.epuMemLines l false) i (s.epuWord i) :: t.events } : State).storeWord l
        (wordAfter a i) (s.epuWord i) |>.epuDrawn s (i + 1)) := by
  rw [epuToMemory, M.bind_ok (resetPoint_none (t.epuDrawn s i) hp.2.2), M.bind_ok (epuGive_drawn t s i),
    M.bind_ok (writeWord_plain l _ _ (t.epuDrawn s (i + 1)) hp (wordAfter_even i a ha)), M.bind_ok (M.get_apply _),
    M.bind_ok (logEvent_apply _ _)]
  rfl

end

/-! All the words. -/

section
variable (s : State) (n : Nat)

/-- EPU from CPU registers: the words are those of the registers (R505). -/
theorem regsToEpu_none (r : Reg) (hi : s.resetIn = none) : regsToEpu r 0 n s =
    .ok ((), s.transferred s (.epuTake (s.epuCpuLines false)) (fun j => s.reg (regAfter r j)) n) :=
  eachWord_ok (S := s.transferred s (.epuTake (s.epuCpuLines false)) fun j => s.reg (regAfter r j)) (fun _ => rfl)
    (fun i k => regsToEpu_succ i k _ r hi) n

/-- EPU from memory: the words are those of memory (R503). -/
theorem memoryToEpu_plain (l : Label) (a : Addr) (hp : s.plain) (ha : a.off.getLsbD 0 = false) :
    memoryToEpu l a 0 n s =
      .ok ((), s.transferred s (.epuTake (s.epuMemLines l true)) (fun j => s.wordAt l (wordAfter a j)) n) :=
  eachWord_ok (S := s.transferred s (.epuTake (s.epuMemLines l true)) fun j => s.wordAt l (wordAfter a j))
    (fun _ => rfl) (fun i k => memoryToEpu_succ i k _ l a hp ha) n

/-- CPU registers from EPU: each register receives the word given (R504). -/
theorem epuToRegs_none (r : Reg) (hi : s.resetIn = none) : epuToRegs r 0 n s =
    .ok ((), (s.regsLoaded r s.epuWord n).epuGiven s (.epuGive (s.epuCpuLines true)) n) := by
  have next (i k : Nat) :
      epuToRegs r i (k + 1) ((s.regsLoaded r s.epuWord i).epuGiven s (.epuGive (s.epuCpuLines true)) i) =
      epuToRegs r (i + 1) k
        ((s.regsLoaded r s.epuWord (i + 1)).epuGiven s (.epuGive (s.epuCpuLines true)) (i + 1)) := by
    have frame := s.regsLoaded_frame r s.epuWord i
    have quiet : (s.regsLoaded r s.epuWord i).resetIn = none := (congrArg State.resetIn frame).trans hi
    have lines : (s.regsLoaded r s.epuWord i).epuCpuLines true = s.epuCpuLines true :=
      (congrArg (·.epuCpuLines true) frame).trans rfl
    rw [s.regsLoaded_succ, ← State.setReg_epuGiven, ← lines]
    exact epuToRegs_succ i k s _ r quiet
  have run := eachWord_ok (fun _ => rfl) next n
  rwa [show (s.regsLoaded r s.epuWord 0).epuGiven s _ 0 = s from s.epuGiven_zero _] at run

/-- Memory from EPU: each word of memory receives the word given (R502). -/
theorem epuToMemory_plain (l : Label) (a : Addr) (hp : s.plain) (ha : a.off.getLsbD 0 = false) :
    epuToMemory l a 0 n s =
      .ok ((), (s.wordsStored l a s.epuWord n).epuGiven s (.epuGive (s.epuMemLines l false)) n) := by
  have next (i k : Nat) :
      epuToMemory l a i (k + 1) ((s.wordsStored l a s.epuWord i).epuGiven s (.epuGive (s.epuMemLines l false)) i) =
      epuToMemory l a (i + 1) k
        ((s.wordsStored l a s.epuWord (i + 1)).epuGiven s (.epuGive (s.epuMemLines l false)) (i + 1)) := by
    have frame := s.wordsStored_frame l a s.epuWord i
    have plain : (s.wordsStored l a s.epuWord i).plain := by
      rw [frame]
      exact hp
    have lines : (s.wordsStored l a s.epuWord i).epuMemLines l false = s.epuMemLines l false :=
      (congrArg (·.epuMemLines l false) frame).trans rfl
    rw [s.wordsStored_succ, ← lines]
    exact epuToMemory_succ i k s _ l a plain ha
  have run := eachWord_ok (fun _ => rfl) next n
  rwa [show (s.wordsStored l a s.epuWord 0).epuGiven s _ 0 = s from s.epuGiven_zero _] at run

/-- The flags from EPU: R0 receives a free value (R507, U28). -/
theorem epuFlags_none (hi : s.resetIn = none) : ∃ (r0 : Word) (k : Nat), epuFlags s = .ok ((), ({ s with
    epuIn := s.epuIn.drop 1, freeCount := k
    events := .epuGive (s.epuCpuLines true) 0 (((s.epuWord 0).extractLsb' 0 8).setWidth 16) :: s.events
    fcw := s.fcw.withFlags ((s.epuWord 0).extractLsb' 0 8) }).setReg 0 r0) := by
  have given := epuGive_drawn s s 0
  rw [State.epuDrawn_zero] at given
  let t : State := { s.epuDrawn s 1 with
    events := .epuGive (s.epuCpuLines true) 0 (((s.epuWord 0).extractLsb' 0 8).setWidth 16) :: s.events
    fcw := s.fcw.withFlags ((s.epuWord 0).extractLsb' 0 8) }
  have quiet : resetPoint t = .ok ((), t) := resetPoint_none t hi
  refine ⟨Config.freeBits 16 t.freeCount, t.freeCount + 1, ?_⟩
  rw [epuFlags, M.bind_ok (resetPoint_none s hi), M.bind_ok given, M.bind_ok (M.get_apply _),
    M.bind_ok (logEvent_apply _ _), M.bind_ok (setFcw_apply _ _)]
  exact M.bind_ok quiet

end

/-! The instructions. -/

/-- The state in which every EPU has seen the two words of an instruction (R500). -/
def State.noted (s : State) (i : Instr) (w2 : Word) : State :=
  { s with events := .epuNote ((encode i).headD 0) w2 :: s.events }

theorem epuNote_noted {i : Instr} {w1 w2 : Word} {ws : List Word} (hi : encode i = w1 :: w2 :: ws) (s : State) :
    epuNote i s = .ok ((), s.noted i w2) := by
  simp [epuNote, hi, State.noted]

/-- With FCW.EPA = 1 what follows the note of the two words runs (R501). -/
theorem run_extended_noted {s t : State} {x : M Unit} {i : Instr} {w1 w2 : Word} {ws : List Word}
    (he : s.fcw.epa = true) (hi : encode i = w1 :: w2 :: ws) (hx : x (s.noted i w2) = .ok ((), t)) :
    M.run (extended (do epuNote i; x)) s = .next t :=
  M.run_ok (by rw [extended_present _ s he, M.bind_ok (epuNote_noted hi s), hx])

/-- The status of an EPU's reference to an operand: 1011 for the stack, 1010 otherwise (R510(b)). -/
theorem Mem.label_epu_status (s : State) (m : Mem) :
    (Mem.label s m).epu.status = if Mem.label s m = .stack then 0b1011 else 0b1010 := by
  cases m with
  | ir r =>
    rw [Mem.label, State.labelOf]
    by_cases h : r = s.spReg
    · rw [if_pos h]
      rfl
    · rw [if_neg h]
      rfl
  | da a => rfl
  | x a i => rfl

/-- What a word moved from an EPU shows where it has gone: `g` reads the words given. -/
theorem State.epuGiven_shown {s t : State} {e : Nat → Word → BusEvent} {n : Nat} {g : Nat → Word}
    (h : ∀ j < n, g j = s.epuWord j) :
    (t.epuGiven s e n).events = ((List.range n).map fun j => e j (g j)).reverse ++ s.events ∧
    (n ≤ s.epuIn.length → (t.epuGiven s e n).epuIn = s.epuIn.drop n ∧ ∀ j, j < n → some (g j) = s.epuIn[j]?) := by
  refine ⟨?_, fun enough => ⟨rfl, fun j hj => ?_⟩⟩
  · rw [← transfers_eq_map, transfers_congr e h]
    rfl
  · rw [h j hj, State.epuWord_given (by omega)]

theorem epuCount_le (w2 : Word) : epuCount w2 ≤ 16 := by
  unfold epuCount
  omega

/-- Settles O49, by the rule of each loop; the bytes of memory outside the stores are those of `frameMemory`. -/
theorem extendedTransfers : Obligations.ExtendedTransfers := by
  intro s m ii w2 hp hw he n cpu mem noted given logged
  have few := epuCount_le w2
  have lines (read : Bool) : s.epuMemLines (Mem.label s m).epu read = mem read := by
    rw [State.epuMemLines, Mem.label_epu_status]
  refine ⟨fun x => ?op, fun x => ?flagsTo, fun x => ?flagsFrom, fun x => ?regsTo, fun x => ?regsFrom,
    fun hm => ?memoryTo, fun hm => ?memoryFrom⟩
  case op => exact M.run_ok ((extended_present _ s he).trans (epuNote_noted rfl s))
  case flagsTo =>
    have quiet := resetPoint_none (s.noted (.epuLdfTo x ii w2) w2) hp.2.2
    exact run_extended_noted he rfl ((M.bind_ok quiet).trans (logEvent_apply _ _))
  case flagsFrom =>
    obtain ⟨r0, k, run⟩ := epuFlags_none (s.noted (.epuLdfFrom x ii w2) w2) hp.2.2
    exact ⟨s.epuWord 0, r0, s.epuIn.drop 1, k, s.epuIn_supplied, run_extended_noted he rfl run⟩
  case regsTo =>
    have run := run_extended_noted he rfl (regsToEpu_none (s.noted (.epuLdrTo x ii w2) w2) n (epuReg w2) hp.2.2)
    rw [State.transferred, transfers_eq_map] at run
    exact run
  case regsFrom =>
    let u := s.noted (.epuLdrFrom x ii w2) w2
    have read (j : Nat) (hj : j < n) :
        (u.regsLoaded (epuReg w2) u.epuWord n).reg (regAfter (epuReg w2) j) = u.epuWord j :=
      u.reg_regsLoaded _ _ few hj
    have run := run_extended_noted he rfl (epuToRegs_none u n (epuReg w2) hp.2.2)
    obtain ⟨events, words⟩ := State.epuGiven_shown read
    refine ⟨_, run, events, words, fun q hq => ?others, ?frame⟩
    case others => exact u.reg_regsLoaded_other _ _ hq
    case frame =>
      have frame := u.regsLoaded_frame (epuReg w2) u.epuWord n
      exact (congrArg (State.epuGiven · u (.epuGive (cpu true)) n) frame).trans rfl
  case memoryTo =>
    have run := run_extended_noted he rfl (memoryToEpu_plain (s.noted (.epuLdmTo m ii w2) w2) n (Mem.label s m).epu
      (Mem.ea s m) hp ((Addr.aligned_w _).1 hm))
    rw [State.transferred, transfers_eq_map] at run
    rw [← lines]
    exact run
  case memoryFrom =>
    let u := s.noted (.epuLdmFrom m ii w2) w2
    have even := (Addr.aligned_w _).1 hm
    have runs : Instr.runs s (.epuLdmFrom m ii w2) = true := by
      show (s.fcw.epa && true) = true
      rw [he]
      rfl
    have read (j : Nat) (hj : j < n) : (u.wordsStored (Mem.label s m).epu (Mem.ea s m) u.epuWord n).wordAt
        (Mem.label s m).epu (wordAfter (Mem.ea s m) j) = u.epuWord j :=
      u.wordAt_wordsStored _ _ _ hw even (by omega) hj
    obtain ⟨events, words⟩ := State.epuGiven_shown read
    have run : exec (.epuLdmFrom m ii w2) s = _ :=
      run_extended_noted he rfl (epuToMemory_plain u n (Mem.label s m).epu (Mem.ea s m) hp even)
    refine ⟨_, run, ?events, words, ?bytes, ?frame⟩
    case events =>
      rw [← lines]
      exact events
    case bytes => exact frameMemory s _ _ hp runs run
    case frame =>
      have frame := u.wordsStored_frame (Mem.label s m).epu (Mem.ea s m) u.epuWord n
      exact (congrArg (State.epuGiven · u (.epuGive (u.epuMemLines (Mem.label s m).epu false)) n) frame).trans rfl

end Sys2Proof.Machine
end

section
/-! PROOF. The block transfer, string and translate instructions (R370 to R398): what each does with its element, then
the pointers and the counter, whatever flags and free values it leaves. -/

namespace Sys2Proof.Machine

open Sys2Proof

/-! Past flags and free values. -/

theorem freeBool_flagged (s : State) (f : Fcw) (k : Nat) :
    freeBool (s.flagged f k) = .ok ((Config.freeBits 1 k).getLsbD 0, s.flagged f (k + 1)) := rfl

theorem setFcw_flagged (s : State) (f : Fcw) (k : Nat) (g : Fcw → Fcw) :
    setFcw g (s.flagged f k) = .ok ((), s.flagged (g f) k) := rfl

/-- What ends a comparison or a test of an element: its pointer, then the counter. The answer is whether the repetition
ends: by `stop`, or by the counter. It stands in statements alone and is never run. -/
noncomputable def stepAndCount (wd : Width) (up : Bool) (p r : Reg) (stop : Bool) : M Bool := do
  stepElement wd up p
  let zero ← countElement r
  pure (stop || zero)

/-- What ends a translate: RH1 is free (U24). It stands in statements alone and is never run. -/
noncomputable def freeRh1 (zero : Bool) : M Bool := do
  resetPoint
  let rh1 ← free 8
  writeReg .b 1 rh1
  pure zero

/-- A translate is its transfer, the end of an element, and a free RH1 (R391, R393). -/
theorem translateElement_eq (up : Bool) (d p r : Reg) : translateElement up d p r = (do
    let b ← readPtr .b d
    let v ← readTable p b
    writePtr .b d v
    let zero ← finishElement .b up d r
    freeRh1 zero) := by
  simp only [translateElement, finishElement, freeRh1, bind_assoc]

section
variable {s : State} {f : Fcw} (k : Nat) (h1 : f.sn = s.fcw.sn) (h2 : f.seg = s.fcw.seg)
include h1 h2

theorem stepElement_flagged (wd : Width) (up : Bool) (p : Reg) (hi : s.resetIn = none) :
    stepElement wd up p (s.flagged f k) = .ok ((), (s.stepPtr p (elementStep wd up)).flagged f k) := by
  have mode : (s.flagged f k).isSeg = s.isSeg := congrArg (s.cfg.version == .z8001 && ·) h2
  have off : (s.flagged f k).offReg p = s.offReg p := by rw [State.offReg, mode, State.offReg]
  rw [stepElement_plain wd up p (s.flagged f k) hi]
  unfold State.stepPtr
  rw [off, State.reg_flagged k h1 h2, State.setReg_flagged k h1 h2]

theorem stepAndCount_flagged (wd : Width) (up : Bool) (p r : Reg) (stop : Bool) (hi : s.resetIn = none) :
    let u := (s.stepPtr p (elementStep wd up)).counted r
    stepAndCount wd up p r stop (s.flagged f k) =
      .ok (stop || u.reg r == 0, u.flagged { f with pv := u.reg r == 0 } k) := by
  have fcw := State.stepPtr_fcw s p (elementStep wd up)
  exact (M.bind_ok (stepElement_flagged k h1 h2 wd up p hi)).trans <|
    M.bind_ok <| countElement_flagged k (h1.trans (congrArg Fcw.sn fcw).symm) (h2.trans (congrArg Fcw.seg fcw).symm) r
      ((State.stepPtr_resetIn ..).trans hi)

theorem State.setRegB_flagged (n : Reg) (v : Byte) : (s.flagged f k).setRegB n v = (s.setRegB n v).flagged f k := by
  unfold State.setRegB
  split <;> rw [State.reg_flagged k h1 h2, State.setReg_flagged k h1 h2]

theorem freeRh1_flagged (zero : Bool) (hi : s.resetIn = none) : freeRh1 zero (s.flagged f k) =
    .ok (zero, (s.setRegB 1 (Config.freeBits 8 k)).flagged f (k + 1)) := by
  rw [freeRh1, M.bind_ok (resetPoint_none (s.flagged f k) hi), ← State.setRegB_flagged (k + 1) h1 h2]
  rfl

end

/-- The end of an element whose transfer has led to `t`: Z is free (U3), P/V is the answer. -/
theorem finishElement_plain (wd : Width) (up : Bool) (p r : Reg) {t : State} {f : Fcw} (fcw : t.fcw = f)
    (hi : t.resetIn = none) :
    let u := (t.stepPtr p (elementStep wd up)).counted r
    ∃ (z : Bool) (n : Nat), finishElement wd up p r t =
      .ok (u.reg r == 0, u.flagged { f with z := z, pv := u.reg r == 0 } n) := by
  subst fcw
  exact ⟨_, _, finishElement_flagged wd up p r t t.freeCount hi⟩

/-- A form whose element has led to `t`, with the PC and the address of the instruction as they were: a repeating form
goes back to itself unless its element was the last (R371). -/
theorem run_blockForm_from {rep done : Bool} {x : M Bool} {s t : State} {f : Fcw} {k : Nat}
    (h : x s = .ok (done, t.flagged f k)) (pc : t.pcOff = s.pcOff) (start : t.instrPc = s.instrPc) :
    M.run (blockForm rep x) s = .next (t.endedAt f k (if rep && !done then s.instrPc else s.pcOff)) := by
  rw [run_blockForm h, pc, start]

/-! One element of each kind. -/

section
variable {s : State} (d p r : Reg) (cc : CC) (up : Bool) (hp : s.plain)
include hp

/-- A register against memory (R375, R377): C and S are free (U3). -/
theorem compareElement_plain {wd : Width} (ha : (s.addrOf p).aligned wd = true) :
    let y := subWith (s.regAt wd d) (s.elem wd p) false
    let hit := condOn cc y.c y.z y.s y.v
    let u := (s.stepPtr p (elementStep wd up)).counted r
    ∃ (c g : Bool) (n : Nat), compareElement wd up d p r cc s =
      .ok (hit || u.reg r == 0, u.flagged { s.fcw with c := c, z := hit, s := g, pv := u.reg r == 0 } n) :=
  ⟨_, _, _, (M.bind_ok (readPtr_plain wd p s hp ha)).trans <| (M.bind_ok (readReg_apply wd d s)).trans <|
    (M.bind_ok (freeBool_flagged s s.fcw s.freeCount)).trans <| (M.bind_ok (freeBool_flagged s s.fcw _)).trans <|
    (M.bind_ok (setFcw_flagged s s.fcw _ _)).trans <| stepAndCount_flagged _ (by rfl) (by rfl) wd up p r _ hp.2.2⟩

/-- Memory against memory (R379, R381): C and S are those of the comparison. -/
theorem compareStrings_plain {wd : Width} (hd : (s.addrOf d).aligned wd = true) (ha : (s.addrOf p).aligned wd = true) :
    let y := subWith (s.elem wd d) (s.elem wd p) false
    let hit := condOn cc y.c y.z y.s y.v
    let u := ((s.stepPtr d (elementStep wd up)).stepPtr p (elementStep wd up)).counted r
    compareStrings wd up d p r cc s = .ok (hit || u.reg r == 0,
      u.flagged { s.fcw with c := y.c, z := hit, s := y.s, pv := u.reg r == 0 } s.freeCount) := by
  exact (M.bind_ok (readPtr_plain wd p s hp ha)).trans <| (M.bind_ok (readPtr_plain wd d s hp hd)).trans <|
    (M.bind_ok (setFcw_flagged s s.fcw s.freeCount _)).trans <|
    (M.bind_ok (stepElement_flagged s.freeCount (by rfl) (by rfl) wd up d hp.2.2)).trans <|
    stepAndCount_flagged s.freeCount (by simp) (by simp) wd up p r _
      ((State.stepPtr_resetIn ..).trans hp.2.2)

/-- Memory to memory (R385, R387). -/
theorem moveElement_plain {wd : Width} (hd : (s.addrOf d).aligned wd = true) (ha : (s.addrOf p).aligned wd = true) :
    let u := (((s.elemPut wd d (s.elem wd p)).stepPtr d (elementStep wd up)).stepPtr p (elementStep wd up)).counted r
    ∃ (z : Bool) (n : Nat), moveElement wd up d p r s =
      .ok (u.reg r == 0, u.flagged { s.fcw with z := z, pv := u.reg r == 0 } n) := by
  have hi : (s.elemPut wd d (s.elem wd p)).resetIn = none := (State.stored_resetIn ..).trans hp.2.2
  obtain ⟨z, n, finished⟩ := finishElement_plain wd up p r (t := (s.elemPut wd d (s.elem wd p)).stepPtr d _)
    ((State.stepPtr_fcw ..).trans (State.stored_fcw ..)) ((State.stepPtr_resetIn ..).trans hi)
  exact ⟨z, n, (M.bind_ok (readPtr_plain wd p s hp ha)).trans <| (M.bind_ok (writePtr_plain wd d _ s hp hd)).trans <|
    (M.bind_ok (stepElement_plain wd up d _ hi)).trans finished⟩

/-- The entry of the table at pointer `p` for a byte (R390). -/
theorem readTable_plain (b : Byte) :
    readTable p b s = .ok (s.byteAt (s.labelOf p) ((s.addrOf p).add (b.setWidth 16)), s) :=
  readByte_plain _ _ s hp

/-- A byte becomes its entry of the table (R391, R393): RH1 is free (U24). -/
theorem translateElement_plain :
    let e := s.byteAt (s.labelOf p) ((s.addrOf p).add ((s.elem .b d).setWidth 16))
    let u := ((s.elemPut .b d e).stepPtr d (elementStep .b up)).counted r
    ∃ (z : Bool) (h : Byte) (n : Nat), translateElement up d p r s =
      .ok (u.reg r == 0, (u.setRegB 1 h).flagged { s.fcw with z := z, pv := u.reg r == 0 } n) := by
  intro e u
  have hi : (s.elemPut .b d e).resetIn = none := hp.2.2
  obtain ⟨z, n, finished⟩ := finishElement_plain .b up d r (t := s.elemPut .b d e) (f := s.fcw) rfl hi
  have quiet : u.resetIn = none := by simp [u, State.counted, hi]
  have fcw : u.fcw = s.fcw := by simp [u, State.elemPut]
  have freed := freeRh1_flagged (f := { s.fcw with z := z, pv := u.reg r == 0 }) n (congrArg Fcw.sn fcw).symm
    (congrArg Fcw.seg fcw).symm (u.reg r == 0) quiet
  exact ⟨z, _, _, (congrFun (translateElement_eq up d p r) s).trans <|
    (M.bind_ok (readPtr_plain .b d s hp (Addr.aligned_b _))).trans <| (M.bind_ok (readTable_plain p hp _)).trans <|
    (M.bind_ok (writePtr_plain .b d e s hp (Addr.aligned_b _))).trans <| (M.bind_ok finished).trans freed⟩

/-- RH1 receives the entry of a byte, and Z tests it (R395, R397). -/
theorem translateTest_plain :
    let e := s.byteAt (s.labelOf p) ((s.addrOf p).add ((s.elem .b d).setWidth 16))
    let u := ((s.setRegB 1 e).stepPtr d (elementStep .b up)).counted r
    translateTest up d p r s = .ok (e != 0 || u.reg r == 0,
      u.flagged { s.fcw with z := e == 0, pv := u.reg r == 0 } s.freeCount) := by
  intro e u
  have put : writeReg .b 1 e s = .ok ((), (s.setRegB 1 e).flagged s.fcw s.freeCount) :=
    congrArg (fun t => Except.ok ((), t)) (State.setRegB_flagged (s := s) s.freeCount rfl rfl 1 e)
  exact (M.bind_ok (readPtr_plain .b d s hp (Addr.aligned_b _))).trans <| (M.bind_ok (readTable_plain p hp _)).trans <|
    (M.bind_ok put).trans <| (M.bind_ok (setFcw_flagged _ s.fcw s.freeCount _)).trans <|
    stepAndCount_flagged s.freeCount (by simp) (by simp) .b up d r _
      ((State.setRegB_resetIn ..).trans hp.2.2)

end

/-! The obligations: each form is one of these elements, once or repeating; a byte is always aligned. -/

/-- Settles O38, by `compareElement_plain`. -/
theorem blockCompare : Obligations.BlockCompare := by
  intro s d p r cc hp after
  have form {wd : Width} (ha : (s.addrOf p).aligned wd = true) (up rep : Bool) :
      after wd up rep (M.run (blockForm rep (compareElement wd up d p r cc)) s) := by
    obtain ⟨c, g, n, element⟩ := compareElement_plain d p r cc up hp ha
    exact ⟨c, g, n, run_blockForm_from element (by simp) (by simp)⟩
  have byte := form (Addr.aligned_b (s.addrOf p))
  exact ⟨fun even => ⟨form even true false, form even true true, form even false false, form even false true⟩,
    byte true false, byte true true, byte false false, byte false true⟩

/-- Settles O39, by `compareStrings_plain`. -/
theorem stringCompare : Obligations.StringCompare := by
  intro s d p r cc hp after
  have form {wd : Width} (hd : (s.addrOf d).aligned wd = true) (ha : (s.addrOf p).aligned wd = true) (up rep : Bool) :
      after wd up rep (M.run (blockForm rep (compareStrings wd up d p r cc)) s) := by
    let u := ((s.stepPtr d (elementStep wd up)).stepPtr p (elementStep wd up)).counted r
    have drawn : u.freeCount = s.freeCount := by simp [u, State.counted]
    have element := compareStrings_plain d p r cc up hp hd ha
    rw [← drawn] at element
    exact run_blockForm_from element (by simp) (by simp)
  have byte := form (Addr.aligned_b (s.addrOf d)) (Addr.aligned_b (s.addrOf p))
  exact ⟨fun evenD even => ⟨form evenD even true false, form evenD even true true, form evenD even false false,
    form evenD even false true⟩, byte true false, byte true true, byte false false, byte false true⟩

/-- Settles O40, by `moveElement_plain`. -/
theorem blockMove : Obligations.BlockMove := by
  intro s d p r hp after
  have form {wd : Width} (hd : (s.addrOf d).aligned wd = true) (ha : (s.addrOf p).aligned wd = true) (up rep : Bool) :
      after wd up rep (M.run (blockForm rep (moveElement wd up d p r)) s) := by
    obtain ⟨z, n, element⟩ := moveElement_plain d p r up hp hd ha
    exact ⟨z, n, run_blockForm_from element (by simp [State.elemPut]) (by simp [State.elemPut])⟩
  have byte := form (Addr.aligned_b (s.addrOf d)) (Addr.aligned_b (s.addrOf p))
  exact ⟨fun evenD even => ⟨form evenD even true false, form evenD even true true, form evenD even false false,
    form evenD even false true⟩, byte true false, byte true true, byte false false, byte false true⟩

/-- Settles O41, by `translateElement_plain` and `translateTest_plain`. -/
theorem translateByTable : Obligations.Translate := by
  intro s d p r hp e after tested
  have replace (up rep : Bool) : after up rep (M.run (blockForm rep (translateElement up d p r)) s) := by
    obtain ⟨z, h, n, element⟩ := translateElement_plain d p r up hp
    exact ⟨z, h, n, run_blockForm_from element (by simp [State.elemPut]) (by simp [State.elemPut])⟩
  have test (up rep : Bool) : tested up rep (M.run (blockForm rep (translateTest up d p r)) s) := by
    let u := ((s.setRegB 1 e).stepPtr d (elementStep .b up)).counted r
    have drawn : u.freeCount = s.freeCount := by simp [u, State.counted]
    have element := translateTest_plain d p r up hp
    rw [← drawn] at element
    exact run_blockForm_from element (by simp) (by simp)
  exact ⟨replace true false, replace true true, replace false false, replace false true,
    test true false, test true true, test false false, test false true⟩

end Sys2Proof.Machine
end
